-- ==== Sys2Proof/Word.lean ====
section
/-! DEFINITION. The word of R36: a 64-bit payload with a 10-bit tag of TYPE, COLOUR and cdr-code, and the type
codes of Table 02-2. Classification of words and reserved encodings stand in Machine/Operands.lean. -/

namespace Sys2Proof

/-- A byte of host memory or of a descriptor (R7). -/
abbrev Byte := BitVec 8

/-- A word of 74 bits (R36, Table 02-1). -/
structure Word where
  /-- TYPE, tag bits [9:4] -/
  typ : BitVec 6
  /-- COLOUR, tag bits [3:2] -/
  col : BitVec 2
  /-- cdr-code, tag bits [1:0] -/
  cdr : BitVec 2
  /-- payload -/
  pay : BitVec 64
  deriving DecidableEq, Repr, Inhabited

namespace Ty
/-! Type codes of Table 02-2. -/
abbrev fixnum : BitVec 6 := 0x00
abbrev flonum : BitVec 6 := 0x01
abbrev char : BitVec 6 := 0x02
abbrev immed : BitVec 6 := 0x03
abbrev raw : BitVec 6 := 0x04
abbrev cons : BitVec 6 := 0x08
abbrev vector : BitVec 6 := 0x09
abbrev string : BitVec 6 := 0x0A
abbrev symbol : BitVec 6 := 0x0B
abbrev record : BitVec 6 := 0x0C
abbrev closure : BitVec 6 := 0x0D
abbrev bignum : BitVec 6 := 0x0E
abbrev function : BitVec 6 := 0x0F
abbrev header : BitVec 6 := 0x10
abbrev forward : BitVec 6 := 0x11
abbrev capLo : BitVec 6 := 0x12
abbrev capHi : BitVec 6 := 0x13
abbrev code : BitVec 6 := 0x14
abbrev xlate : BitVec 6 := 0x15
abbrev spill : BitVec 6 := 0x16
abbrev poison : BitVec 6 := 0x17
end Ty

/-- word(t, p) of R140: TYPE t, payload p, COLOUR 0 and CDR 0. -/
def Word.mk0 (t : BitVec 6) (p : BitVec 64) : Word := ⟨t, 0, 0, p⟩

/-- fx(v) of R140. -/
def Word.fx (p : BitVec 64) : Word := Word.mk0 Ty.fixnum p

/-- raw(v) of R140. -/
def Word.rawOf (p : BitVec 64) : Word := Word.mk0 Ty.raw p

/-- A RAW zero word, tag 0x040 (R36, R65). -/
def Word.rawZero : Word := Word.rawOf 0

/-- IMMED nil, true, false and empty (Table 02-4). -/
def Word.nil : Word := Word.mk0 Ty.immed 0
def Word.tru : Word := Word.mk0 Ty.immed 1
def Word.fls : Word := Word.mk0 Ty.immed 2
def Word.empty : Word := Word.mk0 Ty.immed 4

/-- A POISON word of the given origin (Table 02-13). -/
def Word.poisonOf (origin : BitVec 8) : Word := Word.mk0 Ty.poison (origin.setWidth 64)

/-- The tag as a 10-bit number, TYPE × 16 + COLOUR × 4 + CDR (R36). -/
def Word.tag (w : Word) : BitVec 10 := (w.typ ++ w.col) ++ w.cdr

/-- The word of a 10-bit tag and a payload (R36). -/
def Word.ofTag (t : BitVec 10) (p : BitVec 64) : Word :=
  ⟨t.extractLsb' 4 6, t.extractLsb' 2 2, t.extractLsb' 0 2, p⟩

/-- FIXNUM 1 or 0 for a test. -/
def Word.ofTest (b : Bool) : Word := Word.fx (if b then 1 else 0)

/-- IMMED true or false (R140). -/
def Word.ofBool (b : Bool) : Word := if b then Word.tru else Word.fls

/-- Eight words of a line (R62). -/
abbrev Line := List Word

end Sys2Proof
end

