-- ==== Sys2Proof/Config.lean ====
section
/-! DEFINITION. What the spec leaves open, as constants with no body (log 6), and the numbers the spec fixes for the
GM9640 (Table 00-2, Table 00-3). Nothing in Lean can evaluate an opaque constant: a statement about one holds for
every value. -/

namespace Sys2Proof.Config

/-- Number of physical nibs (Table 00-3). -/
abbrev nNibs : Nat := 544
/-- Contexts per nib (Table 00-3). -/
abbrev nCtx : Nat := 32
/-- Wards and ports (Table 00-3, R469). -/
abbrev nWards : Nat := 8

/-- A free 64-bit value, drawn with the counter State.tick (log 6). -/
opaque freeValue : Nat → BitVec 64
/-- A free choice of a replacement victim: pseudo-LRU, TLB and walk-cache replacement are not given (R283, R332). -/
opaque freeVictim : Nat → Nat
/-- Micro-ROM and nano-ROM words, and MADDR of a dispatch entry; the microcode is private (R253, R257, R258). -/
opaque microRom : Nat → BitVec 28
opaque nanoRom : Nat → BitVec 168
opaque romEntry : Nat → BitVec 14
/-- The micro-ROM addresses that a routine fetches, by its MADDR (R265). -/
opaque romPath : Nat → List Nat
/-- UPC, ULC and temporaries of a routine of the ROM, by its dispatch index and the operands it has advanced: private (R257, R263). -/
opaque liveUpc : Nat → List (BitVec 64) → BitVec 15
opaque liveUlc : Nat → List (BitVec 64) → BitVec 16
opaque liveTemp : Nat → Nat → List (BitVec 64) → Word

/-- What the private fields of a nanoword make its step do (R257): COND's outcome, the value of SRCA, the address that a raised
cause reports, the temporaries afterwards, the general register that DST names, the progress registers, and the accesses that MEM
and MATTR make: a read into a temporary, a write, a locked update, an update of metadata. -/
structure NanoAct where
  cond : Bool := false
  srca : BitVec 16 := 0
  addr : BitVec 48 := 0
  ut0 : Word := Word.fx 0
  ut1 : Word := Word.fx 0
  ut2 : Word := Word.fx 0
  ut3 : Word := Word.fx 0
  dst : Option (BitVec 5 × Word) := none
  prog : List (BitVec 5 × Word) := []
  read : Option (BitVec 64 × BitVec 2) := none
  write : Option (BitVec 64 × Word) := none
  lock : Option (BitVec 64 × Word) := none
  data : Option (BitVec 40 × BitVec 64) := none
  deriving Inhabited

/-- The act of a nanoword, from the instruction, the temporaries and the registers it may name. -/
opaque nanoAct : BitVec 168 → BitVec 32 → List Word → NanoAct
/-- The 48-bit code of the memory, over the tags and payloads of a line (R66). -/
opaque memCode : BitVec 592 → BitVec 48
/-- A register private to the executive, by address (R523, R525). -/
opaque privateReg : Nat → Nat → BitVec 32
/-- The level-1 table the executive keeps for a ward (R325). -/
opaque wardRoot : Nat → Nat
/-- Where the executive places a translation table of a ward, by the entry that points to it (R325). -/
opaque wardTable : Nat → Nat → Nat
/-- Words that the sections of private format place in memory: the executive image and the wards' initial maps (Table
15-5). -/
opaque placedWords : List Byte → List (Nat × Word)
/-- A choice the spec leaves to the executive: the virtual sheet of a new arena (R490). -/
opaque freeSheet : Nat → Nat
/-- Bytes of the device's random source (R583). -/
opaque freeRandom : Nat → List Byte
/-- SHA-256 (FIPS 180), which the spec names and does not define: its digest of a byte string. -/
opaque sha256 : List Byte → List Byte
/-- FIPS 205 verification of a signature, from key, message and signature bytes (R570). -/
opaque verifies : List Byte → List Byte → List Byte → Bool
/-- FIPS 205 signature by the identity key over the bytes given (R577). -/
opaque signs : List Byte → List Byte
/-- The identity public key that the identity seed gives (R575). -/
opaque identityKey : List Byte → List Byte
/-- Fused values (Table 15-1): root key hash, identity seed, and the manufacturing key hash held in the ROM (R570). -/
opaque rootKeyHash : List Byte
opaque identitySeed : List Byte
opaque mfgKeyHash : List Byte
/-- Fused serial number (Table 15-1). -/
opaque serial : BitVec 64
/-- Where the executive starts in context 0 of a nib, which its image fixes (R565). -/
opaque executiveStart : List Byte → BitVec 64
/-- Words of state lines of the register shadow image, whose layout is private (R427): context, word, stroke. -/
opaque privateWord : Nat → Nat → Nat → BitVec 64
/-- Entries of the translation tables that a ward's initial map places in the system region: address and payload (R495,
Table 15-5 KIND 0x0006, format private). -/
opaque initialTables : Nat → List (Nat × BitVec 64)
/-- Answer of an MCTP control command (R579: DSP0236 gives it). -/
opaque mctpControl : List Byte → List Byte
/-- Answer to an MCTP vendor message that asks for more than Table 15-11 allows. -/
opaque mctpRefusal : Nat → Nat → List Byte
/-- The identity area of the flash, written at provisioning (Table 15-3). -/
opaque identityArea : List Byte
/-- Configuration-space contents the firmware image or PCIe fixes (R461). -/
opaque configSpace : Nat → Nat → BitVec 32
/-- The copy-record bucket of a ward's address, and the records a bucket holds (R364, R387: private). -/
opaque bucketOf : Nat → Nat → Nat
opaque bucketSize : Nat
/-- Words of a record whose format is private (R364, R414, R431): its fields, and the word's place in it. -/
opaque privateEntry : List (BitVec 64) → Nat → BitVec 64
/-- What patched microcode at a target makes of a value; the datapath fields of a nanoword are private (R257). -/
opaque patchedValue : Nat → BitVec 64 → BitVec 64
/-- Boundary-scan register contents (R580). -/
opaque boundaryScan : Nat → List Bool

end Sys2Proof.Config
end

