-- ==== Sys2Proof/Syntax.lean ====
section
/-! DEFINITION. The commands: one constructor of Instr per row of spec/opcode_table.json, with the row's operands. An
instruction row carries the nib and context that issue it, its slot in the pair, and the fields of its format
(Table 03-5). An event row carries what its surroundings supply: the unit it reaches, the value on the link or pin. -/

namespace Sys2Proof

/-- The nib, the context and the slot of an instruction's issue (R13, R79, R97): the pair at the context's PC issues, and
the command names the instruction that its CODE word holds in this slot (log 5). -/
structure Issue where
  nib : Fin 544
  ctx : Fin 32
  slot : Bool
  deriving DecidableEq, Repr

/-- Format R (Table 03-5). -/
structure FR where
  d : BitVec 5
  a : BitVec 5
  b : BitVec 5
  sub : BitVec 3
  md : BitVec 7
  deriving DecidableEq, Repr

/-- Format R of a row that names one SUB value (the barriers and XINV, R129): the fields but SUB. -/
structure FZ where
  d : BitVec 5
  a : BitVec 5
  b : BitVec 5
  md : BitVec 7
  deriving DecidableEq, Repr

/-- Format I (Table 03-5). -/
structure FI where
  d : BitVec 5
  a : BitVec 5
  imm : BitVec 15
  deriving DecidableEq, Repr

/-- Format B (Table 03-5). -/
structure FB where
  a : BitVec 5
  b : BitVec 5
  disp : BitVec 15
  deriving DecidableEq, Repr

/-- Format U (Table 03-5). -/
structure FU where
  d : BitVec 5
  imm : BitVec 20
  deriving DecidableEq, Repr

/-- An error in the 640 bits of a stored line: one of Table 02-11, or a whole die (R66). -/
inductive MemErr where
  | bit (i : Fin 640)
  | pin (k : Nat)
  | burst (k : Nat)
  | column (k : Nat)
  | die (k : Nat)
  deriving DecidableEq, Repr

/-- The errors that a read of a line from HBM3E finds, and those that each check read after it finds (R67). -/
abbrev Ecc := List (List MemErr)

/-- What a request meets on its way: whether the Rubric's replicas agree on its first block (R355), and what the memory code finds
in the lines that it reads (R66). -/
structure Meets where
  agree : Bool := true
  errs : List (Nat × Ecc) := []
  deriving DecidableEq, Repr

/-- An operand of a command whose request goes to memory, and what that request meets. -/
structure Routed (α : Type) where
  arg : α
  meets : Meets := {}
  deriving DecidableEq, Repr

/-- The unit that writes, and whether its comparators agree (R21). -/
structure Compared (α : Type) where
  unit : α
  agree : Bool := true
  deriving DecidableEq, Repr

/-- Which aperture a host access names (R71). -/
inductive Space where
  | payload | tags
  deriving DecidableEq, Repr

/-- Host link events (R460). -/
inductive LinkEvent where
  | down | hotReset | perst | flr
  deriving DecidableEq, Repr

/-- What becomes of a link block (R17, R18). -/
inductive BlockFate where
  | good | resent | dead
  deriving DecidableEq, Repr

/-- Units that report (Table 11-4), with the causes of Table 11-9 a fault report carries. -/
inductive McCause where
  | checker | ustore (sub : BitVec 8) | vote (lane : BitVec 8) (addr : BitVec 40) | uncorrectable (addr : BitVec 40)
  | link (n : BitVec 8) | colophon | lockstep | clock (sub : BitVec 8) | array (sub : BitVec 8) | nested (ctx : Fin 32)
  deriving DecidableEq, Repr

/-- Why a stroke's tick falls (R405). -/
inductive TickCause where
  | period | short | early
  deriving DecidableEq, Repr

/-- What a regulator loses (R531). -/
inductive RegFault where
  | converter (n : Fin 4) | phase (domain : Fin 64) | domain (domain : Fin 64)
  deriving DecidableEq, Repr

/-- A configuration request (R461): a read, or a write of the D-state, the CXL enables or another register. -/
inductive CfgReq where
  | read (off : BitVec 12) | dstate (d3 : Bool) | enables (cio ccache cmem : Bool) | msix (on : Bool)
  | write (off : BitVec 12) (v : BitVec 32)
  deriving DecidableEq, Repr

/-- The commands, in the order of spec/opcode_table.json. -/
inductive Instr where
  -- chapter 04: moves, constants and tags
  | nop (q : Issue) (w : BitVec 32)
  | mov (q : Issue) (f : FR)
  | movi (q : Issue) (f : FI)
  | lui (q : Issue) (f : FU)
  | typeof (q : Issue) (f : FR)
  | retag (q : Issue) (f : FR)
  | ttest (q : Issue) (f : FR)
  | pretag (q : Issue) (f : FR)
  | str (q : Issue) (f : FR)
  | stw (q : Issue) (f : FR)
  | svr (q : Issue) (f : FI)
  | svw (q : Issue) (f : FI)
  -- raw integer arithmetic
  | iadd (q : Issue) (f : FR)
  | isub (q : Issue) (f : FR)
  | and (q : Issue) (f : FR)
  | or (q : Issue) (f : FR)
  | xor (q : Issue) (f : FR)
  | shift (q : Issue) (f : FR)
  | iaddi (q : Issue) (f : FI)
  | andi (q : Issue) (f : FI)
  | ori (q : Issue) (f : FI)
  | xori (q : Issue) (f : FI)
  | shifti (q : Issue) (f : FI)
  | icmp (q : Issue) (f : FR)
  | eq (q : Issue) (f : FR)
  | imul (q : Issue) (f : FR)
  | mulh (q : Issue) (f : FR)
  | idiv (q : Issue) (f : FR)
  -- generic arithmetic
  | add (q : Issue) (f : FR)
  | sub (q : Issue) (f : FR)
  | mul (q : Issue) (f : FR)
  | addi (q : Issue) (f : FI)
  | eql (q : Issue) (f : FR)
  | less (q : Issue) (f : FR)
  | div (q : Issue) (f : FR)
  | rem (q : Issue) (f : FR)
  -- floating point
  | fadd (q : Issue) (f : FR)
  | fsub (q : Issue) (f : FR)
  | fmul (q : Issue) (f : FR)
  | fma (q : Issue) (f : FR)
  | fnma (q : Issue) (f : FR)
  | fcmp (q : Issue) (f : FR)
  | fcvt (q : Issue) (f : FR)
  | fmisc (q : Issue) (f : FR)
  -- branches and jumps
  | beq (q : Issue) (f : FB)
  | bne (q : Issue) (f : FB)
  | blt (q : Issue) (f : FB)
  | bge (q : Issue) (f : FB)
  | bltu (q : Issue) (f : FB)
  | bgeu (q : Issue) (f : FB)
  | btype (q : Issue) (f : FB)
  | bntype (q : Issue) (f : FB)
  | bnil (q : Issue) (f : FB)
  | bnnil (q : Issue) (f : FB)
  | br (q : Issue) (disp : BitVec 25)
  | jmpr (q : Issue) (f : FR)
  -- calls, gates and returns
  | call (q : Issue) (disp : BitVec 25)
  | callr (q : Issue) (f : FR)
  | ret (q : Issue) (f : FR)
  | gate (q : Issue) (f : FR)
  | gret (q : Issue) (f : FR)
  -- access through references
  | ldx (q : Issue) (f : FR)
  | ldi (q : Issue) (f : FI)
  | stx (q : Issue) (f : FR)
  | sti (q : Issue) (f : FI)
  | ldbx (q : Issue) (f : FR)
  | stbx (q : Issue) (f : FR)
  | ldv (q : Issue) (f : FI)
  | stv (q : Issue) (f : FI)
  | hdrq (q : Issue) (f : FR)
  | freeze (q : Issue) (f : FR)
  -- access through capabilities
  | cld (q : Issue) (f : FI)
  | cst (q : Issue) (f : FI)
  | cldc (q : Issue) (f : FI)
  | cstc (q : Issue) (f : FI)
  | cldx (q : Issue) (f : FR)
  | cstx (q : Issue) (f : FR)
  -- lists and allocation
  | car (q : Issue) (f : FR)
  | cdr (q : Issue) (f : FR)
  | rplaca (q : Issue) (f : FR)
  | rplacd (q : Issue) (f : FR)
  | cons (q : Issue) (f : FR)
  | consn (q : Issue) (f : FR) (stop : Option Nat)
  | alloc (q : Issue) (f : FR)
  | alloci (q : Issue) (f : FI)
  -- capability operations
  | cbound (q : Issue) (f : FR)
  | cperm (q : Issue) (f : FR)
  | cinc (q : Issue) (f : FI)
  | cget (q : Issue) (f : FR)
  | cseal (q : Issue) (f : FR)
  | cunseal (q : Issue) (f : FR)
  -- long instructions; `stop` is the word after which a condition already due meets the routine (R268)
  | savem (q : Issue) (f : FI) (stop : Option Nat)
  | loadm (q : Issue) (f : FI) (stop : Option Nat)
  | bcopy (q : Issue) (f : FR) (stop : Option Nat)
  | bcmp (q : Issue) (f : FR) (stop : Option Nat)
  | hash (q : Issue) (f : FR) (stop : Option Nat)
  | bigstep (q : Issue) (f : FR) (stop : Option Nat)
  -- contexts, events and time
  | yield (q : Issue) (f : FR)
  | wait (q : Issue) (f : FI)
  | send (q : Issue) (f : FR)
  | recv (q : Issue) (f : FR)
  | xr (q : Issue) (f : FI)
  | xw (q : Issue) (f : FI)
  | timer (q : Issue) (f : FR)
  | steady (q : Issue) (f : FI)
  -- barriers and translation invalidation
  | lbar (q : Issue) (f : FZ)
  | sbar (q : Issue) (f : FZ)
  | fbar (q : Issue) (f : FZ)
  | xinvPage (q : Issue) (f : FZ)
  | xinvWard (q : Issue) (f : FZ)
  | xinvAll (q : Issue) (f : FZ)
  -- events of a nib
  | walkComplete (n : Fin 544) (c : Routed (Fin 32))
  | rubricAnswer (n : Fin 544) (c : Fin 32) (agree : Bool)
  | lineFill (n : Fin 544) (c : Fin 32)
  | storeBufferSend (n : Fin 544)
  | storeAck (n : Fin 544)
  | storeDropTimeout (n : Fin 544) (k : Nat)
  | deviceLoadTimeout (n : Fin 544) (c : Fin 32)
  | barrierComplete (n : Fin 544) (c : Fin 32)
  | invalidation (n : Fin 544)
  | invalidationAck (k : Nat)
  | storeArrival (n : Fin 544) (k : Routed Nat)
  | inkwellRead (k : Nat) (errs : List (Nat × Ecc)) (agree : Bool)
  | shadeBufferDrain (n : Fin 544)
  | copyRecordRetry (n : Fin 544) (c : Fin 32)
  | microTrap (n : Fin 544) (c : Fin 32)
  | spillWriteComplete (n : Fin 544) (c : Routed (Fin 32))
  | spillRetry (n : Fin 544) (c : Fin 32)
  | trapEntry (n : Fin 544) (c : Fin 32)
  | heldCheckEntry (n : Fin 544)
  | schedulingDecision (n : Fin 544)
  | timeSliceExpiry (n : Fin 544)
  | timerExpiry (n : Fin 544) (c : Fin 32)
  | steadyLimitExpiry (n : Fin 544) (c : Fin 32)
  | sendDelivery (k : Nat)
  | sendAnswer (n : Fin 544) (c : Fin 32)
  -- host ports
  | doorbell (p : Fin 8) (ring : Fin 64) (v : BitVec 32)
  | doorbellEvent (k : Nat)
  | completionHead (p : Fin 8) (ring : Fin 64) (v : BitVec 32)
  | descriptorArrival (w : Fin 8) (ring : Fin 64) (bytes : List Byte)
  | consumedReread (w : Fin 8) (ring : Fin 64)
  | hostMemRead (p : Fin 8) (sp : Space) (off : BitVec 40) (len : Routed Nat)
  | hostMemWrite (p : Fin 8) (off : BitVec 40) (bytes : Routed (List Byte))
  | tagApertureWrite (p : Fin 8) (off : BitVec 40) (bytes : List Byte)
  | snoop (p : Fin 8) (line : BitVec 64)
  | configRequest (p : Fin 8) (r : CfgReq)
  | hdmDecoderCommit (p : Fin 8) (dec : Fin 2) (base : BitVec 64) (ways : Nat)
  | hostLinkEvent (p : Fin 8) (e : LinkEvent)
  | linkBlock (leaf : Fin 4) (link : Fin 2) (fate : BlockFate)
  -- strokes
  | strokeTick (cause : TickCause)
  | closeReport (u : Fin 604)
  | faultReport (u : Fin 605) (c : McCause)
  | closeTimeout
  | commitInstant (agree : Bool)
  -- collector
  | engineScan (e : Routed (Fin 16))
  | wholeSheetScan (e : Routed (Fin 16))
  | engineCopy (e : Routed (Fin 16))
  | zeroFill (e : Routed (Fin 16))
  | shadowImageWrite (n : Compared (Fin 544))
  | void
  | rubricBackgroundCompare (differ : Bool)
  | mcLockstep
  | clockLoss (sub : BitVec 8)
  -- power and reset
  | powerSample (mv ma : Nat) (die : Fin 5) (temp : Nat)
  | powerFailHold
  | thermalTrip (die : Fin 5)
  | regulatorFault (f : RegFault)
  | powerOnReset (slot0 slot1 : List Byte)
  | orderedTurnOff
  -- set-up registers; `lane` is the requester's lane (Table 01-2)
  | setupRegisterWrite (lane : Fin 24) (pa : BitVec 40) (v : BitVec 32)
  | rubStart (lane : Fin 24) (v : BitVec 32)
  | rubEnd (lane : Fin 24) (v : BitVec 32)
  | rubAttr (lane : Fin 24) (v : BitVec 32)
  | stkPeriod (lane : Fin 24) (v : BitVec 32)
  | patEnable (lane : Fin 24) (v : BitVec 32)
  | prtBind (lane : Fin 24) (p : Fin 8) (v : BitVec 32)
  | wasAssign (lane : Fin 24) (v : BitVec 32)
  | pwrShed (lane : Fin 24) (v : BitVec 32)
  | lcsReq (lane : Fin 24) (v : BitVec 32)
  | complementWrite (lane : Fin 24) (pa : BitVec 40) (v : BitVec 32)
  | guardTimeout (page : BitVec 40)
  | wscClear (lane : Fin 24) (pa : BitVec 40) (v : BitVec 32)
  | winFlags (lane : Fin 24) (w : Fin 8) (v : BitVec 32)
  | stkApply (lane : Fin 24) (v : BitVec 32)
  | winApply (lane : Fin 24) (w : Fin 8) (v : BitVec 32)
  | rubCopyActive (lane : Fin 24)
  | rubClearStaged (lane : Fin 24)
  | patchLoad (lane : Fin 24)
  | patchVerifyDone
  | patchDiscard (lane : Fin 24)
  | inkwellDisable (lane : Fin 24) (k : Fin 8)
  | inkwellEnable (lane : Fin 24) (k : Fin 8)
  | inkwellWritebackDone (k : Fin 8)
  | tallyHold (lane : Fin 24) (view : Fin 9)
  | tallyRelease (lane : Fin 24) (view : Fin 9)
  | talDataloRead (lane : Fin 24) (view : Fin 9)
  | xlRootWrite (lane : Fin 24) (n : Fin 544) (hi : Bool) (v : BitVec 32)
  | xlWardWrite (lane : Fin 24) (n : Fin 544) (v : BitVec 32)
  | ctxRead (lane : Fin 24) (n : Routed (Fin 544))
  | ctxWrite (lane : Fin 24) (n : Routed (Fin 544))
  | ctxStart (lane : Fin 24) (n : Fin 544)
  | ctxStop (lane : Fin 24) (n : Fin 544)
  | ctxResume (lane : Fin 24) (n : Fin 544)
  | ctxFreeze (lane : Fin 24) (n : Fin 544)
  | stopRequestAct (n : Fin 544) (c : Fin 32)
  -- ring commands: the executive runs the command at the front of ward w's ring 0
  | nopCommand (w : Fin 8)
  | imageLoad (w : Routed (Fin 8))
  | spawn (w : Fin 8)
  | post (w : Fin 8) (ring : Fin 64) (rec0 rec1 : BitVec 64)
  | importCmd (w : Routed (Fin 8))
  | exportCmd (w : Routed (Fin 8))
  | copyCmd (w : Routed (Fin 8))
  | collect (w : Fin 8)
  | heapVerify (w : Routed (Fin 8))
  | scrub (w : Routed (Fin 8))
  | query (w : Fin 8)
  | policy (w : Fin 8)
  | attest (w : Fin 8)
  | fence (w : Fin 8)
  | suspend (w : Fin 8)
  | resume (w : Fin 8)
  | cancel (w : Fin 8)
  | wardReset (w : Fin 8)
  -- debug port
  | idcode
  | samplePreload
  | extest
  | bypass (code : BitVec 8)
  | nvsChallenge
  | nvsUnlock (token : List Byte)
  | nvsRelock (bit : Bool)
  | nvsStatus
  | debugWordRead (pa : Routed (BitVec 40))
  | debugWordWrite (pa : BitVec 40) (tag : BitVec 10) (v : Routed (BitVec 64))
  | debugRegRead (pa : Routed (BitVec 40))
  | debugRegWrite (pa : BitVec 40) (v : Routed (BitVec 32))
  | tapReset
  -- MCTP and SMBus
  | getReport (nonce : List Byte)
  | getStatus
  | getCert (off : Nat) (len : Nat)
  | mctpControl (msg : List Byte)
  | alertResponse
  -- arrivals and completions
  | hostReadDataArrival (k : Nat) (data : Option (List Byte))
  | hostLinkTrained (p : Fin 8) (wide : Bool) (speed : BitVec 4)
  | portWidthChangeDone (p : Fin 8)
  | selfRefreshReturn (k : Fin 8)
  | strokeOutFall
  | lifecycleBurnDone
  | unlockCheckDone
  deriving DecidableEq, Repr

end Sys2Proof
end

