-- ==== Sys2Proof/Machine/State.lean ====
section
/-! DEFINITION. The state of the block as plain data: every register, buffer, queue, counter, mode and pin the spec
names, the queue of waiting commands, and State.reset. INVENTORY.md lists each with its rule and reset value. -/

namespace Sys2Proof.Machine

/-- A sparse map in canonical form: keys strictly rising, no entry equal to the default of its key. -/
abbrev Map (α : Type) := List (Nat × α)

/-- Why a run stops. No meaning of this model raises one: every row has an effect the spec gives. -/
inductive Fault where
  /-- Raised by nobody; a state no command reaches. Safe: it would only stop a run. -/
  | unreachable
  deriving DecidableEq, Repr

/-- Why a command has no meaning. -/
inductive Refusal where
  /-- Raised by an arm of exec whose command is not modelled yet; safe, since the run stops by name. -/
  | notModelled (mnemonic : String)
  deriving DecidableEq, Repr

/-- The causes of Table 06-2 that a nib's own work raises (0x01 to 0x13), and the machine checks (0x20 to 0x29). -/
inductive Cause where
  | opcode | align | bus | tag | tagReserved | bounds | perm | sealed | xlate | xrights | walk | rubric | gate | spill
  | promote | generic | arith | barrier | poison
  | mcChecker | mcUstore | mcVote | mcUncorr | mcLink | mcColophon | mcLockstep | mcClock | mcArray | mcNested
  deriving DecidableEq, Repr

/-- A trap that is due: cause, SV.INFO, slot, IMPR (R217, R219). -/
structure TrapReq where
  cause : Cause
  info : BitVec 64
  slot : Bool := false
  impr : Bool := false
  /-- the block whose Rubric denial this fault reports (R336, R349) -/
  deny : Option Nat := none
  deriving DecidableEq, Repr

/-- What an access does to its target (R329, Table 09-7). -/
inductive Acc where
  | read | write | writeT | exec
  /-- CSEAL's locked update: the leaf's read right, and the Rubric's W and T (R329, Table 09-7) -/
  | locked
  deriving DecidableEq, Repr

/-- How a write forms the stored word (R61, Table 10-5): `keep` keeps COLOUR and a CDR of 0b01 or 0b10; `colour` writes
the given COLOUR and keeps that CDR (BCOPY, ALLOC's HEADER, word 1 of a spill frame); `list` keeps COLOUR and writes the given
CDR (RPLACD); `exact` writes the tag as given (CONS, CONSN, markers). -/
inductive WriteMode where
  | keep | colour | list | exact
  deriving DecidableEq, Repr

/-- What a store buffer entry holds (R292), and the payload of a device-register store (R504). -/
inductive StoreKind where
  | word (w : Word) (m : WriteMode)
  | pair (lo hi : Word) (m : WriteMode)
  | byte (k : Nat) (v : Byte)
  | dev (v : BitVec 64)
  deriving DecidableEq, Repr

/-- An entry of the store buffer or of the completion tracker (R292, R293). -/
structure StoreEnt where
  ctx : Nat
  pa : Nat
  va : BitVec 64
  kind : StoreKind
  /-- STV: not applied over HEADER or FORWARD (R148) -/
  guarded : Bool := false
  /-- shaded by the nib (R382) -/
  shaded : Bool := false
  /-- made in the ordered model (R314) -/
  ordered : Bool := false
  /-- on its way: the inkwell or register has it (R294) -/
  arrived : Bool := false
  /-- applied, its acknowledgement on the way -/
  done : Bool := false
  /-- through a translation that is not cacheable: never forwarded (R285) -/
  unc : Bool := false
  /-- its number in the nib's order of issue (R340) -/
  seq : Nat := 0
  deriving DecidableEq, Repr

/-- A cached line (R283). -/
structure CLine where
  line : Nat
  words : Line
  deriving DecidableEq, Repr

/-- A page verdict (R335). -/
inductive Verdict where
  | rights (r : BitVec 4)
  | mixed
  deriving DecidableEq, Repr

/-- A TLB entry with its verdicts, one for each request class (R332, R335). -/
structure TlbEnt where
  ward : Nat
  vpn : Nat
  large : Bool
  ppn : Nat
  /-- SX SW SR UX UW UR, Table 09-2 bits [7:2] -/
  rights : BitVec 6
  c : Bool
  dev : Bool
  page : Nat := 0
  fall : Option Verdict := none
  noFall : Option Verdict := none
  deriving DecidableEq, Repr

/-- An entry of the nib's verdict cache (R335). -/
structure VerdictEnt where
  page : Nat
  fall : Bool
  v : Verdict
  deriving DecidableEq, Repr

/-- A walk-cache entry (R332): level, ward, address prefix, entry payload. -/
structure WalkEnt where
  level : Nat
  ward : Nat
  pre : Nat
  entry : BitVec 64
  deriving DecidableEq, Repr

/-- A direct memory operation whose operands have passed their checks, with the values it works on. Register numbers
are physical indices (R82). It is kept while its context is parked (R109). -/
inductive MemOp where
  | ldRef (r : Word) (i : Int) (dst : Nat)
  | stRef (r : Word) (i : Int) (w : Word)
  | ldByte (r : Word) (k : Int) (dst : Nat)
  | stByte (r : Word) (k : Int) (v : Byte)
  | hdr (r : Word) (sel : BitVec 3) (dst : Nat)
  | freeze (r : Word)
  | ldVirt (a : BitVec 64) (dst : Nat)
  | stVirt (a : BitVec 64) (w : Word)
  | ldCap (a : BitVec 64) (dst : Nat)
  | stCap (a : BitVec 64) (w : Word)
  | ldPair (a : BitVec 64) (dst : Nat)
  | stPair (a : BitVec 64) (lo hi : Word)
  | car (r : Word) (dst : Nat)
  | cdr (r : Word) (dst : Nat)
  | rplaca (r : Word) (w : Word)
  | rplacd (r : Word) (w : Word) (d : BitVec 5)
  | alloc (a : Nat) (t : BitVec 6) (n : Nat) (dst : Nat) (cur : Word) (curReg : Nat)
  | refill (a : Nat) (win h m : Nat)
  | recv (dst : Nat)
  | xread (ctx reg dst : Nat)
  | fetchGroup (ctx g : Nat)
  /-- the frame that a RET or GRET takes back from the spill engine lands in two groups (R90, R385) -/
  | takeBack (h m : Nat)
  deriving DecidableEq, Repr

/-- The barriers (R166). -/
inductive Bar where
  | lbar | sbar | fbar
  deriving DecidableEq, Repr

/-- Why a context is out of issue (Table 08-3a of R108, R166, R297, R333, R335, R336). -/
inductive Wait where
  | line (line : Nat) (cached : Bool)
  | fetchLine (line : Nat) (cached : Bool)
  | walk (va : Nat)
  | page (pa : Nat) (fall : Bool) (tlb : Bool)
  | block (pa : Nat) (acc : Acc) (fall : Bool) (load : Bool)
  | devLoad (pa : Nat)
  | group (d g : Nat)
  | answer (dst : Nat)
  | refill
  | spillRoom
  | barrier (b : Bar)
  | bufferFull
  | ownStores
  /-- a store of the nib, by its number (R296, R314) -/
  | entryOf (seq : Nat)
  | shadeFull
  | bucket (va : Nat)
  /-- the item at a physical address is not copied yet: RBAR.COPY runs (R385, Table 07-6) -/
  | copy (pa : Nat)
  deriving DecidableEq, Repr

/-- A parked context: why, the operation that continues (none: the pair issues again, or its routine goes on), the lines that
came (R108, R109). -/
structure Parked where
  why : Wait
  op : Option MemOp := none
  got : List CLine := []
  slot : Bool := false
  /-- its instruction's place in the order of issue -/
  iss : Nat := 0
  deriving DecidableEq, Repr

/-- Where a result lands. -/
inductive Target where
  | reg (n : Nat)
  | st
  | save (lvl item : Nat)
  deriving DecidableEq, Repr

/-- A result in flight (R102): it lands in the nib cycle `due`; `iss` is its instruction's place in the order of issue. -/
structure Landing where
  due : Nat
  iss : Nat
  tgt : Target
  word : Word
  deriving DecidableEq, Repr

/-- A save set (R219). -/
structure SaveSet where
  pc : BitVec 64 := 0
  st : BitVec 64 := 0
  cause : BitVec 64 := 0
  info : BitVec 64 := 0
  win : BitVec 64 := 0
  deriving DecidableEq, Repr

/-- The live micro state of a context (R263). -/
structure Micro where
  upc : BitVec 15 := 0
  uret : BitVec 15 := 0
  ulc : BitVec 16 := 0
  ut0 : Word := Word.fx 0
  ut1 : Word := Word.fx 0
  ut2 : Word := Word.fx 0
  ut3 : Word := Word.fx 0
  deriving DecidableEq, Repr

/-- The routines that make accesses or meet check points (Table 07-6); `seq` is a routine that runs microword by microword,
from the patch RAM or from a slot whose micro state no other record describes (R254, R271, R276); `rbar` is RBAR.COPY. -/
inductive RoutineOp where
  | savem | loadm | bcopy | bcmp | hash | consn | bigstep | cons | cseal | cunseal | gate | gret | rbar
  | seq
  deriving DecidableEq, Repr

/-- A routine of a context, from its issue to its END (R261 to R263): its instruction's fields and the operands it works on,
as it read them at issue and has advanced them (log 8). `w0` to `w3` hold the pairs of A and B, or the words a routine reads;
`count` what is left to do; `base` CONSN's storage, or the registers that SAVEM or LOADM has left; `area` and `sl` their area
and its SL right; `word` the instruction; `mem` the operation whose delivery runs RBAR.COPY; `home` the address of
its pair, and `after` PC and WS as they will be at its END. -/
structure Routine where
  op : RoutineOp
  d : BitVec 5 := 0
  a : BitVec 5 := 0
  b : BitVec 5 := 0
  sub : BitVec 3 := 0
  imm : BitVec 15 := 0
  slot : Bool
  base : BitVec 64 := 0
  idx : Nat := 0
  area : Nat := 0
  sl : Bool := false
  count : Nat := 0
  w0 : Word := Word.fx 0
  w1 : Word := Word.fx 0
  w2 : Word := Word.fx 0
  w3 : Word := Word.fx 0
  word : BitVec 32 := 0
  mem : Option MemOp := none
  home : BitVec 64 := 0
  after : Option (BitVec 64 × BitVec 64) := none
  /-- its first step has run -/
  begun : Bool := false
  /-- it has changed visible state (Table 07-4 VIS) -/
  vis : Bool := false
  /-- it stands at a check point -/
  stopped : Bool := false
  /-- the lines that its parked accesses have brought, until the step that reads them is done (R262) -/
  got : List CLine := []
  deriving DecidableEq, Repr

/-- A micro-save slot (R266, Table 07-7) and the routine its UPC stands for (log 8). -/
structure MicroSlot where
  valid : Bool := false
  upc : BitVec 15 := 0
  ulc : BitVec 16 := 0
  ut0 : Word := Word.fx 0
  ut1 : Word := Word.fx 0
  ut2 : Word := Word.fx 0
  ut3 : Word := Word.fx 0
  routine : Option Routine := none
  deriving DecidableEq, Repr

/-- A frame in the spill engine (R88, R240). -/
structure SpillFrame where
  win : Nat
  hb : Bool
  cursor : BitVec 48
  words : List Word
  deriving DecidableEq, Repr

/-- A pending level-changing transfer, bound when its target pair issues (R236). -/
inductive LevelXfer where
  | gate (lvl : BitVec 2) (frame0 frame1 : Word) (pa : Nat) (unc : Bool) (va : BitVec 64) (stkLo stkHi : Word)
  | gret (lvl : BitVec 2) (cst : BitVec 32)
  | trapRet (lvl : BitVec 2)
  deriving DecidableEq, Repr

/-- A FLT_ARITH report (R232, R233): SUB, pair address, slot and nib cycle of its issue. -/
structure ArithReport where
  sub : BitVec 8
  pc : BitVec 64
  slot : Bool
  at_ : Nat
  deriving DecidableEq, Repr

/-- The context as it stood before a pair, kept until that pair can no longer fault (R109, R236). -/
structure Undo where
  pc : BitVec 64
  ws : BitVec 64
  st : BitVec 32
  regs : Map Word
  dirty : BitVec 18
  inflight : List Landing
  frames : List SpillFrame
  spillLo : Word
  arith : List ArithReport
  deriving DecidableEq, Repr

/-- What the executive has asked of a context (R604). -/
inductive StopReq where
  | stop | freeze
  deriving DecidableEq, Repr

/-- An XINV not completed (R340): for each covered nib, the number below which its stores must have been acknowledged. -/
structure Xinv where
  waits : List (Nat × Nat)
  deriving DecidableEq, Repr

/-- One context of a nib (Context state, R92, R95, R116 to R122, R219, R266). -/
structure Context where
  regs : Map Word := []
  dirty : BitVec 18 := 0
  unfetched : BitVec 18 := 0
  stateDirty : BitVec 12 := 0
  pc : BitVec 64 := 0
  st : BitVec 32 := 0x3FFF0000
  ws : BitVec 64 := 0x8
  evf : BitVec 16 := 0
  queue : List Word := []
  timer : Option Nat := none
  barFault : Bool := false
  barAddr : BitVec 48 := 0
  spillLo : Word := Word.fx 0
  spillHi : Word := Word.fx 0
  saveS : SaveSet := {}
  saveD : SaveSet := {}
  saveM : SaveSet := {}
  slotU : MicroSlot := {}
  slotS : MicroSlot := {}
  slotD : MicroSlot := {}
  slotM : MicroSlot := {}
  inflight : List Landing := []
  parked : Option Parked := none
  /-- WAIT's mask, its destination and its place in the order of issue -/
  waiting : Option (BitVec 4 × Nat × Nat) := none
  xfer : Option LevelXfer := none
  /-- what a precise fault goes back to: the pair's start, or that of the level-changing transfer pending (R109, R236) -/
  undo : Option Undo := none
  /-- the pair's own start, for a pair that issues again (R297, R333) -/
  redo : Option Undo := none
  frames : List SpillFrame := []
  suspended : Option (BitVec 2) := none
  /-- the save set that held the spill engine has stopped being live: the engine retries (R242) -/
  spillGo : Bool := false
  arith : List ArithReport := []
  spillFault : Option TrapReq := none
  faultDue : Option TrapReq := none
  stopReq : Option StopReq := none
  /-- STEADY's count, and the cycle in which the region began (R165, R245) -/
  steady : Nat := 0
  steadyFrom : Nat := 0
  /-- the count now running ends at the limit of 512 cycles; the limit has ended the region (R245) -/
  steadyLim : Bool := false
  steadyUsed : Bool := false
  routine : Option Routine := none
  micro : Micro := {}
  blockAns : Option (Nat × Acc) := none
  fetchGot : Option CLine := none
  xinvs : List Xinv := []
  deriving DecidableEq, Repr

/-- Classes of instructions (Table 03-6). -/
inductive Cls where
  | A | X | M | B | C | F
  deriving DecidableEq, Repr

/-- What an XINV covers (R167). -/
inductive XinvScope where
  | page (va : Nat) | ward | all
  deriving DecidableEq, Repr

/-- What a locked update does to the word at its inkwell: CSEAL sets OTYPE, FREEZE sets FROZEN (R198, R207). -/
inductive LockedUpd where
  | seal (key : Nat)
  | freeze
  /-- a patched routine's update (R257 MEM) -/
  | put (w : Word)
  deriving DecidableEq, Repr

/-- A write that waits for the commit, since the log has no room for its line (R432): a nib's store, a write that no nib made, a
locked update, the barrier's repair of a slot, an item's card byte. -/
inductive HeldWrite where
  | store (nib : Nat) (ent : StoreEnt)
  | device (pa : Nat) (k : StoreKind)
  | locked (pa : Nat) (u : LockedUpd)
  | repair (pa : Nat) (old new : Word)
  | repairPair (pa : Nat) (old0 old1 new0 new1 : Word)
  | card (pa : Nat)
  deriving DecidableEq, Repr

/-- One thing a slot of a pair does when its pair issues. Both slots' effects are found before either is applied, since
neither slot sees the other's result (R97). -/
inductive Effect where
  | land (dist : Nat) (t : Target) (w : Word)
  /-- into the store buffer -/
  | store (e : StoreEnt)
  /-- a locked update of a HEADER made at its inkwell, from the word that stands there (R198, R286) -/
  | locked (pa : Nat) (u : LockedUpd)
  | recall (line : Nat)
  | park (p : Parked)
  /-- a taken transfer; kind 0 branch, 1 call, 2 return (Table 03-4 DKIND) -/
  | transfer (kind : Nat) (target : BitVec 64)
  | level (x : LevelXfer) (target : BitVec 64)
  | arith (sub : BitVec 8)
  | steady (n : Nat)
  | yield
  | wait (mask : BitVec 4) (dst : Nat)
  | popQueue
  | send (wcn : BitVec 64) (w : Word) (dst : Nat)
  | timer (n : BitVec 64)
  | xinv (sc : XinvScope)
  | xwrite (ctx reg : Nat) (w : Word)
  /-- a routine begins (R258, R262) -/
  | run (r : Routine)
  /-- an item begins at this address: its card byte (R365) -/
  | card (pa : Nat)
  /-- the read barrier repairs a slot, or a pair's slot whole (R386) -/
  | repair (pa : Nat) (old new : Word)
  | repairPair (pa : Nat) (old0 old1 new0 new1 : Word)
  | shade (w hi : Word)
  /-- the spill engine reserves a frame (R241), or gives back its youngest (R90) -/
  | reserve
  | takeBack (h m : Nat)
  /-- the barrier has forwarded words of the engine's youngest frame (R385) -/
  | heldWords (ws : List Word)
  /-- a refill from memory lands: HB bit of the window, the groups filled, CURSOR back by 144 (R240) -/
  | refilled (win : Nat) (hb : Bool) (g0 g1 : Nat)
  | landNow (reg : Nat) (w : Word)
  /-- a register group's line lands: its words as stored and as the barrier delivers them (R124) -/
  | group (ctx g : Nat) (old new : List Word)
  /-- the routine ends this many nib cycles after its issue (Table 07-6) -/
  | took (t : Nat)
  | tally (idx : Nat)
  /-- a routine's update of collector metadata (R257, R391) -/
  | metadata (pa : Nat) (v : BitVec 64)
  /-- a word of the control store fails its parity (R281) -/
  | ustore (sub : BitVec 8)
  /-- a free value was drawn -/
  | drew
  deriving DecidableEq, Repr

/-- The outcome of one slot: a FLT_OPCODE sub-cause, a fault, a wait after which the pair issues again, or effects. -/
inductive SlotOut where
  | opcode (sub : BitVec 8)
  | trap (t : TrapReq)
  | wait (w : Wait)
  | go (es : List Effect)
  deriving DecidableEq, Repr

/-- The patch part of a nib's control store (Table 07-1): patch microwords with their parity bit above the 29 data bits,
nanowords with eight parity bits above the 168 data bits, match registers as Table 07-8 numbers their bits with the parity bit
above them. -/
structure PatchStore where
  micro : List (BitVec 30) := []
  nano : List (BitVec 176) := []
  regs : List (BitVec 33) := []
  deriving DecidableEq, Repr

/-- A machine check held pending or delivered to a nib (R226). -/
structure HeldCheck where
  code : BitVec 8
  info : BitVec 64
  deriving DecidableEq, Repr

/-- One physical nib (R13). -/
structure Nib where
  running : Option Nat := none
  lastRun : List Nat := [0, 0, 0, 0]
  ahead : Nat := 0
  l1 : List CLine := []
  blotter : List CLine := []
  icache : List CLine := []
  storeBuf : List StoreEnt := []
  storeSeq : Nat := 0
  tracker : List StoreEnt := []
  tlb : List TlbEnt := []
  verdicts : List VerdictEnt := []
  condemned : List Nat := []
  shade : List (Word × Word) := []
  closed : Bool := false
  heldTraps : List (Nat × BitVec 8) := []
  heldChecks : List HeldCheck := []
  lastFault : Option Nat := none
  retired : Bool := false
  spare : Bool := false
  /-- the nib whose contexts a spare serves -/
  serves : Option Nat := none
  parkedBy : BitVec 3 := 0
  slow : Bool := false
  /-- the match registers are enabled (R280) -/
  patched : Bool := false
  store : PatchStore := {}
  switchedOff : Bool := false
  deriving DecidableEq, Repr

/-- A presence directory entry (Table 08-3). -/
inductive Holders where
  | none
  | ptrs (ns : List Nat)
  | cols (v : BitVec 32)
  deriving DecidableEq, Repr

/-- An inkwell's entry for a line (R300, R307). -/
structure InkEnt where
  holders : Holders := .none
  dirty : Bool := false
  data : Bool := false
  /-- its place in the set's order of use -/
  used : Nat := 0
  deriving DecidableEq, Repr

/-- A read on its way to an inkwell (R305). -/
structure ReadReq where
  nib : Nat
  ctx : Nat
  line : Nat
  cached : Bool
  fetch : Bool
  deriving DecidableEq, Repr

/-- What a read brings back. -/
inductive Answer where
  | words (ws : Line)
  | fault (t : TrapReq)
  deriving DecidableEq, Repr

/-- An answer on its way to a nib: a line, a register's value, or a fault (R291, R336). -/
structure FillMsg where
  nib : Nat
  ctx : Nat
  line : Nat
  cached : Bool
  fetch : Bool
  ans : Answer
  /-- invalidations of the same inkwell to the same nib that were sent before it and have not arrived (R291) -/
  behind : Nat := 0
  deriving DecidableEq, Repr

/-- A write held at an inkwell until every named nib has acknowledged (R294). -/
structure PendWrite where
  nib : Nat
  ent : StoreEnt
  waits : List Nat
  deriving DecidableEq, Repr

/-- A host write that awaits the acknowledgement of its lines' holders: its blocks (line, first byte, bytes), and the nibs and lines
still to be acknowledged (R302). -/
structure HostWrite where
  port : Nat
  ward : Nat
  blocks : List (Nat × Nat × List Byte)
  waits : List (Nat × Nat)
  deriving DecidableEq, Repr

/-- A word sent to a WCN (R119). -/
structure SendMsg where
  nib : Nat
  ctx : Nat
  tnib : Nat
  tctx : Nat
  word : Word
  deriving DecidableEq, Repr

/-- Inputs in a port's journal (R414). -/
inductive JInput where
  | doorbell (ward ring tail : Nat)
  | data (addr : Nat) (bytes : List Byte)
  | fail (addr len : Nat)
  deriving DecidableEq, Repr

/-- Why the device reads host memory. -/
inductive HostPurpose where
  | desc (ward ring idx : Nat)
  | op (ward slot : Nat) (k : Nat)
  | envelope (ward : Nat)
  | patch
  deriving DecidableEq, Repr

/-- A read of host memory outstanding (R414). -/
structure HostRead where
  port : Nat
  addr : Nat
  len : Nat
  why : HostPurpose
  /-- command data, which moves by RdCurr (R458) -/
  cache : Bool := false
  /-- what came at or after the tick, for the stroke that opens next (R414) -/
  late : Option (Option (List Byte)) := none
  deriving DecidableEq, Repr

/-- What leaves the device toward hosts, SMBus and the TAP (log 9). -/
inductive HostOut where
  | write (port addr : Nat) (bytes : List Byte) (poison : Bool)
  /-- command data by WrCur (R458) -/
  | wrCur (port addr : Nat) (bytes : List Byte) (poison : Bool)
  | msix (port vec : Nat)
  | memData (port : Nat) (bytes : List Byte) (poison : Bool)
  | memDone (port : Nat)
  | memUnsupported (port : Nat)
  | cfg (port : Nat) (v : BitVec 32)
  | cfgRetry (port : Nat)
  | snoopInvalid (port : Nat) (line : BitVec 64)
  | mctp (bytes : List Byte)
  | smbus (addr : BitVec 7)
  | tdo (bits : List Bool)
  | trace (bytes : List Byte)
  | regData (lane : Nat) (v : BitVec 32)
  /-- the bus-error status of a requester's own interface (R24, Table 09-9) -/
  | busError (lane : Nat)
  deriving DecidableEq, Repr

/-- A completion record before PHASE and SQHEAD are set (Table 12-9). -/
structure RecordOut where
  ward : Nat
  ring : Nat
  tag : BitVec 32
  status : BitVec 8
  /-- FLAGS but PHASE -/
  flags : BitVec 8
  result : BitVec 64
  /-- a final record of ring 0: the place of its descriptor -/
  idx : Option Nat := none
  /-- committed, and waiting for room in the completion ring (R500) -/
  released : Bool := false
  deriving DecidableEq, Repr

/-- A port's outbound staging (R416, R500). -/
inductive Staged where
  | data (port addr : Nat) (bytes : List Byte) (poison : Bool)
  | record (r : RecordOut)
  deriving DecidableEq, Repr

/-- A ring in effect and its hub state (R469 to R485). -/
structure Ring where
  en : Bool := false
  sq : Nat := 0
  cq : Nat := 0
  sqlog : Nat := 0
  cqlog : Nat := 0
  vec : Nat := 0x7F
  port : Nat := 0
  wcn : Nat := 0x3FFF
  xva : Nat := 0
  xpa : Nat := 0
  result : BitVec 4 := 0
  head : Nat := 0
  tail : Nat := 0
  cqTail : Nat := 0
  cqHead : Nat := 0
  phase : Bool := true
  relCount : Nat := 0
  marked : Nat := 0
  pendSlots : List Nat := []
  deriving DecidableEq, Repr

/-- A long operation (R496, Table 12-13). -/
structure Op where
  num : Nat
  slot : Nat
  desc : List Byte
  /-- the place of its descriptor in the ring's order -/
  idx : Nat
  susp : Bool := false
  done : Nat := 0
  dropped : Nat := 0
  total : Nat := 0
  poison : Bool := false
  aux : Nat := 0
  got0 : Option (List Byte) := none
  got1 : Option (List Byte) := none
  fin : Option (BitVec 8 × BitVec 64) := none
  deriving DecidableEq, Repr

/-- What a request asks for at a boundary (R494, R498). -/
inductive ReqKind where
  | suspend | resume | cancel
  | policy (env : List Byte)
  deriving DecidableEq, Repr

/-- A request that acts at a boundary, with its descriptor and the operation it names. -/
structure Request where
  kind : ReqKind
  num : Nat := 0
  desc : List Byte
  idx : Nat
  deriving DecidableEq, Repr

/-- A ward's executive state: WCN map (WCN to nib × 32 + context), commands fetched and not started, the places of started
commands whose final record is not released, operations, requests, FENCEs, POLICYs that await their image, and the envelope
(R118, R486, R494, R557). -/
structure Ward where
  wcns : Map Nat := []
  cmds : List (List Byte) := []
  started : Nat := 0
  openIdx : List Nat := []
  opNext : Nat := 1
  ops : List Op := []
  reqs : List Request := []
  fences : List (List Byte × Nat) := []
  policyWait : List (List Byte × Nat) := []
  env : List Byte := []
  deriving DecidableEq, Repr

/-- A grey-queue entry (R373, R383): a pointer word, with the CAP.HI of a pair, or a line to rescan. -/
inductive Grey where
  | word (w hi : Word)
  | rescan (line : Nat)
  deriving DecidableEq, Repr

/-- Collector phases (Table 10-6). -/
inductive Phase where
  | idle | mark | evacuate | finish
  deriving DecidableEq, Repr

/-- A ward's collector state (R367 to R380, Table 10-10). -/
structure Coll where
  phase : Phase := .idle
  susp : Bool := false
  shedSusp : Bool := false
  frozen : Bool := false
  consv : Bool := false
  markc : BitVec 2 := 0b10
  cycle : Nat := 0
  copied : Nat := 0
  live : Nat := 0
  releasedSheets : Nat := 0
  engines : Nat := 0
  mode : Nat := 0
  start : Option Nat := none
  restart : Bool := false
  grey : List Grey := []
  /-- entries appended to the grey queue, which gives the next one's place in its area -/
  greyAt : Nat := 0
  roots : List (Nat × Nat) := []
  scans : List Nat := []
  parsing : List Nat := []
  /-- sheets filled with zeros, FREE from the next boundary -/
  zeroed : List Nat := []
  /-- FREE sheets that SPAWN has handed out, ARENA from the next boundary -/
  handed : List Nat := []
  errRead : Nat := 0
  /-- COL.EVENT flags that the next boundary shows -/
  events : BitVec 32 := 0
  deriving DecidableEq, Repr

/-- A copy record (R387); `done` counts lines. -/
structure CopyRec where
  ward : Nat
  src : Nat
  dst : Nat
  len : Nat
  done : Nat
  deriving DecidableEq, Repr

/-- Phases of STK.STATUS.STATE (Table 11-1). -/
inductive StrokePhase where
  | boot | opened | closing | rolling | held | failed
  deriving DecidableEq, Repr

/-- A line of the palimpsest log (R429). -/
structure LogLine where
  line : Nat
  words : Line
  deriving DecidableEq, Repr

/-- An APPLY (R450): pending, and the staged values captured at the tick. -/
structure Apply where
  pend : Bool := false
  captured : Bool := false
  vals : Map (BitVec 32) := []
  deriving DecidableEq, Repr

/-- A fault report at the root (R421). -/
structure FaultRep where
  unit : Nat
  cause : McCause
  /-- the hub cycle in which the unit sent it -/
  at_ : Nat := 0
  deriving DecidableEq, Repr

/-- A Rubric entry as its three registers (Table 09-6). -/
structure RubEnt where
  start : BitVec 32 := 0
  last : BitVec 32 := 0
  attr : BitVec 32 := 0
  deriving DecidableEq, Repr

/-- The stroke in progress (R405 to R425). -/
structure Stroke where
  num : Nat := 1
  attempt : Nat := 1
  phase : StrokePhase := .boot
  openAt : Nat := 0
  tickAt : Nat := 0
  short : Bool := false
  early : Bool := false
  voided : Bool := false
  retiredNib : Bool := false
  /-- the attempt before this one was voided by a disagreement of the Rubric's replicas (R357) -/
  voted : Bool := false
  lastClose : Nat := 0
  /-- the close report in each unit's slot (Table 11-3) -/
  reports : Map (BitVec 64) := []
  faults : List FaultRep := []
  voidUnit : Nat := 0
  voidCode : BitVec 8 := 0
  voidNum : Nat := 0
  voids : Nat := 0
  used : Nat := 0
  peak : Nat := 0
  shorts : Nat := 0
  heldCount : Nat := 0
  jfirst : Nat := 0
  /-- lines over which the comparators of a fixed-range writer's unit disagree in this attempt (R21) -/
  misfits : List (Nat × Nat) := []
  rubOk : Option (BitVec 32) := none
  rubTable : Map RubEnt := []
  deriving DecidableEq, Repr

/-- A page's guard (R511): offset, value, lane, hub cycle. -/
structure Guard where
  off : Nat
  val : BitVec 32
  lane : Nat
  at_ : Nat
  deriving DecidableEq, Repr

/-- A host port's link (R457 to R463). -/
structure Port where
  up : Bool := false
  cio : Bool := false
  ccache : Bool := false
  cmem : Bool := false
  wide : Bool := true
  speed : BitVec 4 := 0
  d3 : Bool := false
  msix : Bool := false
  changing : Bool := false
  dec0 : Option (BitVec 64) := none
  dec1 : Option (BitVec 64) := none
  decErr : BitVec 2 := 0
  linkEv : Bool := false
  heldBells : List (Nat × Nat) := []
  /-- released writes that wait for D0 (R461) -/
  heldOut : List HostOut := []
  /-- snoops of lines that a transfer holds (R459) -/
  snoops : List (BitVec 64) := []
  deriving DecidableEq, Repr

/-- Power management (R529 to R548). -/
structure Power where
  mv : Nat := 48000
  ma : Nat := 0
  temp : Nat := 25
  die : Nat := 4
  pin : Nat := 0
  recent : List Nat := []
  vIn : List Nat := [0, 0, 0, 0, 0, 0]
  vOut : List Nat := [0, 0, 0, 0, 0, 0]
  tIn : List Nat := [0, 0, 0, 0, 0, 0]
  tOut : List Nat := [0, 0, 0, 0, 0, 0]
  pIn : List Nat := [0, 0, 0, 0]
  pOut : List Nat := [0, 0, 0, 0]
  vLevel : Nat := 0
  tLevel : Nat := 0
  pLevel : Nat := 0
  level : Nat := 0
  overCnt : Nat := 0
  low : Nat := 0
  capCnt : Nat := 0
  goodCnt : Nat := 1000
  throttle : Bool := false
  l5 : Bool := false
  l5done : Bool := false
  hold : Bool := false
  off : Bool := false
  mgmtOff : Bool := false
  offBegun : Bool := false
  turnOff : Bool := false
  unclean : Bool := false
  domains : BitVec 64 := 0x2000000000000000
  lost : BitVec 64 := 0
  phaseCnt : Nat := 0
  stage : BitVec 4 := 0
  phaseDom : Nat := 0
  refresh : BitVec 8 := 0
  pllA : Bool := true
  pllB : Bool := true
  serving : Bool := false
  deriving DecidableEq, Repr

/-- A decision of the Steward, or a shed-level change, that a commit decides (R551, R559). -/
structure Decision where
  kind : BitVec 8
  ward : BitVec 8
  old : BitVec 64
  new : BitVec 64
  arg : Nat := 0
  in0 : BitVec 64 := 0
  in1 : BitVec 64 := 0
  in2 : BitVec 64 := 0
  deriving DecidableEq, Repr

/-- The Steward (R551 to R562). -/
structure Steward where
  pend : List Decision := []
  jhead : Nat := 0
  quiet : Nat := 0
  sincePower : Nat := 16
  readyHist : List (Map Nat) := []
  deriving DecidableEq, Repr

/-- The patch store (R279, R280). -/
structure Patch where
  state : BitVec 4 := 0
  err : BitVec 8 := 0
  image : List Byte := []
  verified : List Byte := []
  active : Bool := false
  version : BitVec 16 := 0
  /-- a load is under way -/
  loading : Bool := false
  deriving DecidableEq, Repr

/-- Fuses, flash and boot results (Table 15-1, Table 15-3, Table 15-8). -/
structure Boot where
  life : BitVec 4 := 2
  next : BitVec 4 := 2
  burning : Option (BitVec 4) := none
  fwmin : BitVec 16 := 0
  minver : BitVec 16 := 0
  variant : BitVec 8 := 1
  seedGone : Bool := false
  status0 : BitVec 32 := 0x47535442
  status1 : BitVec 32 := 1
  done : Bool := false
  stopped : Bool := false
  slot : Bool := false
  reason : BitVec 8 := 0
  version : BitVec 16 := 0
  image : List Byte := []
  steward : Nat := 0
  deriving DecidableEq, Repr

/-- The debug port (R580 to R586). -/
structure Dbg where
  ir : BitVec 8 := 0x01
  scope : BitVec 16 := 0
  /-- the scope in force at the last commit (R576) -/
  scopeAt : BitVec 16 := 0
  last : BitVec 8 := 0
  challenge : Option (List Byte) := none
  checking : Option (List Byte × Option (List Byte)) := none
  accOp : BitVec 8 := 0
  accAddr : BitVec 40 := 0
  accStatus : BitVec 13 := 0
  accTag : BitVec 10 := 0
  accPay : BitVec 64 := 0
  trace : List (List Byte) := []
  dropped : Nat := 0
  drops : Nat := 0
  tally : Nat := 0
  deriving DecidableEq, Repr

/-- The status pins (R596 to R598), and the cases in force. -/
structure Pins where
  strokeOut : Bool := false
  alarmLow : Bool := false
  alertLow : Bool := false
  /-- VIO_OUT is in regulation (R595) -/
  vioOut : Bool := false
  deriving DecidableEq, Repr

/-- A tally snapshot (R454): its stroke number, its counters, and the ward of each assigned nib. -/
structure Snapshot where
  num : Nat := 0
  counts : Map Nat := []
  assign : Map (Option Nat) := []
  /-- INK.STATUS.STATE and INK.PROGRESS of each stack (R311) -/
  inkState : Map (BitVec 4) := []
  inkSets : Map Nat := []
  deriving DecidableEq, Repr

/-- A tally view's latch (R456): the held snapshot, and the captured counter. -/
structure Latch where
  held : Option Snapshot := none
  data : BitVec 64 := 0
  deriving DecidableEq, Repr

/-- What a rollback restores besides memory (R440 step 3). -/
structure Ckpt where
  ctxs : Map Context := []
  wards : Map Ward := []
  rings : Map Ring := []
  coll : Map Coll := []
  copyRecs : List CopyRec := []
  chunks : Map (Nat × Nat) := []
  engines : Map Nat := []
  heldTraps : Map (List (Nat × BitVec 8)) := []
  heldChecks : Map (List HeldCheck) := []
  hostReads : List HostRead := []
  errNext : Nat := 0
  doorEvents : List (Nat × Nat × Nat) := []
  deriving DecidableEq, Repr

/-- The block. -/
structure State where
  pending : List Instr
  ctxs : Map Context
  nibs : Map Nib
  mem : Map Word
  ckpt : Ckpt
  imagePending : List (Nat × Nat × Nat)
  /-- lines that this attempt's close has written into the banks that are not selected (R426) -/
  shadowDue : List (Nat × Nat × Nat)
  reads : List ReadReq
  fills : List FillMsg
  invals : List (Nat × Nat)
  acks : List (Nat × Nat)
  writes : List PendWrite
  hostWrites : List HostWrite
  storeAcks : List (Nat × StoreEnt)
  sends : List SendMsg
  answers : List (Nat × Nat × Bool)
  doorEvents : List (Nat × Nat × Nat)
  ink : Map InkEnt
  inkState : Map (BitVec 4)
  inkSets : Map Nat
  inkAuto : List Nat
  inkClock : Nat
  spares : Map Nat
  stackErr : Map Nat
  regs : Map (BitVec 32)
  staged : Map (BitVec 32)
  guards : Map Guard
  applies : Map Apply
  assign : Map (Option Nat)
  rubStaged : Map RubEnt
  rubActive : Map RubEnt
  rubOn : BitVec 3
  sheetOwner : Map Nat
  walkCache : Map (List WalkEnt)
  hub : Nat
  stroke : Stroke
  log : List LogLine
  heldWrites : List HeldWrite
  journal : Map (List JInput)
  replay : Map (List JInput)
  nextInputs : Map (List JInput)
  staging : List Staged
  hostOut : List HostOut
  hostReads : List HostRead
  rings : Map Ring
  wards : Map Ward
  ports : Map Port
  binds : Map (Option Nat)
  bindRefused : BitVec 8
  linksFailed : BitVec 8
  resend : Map Nat
  coll : Map Coll
  copyRecs : List CopyRec
  /-- each copier's chunk: next free byte and end (R388) -/
  chunks : Map (Nat × Nat)
  engines : Map Nat
  errNext : Nat
  wardNews : List Nat
  tallies : Map Nat
  /-- dropped stores and abandoned loads of each nib, which its tally counts at no index of Table 11-12 (R148, R298, R299) -/
  drops : Map Nat
  snap : Snapshot
  capture : Snapshot
  latches : Map Latch
  power : Power
  steward : Steward
  patch : Patch
  boot : Boot
  dbg : Dbg
  pins : Pins
  tick : Nat
  deriving DecidableEq, Repr

/-- The state that power-on reset leaves before the boot sequence runs (R11, R563): every register at its Reset column,
memory RAW zero, STK.STATUS.STATE 0x0 (log 2). -/
def State.reset : State where
  pending := []
  ctxs := []
  nibs := []
  mem := []
  ckpt := {}
  imagePending := []
  shadowDue := []
  reads := []
  fills := []
  invals := []
  acks := []
  writes := []
  hostWrites := []
  storeAcks := []
  sends := []
  answers := []
  doorEvents := []
  ink := []
  inkState := []
  inkSets := []
  inkAuto := []
  inkClock := 0
  spares := []
  stackErr := []
  regs := []
  staged := []
  guards := []
  applies := []
  assign := []
  rubStaged := []
  rubActive := []
  rubOn := 0b111
  sheetOwner := []
  walkCache := []
  hub := 0
  stroke := {}
  log := []
  heldWrites := []
  journal := []
  replay := []
  nextInputs := []
  staging := []
  hostOut := []
  hostReads := []
  rings := []
  wards := []
  ports := []
  binds := []
  bindRefused := 0
  linksFailed := 0
  resend := []
  coll := []
  copyRecs := []
  chunks := []
  engines := []
  errNext := 0
  wardNews := []
  tallies := []
  drops := []
  snap := {}
  capture := {}
  latches := []
  power := {}
  steward := {}
  patch := {}
  boot := {}
  dbg := {}
  pins := {}
  tick := 0

end Sys2Proof.Machine
end

