-- ==== Sys2Proof/Machine/Ops.lean ====
section
/-! DEFINITION. The named operations every meaning uses: sparse maps, bit fields, access to contexts, nibs, wards and
registers of the state, the register file and its windows, results in flight, free values, tallies. -/

namespace Sys2Proof.Machine

abbrev Out := Host.Outcome State Fault Refusal

/-! ### Sparse maps -/

/-- The value at key k; `d` gives what an unlisted key holds. -/
def mget {α : Type} (d : Nat → α) : Map α → Nat → α
  | [], k => d k
  | (j, v) :: m, k => if k = j then v else if k < j then d k else mget d m k

/-- Sets the value at key k and keeps the canonical form: an entry equal to its default is not listed. -/
def mput {α : Type} [DecidableEq α] (d : Nat → α) : Map α → Nat → α → Map α
  | [], k, v => if v = d k then [] else [(k, v)]
  | (j, u) :: m, k, v =>
    if k < j then (if v = d k then (j, u) :: m else (k, v) :: (j, u) :: m)
    else if k = j then (if v = d k then m else (k, v) :: m)
    else (j, u) :: mput d m k v

/-- Sets the value at key k, listed whatever it is. -/
def mset {α : Type} : Map α → Nat → α → Map α
  | [], k, v => [(k, v)]
  | (j, u) :: m, k, v =>
    if k < j then (k, v) :: (j, u) :: m
    else if k = j then (k, v) :: m
    else (j, u) :: mset m k v

/-- The keys of a map rise strictly from `lo` on, and no entry equals its default. -/
def mwfFrom {α : Type} [DecidableEq α] (d : Nat → α) : Nat → Map α → Bool
  | _, [] => true
  | lo, (k, v) :: m => decide (lo ≤ k) && (decide (v ≠ d k) && mwfFrom d (k + 1) m)

/-- The canonical form of a sparse map. -/
def mwf {α : Type} [DecidableEq α] (d : Nat → α) (m : Map α) : Bool := mwfFrom d 0 m

/-- Removes the entries that a test names. -/
def mdrop {α : Type} (p : Nat → α → Bool) (m : Map α) : Map α := m.filter fun e => !p e.1 e.2

/-- The element at place k of a list, with what remains. -/
def takeAt {α : Type} : List α → Nat → Option (α × List α)
  | [], _ => none
  | x :: xs, 0 => some (x, xs)
  | x :: xs, k + 1 => (takeAt xs k).map fun r => (r.1, x :: r.2)

/-- The first element that a test names, with what remains. -/
def takeFirst {α : Type} (p : α → Bool) : List α → Option (α × List α)
  | [] => none
  | x :: xs => if p x then some (x, xs) else (takeFirst p xs).map fun r => (r.1, x :: r.2)

/-- Replaces the element at place k. -/
def setAt {α : Type} : List α → Nat → α → List α
  | [], _, _ => []
  | _ :: xs, 0, v => v :: xs
  | x :: xs, k + 1, v => x :: setAt xs k v

/-- The numbers a, a + 1, … of a range of n. -/
def upFrom : Nat → Nat → List Nat
  | _, 0 => []
  | a, n + 1 => a :: upFrom (a + 1) n

/-! ### Bit fields -/

/-- Bits [lo + len − 1 : lo] as a number. -/
def bits {w : Nat} (x : BitVec w) (lo len : Nat) : Nat := (x.extractLsb' lo len).toNat

/-- x with bits [lo + len − 1 : lo] set to v. -/
def setBits {w : Nat} (x : BitVec w) (lo len v : Nat) : BitVec w :=
  (x &&& ~~~(BitVec.ofNat w (((1 <<< len) - 1) <<< lo))) ||| BitVec.ofNat w ((v % (1 <<< len)) <<< lo)

/-- x with bit n set to b. -/
def setBit {w : Nat} (x : BitVec w) (n : Nat) (b : Bool) : BitVec w := setBits x n 1 (if b then 1 else 0)

/-- sext of R140 to 64 bits. -/
def sext {w : Nat} (x : BitVec w) : BitVec 64 := x.signExtend 64

/-- Little-endian number of a byte string (R7). -/
def leNat : List Byte → Nat
  | [] => 0
  | b :: bs => b.toNat + 256 * leNat bs

/-- n bytes of a number, little-endian (R7). -/
def leBytes : Nat → Nat → List Byte
  | 0, _ => []
  | n + 1, v => BitVec.ofNat 8 v :: leBytes n (v / 256)

/-- Bytes [o, o + n) of a string; a missing byte reads as zero. -/
def byteField (bs : List Byte) (o n : Nat) : Nat := leNat ((bs.drop o).take n)

/-- A mask over bits. -/
def underMask {w : Nat} (old new mask : BitVec w) : BitVec w := (old &&& ~~~mask) ||| (new &&& mask)

/-! ### Free values -/

/-- The next free value (log 6). -/
def State.draw (s : State) : BitVec 64 := Config.freeValue s.tick

/-- The counter moved past the value drawn. -/
def State.drawn (s : State) : State := { s with tick := s.tick + 1 }

/-! ### Contexts and nibs -/

/-- What a context holds at power-on reset: context 0 has PRIO 3 and LEVEL D (R94). -/
def ctxDefault (k : Nat) : Context := if k % 32 = 0 then { st := 0x3FFF000E } else {}

/-- Position 16 of a column is its spare (R14); a nib that no ward holds is parked (R549). -/
def nibDefault (n : Nat) : Nib := { spare := n % 17 == 16 }

def key (n c : Nat) : Nat := n * 32 + c

def State.ctx (s : State) (n c : Nat) : Context := mget ctxDefault s.ctxs (key n c)
def State.setCtx (s : State) (n c : Nat) (x : Context) : State := { s with ctxs := mset s.ctxs (key n c) x }
def State.modCtx (s : State) (n c : Nat) (f : Context → Context) : State := s.setCtx n c (f (s.ctx n c))

def State.nib (s : State) (n : Nat) : Nib := mget nibDefault s.nibs n
def State.setNib (s : State) (n : Nat) (x : Nib) : State := { s with nibs := mset s.nibs n x }
def State.modNib (s : State) (n : Nat) (f : Nib → Nib) : State := s.setNib n (f (s.nib n))

/-- Applies f to every context 0–31 of nib n. -/
def State.modNibCtxs (s : State) (n : Nat) (f : Nat → Context → Context) : State :=
  (upFrom 0 32).foldl (fun t c => t.modCtx n c (f c)) s

/-- The stroke fence stands from the tick to the next open (R411, R412). -/
def State.fenced (s : State) : Bool := s.stroke.phase != .opened

/-- The nib cycle of nib n: the hub counter plus the cycles its pairs have taken (R5, log 7). -/
def State.now (s : State) (n : Nat) : Nat := s.hub + (s.nib n).ahead

/-- Leaf, column within the leaf and position of a nib (R13). -/
def leafOf (n : Nat) : Nat := n / 136
def columnOf (n : Nat) : Nat := (n % 136) / 17
def posOf (n : Nat) : Nat := n % 17

/-- The requester lane of a nib (Table 01-2). -/
def laneOf (n : Nat) : Nat := 2 * leafOf n + (if columnOf n < 4 then 0 else 1)

/-- A nib is active when it is neither retired nor an unused spare, and its column is on (R14, R446, R533). -/
def Nib.active (b : Nib) : Bool := !b.retired && !b.switchedOff && (!b.spare || b.serves.isSome)

def State.activeNibs (s : State) : List Nat := (upFrom 0 544).filter fun n => (s.nib n).active

/-- The active nibs that the state lists, and so may hold anything (an unlisted nib is as at reset). -/
def State.listedNibs (s : State) : List Nat := (s.nibs.map Prod.fst).filter fun n => (s.nib n).active

/-! ### ST, WS and EVF fields (Table 03-3, Table 03-4, Table 03-9) -/

abbrev lvU : BitVec 2 := 0b00
abbrev lvS : BitVec 2 := 0b01
abbrev lvD : BitVec 2 := 0b10
abbrev lvM : BitVec 2 := 0b11

/-- Scheduling states (Table 03-8). -/
abbrev stIdle : Nat := 0
abbrev stReady : Nat := 1
abbrev stRunning : Nat := 2
abbrev stParked : Nat := 3
abbrev stWaiting : Nat := 4
abbrev stFrozen : Nat := 5

def Context.level (c : Context) : BitVec 2 := c.st.extractLsb' 0 2
def Context.prio (c : Context) : Nat := bits c.st 2 2
def Context.exact (c : Context) : Bool := c.st.getLsbD 5
def Context.ord (c : Context) : Bool := c.st.getLsbD 6
def Context.mpend (c : Context) : Bool := c.st.getLsbD 7
def Context.stdy (c : Context) : Bool := c.st.getLsbD 8
def Context.state (c : Context) : Nat := bits c.st 9 3
def Context.wcn (c : Context) : Nat := bits c.st 16 14
/-- A state line of the context has changed (R426). -/
def Context.touch (c : Context) (line : Nat) : Context := { c with stateDirty := setBit c.stateDirty line true }
/-- The message queue has changed: its line, and the count beside EVF (Table 11-6). -/
def Context.touchQueue (c : Context) : Context := (c.touch 1).touch 0
def Context.setSt (c : Context) (lo len v : Nat) : Context := { c with st := setBits c.st lo len v }.touch 0
def Context.setState (c : Context) (v : Nat) : Context := c.setSt 9 3 v

def Context.cwp (c : Context) : Nat := bits c.ws 0 3
def Context.res (c : Context) : Nat := bits c.ws 3 3
def Context.tw (c : Context) : Bool := c.ws.getLsbD 6
def Context.dly (c : Context) : Bool := c.ws.getLsbD 7
def Context.dkind (c : Context) : Nat := bits c.ws 8 2
def Context.hb (c : Context) (w : Nat) : Bool := c.ws.getLsbD (10 + w)
def Context.dtgt (c : Context) : BitVec 64 := BitVec.ofNat 64 (bits c.ws 19 45 * 8)
def Context.setWs (c : Context) (lo len v : Nat) : Context := { c with ws := setBits c.ws lo len v }.touch 0

abbrev evTimer : Nat := 0
abbrev evWake : Nat := 1
abbrev evMsg : Nat := 2
abbrev evStroke : Nat := 3

/-- The save set of a level (R219). -/
def Context.save (c : Context) (l : BitVec 2) : SaveSet :=
  if l = lvS then c.saveS else if l = lvD then c.saveD else c.saveM

/-- The save sets lie word by word in lines 20 and 21, the slots in lines 22 to 24 (DESIGN CHOICE: Table 11-6 leaves their layout
private, log 45). -/
def Context.setSave (c : Context) (l : BitVec 2) (v : SaveSet) : Context :=
  if l = lvS then { c with saveS := v }.touch 2 else if l = lvD then ({ c with saveD := v }.touch 2).touch 3
  else { c with saveM := v }.touch 3

/-- A save set is live while SV.CAUSE[7:0] is nonzero (R219). -/
def SaveSet.live (v : SaveSet) : Bool := v.cause.extractLsb' 0 8 != 0

/-- The micro-save slot of a level (R266). -/
def Context.slot (c : Context) (l : BitVec 2) : MicroSlot :=
  if l = lvU then c.slotU else if l = lvS then c.slotS else if l = lvD then c.slotD else c.slotM

def Context.setSlot (c : Context) (l : BitVec 2) (v : MicroSlot) : Context :=
  if l = lvU then { c with slotU := v }.touch 4 else if l = lvS then ({ c with slotS := v }.touch 4).touch 5
  else if l = lvD then { c with slotD := v }.touch 5 else ({ c with slotM := v }.touch 5).touch 6

/-! ### The register file (R79 to R84) -/

/-- Registers hold FIXNUM 0 at reset (R85). -/
def regDefault (_ : Nat) : Word := Word.fx 0

/-- A handler base window's h registers are group 17 while the level's save set is live (R237). -/
def Context.handlerBase (c : Context) : Bool := !c.tw && c.hb c.cwp && (c.save c.level).live

/-- The physical index of register number r in the current window (R79, R82, R83, R86). -/
def Context.phys (c : Context) (r : BitVec 5) : Nat :=
  let k := r.toNat
  if k < 8 then k
  else if c.tw then 112 + k
  else if k < 16 then
    if c.handlerBase then 136 + (k - 8) else 16 + 16 * ((c.cwp + 6) % 7) + (k - 8)
  else if k < 24 then 8 + 16 * c.cwp + (k - 16)
  else 16 + 16 * c.cwp + (k - 24)

/-- The word of physical register n; z0 reads as FIXNUM 0 (R80). -/
def Context.reg (c : Context) (n : Nat) : Word := if n = 0 then Word.fx 0 else mget regDefault c.regs n

/-- A landing in physical register n: a write to z0 is discarded, any other sets its group's dirty bit, and the CDR of a
register is 0b00 (R51, R80, R84). -/
def Context.putReg (c : Context) (n : Nat) (w : Word) : Context :=
  if n = 0 then c
  else { c with regs := mput regDefault c.regs n { w with cdr := 0 }, dirty := setBit c.dirty (n / 8) true }

/-- Inserts a result in order of its landing cycle; of two that land in one cycle the later-issued comes last (R102). -/
def insertLanding (x : Landing) : List Landing → List Landing
  | [] => [x]
  | y :: ys => if x.due < y.due ∨ (x.due = y.due ∧ x.iss < y.iss) then x :: y :: ys else y :: insertLanding x ys

/-- The save set of a level stops being live: a spill engine that it held may retry (R242). -/
def Context.setFreed (c : Context) (l : BitVec 2) : Context :=
  if (c.save l).live then c else { c with spillGo := c.spillGo || c.suspended == some l }

/-- ST as a return leaves it: every field but WCN and STATE, no STEADY region, and no level of the other group of contexts (R215, R235;
DEDUCED, log 77). -/
def Context.returnSt (c : Context) (zero : Bool) (st : BitVec 32) : BitVec 32 :=
  let v := setBits (underMask c.st st 0x1EF) 8 1 0
  if zero == decide (2 ≤ bits v 0 2) then v else setBits v 0 2 c.level.toNat

/-- A save register by its item number (R141). -/
def SaveSet.item (v : SaveSet) (i : Nat) : BitVec 64 :=
  match i with
  | 0 => v.pc
  | 1 => v.st
  | 2 => v.cause
  | 3 => v.info
  | _ => v.win

/-- The ST bits that STW at a level may change (R93): EXACT and ORD at U, PRIO and MPEND too above. -/
def stwMask (l : BitVec 2) : BitVec 32 := if l = lvU then 0x60 else 0xEC

/-- SVW under the limits of R220. -/
def Context.writeSave (c : Context) (zero : Bool) (l : BitVec 2) (item : Nat) (v : BitVec 64) : Context :=
  let sv := c.save l
  match item with
  | 0 => c.setSave l { sv with pc := v &&& ~~~(7#64) }
  | 1 =>
    let old : BitVec 32 := sv.st.setWidth 32
    let new : BitVec 32 := v.setWidth 32
    let mask := stwMask l
    let prioBad := !zero && bits new 2 2 = 3
    let mask := if prioBad then mask &&& ~~~(0xC#32) else mask
    let lv : BitVec 2 := new.extractLsb' 0 2
    let lvOk := decide (lv.toNat ≤ l.toNat) && (if zero then decide (2 ≤ lv.toNat) else decide (lv.toNat ≤ 1))
    let st := underMask old new mask
    let st := if lvOk then setBits st 0 2 lv.toNat else st
    c.setSave l { sv with st := st.setWidth 64 }
  | 2 => (c.setSave l { sv with cause := v &&& 0x1FFF }).setFreed l
  | 3 => c.setSave l { sv with info := v }
  | _ => c.setSave l { sv with win := underMask sv.win v 0xFFFFFFFFFFF80380 }

/-- One result lands (R102, R105). -/
def Context.landOne (zero : Bool) (c : Context) (x : Landing) : Context :=
  match x.tgt with
  | .reg n => c.putReg n x.word
  | .st => { c with st := underMask c.st (x.word.pay.setWidth 32) 0xEC }.touch 0
  | .save l i => c.writeSave zero (BitVec.ofNat 2 l) i x.word.pay

/-- Every result due in or before nib cycle `now` lands, in the order of R102. -/
def Context.settle (zero : Bool) (now : Nat) (c : Context) : Context :=
  (c.inflight.takeWhile fun x => decide (x.due ≤ now)).foldl (Context.landOne zero)
    { c with inflight := c.inflight.dropWhile fun x => decide (x.due ≤ now) }

/-- Context c of nib n with every landing up to the nib's cycle made. -/
def State.settled (s : State) (n c : Nat) : State := s.modCtx n c (Context.settle (c == 0) (s.now n))

/-- A result joins those in flight. -/
def Context.launch (c : Context) (due iss : Nat) (t : Target) (w : Word) : Context :=
  { c with inflight := insertLanding ⟨due, iss, t, w⟩ c.inflight }

/-- The place of a slot of the pair of nib cycle t in the order of issue (R97). -/
def issueNo (t : Nat) (slot : Bool) : Nat := 2 * t + if slot then 1 else 0

/-! ### Wards, rings, ports, collector -/

/-- Reset values of the policy envelope (Table 14-8). -/
def envReset : List Byte :=
  leBytes 2 1 ++ leBytes 2 16 ++ leBytes 1 75 ++ leBytes 1 1 ++ leBytes 1 16 ++ leBytes 1 0 ++ leBytes 2 64
    ++ leBytes 2 25 ++ leBytes 2 250 ++ leBytes 2 0 ++ leBytes 1 0 ++ leBytes 1 4 ++ leBytes 46 0

def wardDefault (_ : Nat) : Ward := { env := envReset }
def State.ward (s : State) (w : Nat) : Ward := mget wardDefault s.wards w
def State.modWard (s : State) (w : Nat) (f : Ward → Ward) : State := { s with wards := mset s.wards w (f (s.ward w)) }

def State.ring (s : State) (w r : Nat) : Ring := mget (fun _ => {}) s.rings (w * 64 + r)
def State.modRing (s : State) (w r : Nat) (f : Ring → Ring) : State :=
  { s with rings := mset s.rings (w * 64 + r) (f (s.ring w r)) }

def State.port (s : State) (p : Nat) : Port := mget (fun _ => {}) s.ports p
def State.modPort (s : State) (p : Nat) (f : Port → Port) : State := { s with ports := mset s.ports p (f (s.port p)) }

/-- The ward a port is bound to (R466). -/
def State.bound (s : State) (p : Nat) : Option Nat := mget (fun _ => none) s.binds p

def State.collOf (s : State) (w : Nat) : Coll := mget (fun _ => {}) s.coll w
def State.modColl (s : State) (w : Nat) (f : Coll → Coll) : State := { s with coll := mset s.coll w (f (s.collOf w)) }

/-- The ports bound to a ward. -/
def State.portsOf (s : State) (w : Nat) : List Nat := (upFrom 0 8).filter fun p => s.bound p == some w

/-- The steward ward (R468). -/
def State.stewardWard (s : State) : Option Nat := s.bound s.boot.steward

/-! ### Outputs and tallies -/

/-- A case of R596 arises: ALARM_N and SMBALERT_N go low. -/
def State.raiseAlarm (s : State) : State := { s with pins := { s.pins with alarmLow := true, alertLow := true } }

def State.emit (s : State) (o : HostOut) : State := { s with hostOut := s.hostOut ++ [o] }

/-- Adds n to a counter (R454, R455); counters are 64 bits. -/
def State.count (s : State) (unit idx : Nat) (n : Nat := 1) : State :=
  let k := unit * 16 + idx
  { s with tallies := mput (fun _ => 0) s.tallies k ((mget (fun _ => 0) s.tallies k + n) % 2 ^ 64) }

/-- The context waits at a barrier. -/
def Context.atBarrier (x : Context) : Bool :=
  match x.parked with
  | some p => match p.why with
    | .barrier _ => true
    | _ => false
  | none => false

/-- What a nib counts in k of its cycles by their state (R455, Table 11-12): a barrier wait, a full store buffer, STDY. -/
def State.tallyCycles (s : State) (n k : Nat) : State :=
  let on (s : State) (b : Bool) (i : Nat) : State := if b then s.count n i k else s
  let xs := (upFrom 0 32).map fun c => s.ctx n c
  on (on (on s (xs.any Context.atBarrier) 10) (decide (16 ≤ (s.nib n).storeBuf.length)) 11) (xs.any Context.stdy) 15

/-- A nib's cycles so far in which no pair issued, as the clocks and its counter 0 give them (Table 11-12). -/
def State.noIssue (s : State) (n : Nat) : Nat := s.now n - mget (fun _ => 0) s.tallies (n * 16)

/-- k cycles of a nib pass. -/
def State.elapse (s : State) (n k : Nat) : State := (s.tallyCycles n k).modNib n fun b => { b with ahead := b.ahead + k }

/-- A nib's store is dropped, or its load abandoned: its tally counts one (R148, R298, R299, log 43). -/
def State.countDrop (s : State) (n : Nat) : State :=
  { s with drops := mput (fun _ => 0) s.drops n ((mget (fun _ => 0) s.drops n + 1) % 2 ^ 64) }

/-! ### Match registers (R275, R276) -/

/-- The enabled match register of a nib for a micro-ROM address, or for a dispatch index: its TARGET (Table 07-8). -/
def Nib.matchAt (b : Nib) (index : Bool) (m : Nat) : Option Nat :=
  if !b.patched then none
  else (b.store.regs.find? fun r => r.getLsbD 31 && r.getLsbD 30 == index && bits r 16 14 == m).map fun r => bits r 0 10

/-- What the patched routine of a fixed entry point makes of a value: private datapath work, so a free value (R257, R260,
R276). -/
def State.viaEntry (s : State) (n entry : Nat) (v : BitVec 64) : BitVec 64 :=
  match (s.nib n).matchAt false entry with
  | some t => Config.patchedValue t v
  | none => v

/-! ### Policy envelope fields (Table 14-8) -/

def Ward.envField (w : Ward) (o n : Nat) : Nat := byteField w.env o n

end Sys2Proof.Machine
end

