-- ==== Sys2Proof/Machine/Operands.lean ====
section
/-! DEFINITION. Operand classes, reserved encodings, capabilities, object headers, the fields of the instruction formats
and their checks, and the faults that operands raise. -/

namespace Sys2Proof.Machine

/-! ### Classes of words -/

/-- A reference TYPE, CONS included (Table 02-2). -/
def isRefType (t : BitVec 6) : Bool := (decide (0x08 ≤ t) && decide (t ≤ 0x0F)) || (decide (0x18 ≤ t) && decide (t ≤ 0x1F))

def isCapType (t : BitVec 6) : Bool := t == Ty.capLo || t == Ty.capHi

/-- The pointer-typed words of R39: references, structures and capabilities. -/
def isPointerType (t : BitVec 6) : Bool := (decide (0x08 ≤ t) && decide (t ≤ 0x15)) || (decide (0x18 ≤ t) && decide (t ≤ 0x1F))

/-- A reserved TYPE code (Table 02-2). -/
def isReservedType (t : BitVec 6) : Bool := (decide (0x05 ≤ t) && decide (t ≤ 0x07)) || decide (0x20 ≤ t)

/-- R40. -/
def reservedWord (w : Word) : Bool :=
  isReservedType w.typ || w.cdr == 3 || (w.typ == Ty.immed && decide (5 < w.pay))
    || (w.typ == Ty.char && (decide (0x10FFFF < w.pay) || (decide (0xD800 ≤ w.pay) && decide (w.pay ≤ 0xDFFF))))

/-- A reference or capability word, which the collector's barriers watch (R381, R385). -/
def isTraced (w : Word) : Bool := isRefType w.typ || isCapType w.typ

/-- COLOUR of a marker word is written as 0b00 (R43). -/
def unmarked (w : Word) : Word := if w.typ = Ty.spill ∨ w.typ = Ty.poison then { w with col := 0 } else w

/-- Equality of TYPE and payload (R44). -/
def eqWord (a b : Word) : Bool := a.typ == b.typ && a.pay == b.pay

/-- The class that TTEST with SUB 0b001 finds (R141): 0 immediate, 1 reference, 2 capability, 3 number; a word may be of
two. -/
def inClass (w : Word) (k : Nat) : Bool :=
  match k with
  | 0 => decide (w.typ ≤ 0x04)
  | 1 => isRefType w.typ
  | 2 => isCapType w.typ
  | _ => w.typ == Ty.fixnum || w.typ == Ty.flonum || w.typ == Ty.bignum

/-! ### Headers (R53) -/

def hdrOtype (w : Word) : Nat := bits w.pay 48 16
def hdrRtype (w : Word) : BitVec 6 := w.pay.extractLsb' 42 6
def hdrGate (w : Word) : Bool := w.pay.getLsbD 41
def hdrFrozen (w : Word) : Bool := w.pay.getLsbD 40
def hdrKey (w : Word) : Bool := w.pay.getLsbD 39
def hdrLen (w : Word) : Nat := bits w.pay 0 36

/-- An RTYPE that a HEADER may have (Table 02-7). -/
def okRtype (t : BitVec 6) : Bool := isRefType t && t != Ty.cons

/-- A HEADER payload that the privileged retag refuses (R57). -/
def badHeader (w : Word) : Bool :=
  w.typ == Ty.header && (bits w.pay 36 3 != 0 || !okRtype (hdrRtype w) || (hdrKey w && hdrOtype w == 0))

/-- WADDR of a reference, as a byte address (R52). -/
def waddr (w : Word) : BitVec 64 := w.pay &&& 0xFFFFFFFFFFF8

/-! ### Capabilities (R170 to R178) -/

/-- A capability's words (R170). -/
structure CapV where
  lo : Word
  hi : Word
  deriving DecidableEq, Repr

def CapV.cursor (k : CapV) : Nat := bits k.lo.pay 16 48
def CapV.perms (k : CapV) : BitVec 16 := k.lo.pay.extractLsb' 0 16
def CapV.base (k : CapV) : Nat := bits k.hi.pay 16 48
def CapV.len (k : CapV) : Nat := bits k.hi.pay 0 12 * 8 ^ bits k.hi.pay 12 4
def CapV.top (k : CapV) : Nat := k.base + k.len
def CapV.sealed (k : CapV) : Bool := k.perms.getLsbD 15
/-- Every permission of a mask is held. -/
def CapV.has (k : CapV) (m : BitVec 16) : Bool := k.perms &&& m == m

abbrev pR : BitVec 16 := 0x0001
abbrev pW : BitVec 16 := 0x0002
abbrev pX : BitVec 16 := 0x0004
abbrev pLC : BitVec 16 := 0x0008
abbrev pSC : BitVec 16 := 0x0010
abbrev pSL : BitVec 16 := 0x0020
abbrev pGLOBAL : BitVec 16 := 0x0040
abbrev pSEAL : BitVec 16 := 0x0080
abbrev pUNSEAL : BitVec 16 := 0x0100
abbrev pGATE : BitVec 16 := 0x0200
abbrev pDERIVE : BitVec 16 := 0x0400

/-- R172. -/
def CapV.ok (k : CapV) : Bool :=
  k.lo.typ == Ty.capLo && k.hi.typ == Ty.capHi && decide (bits k.hi.pay 12 4 ≤ 12) && decide (k.top ≤ 2 ^ 48)
    && decide (k.base ≤ k.cursor) && decide (k.cursor ≤ k.top) && bits k.lo.pay 11 4 == 0

def CapV.setCursor (k : CapV) (a : Nat) : CapV := { k with lo := { k.lo with pay := setBits k.lo.pay 16 48 a } }
def CapV.setPerms (k : CapV) (p : BitVec 16) : CapV := { k with lo := { k.lo with pay := setBits k.lo.pay 0 16 p.toNat } }

/-- The least E from `e` on, within `n` more, for which the mantissa ⌈L ÷ 8^E⌉ fits 12 bits (R175). -/
def reprFrom (l : Nat) : Nat → Nat → Option (Nat × Nat)
  | e, 0 => let m := (l + 8 ^ e - 1) / 8 ^ e; if m ≤ 4095 then some (e, m) else none
  | e, n + 1 => let m := (l + 8 ^ e - 1) / 8 ^ e; if m ≤ 4095 then some (e, m) else reprFrom l (e + 1) n

/-- repr_up(L) of R175, as its exponent and mantissa. -/
def reprUp (l : Nat) : Option (Nat × Nat) := reprFrom l 0 12

/-- The least E for which L is M × 8^E exactly, with its M (R174, R176). -/
def reprExactFrom (l : Nat) : Nat → Nat → Option (Nat × Nat)
  | e, 0 => if l % 8 ^ e = 0 ∧ l / 8 ^ e ≤ 4095 then some (e, l / 8 ^ e) else none
  | e, n + 1 => if l % 8 ^ e = 0 ∧ l / 8 ^ e ≤ 4095 then some (e, l / 8 ^ e) else reprExactFrom l (e + 1) n

def reprExact (l : Nat) : Option (Nat × Nat) := reprExactFrom l 0 12

/-- A CAP.HI payload. -/
def capHiPay (base e m : Nat) : BitVec 64 := BitVec.ofNat 64 (base * 65536 + e * 4096 + m)

/-! ### Faults (R217, Table 06-2) -/

/-- SV.INFO: SUB in [63:56], AUX in [55:48], ADDR in [47:0] (R217). -/
def info (sub aux : Nat) (addr : Nat) : BitVec 64 :=
  BitVec.ofNat 64 ((sub % 256) * 2 ^ 56 + (aux % 256) * 2 ^ 48 + addr % 2 ^ 48)

/-- Cause codes of Table 06-2. -/
def Cause.code : Cause → BitVec 8
  | .opcode => 0x01 | .align => 0x02 | .bus => 0x03 | .tag => 0x04 | .tagReserved => 0x05 | .bounds => 0x06
  | .perm => 0x07 | .sealed => 0x08 | .xlate => 0x09 | .xrights => 0x0A | .walk => 0x0B | .rubric => 0x0C
  | .gate => 0x0D | .spill => 0x0E | .promote => 0x0F | .generic => 0x10 | .arith => 0x11 | .barrier => 0x12
  | .poison => 0x13 | .mcChecker => 0x20 | .mcUstore => 0x21 | .mcVote => 0x22 | .mcUncorr => 0x23 | .mcLink => 0x24
  | .mcColophon => 0x25 | .mcLockstep => 0x26 | .mcClock => 0x27 | .mcArray => 0x28 | .mcNested => 0x29

abbrev Plan := Except SlotOut

/-- The slot faults. -/
def fail {α : Type} (k : Cause) (i : BitVec 64) : Plan α := .error (.trap { cause := k, info := i })
/-- FLT_OPCODE with a sub-cause of Table 03-11. -/
def failOp {α : Type} (sub : BitVec 8) : Plan α := .error (.opcode sub)
/-- The pair waits and issues again. -/
def waitFor {α : Type} (w : Wait) : Plan α := .error (.wait w)
/-- FLT_TAG on a register operand. -/
def failTag {α : Type} (r : BitVec 5) : Plan α := fail .tag (info 1 r.toNat 0)
/-- FLT_TAG on a word in memory. -/
def failTagAt {α : Type} (a : Nat) : Plan α := fail .tag (info 2 0 a)

def need (b : Bool) (e : SlotOut) : Plan Unit := if b then .ok () else .error e
/-- A field that must be zero (sub-cause 0x03). -/
def zero {w : Nat} (x : BitVec w) : Plan Unit := need (x == 0) (.opcode 0x03)
/-- A value that the instruction defines (sub-cause 0x02). -/
def defined (b : Bool) : Plan Unit := need b (.opcode 0x02)
/-- A register number that names a capability pair (R81, sub-cause 0x04). -/
def pairReg (r : BitVec 5) : Plan Unit := need (r != 0 && !r.getLsbD 0) (.opcode 0x04)

/-! ### Operands of a pair being planned -/

/-- What a slot's plan sees: the state before the pair, the nib and context, the context with every due landing made and
any pending window change made, the slot, and the lines that parked accesses brought. -/
structure Env where
  s : State
  n : Nat
  c : Nat
  x : Context
  slot : Bool := false
  got : List CLine := []
  deriving DecidableEq, Repr

/-- The word in register r. -/
def Env.r (e : Env) (r : BitVec 5) : Word := e.x.reg (e.x.phys r)

/-- Every register that the slot reads or writes belongs to a fetched group (R124). -/
def Env.fetched (e : Env) : List (BitVec 5) → Plan Unit
  | [] => .ok ()
  | r :: rs =>
    let g := e.x.phys r / 8
    if e.x.unfetched.getLsbD g then waitFor (.group e.c g) else e.fetched rs

/-- Register groups named by number are fetched. -/
def Env.groups (e : Env) : List Nat → Plan Unit
  | [] => .ok ()
  | g :: gs => if e.x.unfetched.getLsbD g then waitFor (.group e.c g) else e.groups gs

/-- FLT_POISON for source registers in the order given (R50, R136). -/
def Env.clean (e : Env) : List (BitVec 5) → Plan Unit
  | [] => .ok ()
  | r :: rs => if (e.r r).typ = Ty.poison then fail .poison (info 0 r.toNat 0) else e.clean rs

/-- Sources and destinations of an instruction: groups fetched, then no source POISON. -/
def Env.srcs (e : Env) (src dst : List (BitVec 5)) : Plan Unit := do
  e.fetched (src ++ dst)
  e.clean src

/-- The slot's level is at least L (R130). -/
def Env.atLeast (e : Env) (l : BitVec 2) : Plan Unit := need (decide (l.toNat ≤ e.x.level.toNat)) (.trap { cause := .perm, info := 0 })

/-- An I64 operand. -/
def Env.i64 (e : Env) (r : BitVec 5) : Plan Word :=
  let w := e.r r
  if w.typ = Ty.fixnum ∨ w.typ = Ty.raw then .ok w else failTag r

/-- An operand of one TYPE. -/
def Env.ofType (e : Env) (t : BitVec 6) (r : BitVec 5) : Plan Word :=
  let w := e.r r
  if w.typ = t then .ok w else failTag r

/-- A REF operand. -/
def Env.ref (e : Env) (r : BitVec 5) : Plan Word :=
  let w := e.r r
  if okRtype w.typ then .ok w else failTag r

/-- An NC operand. -/
def Env.nc (e : Env) (r : BitVec 5) : Plan Word :=
  let w := e.r r
  if isCapType w.typ then failTag r else .ok w

/-- The words of registers r and r + 1. -/
def Env.pair (e : Env) (r : BitVec 5) : CapV := ⟨e.r r, e.r (r + 1)⟩

/-- A CAP operand: a pair that is well formed (R172, R173). -/
def Env.cap (e : Env) (r : BitVec 5) : Plan CapV :=
  let k := e.pair r
  if k.ok then .ok k else failTag r

/-- cap_addr of R149 and R152: the alignment is checked on the cursor payload before POISON and tags, so it stands apart. -/
def capAlign (k : CapV) (off : Int) (size : Nat) : Plan Unit :=
  let a := ((k.cursor : Int) + off)
  need (a % (size : Int) == 0) (.trap { cause := .align, info := info 0 0 (a % 2 ^ 48).toNat })

/-- The rest of cap_addr: SEALED, permissions, bounds (R149, R201, R189). -/
def capCheck (k : CapV) (off : Int) (size : Nat) (rights : BitVec 16) : Plan Nat :=
  let a := ((k.cursor : Int) + off)
  let av := (a % 2 ^ 48).toNat
  if k.sealed then fail .sealed 0
  else if !k.has rights then fail .perm (info 0 0 av)
  else if a < (k.base : Int) ∨ (k.top : Int) < a + (size : Int) then fail .bounds (info 0 0 av)
  else .ok a.toNat

/-- Landing of one word in register r at a distance. -/
def Env.to (e : Env) (r : BitVec 5) (d : Nat) (w : Word) : Effect := .land d (.reg (e.x.phys r)) w

/-- A pair landing in registers r and r + 1 (R179). -/
def Env.toPair (e : Env) (r : BitVec 5) (d : Nat) (k : CapV) : List Effect := [e.to r d k.lo, e.to (r + 1) d k.hi]

/-- A CAP word lands alone as RAW (R180). -/
def single (w : Word) : Word := if isCapType w.typ then Word.rawOf w.pay else w

end Sys2Proof.Machine
end

