-- ==== Sys2Proof/Machine/Checks.lean ====
section
/-! DEFINITION. Machine checks: causes, what SV.INFO holds of them, and the fault report that reaches the root. -/

namespace Sys2Proof.Machine

/-! ### Machine checks (R218, R421, R425, Table 06-2) -/

def mcCause : McCause → Cause
  | .checker => .mcChecker
  | .ustore _ => .mcUstore
  | .vote _ _ => .mcVote
  | .uncorrectable _ => .mcUncorr
  | .link _ => .mcLink
  | .colophon => .mcColophon
  | .lockstep => .mcLockstep
  | .clock _ => .mcClock
  | .array _ => .mcArray
  | .nested _ => .mcNested

def mcCode (c : McCause) : BitVec 8 := (mcCause c).code

/-- SV.INFO of a machine check (Table 06-2): a nib's position and number, a lane and a block, a link, the stroke. -/
def mcInfo (c : McCause) (s : State) (unit : Nat) : BitVec 64 :=
  match c with
  | .checker => info 0 (posOf unit) unit
  | .ustore k => info k.toNat 0 unit
  | .vote l a => info 0 l.toNat a.toNat
  | .uncorrectable a => info 0 0 a.toNat
  | .link n => info 0 n.toNat 0
  | .colophon => info 0 0 s.stroke.num
  | .lockstep => 0
  | .clock k => info k.toNat 0 0
  | .array k => info k.toNat 0 unit
  | .nested x => info 0 x.val (s.ctx unit x.val).pc.toNat

/-- A fault report's way to the root: the hub cycles it takes, and its input at the root, at the leaf node and at the column node (R419 to
R421). -/
def faultPath (u : Nat) : Nat × Nat × Nat × Nat :=
  if u < 544 then (30, leafOf u, columnOf u, posOf u)
  else if u < 560 then (29, (u - 544) / 4, 8 + (u - 544) % 4, 0)
  else if u < 564 then (29, u - 560, 12, 0)
  else if u < 572 then (29, (u - 564) / 2, 13 + (u - 564) % 2, 0)
  else (0, u - 568, 0, 0)

/-- Of two reports the one of lower rank reaches the root first: by its cycle, then in rising input number (R421). -/
def FaultRep.rank (f : FaultRep) : Nat :=
  let p := faultPath f.unit
  (((f.at_ + p.1) * 64 + p.2.1) * 16 + p.2.2.1) * 32 + p.2.2.2

/-- A fault report is sent to the root: the attempt is to be voided, and the report that the root receives first is recorded in STK.VOID
(R421, R425). -/
def State.detect (s : State) (unit : Nat) (c : McCause) : State :=
  let k := s.stroke
  let f : FaultRep := { unit := unit, cause := c, at_ := s.hub }
  let later := k.voided && k.faults.any fun g => decide (g.rank ≤ f.rank)
  let k := { k with faults := k.faults ++ [f] }
  if later then { s with stroke := k }
  else { s with stroke := { k with voided := true, voidUnit := unit, voidCode := mcCode c, voidNum := k.num } }

/-! ### Links between dies (R17, R18) -/

/-- Bits of ID.LINKS: leaf × 2 + link. -/
def linkBit (leaf link : Nat) : Nat := leaf * 2 + link

/-- The link that carries a unit's traffic (R17, R18): columns 0 to 3, engines 0 and 1 and what is addressed to the leaf use link 0,
columns 4 to 7 and engines 2 and 3 link 1; a link end is its own; traffic of a failed link uses the surviving one. -/
def State.linkOf (s : State) (u : Nat) : Option Nat :=
  let pick (leaf link : Nat) : Nat := if s.linksFailed.getLsbD (linkBit leaf link) then linkBit leaf (1 - link) else linkBit leaf link
  if u < 544 then some (pick (leafOf u) (columnOf u / 4))
  else if u < 560 then some (pick ((u - 544) / 4) ((u - 544) % 4 / 2))
  else if u < 564 then some (pick (u - 560) 0)
  else if u < 572 then some (u - 564)
  else if u < 580 then some (u - 572)
  else none

/-- Blocks of the unit's link are still to be sent again: what the link carries to or from the unit waits behind them (R17; that it keeps
its order is DEDUCED, log 81). -/
def State.resending (s : State) (u : Nat) : Bool :=
  match s.linkOf u with
  | some k => mget (fun _ => 0) s.resend k != 0
  | none => false

/-- An event for a nib comes over link 0 of its leaf, or the surviving one (R17, R18). -/
def State.eventWaits (s : State) (n : Nat) : Bool := s.resending (560 + leafOf n)

end Sys2Proof.Machine
end

