-- ==== Sys2Proof/Machine/AddressMap.lean ====
section
/-! DEFINITION. The device physical address map (R22 to R25): regions, lines, pages, stacks and sheets. -/

namespace Sys2Proof.Machine

/-! ### The address map (R23, Table 01-3, Table 01-4) -/

def heapEnd : Nat := 0x4000000000
def palEnd : Nat := 0x4400000000
def sysEnd : Nat := 0x4600000000
def devBase : Nat := 0xF000000000
def devEnd : Nat := 0xF100000000

def inHeap (a : Nat) : Bool := decide (a < heapEnd)
def inPal (a : Nat) : Bool := decide (heapEnd ≤ a) && decide (a < palEnd)
def inSys (a : Nat) : Bool := decide (palEnd ≤ a) && decide (a < sysEnd)
def inMem (a : Nat) : Bool := decide (a < sysEnd)
def inDev (a : Nat) : Bool := decide (devBase ≤ a) && decide (a < devEnd)

def lineOf (a : Nat) : Nat := a - a % 64
def pageOf (a : Nat) : Nat := a / 65536
/-- R22. -/
def stackOf (a : Nat) : Nat := Nat.xor (a / 64 % 8) (a / 4096 % 8)
/-- R25. -/
def sheetOf (a : Nat) : Nat := a / 0x2000000

/-- Line k of the register shadow image of context c of nib n (R427). -/
def imageLine (n c k : Nat) : Nat := 0x4410000000 + n * 0x10000 + c * 0x800 + 64 * k

end Sys2Proof.Machine
end

