-- ==== Sys2Proof/Machine/RegFile.lean ====
section
/-! DEFINITION. Where set-up registers lie, what they hold at reset, and the stored fields of them. -/

namespace Sys2Proof.Machine

/-! ### Addresses (R521, R524, R525) -/

def pgID : Nat := 0xF000000000
def pgRUB : Nat := 0xF000001000
def pgSTK : Nat := 0xF000002000
def pgPSM : Nat := 0xF000003000
def pgTAL : Nat := 0xF000004000
def pgPAT : Nat := 0xF000005000
def pgPRT : Nat := 0xF000006000
def pgWAS : Nat := 0xF000007000
def pgSWD : Nat := 0xF000008000
def pgPWR : Nat := 0xF000009000
def pgLCS : Nat := 0xF00000A000
def pgDBG : Nat := 0xF00000B000
def pgINK (s : Nat) : Nat := 0xF000010000 + 0x1000 * s
def pgPCB (p : Nat) : Nat := 0xF000060000 + 0x1000 * p
def window (w : Nat) : Nat := 0xF000100000 + 0x10000 * w
/-- The nib page of nib n (R525). -/
def nibPage (n : Nat) : Nat := 0xF001000000 + leafOf n * 0x400000 + 0x100000 + 0x4000 * (n % 136)
def ctxPage (n : Nat) : Nat := nibPage n + 0x1000

/-! ### Stored fields -/

/-- Reset values that are not zero, of registers that hold their fields themselves. -/
def regReset (a : Nat) : BitVec 32 :=
  if a = pgSTK then 0x64
  else if a = pgPSM then 8
  else if a = pgSWD then 0x1E
  else if a = pgPWR + 0x10 then 0x5F0000
  else if window 0 ≤ a % 2 ^ 41 ∧ a % 2 ^ 41 < window 8 then
    (if a % 0x10000 = 0x201C then 0xFE3FFF else if a % 0x10000 = 0x4000 then 0x800000 else 0)
  else 0

/-- The active value of a register that holds its fields. -/
def State.reg32 (s : State) (a : Nat) : BitVec 32 := mget regReset s.regs a
def State.setReg (s : State) (a : Nat) (v : BitVec 32) : State := { s with regs := mput regReset s.regs a v }
/-- The staged value of a register of type /S: the active value until a write (R517). -/
def State.stagedReg (s : State) (a : Nat) : BitVec 32 := ((s.staged.find? fun e => e.1 == a).map Prod.snd).getD (s.reg32 a)
def State.setStaged (s : State) (a : Nat) (v : BitVec 32) : State := { s with staged := mset s.staged a v }

/-- A flag of a WSC register sets: SEQ in [31:24] rises by one (R509). -/
def State.setFlags (s : State) (a : Nat) (flags : BitVec 32) : State :=
  if flags = 0 then s
  else
    let v := s.reg32 a
    s.setReg a (setBits (v ||| (flags &&& 0xFFFFFF)) 24 8 (bits v 24 8 + 1))

/-! ### Translation registers of a nib (R325) -/

def State.xlRoot (s : State) (n : Nat) : Nat :=
  bits (s.reg32 (nibPage n + 4)) 0 8 * 2 ^ 32 + bits (s.reg32 (nibPage n)) 9 23 * 512
def State.xlWard (s : State) (n : Nat) : Nat := bits (s.reg32 (nibPage n + 8)) 0 3
def State.xlValid (s : State) (n : Nat) : Bool := (s.reg32 (nibPage n + 8)).getLsbD 31

/-- The active nibs that serve a ward. -/
def State.wardNibs (s : State) (w : Nat) : List Nat :=
  s.listedNibs.filter fun n => s.xlValid n && s.xlWard n == w

end Sys2Proof.Machine
end

