-- ==== Sys2Proof/Machine/Rubric.lean ====
section
/-! DEFINITION. The Rubric: table entries, the default map, the decision for a block, page verdicts, denials. -/

namespace Sys2Proof.Machine

/-! ### Entries (R343 to R346) -/

def RubEnt.valid (e : RubEnt) : Bool := e.attr.getLsbD 31
def RubEnt.lock (e : RubEnt) : Bool := e.attr.getLsbD 30
def RubEnt.kind (e : RubEnt) : Nat := bits e.attr 27 3
/-- RIGHTS: R 1, W 2, X 4, T 8. -/
def RubEnt.rights (e : RubEnt) : BitVec 4 := e.attr.extractLsb' 23 4
/-- Mask: wards 0–7, the executive 8, the pumice engines 9, debug 10 (Table 09-4). -/
def RubEnt.mask (e : RubEnt) : BitVec 11 := e.attr.extractLsb' 12 11
def RubEnt.first (e : RubEnt) : Nat := (bits e.attr 0 2 * 2 ^ 32 + e.start.toNat) * 64
def RubEnt.past (e : RubEnt) : Nat := (bits e.attr 4 2 * 2 ^ 32 + e.last.toNat) * 64 + 64
def RubEnt.contains (e : RubEnt) (a : Nat) : Bool := e.valid && decide (e.first ≤ a) && decide (a < e.past)

def rubDefault (_ : Nat) : RubEnt := {}

abbrev mExe : Nat := 8
abbrev mPum : Nat := 9
abbrev mDbg : Nat := 10

/-- Rights that an access needs (Table 09-7). -/
def Acc.rights : Acc → BitVec 4
  | .read => 1
  | .write => 2
  | .writeT => 10
  | .locked => 10
  | .exec => 4

/-- A requester as the Rubric sees it: its lane, its mask bit, and whether it falls back on the default map (R346, R347). -/
structure Asker where
  lane : Nat
  bit : Nat
  fall : Bool
  deriving DecidableEq, Repr

def hostLane (k : Nat) : Bool := decide (12 ≤ k) && decide (k ≤ 19)

/-- The rights an entry grants a requester, by mask, RIGHTS and KIND (R344, R346). -/
def RubEnt.grant (e : RubEnt) (q : Asker) : BitVec 4 :=
  if !e.mask.getLsbD q.bit then 0
  else match e.kind with
    | 0 => if hostLane q.lane then 0 else e.rights
    | 1 => e.rights
    | 2 => if q.lane = 22 then e.rights else e.rights &&& 5
    | 3 => if q.bit < 8 then 0 else e.rights
    | 4 => if q.bit < 8 ∧ !hostLane q.lane then 0 else e.rights
    | _ => 0

/-- What the default map grants (Table 09-8a). -/
def State.mapGrant (s : State) (q : Asker) (a : Nat) : BitVec 4 :=
  if inHeap a then
    if q.bit = mExe then 15
    else if q.bit < 8 ∧ mget (fun _ => 15) s.sheetOwner (sheetOf a) = q.bit then 15 else 0
  else if inPal a then (if q.lane = 22 then 11 else if q.bit = mExe then 1 else 0)
  else if inSys a then (if q.bit = mExe then 15 else 0)
  else if q.bit = mExe ∧ a < 2 ^ 40 then 3 else 0

/-- The active entry that contains an address (R346). -/
def State.rubEntry (s : State) (a : Nat) : Option RubEnt := (s.rubActive.find? fun e => e.2.contains a).map Prod.snd

/-- The rights of a requester over the block at an address (R346 to R348). -/
def State.grantAt (s : State) (q : Asker) (a : Nat) : BitVec 4 :=
  if (q.lane = 21 ∨ q.lane = 22) ∧ (inPal a || inSys a) then s.mapGrant q a
  else match s.rubEntry a with
    | some e => e.grant q
    | none => if q.fall then s.mapGrant q a else 0

def covers (g : BitVec 4) (k : Acc) : Bool := g &&& k.rights == k.rights

/-- The Rubric's decision for one block. -/
def State.rubAllows (s : State) (q : Asker) (k : Acc) (a : Nat) : Bool := covers (s.grantAt q a) k

/-! ### Page verdicts (R335) -/

/-- A VALID entry touches the page. -/
def State.rubTouches (s : State) (p : Nat) : Bool :=
  s.rubActive.any fun e => e.2.valid && decide (e.2.first < (p + 1) * 65536) && decide (p * 65536 < e.2.past)

/-- The verdict of a 64 KiB page for a requester. -/
def State.verdict (s : State) (q : Asker) (p : Nat) : Verdict :=
  let a := p * 65536
  if !inMem a then .mixed
  else match s.rubEntry a with
    | some e => if e.past < a + 65536 then .mixed else .rights (e.grant q)
    | none =>
      if s.rubTouches p then .mixed
      else if q.fall then .rights (s.mapGrant q a) else .mixed

/-! ### Requesters -/

/-- A nib's access for a context: the ward's mask bit, the executive's for context 0 (Table 01-2); the classes of R335. -/
def State.nibAsker (s : State) (n c : Nat) (l : BitVec 2) : Asker :=
  if c = 0 then { lane := laneOf n, bit := mExe, fall := true }
  else { lane := laneOf n, bit := s.xlWard n, fall := l != lvU }

/-- Walk reads, barrier metadata and shadow fetches (R328, R347, R391). -/
def walkAsker (n : Nat) : Asker := { lane := laneOf n, bit := mExe, fall := true }

def pumAsker (e : Nat) : Asker := { lane := 8 + e / 4, bit := mPum, fall := false }
def hostAsker (p w : Nat) : Asker := { lane := 12 + p, bit := w, fall := false }
def dbgAsker : Asker := { lane := 23, bit := mDbg, fall := false }
def mgmtAsker : Asker := { lane := 20, bit := mExe, fall := true }

/-! ### Denials (R349, R359) -/

/-- A flag of RUB.EVENT sets; the block is recorded when DENY and DBGLOCK were both clear. -/
def State.rubEvent (s : State) (flag : BitVec 32) (lane a : Nat) : State :=
  let s1 := if (s.reg32 (pgRUB + 0x34)) &&& 6 = 0 then
      (s.setReg (pgRUB + 0x38) (BitVec.ofNat 32 (lineOf a))).setReg (pgRUB + 0x3C) (BitVec.ofNat 32 (lane * 256 + lineOf a / 2 ^ 32 % 256))
    else s
  s1.setFlags (pgRUB + 0x34) flag

def State.deny (s : State) (lane a : Nat) : State := s.rubEvent 2 lane a

/-- Replicas that disagree over a block deny it, by a machine check alone (R337, R355). -/
def State.vote (s : State) (lane a : Nat) : State := s.detect 601 (.vote (BitVec.ofNat 8 lane) (BitVec.ofNat 40 (lineOf a)))

end Sys2Proof.Machine
end

