-- ==== Sys2Proof/Machine/Memory.lean ====
section
/-! DEFINITION. Memory as words by device physical address: lines, the broken-pair rule, the palimpsest log, the
copies that nibs hold, the fixed-range writers, the write barrier at the inkwell, and the committed view. -/

namespace Sys2Proof.Machine

/-! ### Words and lines (R36, R62, R65) -/

/-- Every word is RAW zero at power-on reset (R65). -/
def memDefault (_ : Nat) : Word := Word.rawZero

/-- The word at a device physical address. -/
def State.word (s : State) (a : Nat) : Word := mget memDefault s.mem (a / 8)
def State.putWord (s : State) (a : Nat) (w : Word) : State := { s with mem := mput memDefault s.mem (a / 8) w }
/-- The eight words of a line. -/
def State.line (s : State) (l : Nat) : Line := (upFrom 0 8).map fun i => s.word (l + 8 * i)
def State.putLine (s : State) (l : Nat) : Nat → Line → State
  | _, [] => s
  | i, w :: ws => (s.putWord (l + 8 * i) w).putLine l (i + 1) ws

/-- Words of a record whose format is private, from its fields (R364, R414, R431). -/
def privateWords (fields : List (BitVec 64)) (n : Nat) : List Word :=
  (upFrom 0 n).map fun k => Word.rawOf (Config.privateEntry fields k)

/-- The raw form of a line (Table 02-10): code, tags, payloads. -/
def rawLine (w : Line) : BitVec 640 :=
  let word (i : Nat) : Word := (w[i]?).getD Word.rawZero
  let tags : BitVec 80 := ((upFrom 0 8).foldl (fun v i => v ||| ((word i).tag.setWidth 80 <<< (10 * i))) 0)
  let pays : BitVec 512 := ((upFrom 0 8).foldl (fun v i => v ||| ((word i).pay.setWidth 512 <<< (64 * i))) 0)
  Config.memCode (tags ++ pays) ++ (tags ++ pays)

/-- The word of a cached line that holds address a. -/
def CLine.at (k : CLine) (a : Nat) : Word := (k.words[(a % 64) / 8]?).getD Word.rawZero

/-! ### Forming a stored word -/

/-- The word a write stores, from the word it finds (R43, R61, Table 10-5). -/
def formWord (m : WriteMode) (old new : Word) : Word :=
  let cdr := if old.cdr = 1 ∨ old.cdr = 2 then old.cdr else 0
  let w := match m with
    | .keep => { new with col := old.col, cdr := cdr }
    | .colour => { new with cdr := cdr }
    | .list => { new with col := old.col }
    | .exact => new
  unmarked w

/-- The broken-pair rule (R182): `whole` when the write supplies both words as CAP.LO and CAP.HI; a kept word (R75) keeps
its tag. -/
def pairRule (both k0 k1 : Bool) (o0 o1 f0 f1 : Word) : Word × Word :=
  let whole := both && f0.typ == Ty.capLo && f1.typ == Ty.capHi
  if !whole && (isCapType o0.typ || isCapType o1.typ || isCapType f0.typ || isCapType f1.typ) then
    (if k0 then f0 else Word.rawOf f0.pay, if k1 then f1 else Word.rawOf f1.pay)
  else (f0, f1)

/-- Bytes [8m, 8m + 8) of a payload with byte m replaced (R295). -/
def setByte (p : BitVec 64) (m : Nat) (v : Byte) : BitVec 64 := setBits p (8 * m) 8 v.toNat

/-- The pair of words that an entry leaves at its 16-byte-aligned pair, from what the pair holds. -/
def StoreKind.apply (k : StoreKind) (pa : Nat) (o0 o1 : Word) : Word × Word :=
  match k with
  | .word w m =>
    if pa % 16 = 0 then pairRule false false false o0 o1 (formWord m o0 w) o1
    else pairRule false false false o0 o1 o0 (formWord m o1 w)
  | .pair lo hi m => pairRule true false false o0 o1 (formWord m o0 lo) (formWord m o1 hi)
  | .byte i v =>
    if pa % 16 = 0 then pairRule false false false o0 o1 (Word.mk Ty.raw o0.col o0.cdr (setByte o0.pay i v)) o1
    else pairRule false false false o0 o1 o0 (Word.mk Ty.raw o1.col o1.cdr (setByte o1.pay i v))
  | .dev _ => (o0, o1)

/-! ### Sheet descriptors (Table 10-1) -/

def descAddr (sheet : Nat) : Nat := 0x4448000000 + 64 * sheet
def State.desc (s : State) (sheet k : Nat) : BitVec 64 := (s.word (descAddr sheet + 8 * k)).pay
def State.sheetState (s : State) (sheet : Nat) : Nat := bits (s.desc sheet 0) 60 4
def State.sheetKind (s : State) (sheet : Nat) : Nat := bits (s.desc sheet 0) 58 2
/-- The ward that owns a sheet; an UNOWNED sheet has none (Table 10-2). -/
def State.sheetWard (s : State) (sheet : Nat) : Option Nat :=
  if s.sheetState sheet = 0 then none
  else
    let o := bits (s.desc sheet 0) 52 4
    if o < 8 then some o else none
def State.sheetV (s : State) (sheet : Nat) : Nat := bits (s.desc sheet 0) 32 13

/-- Sheet states (Table 10-2). -/
abbrev shUnowned : Nat := 0
abbrev shFree : Nat := 1
abbrev shArena : Nat := 2
abbrev shFull : Nat := 3
abbrev shCondemned : Nat := 4
abbrev shCopy : Nat := 5
abbrev shReleasing : Nat := 6

/-- The ward whose sheet holds a heap address. -/
def State.wardAt (s : State) (a : Nat) : Option Nat := if inHeap a then s.sheetWard (sheetOf a) else none

/-! ### The memory code (R66 to R70) -/

/-- What the code makes of a line's errors (Table 02-11, Table 02-12); more than one is taken as detected (DESIGN CHOICE: the rule
leaves a probability below 2^-40 for some, log 66). -/
inductive CodeFinds where
  | good
  | fixed (e : MemErr)
  | lost
  deriving DecidableEq, Repr

def codeFinds : List MemErr → CodeFinds
  | [] => .good
  | [.die _] => .lost
  | [e] => .fixed e
  | _ :: _ :: _ => .lost

/-- Spare lines of a stack at reset, and those left (R70). -/
def sparesAtReset : Nat := 12797440
def State.sparesOf (s : State) (k : Nat) : Nat := mget (fun _ => sparesAtReset) s.spares k

def State.setStackErr (s : State) (k flag : Nat) : State :=
  { s with stackErr := mput (fun _ => 0) s.stackErr k (mget (fun _ => 0) s.stackErr k ||| flag) }

/-- A line is remapped to a spare while any is left; the stack reports that its last is taken (R67, R68, R70). -/
def State.remap (s : State) (k : Nat) : State :=
  if s.sparesOf k = 0 then s.setStackErr k 2
  else
    let s := ({ s with spares := mput (fun _ => sparesAtReset) s.spares k (s.sparesOf k - 1) }).count (588 + k) 4
    if s.sparesOf k = 0 then s.setStackErr k 2 else s

/-- An uncorrectable line: eight POISON words of the heap, or a machine check (R68, R69). -/
def State.lineLost (s : State) (l : Nat) : State × Bool :=
  let k := stackOf l
  if inHeap l then ((((s.putLine l 0 (List.replicate 8 (Word.poisonOf 1))).setStackErr k 1).count (588 + k) 5).remap k, true)
  else (s.detect (588 + k) (.uncorrectable (BitVec.ofNat 40 l)), false)

/-- A read of a line from HBM3E and its check reads, by what each finds: a correction is counted and written back, the same one
again is a persistent error (R67). `false` when no line is delivered. -/
def State.eccRead (s : State) (l : Nat) : Ecc → State × Bool
  | [] => (s, true)
  | es :: rest =>
    match codeFinds es with
    | .good => (s, true)
    | .lost => s.lineLost l
    | .fixed e =>
      let t := s.count (588 + stackOf l) 3
      match rest with
      | fs :: _ => if codeFinds fs = .fixed e then (t.remap (stackOf l), true) else t.eccRead l rest
      | [] => (t, true)

/-! ### The palimpsest log (R429 to R432) -/

/-- Register file of set-up registers: the values that differ from reset are listed (R517). -/
def budgetReset : Nat := 8
def psmBudgetAddr : Nat := 0xF000003000
/-- PSM.BUDGET in effect, in bytes (R432). -/
def State.budget (s : State) : Nat :=
  let v := ((s.regs.find? fun e => e.1 == psmBudgetAddr).map fun e => (bits e.2 0 6)).getD budgetReset
  v * 0x4000000

def State.logged (s : State) (l : Nat) : Bool := s.log.any fun e => e.line == l

/-- A line whose writes are logged: heap or system, and not one of the exempt ranges of R430, which the writers of those
ranges reach by their own paths. -/
def loggable (l : Nat) : Bool := inHeap l || inSys l

/-- An attempt is in progress, so that first writes are logged. -/
def State.attemptOn (s : State) : Bool := s.stroke.phase == .opened || s.stroke.phase == .closing

/-- Some of these lines need log entries that the budget has no room for (R432). -/
def State.heldAny (s : State) (ls : List Nat) : Bool :=
  let n := (ls.eraseDups.filter fun l => loggable l && !s.logged l).length
  s.attemptOn && n != 0 && decide (s.budget < s.stroke.used + 72 * n)

/-- A write to the line needs a log entry that the budget has no room for (R432). -/
def State.held (s : State) (l : Nat) : Bool := s.heldAny [l]

/-- The palimpsest controller as the Rubric sees it (Table 01-2). -/
def palAsker : Asker := { lane := 22, bit := mExe, fall := true }

/-- Where the next entry of the log stands in the slot of the stroke (R431): a slot of 2 GiB has room for 29,826,161 entries of 72 bytes,
more than any budget lets an attempt log (R432, R433). -/
def State.logPlace (s : State) : Nat := heapEnd + s.stroke.num % 8 * 0x80000000 + s.stroke.used / 72 % 29826161 * 72

/-- The 72 bytes of a log entry, whose format is private (R431; DESIGN CHOICE, log 69). -/
def logWords (l : Nat) (ws : Line) : List Word :=
  privateWords (BitVec.ofNat 64 l :: ws.flatMap fun w => [w.pay, w.tag.setWidth 64]) 9

/-- The first write in an attempt to a line logs its old value, in State.log and in the slot of its stroke (R429, R431). A copy whose
source the Rubric denies to lane 22 is not made (R348, R354; DESIGN CHOICE, log 68). -/
def State.logLine (s : State) (l : Nat) : State :=
  if s.attemptOn && loggable l && !s.logged l then
    if s.rubAllows palAsker .read l then
      (({ s with log := { line := l, words := s.line l } :: s.log,
                 stroke := { s.stroke with used := s.stroke.used + 72 } }.putLine s.logPlace 0 (logWords l (s.line l))).count
        (588 + stackOf l) 6)
    else s.deny 22 l
  else s

/-- A write that waits for the commit (R432). -/
def State.hold (s : State) (h : HeldWrite) : State :=
  { s with heldWrites := s.heldWrites ++ [h], stroke := { s.stroke with heldCount := s.stroke.heldCount + 1 } }

/-- The used bytes call for a short stroke (R432). -/
def State.shortDue (s : State) : Bool := decide (7 * s.budget ≤ 8 * s.stroke.used)

/-- The committed view of a line (R434). -/
def State.committed (s : State) (l : Nat) : Line :=
  match s.log.find? fun e => e.line == l with
  | some e => e.words
  | none => s.line l

/-! ### Copies in the nibs (R286, R302) -/

def dropLine (l : Nat) (ks : List CLine) : List CLine := ks.filter fun k => k.line != l

def Nib.drop (b : Nib) (l : Nat) : Nib :=
  { b with l1 := dropLine l b.l1, blotter := dropLine l b.blotter, icache := dropLine l b.icache }

/-- Nib n keeps its data copies of a line and loses its instruction copy; every other nib's copies go (R302). -/
def State.dropCopies (s : State) (l : Nat) (n : Option Nat) : State :=
  { s with nibs := s.nibs.map fun e =>
      if n = some e.1 then (e.1, { e.2 with icache := dropLine l e.2.icache }) else (e.1, e.2.drop l) }

/-- Every copy of a line but nib n's data copies goes, as its write is applied; a fill on its way carries the line as it then
is (R291, R294, R302, R315). -/
def State.purge (s : State) (l : Nat) (n : Option Nat) : State :=
  { s.dropCopies l n with
    fills := s.fills.map fun (m : FillMsg) => if m.line = l then { m with ans := .words (s.line l) } else m }

/-! ### The presence directory (R300, R301) -/

/-- The directory names a nib that a fill goes to; a fourth pointer turns the entry into the Columns form (R300). -/
def Holders.add (h : Holders) (n : Nat) : Holders :=
  let col (m : Nat) : Nat := leafOf m * 8 + columnOf m
  match h with
  | .none => .ptrs [n]
  | .ptrs ns =>
    if ns.contains n then h
    else if ns.length < 3 then .ptrs (ns ++ [n])
    else .cols ((ns ++ [n]).foldl (fun v m => setBit v (col m) true) 0)
  | .cols v => .cols (setBit v (col n) true)

/-- The nibs an invalidation goes to (R300). -/
def State.holderNibs (s : State) (h : Holders) : List Nat :=
  match h with
  | .none => []
  | .ptrs ns => ns
  | .cols v => s.listedNibs.filter fun m => v.getLsbD (leafOf m * 8 + columnOf m)

/-- What the directory still names after a write: the nibs that a fill of the line is on its way to, and the writer whose
copies were kept (R301, R302). -/
def State.holdersLeft (s : State) (l : Nat) (n : Option Nat) : Holders :=
  let h := (s.fills.filter fun m => m.line == l && (m.cached || m.fetch)).foldl (fun h m => h.add m.nib) Holders.none
  match n with
  | some m => if (s.nib m).l1.any (·.line == l) || (s.nib m).blotter.any (·.line == l) then h.add m else h
  | none => h

/-! ### The inkwells (R283, R303, R307, R309) -/

/-- The set of a line in its inkwell (R283). -/
def inkSet (l : Nat) : Nat := l / 512 % 16384

/-- The least recently used entry. -/
def oldest : List (Nat × InkEnt) → Option (Nat × InkEnt)
  | [] => none
  | e :: es => match oldest es with
    | none => some e
    | some f => if e.2.used ≤ f.2.used then some e else some f

/-- A line enters its inkwell: when its set's 16 ways are taken, the least recently used line leaves every holder and is
written back when dirty (R283, R303); a fill of it that is on its way is then used and not kept. -/
def State.inkRoom (s : State) (l : Nat) : State :=
  let set := s.ink.filter fun e => e.1 != l && stackOf e.1 == stackOf l && inkSet e.1 == inkSet l
  if set.length < 16 then s
  else match oldest set with
    | none => s
    | some v =>
      let s := s.dropCopies v.1 none
      let s := { s with fills := s.fills.map fun (m : FillMsg) => if m.line = v.1 then { m with cached := false } else m }
      let s := if v.2.dirty then s.count (588 + stackOf l) 2 else s
      { s with ink := s.ink.filter fun e => e.1 != v.1 }

def State.inkEnt (s : State) (l : Nat) : InkEnt := mget (fun _ => {}) s.ink l

/-- The inkwell of a line is enabled. -/
def State.inkOn (s : State) (l : Nat) : Bool := mget (fun _ => 0) s.inkState (stackOf l) == 0

/-- The line has an entry, or may take one: an inkwell that writes back or is disabled allocates none (R309). -/
def State.inkHas (s : State) (l : Nat) : Bool := s.inkOn l || s.ink.any (·.1 == l)

/-- The inkwell's entry for a line takes a value and becomes the last used. -/
def State.setInkEnt (s : State) (l : Nat) (e : InkEnt) : State :=
  if !s.inkHas l then s
  else
    let s := s.inkRoom l
    { s with ink := mput (fun _ => {}) s.ink l { e with used := s.inkClock + 1 }, inkClock := s.inkClock + 1 }

/-- The inkwell's entry for a line after a write (R302, R303). -/
def State.inkWritten (s : State) (l : Nat) (n : Option Nat) : State :=
  let data := s.inkOn l || (s.inkEnt l).data
  s.setInkEnt l { holders := s.holdersLeft l n, dirty := data, data := data }

/-- A read passes the owning inkwell: a hit or a miss, and the line's place in its set (R283, R305, Table 11-12). -/
def State.inkRead (s : State) (l : Nat) : State :=
  let e := s.inkEnt l
  (s.count (588 + stackOf l) (if e.data then 0 else 1)).setInkEnt l { e with data := e.data || s.inkOn l }

/-- The lines that a request reads, of those `p` names, meet the memory code where their inkwell does not hold them; `false` when one
is not delivered (R67 to R69). -/
def State.meet (s : State) (p : Nat → Bool) : List (Nat × Ecc) → State × Bool
  | [] => (s, true)
  | e :: es =>
    let r := if p e.1 && !(s.inkEnt e.1).data then s.eccRead e.1 e.2 else (s, true)
    let q := r.1.meet p es
    (q.1, r.2 && q.2)

/-- A line has changed: the copies that may not stand go, and the inkwell's entry follows (R302). -/
def State.changed (s : State) (l : Nat) (n : Option Nat) : State := (s.purge l n).inkWritten l n

/-! ### Fixed-range writers (R21, Table 01-2a) -/

/-- The units that write memory without a lane. -/
inductive FixedWriter where
  | shadow (n : Nat)
  | journal (p : Nat)
  | inkwell (k : Nat)
  | steward
  | rubric
  deriving DecidableEq, Repr

/-- The range of a writer: its first byte, and the byte past it. -/
def FixedWriter.range : FixedWriter → Nat × Nat
  | .shadow n => (0x4410000000 + n * 0x10000, 0x4410000000 + (n + 1) * 0x10000)
  | .journal _ => (0x4420000000, 0x4440000000)
  | .inkwell _ => (0x4470000000, 0x4480000000)
  | .steward => (0x4444000000, 0x4448000000)
  | .rubric => (0x4480000000, 0x4480002000)

/-- The unit that holds a writer and its comparators (R418). -/
def FixedWriter.unit : FixedWriter → Nat
  | .shadow n => n
  | .journal p => 580 + p
  | .inkwell k => 588 + k
  | .steward => 600
  | .rubric => 601

/-- A comparator finds the line of an address in the writer's range. -/
def FixedWriter.within (f : FixedWriter) (a : Nat) : Bool := decide (f.range.1 ≤ lineOf a) && decide (lineOf a + 64 ≤ f.range.2)

/-- A write that a comparator stops is not sent, and is a machine check (R21). -/
def State.withheld (s : State) (f : FixedWriter) (a : Nat) : State :=
  s.detect f.unit (.vote 0xFE (BitVec.ofNat 40 (lineOf a)))

/-- The writers whose lines the palimpsest takes: an inkwell's, for its grey queues (R402, R430). -/
def FixedWriter.logs : FixedWriter → Bool
  | .inkwell _ => true
  | _ => false

/-- The comparators of a writer agree that it may write the line of an address (R21). -/
def State.compares (s : State) (f : FixedWriter) (a : Nat) : Bool :=
  f.within a && !s.stroke.misfits.contains (f.unit, lineOf a)

/-- A fixed-range writer writes words within one line (R21). -/
def State.writeFixed (s : State) (f : FixedWriter) (a : Nat) (ws : List Word) : State :=
  if s.compares f a then ((if f.logs then s.logLine (lineOf a) else s).putLine a 0 ws).changed (lineOf a) none else s.withheld f a

/-! ### Shading at the inkwell (R381 to R383, R376) -/

def greyMax : Nat := 2097152

/-- Fields of a grey-queue entry. -/
def Grey.fields : Grey → List (BitVec 64)
  | .word w hi => [w.pay, w.tag.setWidth 64, hi.pay, hi.tag.setWidth 64]
  | .rescan l => [BitVec.ofNat 64 l]

/-- Where a ward's i-th grey-queue entry lies (Table 10-3). -/
def greyAddr (w i : Nat) : Nat := 0x4470000000 + 0x2000000 * w + 16 * (i % greyMax)

/-- A ward's grey queue takes an entry, which its area holds in a private format (R364; DESIGN CHOICE, log 53); one too many is dropped,
sets OVERFLOW and restarts MARK (R376). -/
def State.pushGrey (s : State) (w : Nat) (g : Grey) : State :=
  let k := s.collOf w
  if k.grey.length < greyMax then
    let a := greyAddr w k.greyAt
    let s := s.modColl w fun k => { k with grey := k.grey ++ [g], greyAt := k.greyAt + 1 }
    let x (i : Nat) : Word := Word.rawOf (Config.privateEntry g.fields i)
    if s.compares (.inkwell (stackOf a)) a && s.held (lineOf a) then s.hold (.device a (.pair (x 0) (x 1) .exact))
    else s.writeFixed (.inkwell (stackOf a)) a [x 0, x 1]
  else s.modColl w fun k => { k with restart := true, events := k.events ||| 2 }

/-- The write barrier must shade the overwritten word (R381). -/
def needsShade (k : Coll) (old : Word) : Bool :=
  k.phase == .mark && isTraced old && (old.col != k.markc || k.consv)

/-- Which words of its pair an entry writes. -/
def StoreKind.writes (k : StoreKind) (pa : Nat) : Bool × Bool :=
  match k with
  | .pair _ _ _ => (true, true)
  | .dev _ => (false, false)
  | _ => (pa % 16 == 0, pa % 16 != 0)

/-- The overwritten words of a pair that need shading, each with the CAP.HI that stands beside a CAP.LO: the words written, and
one whose tag the broken-pair rule changes (R182, R381). -/
def shadeWords (k : Coll) (w : Bool × Bool) (o0 o1 f0 f1 : Word) : List (Word × Word) :=
  (if (w.1 || o0 != f0) && needsShade k o0 then [(o0, o1)] else [])
    ++ (if (w.2 || o1 != f1) && needsShade k o1 then [(o1, Word.rawZero)] else [])

/-- The inkwell shades the words of a pair that a write replaces, and queues a line whose colours it changes. -/
def State.shadeOver (s : State) (a : Nat) (done : Bool) (wr : Bool × Bool) (o0 o1 f0 f1 : Word) : State :=
  match s.wardAt a with
  | none => s
  | some w =>
    let k := s.collOf w
    let s := if done then s else (shadeWords k wr o0 o1 f0 f1).foldl (fun s p => s.pushGrey w (.word p.1 p.2)) s
    if k.phase == .mark && s.sheetState (sheetOf a) != shArena && (o0.col != f0.col || o1.col != f1.col) then
      s.pushGrey w (.rescan (lineOf a))
    else s

/-! ### Writes as the inkwell applies them -/

/-- The pair at a 16-byte-aligned address takes two words: the log first, then the barrier, then the write. -/
def State.putPair (s : State) (a : Nat) (done : Bool) (wr : Bool × Bool) (f0 f1 : Word) : State :=
  let s1 := s.logLine (lineOf a)
  let s2 := s1.shadeOver a done wr (s1.word a) (s1.word (a + 8)) f0 f1
  (s2.putWord a f0).putWord (a + 8) f1

/-- A write of one entry is applied (R294, R295, R182). -/
def State.applyKind (s : State) (pa : Nat) (k : StoreKind) (shaded : Bool) : State :=
  let a := pa - pa % 16
  let r := k.apply pa (s.word a) (s.word (a + 8))
  s.putPair a shaded (k.writes pa) r.1 r.2

/-- A write whose value forms at the inkwell removes the writer's copies too (R286, R302). -/
def StoreKind.formed : StoreKind → Bool
  | .byte _ _ => true
  | _ => false

/-- STV's guard finds a HEADER or FORWARD where it would write (R148). -/
def StoreEnt.stops (e : StoreEnt) (old : Word) : Bool := e.guarded && (old.typ == Ty.header || old.typ == Ty.forward)

/-- A store of a nib becomes visible: STV's guard, which drops it and counts it (R148), the write, the copies (R294, R302). -/
def State.applyStore (s : State) (n : Nat) (e : StoreEnt) : State :=
  if e.stops (s.word e.pa) then (s.countDrop n).setInkEnt (lineOf e.pa) { s.inkEnt (lineOf e.pa) with holders := s.holdersLeft (lineOf e.pa) (some n) }
  else (s.applyKind e.pa e.kind e.shaded).changed (lineOf e.pa) (if e.kind.formed then none else some n)

/-- A write by an engine, the hub or a routine of the collector: one update at the inkwell, after which no nib keeps a copy
of the line. -/
def State.writeAs (s : State) (pa : Nat) (k : StoreKind) : State := (s.applyKind pa k false).changed (lineOf pa) none

/-- A write that is not logged and not watched (R430): journals, records, shadow images, table copies. -/
def State.writePlain (s : State) (pa : Nat) (w : Word) : State :=
  (s.putWord pa w).changed (lineOf pa) none

/-- Consecutive RAW words written plainly. -/
def State.writeRaw (s : State) (pa : Nat) : List (BitVec 64) → State
  | [] => s
  | v :: vs => (s.writePlain pa (Word.rawOf v)).writeRaw (pa + 8) vs

/-- A write that no nib makes, held while the log has no room for it (R432). -/
def State.writeOr (s : State) (pa : Nat) (k : StoreKind) : State :=
  if s.held (lineOf pa) then s.hold (.device pa k) else s.writeAs pa k

/-- Logged RAW words, as the collector writes its metadata (R402). -/
def State.writeMeta (s : State) (pa : Nat) (v : BitVec 64) : State := s.writeAs pa (.word (Word.rawOf v) .exact)

def State.setDesc (s : State) (sheet k : Nat) (v : BitVec 64) : State := s.writeMeta (descAddr sheet + 8 * k) v
def State.setSheetState (s : State) (sheet v : Nat) : State := s.setDesc sheet 0 (setBits (s.desc sheet 0) 60 4 v)

/-! ### The card table (R365) -/

def cardBase : Nat := 0x4450000000
/-- The address of the card byte of a device physical address: PA[37:9] names it (R365). -/
def cardAddr (a : Nat) : Nat := cardBase + a % 2 ^ 38 / 512
def State.cardByte (s : State) (a : Nat) : Nat :=
  let b := cardAddr a
  bits (s.word (b - b % 8)).pay (8 * (b % 8)) 8
def State.setCard (s : State) (a v : Nat) : State :=
  let b := cardAddr a
  let wa := b - b % 8
  s.writeMeta wa (setBits (s.word wa).pay (8 * (b % 8)) 8 v)
/-- An item begins at a: its card names it when it is the first there. -/
def State.noteItem (s : State) (a : Nat) : State :=
  let k := a % 512 / 8
  let c := s.cardByte a
  if c ≠ 0xFF ∧ c ≤ k then s
  else if s.held (lineOf (cardAddr a)) then s.hold (.card a)
  else s.setCard a k

end Sys2Proof.Machine
end

