-- ==== Sys2Proof/Machine/Copying.lean ====
section
/-! DEFINITION. Writes made at the inkwell in one update: locked updates, slot repairs, and the copy protocol of the
collector. -/

namespace Sys2Proof.Machine

/-! ### Locked updates (R198, R286, R386) -/

def isDev (e : StoreEnt) : Bool := match e.kind with
  | .dev _ => true
  | _ => false

/-- The HEADER that a locked update leaves; its COLOUR and CDR stay (R146, R198, R207, Table 10-5). -/
def LockedUpd.on (u : LockedUpd) (h : Word) : Word :=
  match u with
  | .seal k => { h with pay := setBits h.pay 48 16 k }
  | .freeze => { h with pay := setBit h.pay 40 true }
  | .put w => formWord .keep h w

/-- A locked update of the HEADER that stands at its inkwell; every copy of the line goes (R198, R286). -/
def State.locked (s : State) (pa : Nat) (u : LockedUpd) : State :=
  if s.held (lineOf pa) then s.hold (.locked pa u) else s.writeAs pa (.word (u.on (s.word pa)) .exact)

/-- The barrier's repair of a slot applies only while the slot holds the old word (R386). -/
def State.repair (s : State) (pa : Nat) (old new : Word) : State :=
  if s.held (lineOf pa) then s.hold (.repair pa old new)
  else if s.word pa = old then s.writeAs pa (.word new .keep) else s

/-- The repair of a capability pair's slot is one update of both words (R183, R386). -/
def State.repairPair (s : State) (pa : Nat) (old0 old1 new0 new1 : Word) : State :=
  if s.held (lineOf pa) then s.hold (.repairPair pa old0 old1 new0 new1)
  else if s.word pa = old0 ∧ s.word (pa + 8) = old1 then s.writeAs pa (.pair new0 new1 .keep) else s

/-- Words written together from a 16-byte-aligned address on; `none` is a word that the write leaves. The broken-pair rule
holds for each pair (R182). -/
def State.putPairs (s : State) (a : Nat) : List (Option Word) → State
  | f0 :: f1 :: r =>
    let o0 := s.word a
    let o1 := s.word (a + 8)
    let v := pairRule (f0.isSome && f1.isSome) false false o0 o1 (f0.getD o0) (f1.getD o1)
    (if f0.isSome || f1.isSome then s.putPair a false (f0.isSome, f1.isSome) v.1 v.2 else s).putPairs (a + 16) r
  | _ => s

/-! ### The heap by virtual address (R360, R363) -/

def sheetBytes : Nat := 0x2000000

/-- Virtual address of a heap physical address, by its sheet descriptor (R360). -/
def State.virtOf (s : State) (a : Nat) : Nat := s.sheetV (sheetOf a) * sheetBytes + a % sheetBytes

/-- The physical sheet that a ward maps at virtual sheet v. -/
def State.sheetAtV (s : State) (w v : Nat) : Option Nat :=
  (upFrom 0 8192).find? fun h => s.sheetWard h == some w && s.sheetV h == v

/-- Physical address of a ward's heap address. -/
def State.heapAt (s : State) (w va : Nat) : Option Nat :=
  if va < 2 ^ 38 then (s.sheetAtV w (va / sheetBytes)).map fun h => h * sheetBytes + va % sheetBytes else none

/-! ### Items and cards (R365, R366) -/

/-- Words of an item by its first word: a HEADER's object, a cell. -/
def itemLen (w : Word) : Nat := if w.typ = Ty.header then 1 + hdrLen w else if w.cdr = 0 then 2 else 1

/-- Words of the item at a physical address; a FORWARD's item is as long as the item at its target (R366). -/
def State.itemWords (s : State) (a : Nat) : Nat :=
  let x := s.word a
  if x.typ = Ty.forward then
    match (s.wardAt a).bind fun w => s.heapAt w x.pay.toNat with
    | some b => itemLen (s.word b)
    | none => 1
  else itemLen x

/-- The addresses that the length of an item is read from. -/
def State.itemReads (s : State) (a : Nat) : List Nat :=
  let x := s.word a
  if x.typ = Ty.forward then a :: ((s.wardAt a).bind fun w => s.heapAt w x.pay.toNat).toList else [a]

/-- The first position of the parse in its card that differs from that card's byte, or POISON, ends the parse; `q` is the position
before it (R366). -/
def State.parseEnds (s : State) (p q : Nat) : Bool :=
  (decide (q / 512 ≠ p / 512) && s.cardByte p != p % 512 / 8) || (s.word p).typ == Ty.poison

/-- Where a parse that is to meet an address begins, the position before it, and the card bytes read: the first item start in the
nearest of the k cards above a sheet's base that has one, else the base (R365, R366). -/
def State.cardStart (s : State) (base : Nat) : Nat → Nat × Nat × List Nat
  | 0 => (base, base + sheetBytes, [])
  | k + 1 =>
    let p := base + 512 * k
    let c := s.cardByte p
    if c = 0xFF then
      let r := s.cardStart base k
      (r.1, r.2.1, cardAddr p :: r.2.2)
    else (p + 8 * c, p + 8 * c, [cardAddr p])

/-- The parse from a position to the item that holds address a, if it finds one, and the addresses it reads (R366). -/
def State.itemStartFrom (s : State) (a : Nat) : Nat → Nat → Nat → Option Nat × List Nat
  | 0, _, _ => (none, [])
  | k + 1, q, p =>
    let reads := cardAddr p :: s.itemReads p
    if s.parseEnds p q then (none, reads)
    else
      let n := p + 8 * s.itemWords p
      if n ≤ a then
        let r := s.itemStartFrom a k p n
        (r.1, reads ++ r.2)
      else (some p, reads)

/-- The item that an address lies in, by the cards and the parse, and the addresses read to find it (R366, R374). -/
def State.itemSearch (s : State) (a : Nat) : Option Nat × List Nat :=
  let c := s.cardByte a
  let start := if c = 0xFF ∨ a % 512 / 8 < c then s.cardStart (a - a % sheetBytes) (a % sheetBytes / 512)
    else (a - a % 512 + 8 * c, a, [])
  let r := s.itemStartFrom a 130 start.2.1 start.1
  (r.1, cardAddr a :: start.2.2 ++ r.2)

/-! ### Copy space (R388) -/

/-- The place FILL gives in a COPY sheet of the ward with room for what an item there takes (R388). -/
def State.copySpace (s : State) (w : Nat) (need : Nat → Nat) : Option Nat :=
  (upFrom 0 8192).findSome? fun h =>
    let p := h * sheetBytes + (s.desc h 3).toNat
    if s.sheetWard h = some w ∧ s.sheetState h = shCopy ∧ (s.desc h 3).toNat + need p ≤ sheetBytes then some p else none

/-- Bytes of a copy chunk. -/
def chunkBytes : Nat := 4096

/-- A copier's chunk in a sheet of the ward it copies for: its next free byte and its end; nib n is copier n, engine e for ward w is
copier 544 + 8e + w. -/
def State.chunk (s : State) (who w : Nat) : Option (Nat × Nat) :=
  ((s.chunks.find? fun e => e.1 == who).map Prod.snd).filter fun c => s.wardAt (c.2 - 1) == some w

/-- The first place from p on that stands to a 16-byte-aligned pair as address a does: an item's pairs stay pairs (R181, R183,
log 54). -/
def congruent (a p : Nat) : Nat := if p % 16 = a % 16 then p else p + 8

/-- Bytes from FILL that an item larger than a chunk takes at p, up to the end of its last card (log 54). -/
def directBytes (a n p : Nat) : Nat := (congruent a p - p + n + 511) / 512 * 512

/-- FILL of the sheet at d moves past m bytes. -/
def State.moveFill (s : State) (d m : Nat) : State := s.setDesc (sheetOf d) 3 (s.desc (sheetOf d) 3 + BitVec.ofNat 64 m)

/-- What a copier does for n bytes of an item from address a: the bytes it takes from FILL, where the item goes, and its chunk
afterwards. -/
structure CopySpace where
  /-- the place FILL gives, with its length -/
  fill : Option (Nat × Nat)
  /-- the byte from which the space is taken -/
  start : Nat
  dst : Nat
  chunk : Option (Nat × Nat)
  deriving DecidableEq, Repr

/-- Copy space for n bytes of an item at a: in the copier's chunk, at the start of a new one, or, for an item larger than a chunk,
directly from FILL (R388); so too for an item that alignment keeps out of a new chunk (log 54). -/
def State.findSpace (s : State) (who w a n : Nat) : Option CopySpace :=
  let direct : Option CopySpace := (s.copySpace w (directBytes a n)).map fun p =>
    { fill := some (p, directBytes a n p), start := p, dst := congruent a p, chunk := s.chunk who w }
  let fresh : Option CopySpace :=
    match s.copySpace w fun _ => chunkBytes with
    | none => none
    | some p =>
      if congruent a p + n ≤ p + chunkBytes then
        some { fill := some (p, chunkBytes), start := p, dst := congruent a p, chunk := some (congruent a p + n, p + chunkBytes) }
      else direct
  if chunkBytes < n then direct
  else match s.chunk who w with
    | some c =>
      if congruent a c.1 + n ≤ c.2 then
        some { fill := none, start := c.1, dst := congruent a c.1, chunk := some (congruent a c.1 + n, c.2) }
      else fresh
    | none => fresh

/-- The writes that taking the space makes: FILL, and the word passed over with its card (R394). -/
def CopySpace.writes (p : CopySpace) : List (Bool × Acc × Nat) :=
  (match p.fill with
    | some f => [(false, Acc.writeT, descAddr (sheetOf f.1))]
    | none => [])
    ++ if p.dst = p.start then [] else [(true, .writeT, p.start), (false, .write, cardAddr p.start)]

/-- The space is taken; a word passed over for alignment becomes a cell of one word, which a parse steps over (log 54). -/
def State.takeSpace (s : State) (who : Nat) (p : CopySpace) : State :=
  let s := match p.fill with
    | some f => s.moveFill f.1 f.2
    | none => s
  let s := match p.chunk with
    | some c => { s with chunks := mset s.chunks who c }
    | none => s
  if p.dst = p.start then s else (s.writeAs p.start (.word { Word.nil with cdr := 2 } .exact)).noteItem p.start

/-! ### The copy protocol (R387) -/

def State.copyRec (s : State) (w a : Nat) : Option CopyRec := s.copyRecs.find? fun r => r.ward == w && r.src == a

/-- Records that the bucket of an item already holds (R387). -/
def State.bucketFull (s : State) (w a : Nat) : Bool :=
  (s.copyRec w a).isNone
    && decide (Config.bucketSize ≤ (s.copyRecs.filter fun r => Config.bucketOf r.ward r.src == Config.bucketOf w a).length)

/-- The line of an item's copy-record bucket (Table 10-3). -/
def bucketAddr (w a : Nat) : Nat := 0x4448200000 + 64 * (Config.bucketOf w a % 2064384)

/-- A bucket's line as its records change, in its private format (R364, log 53). -/
def State.noteBucket (s : State) (w a : Nat) : State :=
  let rs := s.copyRecs.filter fun r => Config.bucketOf r.ward r.src == Config.bucketOf w a
  let l := bucketAddr w a
  let fields := rs.flatMap fun r => [r.ward, r.src, r.dst, r.len, r.done].map (BitVec.ofNat 64)
  ((s.logLine l).putLine l 0 (privateWords fields 8)).changed l none

def State.setRec (s : State) (r : CopyRec) : State :=
  { s with copyRecs := r :: s.copyRecs.filter fun x => !(x.ward == r.ward && x.src == r.src) }.noteBucket r.ward r.src

def State.dropRec (s : State) (w a : Nat) : State :=
  { s with copyRecs := s.copyRecs.filter fun x => !(x.ward == w && x.src == a) }.noteBucket w a

/-- Word i of an item's copy: its first word as it is, the others with COLOUR 0 (Table 10-5); a reserved encoding becomes POISON of
origin 0x03 (Table 02-3 for an engine; for RBAR.COPY DESIGN CHOICE, log 55). -/
def copiedWord (i : Nat) (w : Word) : Word :=
  let w := if reservedWord w then Word.poisonOf 3 else w
  if i = 0 then w else { w with col := 0 }

/-- What line l of the copy at dst of the k words at src takes. -/
def State.copyLine (s : State) (src dst k l : Nat) : List (Option Word) :=
  (upFrom 0 8).map fun i =>
    let a := l + 8 * i
    if dst ≤ a ∧ a < dst + 8 * k then some (copiedWord ((a - dst) / 8) (s.word (src + (a - dst)))) else none

/-- Lines that n bytes at an address meet. -/
def linesOf (a n : Nat) : Nat := (a % 64 + n + 63) / 64

/-- Installs FORWARD at the source's first word; its CDR stays (Table 10-5). -/
def State.installForward (s : State) (w src dst : Nat) : State :=
  let old := s.word src
  let s := if old.typ = Ty.forward then s
    else s.writeAs src (.word { typ := Ty.forward, col := 0, cdr := old.cdr, pay := BitVec.ofNat 64 (s.virtOf dst) } .exact)
  s.dropRec w src

/-- The first of some accesses that the Rubric denies (R354). -/
def State.firstDenied (s : State) : List (Asker × Acc × Nat) → Option Nat
  | [] => none
  | (q, k, a) :: r => if s.rubAllows q k a then s.firstDenied r else some a

/-- What the copy protocol does next with an item (R387): a block that the Rubric denies, no room yet, a record begun in a space, the
next line of a record copied, or FORWARD installed. -/
inductive CopyNext where
  | denied (a : Nat)
  | full
  | start (p : CopySpace)
  | line (r : CopyRec)
  | install (r : CopyRec)
  deriving DecidableEq, Repr

/-- The line of a copy that its record has next, the offset in the item at which it begins there, and the bytes of it. -/
def CopyRec.nextLine (r : CopyRec) : Nat × Nat × Nat :=
  let l := lineOf r.dst + 64 * r.done
  let o := if r.done = 0 then 0 else l - r.dst
  (l, o, min (l + 64) (r.dst + r.len) - (r.dst + o))

/-- The source lines of that line. -/
def CopyRec.sources (r : CopyRec) (a : Nat) : List Nat :=
  let x := r.nextLine
  (upFrom 0 (linesOf (a + x.2.1) x.2.2)).map fun i => lineOf (a + x.2.1) + 64 * i

/-- A step of the protocol once the log has room for its writes and the Rubric allows its accesses (R354, R432). -/
def State.copyAllowed (s : State) (reads writes : List (Asker × Acc × Nat)) (go : CopyNext) : CopyNext :=
  if s.heldAny (writes.map fun x => lineOf x.2.2) then .full
  else match s.firstDenied (reads ++ writes) with
    | some b => .denied b
    | none => go

/-- The next step of the copy protocol on the item at a physical address. `q` asks for the heap's words, `m` for the collector's
metadata (R391, R394). -/
def State.copyNext (s : State) (q m : Asker) (who w a : Nat) : CopyNext :=
  let bucket := bucketAddr w a
  let reads : List (Asker × Acc × Nat) := [(m, .read, bucket), (q, .read, a)]
  match s.copyRec w a with
  | none =>
    if s.bucketFull w a then .full
    else match s.findSpace who w a (8 * s.itemWords a) with
      | none => .full
      | some p =>
        s.copyAllowed (reads ++ [(m, .read, descAddr (sheetOf p.start))])
          ((m, .writeT, bucket) :: p.writes.map fun x => (if x.1 then q else m, x.2)) (.start p)
  | some r =>
    if r.done < linesOf r.dst r.len then
      let card := if r.done = 0 then [(m, Acc.write, cardAddr r.dst)] else []
      s.copyAllowed (reads ++ (r.sources a).map fun l => (q, Acc.read, l)) ([(q, .writeT, r.nextLine.1), (m, .writeT, bucket)] ++ card) (.line r)
    else s.copyAllowed reads [(q, .writeT, a), (m, .writeT, bucket)] (.install r)

/-- DONE of a record rises after a line, the first of which begins the item in its card (R365, R387). -/
def State.lineDone (s : State) (r : CopyRec) : State :=
  (if r.done = 0 then s.noteItem r.dst else s).setRec { r with done := r.done + 1 }

/-- The record of a new copy, in the space it takes. -/
def State.copyBegin (s : State) (who w a : Nat) (p : CopySpace) : State :=
  let k := s.itemWords a
  (s.takeSpace who p).setRec { ward := w, src := a, dst := p.dst, len := 8 * k, done := 0 }

/-- FORWARD installed, and the bytes of the copy counted. -/
def State.copyFinish (s : State) (w a : Nat) (r : CopyRec) : State :=
  (s.installForward w a r.dst).modColl w fun c => { c with copied := c.copied + r.len }

/-- A line of a copy as an engine writes it: the source lines are read at their inkwells. -/
def State.copyLineNow (s : State) (a : Nat) (r : CopyRec) : State :=
  let l := r.nextLine.1
  let s := (r.sources a).foldl State.inkRead s
  ((s.putPairs l (s.copyLine a r.dst (r.len / 8) l)).changed l none).lineDone r

/-- One step of the copy protocol: a block that the Rubric denies, no room, or the step made, and whether it copied a line. -/
inductive CopyStep where
  | denied (a : Nat)
  | full
  | went (s : State) (line : Bool)
  deriving DecidableEq, Repr

/-- The copy protocol goes one step at the inkwells, as an engine runs it (R387). -/
def State.copyStep (s : State) (q m : Asker) (who w a : Nat) : CopyStep :=
  match s.copyNext q m who w a with
  | .denied b => .denied b
  | .full => .full
  | .start p => .went (s.copyBegin who w a p) false
  | .line r => .went (s.copyLineNow a r) true
  | .install r => .went (s.copyFinish w a r) false

/-- How a run of the copy protocol ends. -/
inductive CopyEnd where
  | finished | full
  | denied (a : Nat)
  deriving DecidableEq, Repr

/-- The copy protocol on an item as far as it goes, within n steps; a record found for an item already forwarded goes. -/
def State.copyRun (s : State) (q m : Asker) (who w a : Nat) : Nat → State × CopyEnd
  | 0 => (s, .full)
  | n + 1 =>
    if (s.word a).typ = Ty.forward then (if (s.copyRec w a).isSome then s.dropRec w a else s, .finished)
    else match s.copyStep q m who w a with
      | .went t _ => t.copyRun q m who w a n
      | .denied b => (s, .denied b)
      | .full => (s, .full)

/-- Steps that the protocol takes for an item at most. -/
def State.copySteps (s : State) (a : Nat) : Nat := s.itemWords a / 8 + 6

end Sys2Proof.Machine
end

