-- ==== Sys2Proof/Machine/Marking.lean ====
section
/-! DEFINITION. The collector's view of a ward's heap (R360 to R376, R394 to R396): items by virtual address, the error log, mark
colours, shading, pinning, and a register group as it lands. -/

namespace Sys2Proof.Machine

/-! ### LARGE runs and items by virtual address (R360, R363, R366) -/

def sheetLarge (s : State) (h : Nat) : Bool := s.sheetKind h == 2
def State.sheetRun (s : State) (h : Nat) : Nat := bits (s.desc h 0) 16 14

/-- The first virtual sheet of the LARGE run that virtual sheet v belongs to. -/
def State.runStart (s : State) (w : Nat) : Nat → Nat → Nat
  | 0, v => v
  | k + 1, v => match s.sheetAtV w v with
    | some h => if sheetLarge s h && s.sheetRun h == 0 && v != 0 then s.runStart w k (v - 1) else v
    | none => v

/-- The item that a virtual heap address lies in, and the addresses read to find it (R366, R374). -/
def State.itemFound (s : State) (w va : Nat) : Option Nat × List Nat :=
  match s.sheetAtV w (va / sheetBytes) with
  | none => (none, [])
  | some h =>
    if sheetLarge s h then (some (s.runStart w 8192 (va / sheetBytes) * sheetBytes), [descAddr h])
    else
      let a := h * sheetBytes + va % sheetBytes
      let r := s.itemSearch a
      (r.1.map fun p => va - (a - p), descAddr h :: r.2)

/-- Virtual address of the item that a heap address lies in. -/
def State.itemAtV (s : State) (w va : Nat) : Option Nat := (s.itemFound w va).1

/-- Words of the item at a virtual address. -/
def State.itemWordsV (s : State) (w va : Nat) : Nat :=
  match s.heapAt w va with
  | none => 1
  | some a => s.itemWords a

/-- The ward an engine works for in this stroke (R393). -/
def State.engineWard (s : State) (e : Nat) : Option Nat :=
  match mget (fun _ => 0) s.engines e with
  | 0 => none
  | w + 1 => some w

/-! ### Requests of the engines (R20, R354, R394 to R396)

`who` is the engine that makes an access on its lane, with the pumice mask bit; `none` is a boundary's work, which the spec gives no
lane, and a nib's lazy fetch, whose accesses its plan has checked (DESIGN CHOICE, log 65). -/

/-- The Rubric's answer to an access of the collector. -/
def State.mayBy (s : State) (who : Option Nat) (k : Acc) (a : Nat) : Bool :=
  match who with
  | some e => s.rubAllows (pumAsker e) k a
  | none => true

/-- The first address of some reads that the Rubric denies. -/
def State.barred (s : State) (who : Option Nat) (reads : List Nat) : Option Nat := reads.find? fun a => !s.mayBy who .read a

def State.errAddr (s : State) : Nat := 0x4448100000 + 16 * (s.errNext % 65536)

/-- An engine's entry of the error log: the address, KIND, ward and stroke (R396); a block of the log that the Rubric denies takes
none. -/
def State.errLog (s : State) (e w kind a : Nat) : State :=
  let p := s.errAddr
  if !s.rubAllows (pumAsker e) .write p then s.deny (8 + e / 4) p
  else
    let s := s.writeMeta p (BitVec.ofNat 64 a)
    let s := s.writeMeta (p + 8) (BitVec.ofNat 64 (kind * 2 ^ 56 + w * 2 ^ 48 + s.stroke.num % 2 ^ 48))
    let wrap : BitVec 32 := if 65536 ≤ s.errNext - (s.collOf w).errRead then 8 else 0
    let s := s.modColl w fun k => { k with events := k.events ||| 4 ||| wrap }
    ({ s with errNext := s.errNext + 1 }).count (544 + e) 4

/-- A sheet that cannot be parsed is BAD; it is never released (R361, R395). -/
def State.setBad (s : State) (e w h : Nat) : State :=
  if s.rubAllows (pumAsker e) .write (descAddr h) then
    (s.setDesc h 0 (s.desc h 0 ||| 4)).modColl w fun k => { k with events := k.events ||| 16 }
  else s.deny (8 + e / 4) (descAddr h)
def State.isBad (s : State) (h : Nat) : Bool := (s.desc h 0).getLsbD 2

/-- A denied block of an engine is recorded and logged, and its sheet is BAD (R349, Table 10-8). -/
def State.engineDenied (s : State) (e w a : Nat) : State :=
  let s := (s.deny (8 + e / 4) a).errLog e w 2 (lineOf a)
  if inHeap a then s.setBad e w (sheetOf a) else s

def State.deniedBy (s : State) (who : Option Nat) (w a : Nat) : State :=
  match who with
  | some e => s.engineDenied e w a
  | none => s

/-- A descriptor word is written on the requester's lane. -/
def State.putDesc (s : State) (who : Option Nat) (w h k : Nat) (v : BitVec 64) : State :=
  if s.mayBy who .write (descAddr h) then s.setDesc h k v else s.deniedBy who w (descAddr h)

/-! ### Descriptors of a cycle (Table 10-1) -/

/-- LIVE, PIN and SCANNED of a sheet belong to the ward's current cycle. -/
def State.freshDesc (s : State) (who : Option Nat) (w h : Nat) : State :=
  let c := BitVec.ofNat 64 (s.collOf w).cycle
  if s.desc h 2 = c then s
  else ((s.putDesc who w h 0 (s.desc h 0 &&& ~~~(0xA#64))).putDesc who w h 1 0).putDesc who w h 2 c

def State.addLive (s : State) (who : Option Nat) (w h n : Nat) : State :=
  let s := s.freshDesc who w h
  s.putDesc who w h 1 (s.desc h 1 + BitVec.ofNat 64 n)

def State.pinned (s : State) (w h : Nat) : Bool :=
  s.desc h 2 == BitVec.ofNat 64 (s.collOf w).cycle && (s.desc h 0).getLsbD 3

/-- A sheet is pinned for the cycle, and is to be scanned whole once (R374). -/
def State.pinSheet (s : State) (who : Option Nat) (w h : Nat) : State :=
  let s := s.freshDesc who w h
  let s := s.putDesc who w h 0 (s.desc h 0 ||| 8)
  if (s.desc h 0).getLsbD 1 || (s.collOf w).scans.contains h then s
  else s.modColl w fun k => { k with scans := k.scans ++ [h] }

/-- Every sheet that a range of virtual addresses meets within the window is pinned. -/
def State.pinRange (s : State) (who : Option Nat) (w base top : Nat) : State :=
  let lo := base / sheetBytes
  let hi := (min top (2 ^ 38) + sheetBytes - 1) / sheetBytes
  (upFrom lo (hi - lo)).foldl (fun s v => match s.sheetAtV w v with
    | some h => s.pinSheet who w h
    | none => s) s

/-! ### Colours (R367, R373) -/

/-- A reserved encoding that an engine meets is logged, and stays as it is (R42, R395). -/
def State.logReserved (s : State) (who : Option Nat) (w a : Nat) : State :=
  match who with
  | some e => s.errLog e w 1 a
  | none => s

/-- A word is replaced by a locked update at its inkwell, past the barrier: the collector's own COLOUR or slot (R373). -/
def State.putLocked (s : State) (a : Nat) (x : Word) : State := ((s.logLine (lineOf a)).putWord a x).changed (lineOf a) none

/-- A locked update of a word's COLOUR; a marker's has none, a reserved encoding is left unchanged (R42, R43). -/
def State.paint (s : State) (who : Option Nat) (w a : Nat) (c : BitVec 2) : State :=
  let x := s.word a
  if x.col = c ∨ x.typ = Ty.spill ∨ x.typ = Ty.poison then s
  else if reservedWord x then s.logReserved who w a
  else if s.mayBy who .writeT a then s.putLocked a { x with col := c }
  else s.deniedBy who w a

/-- White: neither the mark colour nor grey (Table 10-4). -/
def isWhite (k : Coll) (x : Word) : Bool := x.col != k.markc && x.col != 3

/-- A white item becomes grey and is queued; a full queue drops the shade, and the item stays white (R373, R376). -/
def State.shadeItem (s : State) (who : Option Nat) (w va : Nat) (x hi : Word) : State :=
  match s.heapAt w va with
  | none => s
  | some a =>
    let q := greyAddr w (s.collOf w).greyAt
    match s.barred who [descAddr (sheetOf a), a] with
    | some b => s.deniedBy who w b
    | none =>
      if !s.mayBy who .write q then s.deniedBy who w q
      else if !isWhite (s.collOf w) (s.word a) then s
      else (if (s.collOf w).grey.length < greyMax then s.paint who w a 3 else s).pushGrey w (.word x hi)

/-- A capability is object-bound when its BASE and its last byte lie in one item (R374); one of no length has no last byte, and counts
as one byte long (DESIGN CHOICE, log 62). With its item stand the addresses read to tell. -/
def State.objectFound (s : State) (w : Nat) (k : CapV) : Option Nat × List Nat :=
  let r := s.itemFound w k.base
  match r.1 with
  | none => r
  | some st =>
    (if k.base - st + max k.len 1 ≤ 8 * s.itemWordsV w st then some st else none, r.2 ++ (s.heapAt w st).toList)

def State.objectBound (s : State) (w : Nat) (k : CapV) : Option Nat := (s.objectFound w k).1

/-- The item that a reference, or a capability with its CAP.HI, is bound to, and the addresses read to tell (R210, R374). -/
def State.boundItem (s : State) (w : Nat) (x hi : Word) : Option Nat × List Nat :=
  if isRefType x.typ then (some (waddr x).toNat, [])
  else if x.typ = Ty.capLo ∧ hi.typ = Ty.capHi then s.objectFound w ⟨x, hi⟩
  else (none, [])

/-- The marker shades a word: a reference, or a capability with its CAP.HI. -/
def State.shadeWord (s : State) (who : Option Nat) (w : Nat) (x hi : Word) : State :=
  let r := s.boundItem w x hi
  match s.barred who r.2 with
  | some b => s.deniedBy who w b
  | none =>
    match r.1 with
    | some st => s.shadeItem who w st x hi
    | none =>
      if x.typ = Ty.capLo ∧ hi.typ = Ty.capHi then
        let k : CapV := ⟨x, hi⟩
        s.pinRange who w k.base k.top
      else s

/-- Words of a list shaded two by two. -/
def State.shadePairs (s : State) (who : Option Nat) (w : Nat) : List Word → State
  | a :: b :: r => ((s.shadeWord who w a b).shadeWord who w b Word.rawZero).shadePairs who w r
  | [a] => s.shadeWord who w a Word.rawZero
  | [] => s

/-! ### Register groups (R124, R371, R372, R385) -/

/-- Words enter the registers from a physical index on. -/
def Context.putRegs (x : Context) (b : Nat) (ws : List Word) : Context := (ws.zip (upFrom b 8)).foldl (fun z p => z.putReg p.2 p.1) x

def Undo.putRegs (u : Undo) (b : Nat) (ws : List Word) : Undo := { u with regs := (({ regs := u.regs } : Context).putRegs b ws).regs }

/-- A group's words land: the group is fetched, and stands so whatever becomes of the pair that asked for it; its dirty bit is as it
was unless a word was forwarded (R84, R109, R124, log 21). -/
def Context.takeGroup (x : Context) (g : Nat) (ws : List Word) (dirty : Bool) : Context :=
  { x.putRegs (8 * g) ws with
    unfetched := setBit x.unfetched g false
    dirty := setBit x.dirty g (x.dirty.getLsbD g || dirty)
    undo := x.undo.map fun u => u.putRegs (8 * g) ws
    redo := x.redo.map fun u => u.putRegs (8 * g) ws }

/-- MARK has group g of context d as a root. -/
def State.isRoot (s : State) (n d g : Nat) : Bool :=
  let k := s.collOf (s.xlWard n)
  k.phase == .mark && d != 0 && k.roots.contains (key n d, g)

/-- A group's line lands in context d: marked by the fetch when MARK has it as a root. In MARK the words of a ward context land with
COLOUR 0, whoever has read them for the marker (R372). -/
def State.landGroup (s : State) (n d g : Nat) (old ws : List Word) : State :=
  let w := s.xlWard n
  let root := s.isRoot n d g
  let s := if root then (s.shadePairs none w ws).modColl w fun k => { k with roots := k.roots.filter fun r => r != (key n d, g) } else s
  let ws := if (s.collOf w).phase = .mark ∧ d ≠ 0 then ws.map fun x => { x with col := 0 } else ws
  s.modCtx n d fun x => x.takeGroup g ws (old.map Word.pay != ws.map Word.pay)

end Sys2Proof.Machine
end

