-- ==== Sys2Proof/Machine/Access.lean ====
section
/-! DEFINITION. One access of a nib: translation, access faults in the order of R330, the lookup in the nib's copies and
store buffer, delivery of a word with the read barrier, and a store's way into the store buffer. -/

namespace Sys2Proof.Machine

/-! ### Table entries and the walk (R324 to R334) -/

def entPpn (p : BitVec 64) : Nat := bits p 40 24
def entLeaf (p : BitVec 64) : Bool := p.getLsbD 10
def entDev (p : BitVec 64) : Bool := p.getLsbD 9

/-- A well-formed entry with V = 1 at a level (R327). -/
def entryOk (level : Nat) (p : BitVec 64) : Bool :=
  let a := entPpn p * 65536
  let size := if level = 2 then 0x20000000 else 65536
  bits p 11 29 == 0 && !p.getLsbD 1
    && (if entLeaf p then
          decide (2 ≤ level) && (level != 2 || entPpn p % 8192 == 0)
            && (if entDev p then decide (devBase ≤ a) && decide (a + size ≤ devEnd) else decide (a + size ≤ heapEnd))
        else level != 3 && bits p 2 8 == 0)

/-- Index into the table of a level (Table 09-1). -/
def walkIndex (level : Nat) (va : Nat) : Nat :=
  match level with
  | 1 => va / 2 ^ 42 % 64
  | 2 => va / 2 ^ 29 % 8192
  | _ => va / 2 ^ 16 % 8192

/-- The address prefix that tags a walk-cache entry of a level (R332). -/
def walkPrefix (level va : Nat) : Nat := if level = 1 then va / 2 ^ 42 else va / 2 ^ 29

/-- The TLB entry a leaf makes (R332). -/
def leafEntry (ward va level : Nat) (p : BitVec 64) : TlbEnt :=
  let large := level == 2
  { ward := ward, vpn := if large then va / 2 ^ 29 else va / 2 ^ 16, large := large, ppn := entPpn p,
    rights := p.extractLsb' 2 6, c := p.getLsbD 8, dev := entDev p }

def walkFault (sub level typ va : Nat) (deny : Option Nat := none) : TrapReq :=
  { cause := .walk, info := info sub (level * 64 + typ) va, deny := deny }

/-- The read of the table at one level by a requester, with the checks before and after it in the order of R331. -/
def walkStep (s : State) (q : Asker) (va table level : Nat) : Except TrapReq (BitVec 64) :=
  let a := table + 8 * walkIndex level va
  if inDev a then .error (walkFault 3 level 0 va)
  else if !inMem a then .error (walkFault 4 level 0 va)
  else if !inSys a then .error (walkFault 5 level 0 va)
  else if !s.rubAllows q .read a then .error (walkFault 6 level 0 va (some a))
  else
    let w := s.word a
    if w.typ ≠ Ty.xlate then .error (walkFault 1 level (w.typ.toNat % 64) va)
    else if !w.pay.getLsbD 0 then .error { cause := .xlate, info := info 0 0 va }
    else if !entryOk level w.pay then .error (walkFault 2 level 0 va)
    else .ok w.pay

/-- A walk from a level on, gathering the entries the walk cache keeps (R334). -/
def walkFrom (s : State) (q : Asker) (ward va : Nat) : Nat → Nat → Nat → Except TrapReq (TlbEnt × List WalkEnt)
  | 0, _, _ => .error (walkFault 2 3 0 va)
  | k + 1, level, table =>
    match walkStep s q va table level with
    | .error t => .error t
    | .ok p =>
      let keep : List WalkEnt := if level < 3 then [{ level := level, ward := ward, pre := walkPrefix level va, entry := p }] else []
      if entLeaf p then .ok (leafEntry ward va level p, keep)
      else match walkFrom s q ward va k (level + 1) (entPpn p * 65536) with
        | .error t => .error t
        | .ok r => .ok (r.1, keep ++ r.2)

def State.cachedWalk (s : State) (n ward va level : Nat) : Option WalkEnt :=
  (mget (fun _ => []) s.walkCache (leafOf n)).find? fun e => e.level == level && e.ward == ward && e.pre == walkPrefix level va

/-- A walk begins at the deepest level for which the leaf's walk cache holds the entry (R332). -/
def walk (s : State) (n va : Nat) : Except TrapReq (TlbEnt × List WalkEnt) :=
  let ward := s.xlWard n
  match s.cachedWalk n ward va 2 with
  | some e =>
    if entLeaf e.entry then .ok (leafEntry ward va 2 e.entry, [])
    else walkFrom s (walkAsker n) ward va 1 3 (entPpn e.entry * 65536)
  | none =>
    match s.cachedWalk n ward va 1 with
    | some e => walkFrom s (walkAsker n) ward va 2 2 (entPpn e.entry * 65536)
    | none => walkFrom s (walkAsker n) ward va 3 1 (s.xlRoot n)

def TlbEnt.hits (t : TlbEnt) (ward va : Nat) : Bool :=
  t.ward == ward && (if t.large then t.vpn == va / 2 ^ 29 else t.vpn == va / 2 ^ 16)

def TlbEnt.pa (t : TlbEnt) (va : Nat) : Nat := if t.large then t.ppn * 65536 + va % 2 ^ 29 else t.ppn * 65536 + va % 65536

/-- The leaf's right for an access, at the supervisor's or the user's rights (R329). -/
def TlbEnt.permits (t : TlbEnt) (sup : Bool) (k : Acc) : Bool :=
  let r := if sup then t.rights.extractLsb' 3 3 else t.rights.extractLsb' 0 3
  match k with
  | .read => r.getLsbD 0
  | .write => r.getLsbD 1
  | .writeT => r.getLsbD 1
  | .locked => r.getLsbD 0
  | .exec => r.getLsbD 2

def TlbEnt.verdictOf (t : TlbEnt) (page : Nat) (fall : Bool) : Option Verdict :=
  if t.page = page then (if fall then t.fall else t.noFall) else none

/-! ### Faults of one access (R330) -/

/-- Where an access goes: device physical address, and whether it may use the caches. -/
structure Where where
  pa : Nat
  cached : Bool
  deriving DecidableEq, Repr

def failRubric {α : Type} (a : Nat) : Plan α :=
  .error (.trap { cause := .rubric, info := info 0 0 a, deny := some a })

/-- The line that answers an access has come: a register's own address, or a memory line. -/
def Env.came (e : Env) (a : Nat) : Option CLine := e.got.find? fun g => g.line == if inDev a then a else lineOf a

/-- An access that no page verdict decides is decided on the lane, block by block: a load there and then, any other access
before it goes on (R24, R336). -/
def Env.onLane (e : Env) (q : Asker) (k : Acc) (a : Nat) (load : Bool) : Plan Unit :=
  if k = .exec ∧ e.x.fetchGot.any (·.line == lineOf a) then .ok ()
  else if load && (e.came a).isSome then .ok ()
  else match e.x.blockAns with
    | some (b, j) => if b = lineOf a ∧ j = k ∧ !load then .ok () else waitFor (.block a k q.fall load)
    | none => waitFor (.block a k q.fall load)

/-- The Rubric check of a nib from a page verdict (R335, R336). -/
def Env.rubric (e : Env) (v : Option Verdict) (k : Acc) (a : Nat) (tlb load : Bool) : Plan Unit :=
  let q := e.s.nibAsker e.n e.c e.x.level
  if inMem a then
    match v with
    | some (.rights g) => if covers g k then .ok () else failRubric a
    | some .mixed => e.onLane q k a load
    | none => waitFor (.page a q.fall tlb)
  else e.onLane q k a load

/-- Where a virtual address of the level lies, with the TLB entry that says so: at D and M it is the device physical address
(R322); a TLB miss waits for a walk (R333). -/
def Env.translate (e : Env) (va : BitVec 64) : Plan (Where × Option TlbEnt) := do
  let v := va.toNat
  if lvD.toNat ≤ e.x.level.toNat then do
    if 2 ^ 40 ≤ v then fail .bus (info 0 0 v)
    return ({ pa := v, cached := inMem v }, none)
  else do
    if 2 ^ 48 ≤ v then fail .xlate (info 0 0 v)
    match (e.s.nib e.n).tlb.find? fun t => t.hits (e.s.xlWard e.n) v with
    | some t => return ({ pa := t.pa v, cached := t.c && !t.dev }, some t)
    | none => waitFor (.walk v)

/-- The verdict that the nib's verdict cache holds for a page (R335). -/
def Env.cachedVerdict (e : Env) (a : Nat) : Option Verdict :=
  ((e.s.nib e.n).verdicts.find? fun t => t.page == pageOf a && t.fall).map VerdictEnt.v

/-- Translation and access faults of one access; `sup` uses the supervisor's rights, and a device register is written as
a write of RAW whatever the word's tag (R322 to R336, R504). `perform` is false for a routine's load, whose target may not be a
register. -/
def Env.access (e : Env) (va : BitVec 64) (k : Acc) (sup : Bool := false) (perform : Bool := true) : Plan Where := do
  let t ← e.translate va
  let a := t.1.pa
  let load := k == .exec || (k == .read && (perform || !inDev a))
  let kind : Acc := if inDev a && k == .writeT then .write else k
  match t.2 with
  | none =>
    e.rubric (e.cachedVerdict a) kind a false load
  | some t =>
    if !t.permits (sup || e.x.level == lvS) k then fail .xrights (info 0 0 va.toNat)
    e.rubric (t.verdictOf (pageOf a) (e.x.level != lvU)) kind a true load
  return t.1

/-! ### Reading a word -/

/-- An entry is for a word. -/
def StoreEnt.covers (e : StoreEnt) (pa : Nat) : Bool :=
  match e.kind with
  | .pair _ _ _ => e.pa == pa || e.pa + 8 == pa
  | .dev _ => false
  | _ => e.pa == pa

/-- The newest entry for a word that is not of a translation without caching, if any (R285, R296). -/
def newestFor (pa : Nat) (es : List StoreEnt) : Option StoreEnt := es.reverse.find? fun e => !e.unc && e.covers pa

/-- The words a store entry leaves in a line that a nib holds (R286). -/
def CLine.store (k : CLine) (e : StoreEnt) : CLine :=
  if e.stops (k.at e.pa) then k
  else
    let a := e.pa - e.pa % 16
    let r := e.kind.apply e.pa (k.at a) (k.at (a + 8))
    { k with words := setAt (setAt k.words (a % 64 / 8) r.1) (a % 64 / 8 + 1) r.2 }

/-- A store that a nib's own copy of its line takes in: through a cacheable translation, its value not formed at the inkwell
(R285, R286). -/
def StoreEnt.merges (e : StoreEnt) : Bool := !e.unc && !e.kind.formed && !isDev e

/-- A line with the nib's own stores that are not yet visible (R315). -/
def Nib.merge (b : Nib) (k : CLine) : CLine :=
  ((b.tracker ++ b.storeBuf).filter fun t => lineOf t.pa == k.line && !t.done && t.merges).foldl CLine.store k

/-- The word that a store buffer entry forwards: its own, over the copy that the nib holds, or the word that its store will find
(R296, log 11). -/
def Env.forwarded (e : Env) (pa : Nat) : Word :=
  let b := e.s.nib e.n
  let l := lineOf pa
  (b.merge (((b.l1 ++ b.blotter).find? (·.line == l)).getD { line := l, words := e.s.line l })).at pa

/-- An ordered context's load waits for its own stores, and for any entry of the nib for its word (R314). -/
def Env.ordered (e : Env) (pa : Nat) : Plan Unit :=
  let b := e.s.nib e.n
  let es := b.tracker ++ b.storeBuf
  if !e.x.ord then .ok ()
  else if es.any (·.ctx == e.c) then waitFor .ownStores
  else match es.reverse.find? fun t => t.covers pa with
    | some t => waitFor (.entryOf t.seq)
    | none => .ok ()

/-- A load waits for the youngest of the nib's stores for its word, in the buffer or sent and not yet applied, when that one is a byte
entry, and when either of the two goes by a translation without caching: nothing is forwarded then (R285, R296, R312, R315). -/
def Env.bytesDone (e : Env) (pa : Nat) (cached : Bool) : Plan Unit :=
  let b := e.s.nib e.n
  match (b.tracker ++ b.storeBuf).reverse.find? fun t => t.covers pa with
  | some t => if (t.kind.formed || t.unc || !cached) && !t.done then waitFor (.entryOf t.seq) else .ok ()
  | none => .ok ()

/-- The load of one word at issue (R285, R287, R296, R314): its value, and the recall it makes. A forwarded word has the COLOUR
and CDR that its store will keep (log 11). -/
def Env.lookup (e : Env) (w : Where) : Plan (Word × List Effect) := do
  let b := e.s.nib e.n
  let l := lineOf w.pa
  match e.came w.pa with
  | some g => return (if inDev w.pa then (g.words[0]?).getD Word.rawZero else g.at w.pa, [])
  | none =>
  e.ordered w.pa
  e.bytesDone w.pa w.cached
  if !w.cached then waitFor (.line l false)
  if !e.x.ord && (newestFor w.pa b.storeBuf).isSome then return (e.forwarded w.pa, [])
  match b.l1.find? (·.line == l) with
  | some k => return (k.at w.pa, [])
  | none =>
    match b.blotter.find? (·.line == l) with
    | some k => return (k.at w.pa, [.recall l, .tally 5])
    | none => waitFor (.line l true)

/-- Read of one word at a virtual address: its value, where it lies, and effects. -/
def Env.read (e : Env) (va : BitVec 64) (sup : Bool := false) : Plan (Word × Where × List Effect) := do
  let w ← e.access va .read sup
  let r ← e.lookup w
  return (r.1, w, r.2)

/-- A routine's read, whose target is memory. -/
def Env.readMem (e : Env) (va : BitVec 64) (sup : Bool := false) : Plan (Word × Where × List Effect) := do
  let w ← e.access va .read sup false
  if inDev w.pa then fail .bus (info 0 0 w.pa)
  let r ← e.lookup w
  return (r.1, w, r.2)

/-- The HEADER at its inkwell, as a locked update finds it: the nib's own stores to its line are visible first (R198, R286). -/
def Env.lockedWord (e : Env) (pa : Nat) : Plan Word :=
  let b := e.s.nib e.n
  match (b.tracker ++ b.storeBuf).reverse.find? fun t => lineOf t.pa == lineOf pa && !t.done && !isDev t with
  | some t => waitFor (.entryOf t.seq)
  | none => .ok (e.s.word pa)

/-- A HEADER met by a locked update that needs the write rights of a store (R146, R198). -/
def Env.lockedHeader (e : Env) (va : BitVec 64) : Plan (Word × Where) := do
  let w ← e.access va .writeT
  if inDev w.pa then fail .bus (info 0 0 w.pa)
  let h ← e.lockedWord w.pa
  return (h, w)

/-! ### The read barrier (R384 to R389) -/

/-- The condemned map's answer for an address. -/
def Env.condemned (e : Env) (va : Nat) : Bool :=
  decide (va < 0x4000000000) && e.c != 0 && (e.s.nib e.n).condemned.contains (va / 0x2000000)

/-- Where a ward heap address lies through the ward's translation, which checks no rights of the level here (R391). -/
def Env.heapPa (e : Env) (va : Nat) : Plan (Where × TlbEnt) :=
  match (e.s.nib e.n).tlb.find? fun t => t.hits (e.s.xlWard e.n) va with
  | some t => .ok ({ pa := t.pa va, cached := t.c && !t.dev }, t)
  | none => waitFor (.walk va)

/-- One access of a barrier: metadata with the executive mask bit, by the nib's verdict for its page; a heap word with the ward's mask
bit (R335, R391). A heap word and a block of a MIXED page are asked on the nib's lane in place (DESIGN CHOICE, log 65). -/
def Env.mayTouchOne (e : Env) (k : Acc) (a : Nat) : Plan Unit :=
  let inPlace (q : Asker) : Plan Unit := if e.s.rubAllows q k a then .ok () else failRubric a
  if inHeap a then inPlace (e.s.nibAsker e.n e.c e.x.level)
  else match e.cachedVerdict a with
    | some (.rights g) => if covers g k then .ok () else failRubric a
    | some .mixed => inPlace (walkAsker e.n)
    | none => waitFor (.page a true false)

/-- Accesses of the barriers (R391). -/
def Env.mayTouch (e : Env) (k : Acc) : List Nat → Plan Unit
  | [] => .ok ()
  | a :: r => do
    e.mayTouchOne k a
    e.mayTouch k r

/-- A write made at its inkwell is held while the log has no room for its line, and tried again (R432). -/
def Env.logRoom (e : Env) (a : Nat) : Plan Unit := if e.s.held (lineOf a) then waitFor (.bucket a) else .ok ()

/-- The barrier's repair of a slot that it has forwarded (R386, R391). -/
def Env.fix (e : Env) (pa : Nat) (old new : Word) : Plan (List Effect) :=
  if new = old then .ok []
  else do
    e.mayTouch .writeT [pa]
    e.logRoom pa
    return [.repair pa old new]

/-- The repair of a pair's slot when the barrier has moved either word (R183, R386, R391). -/
def Env.fixPair (e : Env) (pa : Nat) (lo hi lo' hi' : Word) : Plan (List Effect) :=
  if lo' = lo ∧ hi' = hi then .ok []
  else do
    e.mayTouch .writeT [pa]
    e.logRoom pa
    return [.repairPair pa lo hi lo' hi']

/-- A FORWARD word that a routine follows; one with a reserved encoding is not followed (R42, R56). -/
def Env.follow (e : Env) (entry : Nat) (w : Word) (va : Nat) : Plan (BitVec 64) :=
  if reservedWord w then fail .tagReserved (info 0 0 va)
  else .ok (e.s.viaEntry e.n entry (w.pay &&& 0xFFFFFFFFFFF8))

/-- The new virtual address of the item at va (R386, R387, R391): RBAR.FWD follows its FORWARD; an item that is not copied yet
is copied first. The item's word is read as the nib reads any word of its page (R285, R335, R336). -/
def Env.chase (e : Env) (va : Nat) : Plan (BitVec 64 × List Effect) := do
  let t ← e.heapPa va
  let a := t.1.pa
  e.rubric (t.2.verdictOf (pageOf a) (e.x.level != lvU)) .read a true true
  e.mayTouch .read [bucketAddr (e.s.xlWard e.n) a]
  let f ← e.lookup t.1
  if f.1.typ ≠ Ty.forward then waitFor (.copy a)
  let t ← e.follow 0x0008 f.1 va
  return (t, f.2 ++ [.tally 12, .took 6])

/-- A reference as delivered: forwarded when its target is condemned (R385, R386). -/
def Env.forwardRef (e : Env) (w : Word) : Plan (Word × List Effect) := do
  if isRefType w.typ && e.condemned (waddr w).toNat then
    let r ← e.chase (waddr w).toNat
    return ({ w with pay := r.1 }, r.2)
  else return (w, [])

/-- A pair landing as delivered: an object-bound capability moves with its item (R210, R386). -/
def Env.forwardPair (e : Env) (lo hi : Word) : Plan (Word × Word × List Effect) := do
  let k : CapV := ⟨lo, hi⟩
  if lo.typ == Ty.capLo && hi.typ == Ty.capHi && e.condemned k.base then
    let t ← e.heapPa k.base
    let f := e.s.itemSearch t.1.pa
    e.mayTouch .read f.2
    match f.1 with
    | none => return (lo, hi, [])
    | some p =>
      let va := k.base - (t.1.pa - p)
      let r ← e.chase va
      let d : BitVec 64 := (r.1 - BitVec.ofNat 64 va) <<< 16
      return ({ lo with pay := lo.pay + d }, { hi with pay := hi.pay + d }, r.2)
  else do
    let a ← e.forwardRef lo
    let b ← e.forwardRef hi
    return (a.1, b.1, a.2 ++ b.2)

/-- The delivery faults of Table 02-6a and R42 for a word at a virtual address. A FORWARD word that a load by address (LDV at S, CLD)
meets below D raises FLT_TAG: Table 02-6a has it never delivered, and no rule names an item to follow it to (DESIGN CHOICE, log 73). -/
def Env.deliverable (e : Env) (w : Word) (va : Nat) : Plan Unit :=
  if reservedWord w then fail .tagReserved (info 0 0 va)
  else if lvD.toNat ≤ e.x.level.toNat then .ok ()
  else if w.typ = Ty.header ∨ w.typ = Ty.forward ∨ (e.x.level = lvU ∧ (w.typ = Ty.xlate ∨ w.typ = Ty.spill)) then failTagAt va
  else .ok ()

/-- A loaded word as one register takes it: the checks, the barrier with the slot's repair, a single landing (R49, R180,
R385). -/
def Env.deliver (e : Env) (w : Word) (va : BitVec 64) (pa : Nat) : Plan (Word × List Effect) := do
  e.deliverable w va.toNat
  if lvD.toNat ≤ e.x.level.toNat then return ({ single w with cdr := 0 }, [])
  let r ← e.forwardRef w
  let fix ← e.fix pa w r.1
  return ({ single r.1 with cdr := 0 }, r.2 ++ fix)

/-! ### Following a reference (R56, R146, R389) -/

/-- The HEADER of a reference's object, at the copy when its target is FORWARD. -/
def Env.header (e : Env) (r : Word) : Plan (Word × BitVec 64 × Where × List Effect) := do
  let a := waddr r
  let h ← e.read a
  if h.1.typ = Ty.forward ∧ e.x.level.toNat < lvD.toNat then do
    let a2 ← e.follow 0x0008 h.1 a.toNat
    let h2 ← e.read a2
    if h2.1.typ ≠ Ty.header ∨ hdrRtype h2.1 ≠ r.typ then failTagAt a2.toNat
    return (h2.1, a2, h2.2.1, h.2.2 ++ h2.2.2)
  else do
    if h.1.typ ≠ Ty.header ∨ hdrRtype h.1 ≠ r.typ then failTagAt a.toNat
    return (h.1, a, h.2.1, h.2.2)

/-- body_addr of R146: the address of body word i, with its bound. -/
def Env.body (e : Env) (r : Word) (i : Int) : Plan (BitVec 64 × Word × List Effect) := do
  let h ← e.header r
  let va := h.2.1 + BitVec.ofInt 64 (8 * (1 + i))
  if i < 0 ∨ (hdrLen h.1 : Int) ≤ i then fail .bounds (info 0 0 (va.toNat % 2 ^ 48))
  return (va, h.1, h.2.2.2)

/-- The cell of a CONS reference, at the copy when its car word is FORWARD; CAR and CDR reach it through CARCDR.CHASE (R389,
Table 10-7). RPLACA too looks at the car word, by an ordinary read, which needs the page's read right (DESIGN CHOICE: the pseudocode
of R150 makes a write only, R56 follows a FORWARD, log 74). -/
def Env.cell (e : Env) (r : Word) (chase : Bool) : Plan (Word × BitVec 64 × Where × List Effect) := do
  let a := waddr r
  let h ← e.read a
  if h.1.typ = Ty.forward ∧ e.x.level.toNat < lvD.toNat then do
    let a2 ← e.follow (if chase then 0x0020 else 0x0008) h.1 a.toNat
    let h2 ← e.read a2
    return (h2.1, a2, h2.2.1, h.2.2 ++ h2.2.2 ++ if chase then [.took 6] else [])
  else return (h.1, a, h.2.1, h.2.2)

/-! ### Stores (R286, R292, R297, R382) -/

def accOf (ws : List Word) : Acc := if ws.all (·.typ == Ty.raw) then .write else .writeT

/-- The ward whose MARK a nib's store may have to shade for. -/
def Env.collAt (e : Env) (a : Nat) : Option Coll := (e.s.wardAt a).map e.s.collOf

/-- The words that a store shades from the nib's own copy of its line, when it holds one (R381, R382). -/
def Env.shades (e : Env) (w : Where) (kind : StoreKind) : List (Word × Word) :=
  let b := e.s.nib e.n
  if !w.cached then []
  else match (b.l1 ++ b.blotter).find? (·.line == lineOf w.pa), e.collAt w.pa with
    | some l, some c =>
      let a := w.pa - w.pa % 16
      let f := kind.apply w.pa (l.at a) (l.at (a + 8))
      (shadeWords c (kind.writes w.pa) (l.at a) (l.at (a + 8)) f.1 f.2).map fun p =>
        ({ p.1 with pay := e.s.viaEntry e.n 0x0018 p.1.pay }, p.2)
    | _, _ => []

/-- A store that has passed its access checks: its way into the store buffer, with the shades of WBAR.SHADE. -/
def Env.storeAt (e : Env) (w : Where) (va : BitVec 64) (kind : StoreKind) (guarded : Bool := false) : Plan (List Effect) := do
  let b := e.s.nib e.n
  let reserved := match e.x.xfer with
    | some (.gate _ _ _ _ _ _ _ _) => 1
    | _ => 0
  if 16 ≤ b.storeBuf.length + reserved then waitFor .bufferFull
  let ent : StoreEnt := { ctx := e.c, pa := w.pa, va := va, kind := kind, guarded := guarded, ordered := e.x.ord, unc := !w.cached }
  if inDev w.pa then
    let v := match kind with
      | .word x _ => x.pay
      | _ => 0
    return [.store { ent with kind := .dev v }]
  match e.shades w kind with
  | [] => return [.store ent]
  | ps =>
    if 16 < b.shade.length + ps.length then waitFor .shadeFull
    return ps.map (fun p => Effect.shade p.1 p.2) ++ [.store { ent with shaded := true }, .tally 13, .took 3]

/-- A store's checks at issue and its effects. -/
def Env.store (e : Env) (va : BitVec 64) (kind : StoreKind) (k : Acc) (guarded : Bool := false) (sup : Bool := false) :
    Plan (List Effect) := do
  let w ← e.access va k sup
  e.storeAt w va kind guarded

/-- A routine's store, whose target is memory. -/
def Env.storeMem (e : Env) (va : BitVec 64) (kind : StoreKind) (k : Acc) : Plan (Nat × List Effect) := do
  let w ← e.access va k
  if inDev w.pa then fail .bus (info 0 0 w.pa)
  let es ← e.storeAt w va kind
  return (w.pa, es)

/-- The card byte of an item that the nib creates is collector metadata, written on its lane with the executive mask bit (R365,
R391). -/
def Env.cardOk (e : Env) (pa : Nat) : Plan Unit := do
    e.mayTouch .write [cardAddr pa]
    e.logRoom (cardAddr pa)

/-! ### Direct memory operations -/

/-- String byte checks of R147 up to the byte's word: its address. -/
def Env.strByte (e : Env) (r : Word) (k : Int) (st : Bool) : Plan (BitVec 64 × List Effect) := do
  let h ← e.header r
  if hdrLen h.1 = 0 then fail .bounds (info 0 0 (h.2.1.toNat + 8))
  let a0 := h.2.1 + 8
  let c ← e.read a0
  if reservedWord c.1 then fail .tagReserved (info 0 0 a0.toNat)
  if c.1.typ ≠ Ty.fixnum then failTagAt a0.toNat
  let a := h.2.1 + BitVec.ofInt 64 (8 * (2 + k / 8))
  if k < 0 ∨ c.1.pay.toInt ≤ k ∨ (hdrLen h.1 : Int) ≤ 1 + k / 8 then fail .bounds (info 0 0 (a.toNat % 2 ^ 48))
  if st && hdrFrozen h.1 then fail .perm (info 0 0 a.toNat)
  return (a, h.2.2.2 ++ c.2.2)

/-- HDRQ's field (R146, R148). -/
def hdrField (h : Word) (sel : BitVec 3) : Nat :=
  match sel.toNat with
  | 0 => hdrLen h
  | 1 => (hdrRtype h).toNat
  | 2 => hdrOtype h
  | 3 => (if hdrFrozen h then 1 else 0) + (if hdrGate h then 2 else 0) + (if hdrKey h then 4 else 0)
  | _ => h.col.toNat

/-- The words of a spill frame from memory: the two register groups (R240, Table 06-6a). -/
def Env.frameWords (e : Env) (a : Nat) : Nat → Nat → Plan (List Word × List Effect)
  | _, 0 => .ok ([], [])
  | i, k + 1 => do
    let lo ← e.read (BitVec.ofNat 64 (a + 16 + 16 * i))
    let hi ← e.read (BitVec.ofNat 64 (a + 24 + 16 * i))
    e.deliverable lo.1 (a + 16 + 16 * i)
    e.deliverable hi.1 (a + 24 + 16 * i)
    let p ← e.forwardPair lo.1 hi.1
    let x ← e.fixPair lo.2.1.pa lo.1 hi.1 p.1 p.2.1
    let r ← e.frameWords a (i + 1) k
    return ({ p.1 with cdr := 0 } :: { p.2.1 with cdr := 0 } :: r.1, lo.2.2 ++ hi.2.2 ++ p.2.2 ++ x ++ r.2)

/-- Words two by two through the read barrier (R385). -/
def Env.barrierWords (e : Env) : List Word → Plan (List Word × List Effect)
  | a :: b :: r => do
    let p ← e.forwardPair a b
    let q ← e.barrierWords r
    return (p.1 :: p.2.1 :: q.1, p.2.2 ++ q.2)
  | ws => .ok (ws, [])

/-- The words of a group's line as the file takes them: no reserved encoding, the read barrier for a ward context, CDR 0 (R41, R42, R84,
R124, R385). -/
def Env.groupWords (e : Env) (d g : Nat) (ws : List Word) : Plan (List Word × List Effect) := do
  match (ws.zip (upFrom 0 8)).find? fun p => reservedWord p.1 with
  | some p => fail .tagReserved (info 0 0 (imageLine e.n d g + 8 * p.2))
  | none =>
    let r ← if d = 0 then Except.ok (ws, []) else Env.barrierWords { e with c := d } ws
    return (r.1.map fun w => { w with cdr := 0 }, r.2)

/-- The accesses with which a lazy fetch marks a word: its item's on the nib's lane with the ward's mask bit, that item's descriptor and
the metadata read to find it with the executive's (R372, R374, R391). -/
def Env.shadeTouch (e : Env) (w hi : Word) : Plan Unit := do
  let r := e.s.boundItem (e.s.xlWard e.n) w hi
  e.mayTouch .read r.2
  match (r.1.orElse fun _ => if isCapType w.typ then some (bits w.pay 16 48) else none).bind (e.s.heapAt (e.s.xlWard e.n)) with
  | none => .ok ()
  | some a =>
    e.mayTouch .writeT [a]
    e.mayTouch .read [descAddr (sheetOf a)]
    e.mayTouch .write [descAddr (sheetOf a)]

def Env.shadeOk (e : Env) : List Word → Plan Unit
  | a :: b :: r => do
    e.shadeTouch a b
    e.shadeTouch b Word.rawZero
    e.shadeOk r
  | _ => .ok ()

/-- What a direct memory operation does; `dist` is the distance at which its result lands. -/
def Env.runMem (e : Env) (op : MemOp) (dist : Nat) : Plan (List Effect) :=
  match op with
  | .ldRef r i dst => do
    let b ← e.body r i
    let v ← e.read b.1
    let d ← e.deliver v.1 b.1 v.2.1.pa
    return b.2.2 ++ v.2.2 ++ d.2 ++ [.land dist (.reg dst) d.1]
  | .stRef r i w => do
    let b ← e.body r i
    if hdrFrozen b.2.1 then fail .perm (info 0 0 b.1.toNat)
    let es ← e.store b.1 (.word w .keep) (accOf [w])
    return b.2.2 ++ es
  | .ldByte r k dst => do
    let b ← e.strByte r k false
    let v ← e.read b.1
    if reservedWord v.1 then fail .tagReserved (info 0 0 b.1.toNat)
    if v.1.typ ≠ Ty.raw then failTagAt b.1.toNat
    return b.2 ++ v.2.2 ++ [.land dist (.reg dst) (Word.fx (BitVec.ofNat 64 (bits v.1.pay (8 * (k % 8).toNat) 8)))]
  | .stByte r k x => do
    let b ← e.strByte r k true
    let v ← e.read b.1
    if reservedWord v.1 then fail .tagReserved (info 0 0 b.1.toNat)
    if v.1.typ ≠ Ty.raw then failTagAt b.1.toNat
    let es ← e.store b.1 (.byte (k % 8).toNat x) .write
    return b.2 ++ v.2.2 ++ es
  | .hdr r sel dst => do
    let h ← e.header r
    return h.2.2.2 ++ [.land dist (.reg dst) (Word.fx (BitVec.ofNat 64 (hdrField h.1 sel)))]
  | .freeze r => do
    let a := waddr r
    let h ← e.lockedHeader a
    let t ← if h.1.typ = Ty.forward ∧ e.x.level.toNat < lvD.toNat then do
        let a2 ← e.follow 0x0008 h.1 a.toNat
        let h2 ← e.lockedHeader a2
        Except.ok (h2, a2)
      else Except.ok (h, a)
    if t.1.1.typ ≠ Ty.header ∨ hdrRtype t.1.1 ≠ r.typ then failTagAt t.2.toNat
    e.logRoom t.1.2.pa
    return [.locked t.1.2.pa .freeze]
  | .ldVirt a dst => do
    let v ← e.read a true
    if inDev v.2.1.pa then return [.land dist (.reg dst) v.1]
    let d ← e.deliver v.1 a v.2.1.pa
    return v.2.2 ++ d.2 ++ [.land dist (.reg dst) d.1]
  | .stVirt a w => do
    let t ← e.translate a
    if inDev t.1.pa then e.store a (.word w .keep) .write false true
    else do
      let g ← e.read a true
      if g.1.typ = Ty.header ∨ g.1.typ = Ty.forward then failTagAt a.toNat
      let es ← e.store a (.word w .keep) (accOf [w]) true true
      return g.2.2 ++ es
  | .ldCap a dst => do
    let v ← e.read a
    let d ← e.deliver v.1 a v.2.1.pa
    return v.2.2 ++ d.2 ++ [.land dist (.reg dst) d.1]
  | .stCap a w => e.store a (.word w .keep) (accOf [w])
  | .ldPair a dst => do
    let lo ← e.read a
    let hi ← e.read (a + 8)
    e.deliverable lo.1 a.toNat
    e.deliverable hi.1 (a.toNat + 8)
    let p ← if lvD.toNat ≤ e.x.level.toNat then Except.ok (lo.1, hi.1, []) else e.forwardPair lo.1 hi.1
    let x ← e.fixPair lo.2.1.pa lo.1 hi.1 p.1 p.2.1
    return lo.2.2 ++ hi.2.2 ++ p.2.2 ++ x
      ++ [.land dist (.reg dst) { p.1 with cdr := 0 }, .land dist (.reg (dst + 1)) { p.2.1 with cdr := 0 }]
  | .stPair a lo hi => e.store a (.pair lo hi .keep) .writeT
  | .car r dst => do
    let c ← e.cell r true
    let d ← e.deliver c.1 c.2.1 c.2.2.1.pa
    return c.2.2.2 ++ d.2 ++ [.land dist (.reg dst) d.1]
  | .cdr r dst => do
    let c ← e.cell r true
    if reservedWord c.1 then fail .tagReserved (info 0 0 c.2.1.toNat)
    if c.1.cdr = 0 then do
      let a := c.2.1 + 8
      let v ← e.read a
      let d ← e.deliver v.1 a v.2.1.pa
      return c.2.2.2 ++ v.2.2 ++ d.2 ++ [.land dist (.reg dst) d.1]
    else if c.1.cdr = 1 then return c.2.2.2 ++ [.land dist (.reg dst) (Word.mk0 Ty.cons (c.2.1 + 8))]
    else return c.2.2.2 ++ [.land dist (.reg dst) Word.nil]
  | .rplaca r w => do
    let c ← e.cell r false
    let es ← e.store c.2.1 (.word w .keep) (accOf [w])
    return c.2.2.2 ++ es
  | .rplacd r w d => do
    let c ← e.cell r false
    if reservedWord c.1 then fail .tagReserved (info 0 0 c.2.1.toNat)
    if c.1.cdr = 0 then do
      let es ← e.store (c.2.1 + 8) (.word w .keep) (accOf [w])
      return c.2.2.2 ++ es
    else if c.1.cdr = 1 ∧ eqWord w (Word.mk0 Ty.cons (c.2.1 + 8)) then return c.2.2.2
    else if eqWord w Word.nil then do
      let es ← e.store c.2.1 (.word { c.1 with cdr := 2 } .list) (accOf [c.1])
      return c.2.2.2 ++ es
    else failTag d
  | .alloc a t n dst cur curReg => do
    let va := BitVec.ofNat 64 a
    let h := Word.mk0 Ty.header (BitVec.ofNat 64 (t.toNat * 2 ^ 42 + n))
    let w ← e.access va .writeT
    let r ← if inDev w.pa then Except.ok (Word.rawZero, []) else e.lookup w
    e.cardOk w.pa
    let es ← e.storeAt w va (.word h .colour)
    return r.2 ++ es ++ [.card w.pa, .land dist (.reg dst) (Word.mk0 t va), .land dist (.reg curReg) cur]
  | .refill a win h m => do
    let k ← e.read (BitVec.ofNat 64 a)
    let mk := k.1
    if mk.typ ≠ Ty.spill ∨ mk.pay &&& (~~~(0x20000#64)) ≠ BitVec.ofNat 64 (0x10000 + win) then fail .spill (info 4 0 a)
    let f ← e.frameWords a 0 8
    let ws := f.1
    let h := if mk.pay.getLsbD 17 && (e.x.save e.x.level).live then 136 else h
    let put (base : Nat) (l : List Word) : List Effect := (l.zip (upFrom base 8)).map fun p => .landNow p.2 p.1
    return k.2.2 ++ f.2 ++ put h (ws.take 8) ++ put m (ws.drop 8) ++ [.refilled win (mk.pay.getLsbD 17) (h / 8) (m / 8)]
  | .recv dst =>
    match e.x.queue with
    | [] => .ok [.land dist (.reg dst) Word.empty]
    | w :: _ => do
      let r ← if e.c = 0 then Except.ok (w, []) else e.forwardRef w
      return r.2 ++ [.land dist (.reg dst) (single { r.1 with cdr := 0 }), .popQueue]
  | .fetchGroup d g => do
    let k ← match e.came (imageLine e.n d g) with
      | some k => Except.ok k.words
      | none => waitFor (.group d g)
    let r ← e.groupWords d g k
    if e.s.isRoot e.n d g then e.shadeOk r.1
    return r.2 ++ [.group d g k r.1]
  | .takeBack h m =>
    match e.x.frames.getLast? with
    | none => .ok []
    | some f => do
      let r ← e.barrierWords f.words
      return r.2 ++ (if r.1 = f.words then [] else [.heldWords r.1]) ++ [.takeBack h m]
  | .xread d k dst => do
    let y := if d = e.c then e.x else (e.s.ctx e.n d).settle (d == 0) (e.s.now e.n)
    if y.unfetched.getLsbD (k / 8) then waitFor (.group d (k / 8))
    let w := y.reg k
    if lvD.toNat ≤ e.x.level.toNat then return [.land dist (.reg dst) w]
    else do
      let r ← e.forwardRef w
      return r.2 ++ [.land dist (.reg dst) (single r.1)]

/-! ### Deliveries that no pair makes (R372, R385) -/

/-- Where the condemned item at a virtual address has gone, once the copy protocol has run for it (R386, R387). -/
def State.movedTo (s : State) (n c va : Nat) : Except SlotOut (State × Nat) :=
  let w := s.xlWard n
  match s.heapAt w va with
  | none => fail .xlate 0
  | some a =>
    let r := s.copyRun (s.nibAsker n c (s.ctx n c).level) (walkAsker n) n w a (s.copySteps a)
    match r.2 with
    | .finished => .ok (r.1, (r.1.word a).pay.toNat)
    | .full => waitFor (.bucket a)
    | .denied b => failRubric b

/-- A pair of words held outside memory goes through the read barrier (R372, R385): its item is copied to the end when it must be. -/
def State.forwardHeld (s : State) (n c : Nat) (lo hi : Word) : Except SlotOut (State × Word × Word) :=
  let e : Env := { s := s, n := n, c := c, x := s.ctx n c }
  let one (s : State) (x : Word) : Except SlotOut (State × Word) :=
    if isRefType x.typ && e.condemned (waddr x).toNat then do
      let r ← s.movedTo n c (waddr x).toNat
      return (r.1, { x with pay := BitVec.ofNat 64 r.2 })
    else .ok (s, x)
  let k : CapV := ⟨lo, hi⟩
  if lo.typ == Ty.capLo && hi.typ == Ty.capHi && e.condemned k.base then
    match s.itemAtV (s.xlWard n) k.base with
    | none => fail .xlate 0
    | some va => do
      let r ← s.movedTo n c va
      let d : BitVec 64 := (BitVec.ofNat 64 r.2 - BitVec.ofNat 64 va) <<< 16
      return (r.1, { lo with pay := lo.pay + d }, { hi with pay := hi.pay + d })
  else do
    let a ← one s lo
    let b ← one a.1 hi
    return (b.1, a.2, b.2)

end Sys2Proof.Machine
end

