-- ==== Sys2Proof/Machine/Windows.lean ====
section
/-! DEFINITION. Register windows and the spill checks (R86 to R91, R237 to R243), the fetch of a CODE word (R98), and memory
operations at issue. -/

namespace Sys2Proof.Machine

/-! ### Windows (R86 to R91, R237, R238) -/

/-- The first physical index of the h, m and n groups of a call window. -/
def hBase (w : Nat) : Nat := 16 + 16 * ((w + 6) % 7)
def mBase (w : Nat) : Nat := 8 + 16 * w

/-- The eight words of a group. -/
def Context.groupAt (x : Context) (b : Nat) : List Word := (upFrom b 8).map x.reg

def Context.setHb (x : Context) (w : Nat) (b : Bool) : Context := x.setWs (10 + w) 1 (if b then 1 else 0)

def Context.cursor (x : Context) : Nat := bits x.spillLo.pay 16 48
def Context.moveCursor (x : Context) (d : Int) : Context :=
  { x with spillLo := { x.spillLo with pay := setBits x.spillLo.pay 16 48 (((x.cursor : Int) + d).toNat) } }.touch 0

/-- The frames of a suspended engine are part of the register shadow: state lines 25 to 29 (R125, R427). -/
def Context.touchFrames (x : Context) : Context :=
  if x.suspended.isSome then ((((x.touch 7).touch 8).touch 9).touch 10).touch 11 else x

/-- The window advance of a CALL, CALLR or GATE at its target pair, with the frame handed to the spill engine (R88, R237). -/
def Context.advance (x : Context) : Context :=
  let w := x.cwp
  let o := (w + 2) % 7
  let base := x.hb o && (x.save x.level).live
  let ws := x.groupAt (if base then 136 else hBase o) ++ x.groupAt (mBase o)
  let frame : SpillFrame := { win := o, hb := x.hb o, cursor := BitVec.ofNat 48 (x.cursor - 144), words := ws }
  let x := if x.res = 6 then { x with frames := x.frames ++ [frame] }.touchFrames else x.setWs 3 3 (x.res + 1)
  let v := (w + 1) % 7
  let h := x.tw
  ((x.setWs 0 3 v).setWs 6 1 0).setHb v h

/-- The window a RET leaves for: a handler base window returns to the trap window (R90, R238). -/
def Context.toTrapWindow (x : Context) : Bool := !x.tw && x.hb x.cwp && (x.save x.level).live

def Context.backWindow (x : Context) : Nat := if x.toTrapWindow then bits (x.save x.level).win 0 3 else (x.cwp + 6) % 7

/-- The window retreat of a RET or GRET at its target pair. -/
def Context.retreat (x : Context) : Context :=
  let v := x.backWindow
  let h := x.toTrapWindow
  let x := if 1 < x.res then x.setWs 3 3 (x.res - 1) else x
  let x := if h then (x.setHb x.cwp false).setWs 6 1 1 else x
  x.setWs 0 3 v

/-- The window change that DKIND records is made when the target pair issues (R91, R95). -/
def Context.targetWindow (x : Context) : Context :=
  if x.dly then x
  else match x.dkind with
    | 1 => x.advance.setWs 8 2 0
    | 2 => x.retreat.setWs 8 2 0
    | _ => x

/-- The spill engine's permission to take a frame (R241). -/
def spillPerms : BitVec 16 := pR ||| pW ||| pLC ||| pSC ||| pSL

/-- The spill engine is suspended: its failure is not delivered yet, or the save set in which it was taken is live (R242);
`suspended` holds U until the delivery. -/
def Context.spillHeld (x : Context) : Bool :=
  match x.suspended with
  | some l => !x.spillGo && (l == lvU || (x.save l).live)
  | none => false

/-- The groups that the advance now pending hands to the spill engine (R88, R237). -/
def Context.spillGroups (x : Context) : List Nat :=
  if x.res < 6 then []
  else
    let o := (x.cwp + 2) % 7
    [(if x.hb o && (x.save x.level).live then 136 else hBase o) / 8, mBase o / 8]

/-- A transfer that advances the window checks SPILLCAP when it will spill; a third frame waits (R88, R89, R241, R244). Of several
failures the suspended engine's comes first, then a SPILLCAP that is not in order, then no room (DESIGN CHOICE: the rules give the
sub-causes no order, log 75). -/
def Env.advanceOk (e : Env) : Plan (List Effect) :=
  if e.x.res < 6 then .ok []
  else do
    e.groups e.x.spillGroups
    let k : CapV := ⟨e.x.spillLo, e.x.spillHi⟩
    if e.x.spillHeld then fail .spill (info 6 0 0)
    else if !k.ok || k.sealed || !k.has spillPerms || k.cursor % 16 != 0 then fail .spill (info 1 0 0)
    else if k.top < k.cursor + 144 then fail .spill (info 2 0 k.cursor)
    else if 2 ≤ e.x.frames.length then waitFor .spillRoom
    else .ok [.reserve]

/-- The refill of a RET or GRET with RES = 1: from the engine, or from memory through `load` (R90, R243). -/
def Env.retreatOk (e : Env) (load : MemOp → Plan (List Effect)) : Plan (List Effect) :=
  if 1 < e.x.res then .ok []
  else
    let v := e.x.backWindow
    match e.x.frames.getLast? with
    | some _ => load (.takeBack (hBase v) (mBase v))
    | none =>
      let k : CapV := ⟨e.x.spillLo, e.x.spillHi⟩
      if !k.ok || k.sealed || !k.has (pR ||| pLC) || k.cursor % 16 != 0 then fail .spill (info 1 0 0)
      else if k.cursor < k.base + 144 then fail .spill (info 3 0 k.cursor)
      else load (.refill (k.cursor - 144) v (hBase v) (mBase v))

/-! ### Issue of memory operations -/

/-- Waits after which an operation goes on from where it stands: its pair has issued (R107, R108, R336, R387). -/
def Wait.goesOn : Wait → Bool
  | .line _ _ => true
  | .block _ _ _ _ => true
  | .bucket _ => true
  | _ => false

/-- A memory operation at issue: a miss parks the context with the operation (R107, R336); a delivery that meets an item not yet
copied runs RBAR.COPY (R385). Any other wait comes before the pair issues. -/
def Env.mem (e : Env) (op : MemOp) (dist : Nat := 3) : Plan (List Effect) :=
  match e.runMem op dist with
  | .error (.wait (.line l k)) => .ok [.park { why := .line l k, op := some op, slot := e.slot }]
  | .error (.wait (.block a k f true)) => .ok [.park { why := .block a k f true, op := some op, slot := e.slot }]
  | .error (.wait (.bucket a)) => .ok [.park { why := .bucket a, op := some op, slot := e.slot }]
  | .error (.wait (.copy _)) => .ok [.run { op := .rbar, mem := some op, slot := e.slot }]
  | r => r

/-! ### Fetch (R98, R145, R304) -/

/-- The CODE word at PC: access faults, the instruction cache, TYPE. -/
def Env.fetch (e : Env) : Plan Word := do
  let w ← e.access e.x.pc .exec
  let l := lineOf w.pa
  let b := e.s.nib e.n
  let k ← match (match e.x.fetchGot with
      | some k => if k.line = l then some k else none
      | none => none) with
    | some k => Except.ok k
    | none =>
      if w.cached then
        match b.icache.find? (·.line == l) with
        | some k => Except.ok k
        | none => waitFor (.fetchLine l true)
      else waitFor (.fetchLine l false)
  if (k.at w.pa).typ ≠ Ty.code then fail .tag (info 3 0 (e.x.pc.toNat % 2 ^ 48))
  return k.at w.pa

end Sys2Proof.Machine
end

