-- ==== Sys2Proof/Machine/Flags.lean ====
section
/-! DEFINITION. Results and exceptions of arithmetic: IEEE 754 binary64 from exact values (R144), the generic operations
(R143), the integer operations (R135, R142), and the report of FLT_ARITH (R232 to R234). -/

namespace Sys2Proof.Machine

/-! ### binary64 as an exact value -/

def fpSign (p : BitVec 64) : Bool := p.getLsbD 63
def fpExp (p : BitVec 64) : Nat := bits p 52 11
def fpFrac (p : BitVec 64) : Nat := bits p 0 52
def fpNaN (p : BitVec 64) : Bool := fpExp p == 2047 && fpFrac p != 0
def fpSNaN (p : BitVec 64) : Bool := fpNaN p && !p.getLsbD 51
def fpInf (p : BitVec 64) : Bool := fpExp p == 2047 && fpFrac p == 0
def fpZero (p : BitVec 64) : Bool := fpExp p == 0 && fpFrac p == 0
/-- Significand and exponent of a finite value: significand × 2^exponent. -/
def fpMant (p : BitVec 64) : Nat := if fpExp p = 0 then fpFrac p else 2 ^ 52 + fpFrac p
def fpScale (p : BitVec 64) : Int := if fpExp p = 0 then -1074 else (fpExp p : Int) - 1075

def fpMake (s : Bool) (e f : Nat) : BitVec 64 := BitVec.ofNat 64 ((if s then 2 ^ 63 else 0) + e * 2 ^ 52 + f)
def fpInfOf (s : Bool) : BitVec 64 := fpMake s 2047 0
def fpDefaultNaN : BitVec 64 := 0x7FF8000000000000
def fpQuiet (p : BitVec 64) : BitVec 64 := p ||| 0x8000000000000

/-- A result and its SV.INFO SUB: 0 none, 1 invalid, 2 overflow, 3 division by zero, 4 integer division by zero. -/
structure FpRes where
  val : BitVec 64
  sub : BitVec 8 := 0
  deriving DecidableEq, Repr

/-- Rounding modes of R144: 0 nearest even, 1 toward zero, 2 toward +∞, 3 toward −∞; does the magnitude round up? -/
def roundUp (mode : Nat) (s odd half more : Bool) : Bool :=
  match mode with
  | 0 => half && (more || odd)
  | 1 => false
  | 2 => !s && (half || more)
  | _ => s && (half || more)

/-- m × 2^e, with more below it when `sticky`, cut to a multiple of 2^q and rounded. -/
def cutTo (mode : Nat) (s : Bool) (m : Nat) (e q : Int) (sticky : Bool) : Nat :=
  let k := (q - e).toNat
  if k = 0 then m * 2 ^ (e - q).toNat
  else
    let t := m / 2 ^ k
    let r := m % 2 ^ k
    let half := decide (2 ^ (k - 1) ≤ r)
    let more := decide (r % 2 ^ (k - 1) ≠ 0) || sticky
    let up := match mode with
      | 0 => half && (more || t % 2 == 1)
      | m => roundUp m s (t % 2 == 1) (decide (r ≠ 0)) sticky
    if up then t + 1 else t

/-- The rounded value of ±m × 2^e (R144); overflow gives the mode's default. -/
def fpRound (mode : Nat) (s : Bool) (m : Nat) (e : Int) (sticky : Bool) : FpRes :=
  if m = 0 then ⟨fpMake s 0 0, 0⟩
  else
    let top := e + (Nat.log2 m : Int) + 1
    let q := max (top - 53) (-1074)
    let t := cutTo mode s m e q sticky
    let (t, q) := if t = 2 ^ 53 then (2 ^ 52, q + 1) else (t, q)
    if t < 2 ^ 52 then ⟨fpMake s 0 t, 0⟩
    else if 971 < q then
      let big := mode == 0 || (mode == 2 && !s) || (mode == 3 && s)
      ⟨if big then fpInfOf s else fpMake s 2046 (2 ^ 52 - 1), 2⟩
    else ⟨fpMake s (q + 1075).toNat (t - 2 ^ 52), 0⟩

/-- The first NaN of the operands, quieted; a signalling one raises invalid (R144). -/
def fpNaNs (ps : List (BitVec 64)) : Option FpRes :=
  (ps.find? fpNaN).map fun p => ⟨fpQuiet p, if ps.any fpSNaN then 1 else 0⟩

def fpInvalid : FpRes := ⟨fpDefaultNaN, 1⟩

/-- ±m × 2^e as an integer multiple of 2^k, k no greater than e. -/
def fpInt (s : Bool) (m : Nat) (e k : Int) : Int :=
  let v : Int := (m : Int) * 2 ^ (e - k).toNat
  if s then -v else v

/-- Sum of two signed values; an exact zero of opposite signs is +0, or −0 toward −∞. -/
def fpSum (mode : Nat) (s1 : Bool) (m1 : Nat) (e1 : Int) (s2 : Bool) (m2 : Nat) (e2 : Int) : FpRes :=
  let k := min e1 e2
  let v := fpInt s1 m1 e1 k + fpInt s2 m2 e2 k
  if v = 0 then ⟨fpMake (if s1 == s2 then s1 else mode == 3) 0 0, 0⟩
  else fpRound mode (decide (v < 0)) v.natAbs k false

def fpAdd (mode : Nat) (a b : BitVec 64) : FpRes :=
  match fpNaNs [a, b] with
  | some r => r
  | none =>
    if fpInf a then (if fpInf b && fpSign a != fpSign b then fpInvalid else ⟨a, 0⟩)
    else if fpInf b then ⟨b, 0⟩
    else fpSum mode (fpSign a) (fpMant a) (fpScale a) (fpSign b) (fpMant b) (fpScale b)

def fpNeg (a : BitVec 64) : BitVec 64 := a ^^^ 0x8000000000000000

def fpSub (mode : Nat) (a b : BitVec 64) : FpRes := if fpNaN b || fpNaN a then (fpNaNs [a, b]).getD fpInvalid else fpAdd mode a (fpNeg b)

def fpMul (mode : Nat) (a b : BitVec 64) : FpRes :=
  let s := fpSign a != fpSign b
  match fpNaNs [a, b] with
  | some r => r
  | none =>
    if fpInf a || fpInf b then (if fpZero a || fpZero b then fpInvalid else ⟨fpInfOf s, 0⟩)
    else fpRound mode s (fpMant a * fpMant b) (fpScale a + fpScale b) false

/-- A × B + D rounded once, with the product's sign turned for FNMA. IEEE 754 leaves open whether ∞ × 0 with a NaN in D
raises invalid: `free` decides (log 6). -/
def fpFma (mode : Nat) (neg : Bool) (a b d : BitVec 64) (free : Bool) : FpRes :=
  let s := (fpSign a != fpSign b) != neg
  let bad := (fpInf a && fpZero b) || (fpZero a && fpInf b)
  match fpNaNs [a, b, d] with
  | some r => if bad && free then { r with sub := 1 } else r
  | none =>
    if bad then fpInvalid
    else if fpInf a || fpInf b then (if fpInf d && fpSign d != s then fpInvalid else ⟨fpInfOf s, 0⟩)
    else if fpInf d then ⟨d, 0⟩
    else fpSum mode s (fpMant a * fpMant b) (fpScale a + fpScale b) (fpSign d) (fpMant d) (fpScale d)

def fpDiv (mode : Nat) (a b : BitVec 64) : FpRes :=
  let s := fpSign a != fpSign b
  match fpNaNs [a, b] with
  | some r => r
  | none =>
    if fpInf a then (if fpInf b then fpInvalid else ⟨fpInfOf s, 0⟩)
    else if fpInf b then ⟨fpMake s 0 0, 0⟩
    else if fpZero b then (if fpZero a then fpInvalid else ⟨fpInfOf s, 3⟩)
    else
      let m := fpMant a * 2 ^ 120
      fpRound mode s (m / fpMant b) (fpScale a - fpScale b - 120) (m % fpMant b != 0)

/-- The integer square root of m, bit by bit from bit k − 1 down. -/
def isqrt (m : Nat) : Nat → Nat → Nat
  | 0, r => r
  | k + 1, r =>
    let t := r + 2 ^ k
    isqrt m k (if t * t ≤ m then t else r)

def fpSqrt (mode : Nat) (a : BitVec 64) : FpRes :=
  match fpNaNs [a] with
  | some r => r
  | none =>
    if fpZero a then ⟨a, 0⟩
    else if fpSign a then fpInvalid
    else if fpInf a then ⟨a, 0⟩
    else
      let odd := fpScale a % 2 != 0
      let m := fpMant a * 2 ^ (if odd then 121 else 120)
      let e := (fpScale a - (if odd then 121 else 120)) / 2
      let r := isqrt m 90 0
      fpRound mode false r e (r * r != m)

/-! ### Comparison and conversion -/

/-- A number as a signed multiple m of 2^e; a FIXNUM is exact (R143). -/
def numOf (w : Word) : Int × Int :=
  if w.typ = Ty.fixnum then (w.pay.toInt, 0)
  else (fpInt (fpSign w.pay) (fpMant w.pay) 0 0, fpScale w.pay)

def isNum (w : Word) : Bool := w.typ == Ty.fixnum || w.typ == Ty.flonum
def numNaN (w : Word) : Bool := w.typ == Ty.flonum && fpNaN w.pay
def numInf (w : Word) : Bool := w.typ == Ty.flonum && fpInf w.pay

/-- Exact comparison of two numbers that are no NaN: the sign of their difference. -/
def numCmp (a b : Word) : Int :=
  let sgn (w : Word) : Int := if fpSign w.pay then -1 else 1
  if numInf a then (if numInf b && fpSign a.pay == fpSign b.pay then 0 else sgn a)
  else if numInf b then -sgn b
  else
    let (x, e) := numOf a
    let (y, f) := numOf b
    let k := min e f
    x * 2 ^ (e - k).toNat - y * 2 ^ (f - k).toNat

def numEq (a b : Word) : Bool := !numNaN a && !numNaN b && numCmp a b == 0
def numLess (a b : Word) (orEq : Bool) : Bool :=
  !numNaN a && !numNaN b && (if orEq then decide (numCmp a b ≤ 0) else decide (numCmp a b < 0))

/-- FIXNUM to binary64. -/
def fixToFl (mode : Nat) (v : BitVec 64) : BitVec 64 := (fpRound mode (decide (v.toInt < 0)) v.toInt.natAbs 0 false).val

/-- tofl of Table 04-4's pseudocode. -/
def toFl (w : Word) : BitVec 64 := if w.typ = Ty.fixnum then fixToFl 0 w.pay else w.pay

/-- FLONUM to FIXNUM: invalid for a NaN and out of range (R144). -/
def flToFix (mode : Nat) (a : BitVec 64) : FpRes :=
  if fpNaN a || fpInf a then ⟨0x8000000000000000, 1⟩
  else
    let t := cutTo mode (fpSign a) (fpMant a) (fpScale a) (max 0 (fpScale a)) false * 2 ^ (max 0 (fpScale a)).toNat
    let v : Int := if fpSign a then -(t : Int) else t
    if v < -(2 ^ 63) ∨ (2 ^ 63 : Int) ≤ v then ⟨0x8000000000000000, 1⟩ else ⟨BitVec.ofInt 64 v, 0⟩

/-- FMIN and FMAX (R144): a lone NaN loses; −0 is below +0. -/
def fpMinMax (wantMax : Bool) (a b : BitVec 64) : BitVec 64 :=
  if fpNaN a then (if fpNaN b then fpDefaultNaN else b)
  else if fpNaN b then a
  else
    let d := numCmp (Word.mk0 Ty.flonum a) (Word.mk0 Ty.flonum b)
    let aLess := decide (d < 0) || (d == 0 && fpSign a && !fpSign b)
    if aLess then (if wantMax then b else a) else if wantMax then a else b

/-- FCLASS (R144): one bit of ten. -/
def fpClass (a : BitVec 64) : Nat :=
  let s := fpSign a
  if fpNaN a then (if fpSNaN a then 256 else 512)
  else if fpInf a then (if s then 1 else 128)
  else if fpZero a then (if s then 8 else 16)
  else if fpExp a = 0 then (if s then 4 else 32)
  else if s then 2 else 64

/-! ### FLT_ARITH (R142, R232 to R234) -/

/-- The effects of a result that may carry an exception: its landing, and the report; with EXACT the fault is precise, and
no pair issues before the report. `routine` is a microcoded result. -/
def Env.result (e : Env) (d : BitVec 5) (dist : Nat) (w : Word) (sub : BitVec 8) (routine : Bool := false) : Plan (List Effect) :=
  if sub = 0 then .ok ([e.to d dist w] ++ (if routine || e.x.exact then [.took (if routine then dist else dist - 1)] else []))
  else if e.x.exact then fail .arith (info sub.toNat 0 (e.x.pc.toNat % 2 ^ 48))
  else
    let k := if routine then min dist 24 else dist
    .ok ([e.to d k w, .arith sub] ++ (if routine then [.took k] else []))

/-! ### Integer results (R135) -/

/-- The I64 result rule: RAW when either operand is RAW. -/
def i64Type (a b : Word) : BitVec 6 := if a.typ = Ty.raw ∨ b.typ = Ty.raw then Ty.raw else Ty.fixnum

/-- Shift kinds: SLL, SRL, SRA, ROL. -/
def shiftBy (kind : Nat) (v : BitVec 64) (n : Nat) : BitVec 64 :=
  match kind with
  | 0 => v <<< n
  | 1 => v >>> n
  | 2 => v.sshiftRight n
  | _ => v.rotateLeft n

/-- IDIV's result for a nonzero divisor: signed and unsigned quotient and remainder (R142, Table 04-3). -/
def idiv (sub : Nat) (a b : BitVec 64) : BitVec 64 :=
  match sub with
  | 0 => a.sdiv b
  | 1 => a / b
  | 2 => a.srem b
  | _ => a % b

/-- REM's result for a nonzero divisor: truncating, or floor (R143). -/
def remBy (floor : Bool) (a b : BitVec 64) : BitVec 64 :=
  if floor then BitVec.ofInt 64 (a.toInt.fmod b.toInt) else a.srem b

end Sys2Proof.Machine
end

