-- ==== Sys2Proof/Machine/Moves.lean ====
section
/-! DEFINITION. Moves, constants and tags (R141, Table 04-2), and the raw integer arithmetic of Table 04-3 (R142). -/

namespace Sys2Proof.Machine

/-! ### Moves, constants and tags -/

/-- The major opcode (Table 03-5), and the undefined ones (Table 03-10). -/
def opOf (w : BitVec 32) : BitVec 7 := w.extractLsb' 25 7
def opUndefined (op : BitVec 7) : Bool :=
  (decide (0x28 ≤ op) && decide (op ≤ 0x2F)) || op == 0x3F || op == 0x4E || op == 0x4F || op == 0x56 || op == 0x57
    || (decide (0x5B ≤ op) && decide (op ≤ 0x5F)) || op == 0x66 || op == 0x67 || op == 0x7F

/-- NOP, and any other word that no row of the table names: an undefined major opcode is sub-cause 0x01, a reserved SUB of BAR
(0x78) or XINV (0x79) is 0x02, a nonzero bit of NOP is 0x03 (R129, R131). -/
def planNop (w : BitVec 32) (_ : Env) : Plan (List Effect) := do
  if opUndefined (opOf w) then failOp 0x01
  defined (!((opOf w == 0x78 || opOf w == 0x79) && decide (3 ≤ bits w 7 3)))
  zero w
  return []

def planMov (f : FR) (e : Env) : Plan (List Effect) := do
  defined (f.sub.toNat ≤ 1)
  zero f.b
  zero f.md
  if f.sub = 1 then
    pairReg f.d
    pairReg f.a
    e.srcs [f.a, f.a + 1] [f.d, f.d + 1]
    return e.toPair f.d 1 (e.pair f.a)
  else
    e.srcs [f.a] [f.d]
    return [e.to f.d 1 (single (e.r f.a))]

def planMovi (f : FI) (e : Env) : Plan (List Effect) := do
  zero f.a
  e.fetched [f.d]
  return [e.to f.d 1 (Word.fx (sext f.imm))]

def planLui (f : FU) (e : Env) : Plan (List Effect) := do
  e.srcs [f.d] []
  let w ← e.i64 f.d
  return [e.to f.d 1 (Word.mk0 w.typ ((w.pay <<< 20) ||| f.imm.setWidth 64))]

def planTypeof (f : FR) (e : Env) : Plan (List Effect) := do
  defined (f.sub.toNat ≤ 1)
  zero f.b
  zero f.md
  e.srcs [f.a] [f.d]
  let w := e.r f.a
  let v := if f.sub = 0 then w.typ.toNat else w.typ.toNat * 16 + w.col.toNat * 4
  return [e.to f.d 1 (Word.fx (BitVec.ofNat 64 v))]

def planRetag (f : FR) (e : Env) : Plan (List Effect) := do
  zero f.b
  zero f.sub
  zero (f.md.extractLsb' 6 1)
  e.srcs [f.a] [f.d]
  let w := Word.mk0 (f.md.setWidth 6) (e.r f.a).pay
  if 4 < w.typ ∨ reservedWord w then failTag f.a
  return [e.to f.d 1 w]

def planTtest (f : FR) (e : Env) : Plan (List Effect) := do
  defined (f.sub.toNat ≤ 1)
  zero f.b
  if f.sub = 0 then zero (f.md.extractLsb' 6 1) else zero (f.md.extractLsb' 2 5)
  e.srcs [f.a] [f.d]
  let w := e.r f.a
  let b := if f.sub = 0 then w.typ == f.md.setWidth 6 else inClass w (bits f.md 0 2)
  return [e.to f.d 1 (Word.ofTest b)]

/-- The executive's privileged retag; it makes no FORWARD or SPILL word (Table 02-5, R57). -/
def planPretag (f : FR) (e : Env) : Plan (List Effect) := do
  zero f.b
  zero f.sub
  zero (f.md.extractLsb' 6 1)
  e.fetched [f.a, f.d]
  e.atLeast lvD
  e.clean [f.a]
  let w := Word.mk0 (f.md.setWidth 6) (e.r f.a).pay
  if reservedWord w || badHeader w || w.typ == Ty.forward || w.typ == Ty.spill then failTag f.a
  return [e.to f.d 1 w]

def planStr (f : FR) (e : Env) : Plan (List Effect) := do
  zero f.a
  zero f.b
  zero f.sub
  zero f.md
  e.fetched [f.d]
  return [e.to f.d 1 (Word.rawOf (e.x.st.setWidth 64))]

/-- STW: FLT_PERM for a change outside the level's fields, or PRIO 3 in contexts 1–31 (R93). -/
def planStw (f : FR) (e : Env) : Plan (List Effect) := do
  zero f.d
  zero f.b
  zero f.sub
  zero f.md
  e.srcs [f.a] []
  let w ← e.i64 f.a
  let new : BitVec 32 := w.pay.setWidth 32
  let mask := stwMask e.x.level
  if (new ^^^ e.x.st) &&& ~~~mask ≠ 0 ∨ (e.c ≠ 0 ∧ bits new 2 2 = 3) then fail .perm 0
  return [.land 2 .st w]

/-- Item and level of SVR and SVW (R141). -/
def svField (imm : BitVec 15) : Plan (Nat × BitVec 2) := do
  defined (bits imm 0 3 ≤ 4 && bits imm 3 2 != 0)
  zero (imm.extractLsb' 5 10)
  return (bits imm 0 3, imm.extractLsb' 3 2)

def planSvr (f : FI) (e : Env) : Plan (List Effect) := do
  let v ← svField f.imm
  zero f.a
  e.fetched [f.d]
  e.atLeast lvS
  e.atLeast v.2
  return [e.to f.d 1 (Word.rawOf ((e.x.save v.2).item v.1))]

def planSvw (f : FI) (e : Env) : Plan (List Effect) := do
  let v ← svField f.imm
  zero f.a
  e.fetched [f.d]
  e.atLeast lvS
  e.atLeast v.2
  e.clean [f.d]
  let w ← e.i64 f.d
  return [.land 2 (.save v.2.toNat v.1) w]

/-! ### Raw integer arithmetic -/

/-- Two I64 operands of an R-format instruction whose other fields are zero. -/
def Env.i64s (e : Env) (f : FR) : Plan (Word × Word) := do
  e.srcs [f.a, f.b] [f.d]
  let a ← e.i64 f.a
  let b ← e.i64 f.b
  return (a, b)

/-- The I64 result rule of R135 on a payload operation. -/
def i64Op (f : FR) (dist : Nat) (g : BitVec 64 → BitVec 64 → BitVec 64) (e : Env) : Plan (List Effect) := do
  zero f.sub
  zero f.md
  let v ← e.i64s f
  return [e.to f.d dist (Word.mk0 (i64Type v.1 v.2) (g v.1.pay v.2.pay))]

def planIadd (f : FR) : Env → Plan (List Effect) := i64Op f 1 (· + ·)
def planIsub (f : FR) : Env → Plan (List Effect) := i64Op f 1 (· - ·)
def planAnd (f : FR) : Env → Plan (List Effect) := i64Op f 1 (· &&& ·)
def planOr (f : FR) : Env → Plan (List Effect) := i64Op f 1 (· ||| ·)
def planXor (f : FR) : Env → Plan (List Effect) := i64Op f 1 (· ^^^ ·)
def planImul (f : FR) : Env → Plan (List Effect) := i64Op f 4 (· * ·)

def planShift (f : FR) (e : Env) : Plan (List Effect) := do
  defined (f.sub.toNat ≤ 3)
  zero f.md
  let v ← e.i64s f
  return [e.to f.d 1 (Word.mk0 v.1.typ (shiftBy f.sub.toNat v.1.pay (bits v.2.pay 0 6)))]

/-- An immediate form with A's TYPE. -/
def i64Imm (f : FI) (g : BitVec 64 → BitVec 64 → BitVec 64) (e : Env) : Plan (List Effect) := do
  e.srcs [f.a] [f.d]
  let a ← e.i64 f.a
  return [e.to f.d 1 (Word.mk0 a.typ (g a.pay (sext f.imm)))]

def planIaddi (f : FI) : Env → Plan (List Effect) := i64Imm f (· + ·)
def planAndi (f : FI) : Env → Plan (List Effect) := i64Imm f (· &&& ·)
def planOri (f : FI) : Env → Plan (List Effect) := i64Imm f (· ||| ·)
def planXori (f : FI) : Env → Plan (List Effect) := i64Imm f (· ^^^ ·)

def planShifti (f : FI) (e : Env) : Plan (List Effect) := do
  zero (f.imm.extractLsb' 8 7)
  e.srcs [f.a] [f.d]
  let a ← e.i64 f.a
  return [e.to f.d 1 (Word.mk0 a.typ (shiftBy (bits f.imm 6 2) a.pay (bits f.imm 0 6)))]

def planIcmp (f : FR) (e : Env) : Plan (List Effect) := do
  defined (f.sub.toNat ≤ 3)
  zero f.md
  let v ← e.i64s f
  let b := match f.sub.toNat with
    | 0 => decide (v.1.pay.toInt < v.2.pay.toInt)
    | 1 => decide (v.1.pay < v.2.pay)
    | 2 => decide (v.1.pay.toInt ≤ v.2.pay.toInt)
    | _ => decide (v.1.pay ≤ v.2.pay)
  return [e.to f.d 1 (Word.ofTest b)]

def planEq (f : FR) (e : Env) : Plan (List Effect) := do
  zero f.sub
  zero f.md
  e.srcs [f.a, f.b] [f.d]
  return [e.to f.d 1 (Word.ofTest (eqWord (e.r f.a) (e.r f.b)))]

def planMulh (f : FR) (e : Env) : Plan (List Effect) := do
  defined (f.sub.toNat ≤ 1)
  zero f.md
  let v ← e.i64s f
  let h : BitVec 64 := if f.sub = 0 then BitVec.ofInt 64 (v.1.pay.toInt * v.2.pay.toInt / 2 ^ 64)
    else BitVec.ofNat 64 (v.1.pay.toNat * v.2.pay.toNat / 2 ^ 64)
  return [e.to f.d 4 (Word.mk0 (i64Type v.1 v.2) h)]

/-- IDIV: a zero divisor lands FIXNUM 0 and raises FLT_ARITH (R142). -/
def planIdiv (f : FR) (e : Env) : Plan (List Effect) := do
  defined (f.sub.toNat ≤ 3)
  zero f.md
  let v ← e.i64s f
  if v.2.pay = 0 then e.result f.d 38 (Word.fx 0) 4 true
  else e.result f.d 38 (Word.mk0 (i64Type v.1 v.2) (idiv f.sub.toNat v.1.pay v.2.pay)) 0 true

end Sys2Proof.Machine
end

