-- ==== Sys2Proof/Machine/Float.lean ====
section
/-! DEFINITION. Generic arithmetic (R143, Table 04-4) and floating point (R144, Table 04-5). -/

namespace Sys2Proof.Machine

/-! ### Generic arithmetic -/

/-- ADD, SUB, MUL: exact on two FIXNUMs, binary64 on any other two numbers. -/
def Env.generic (e : Env) (d : BitVec 5) (a b : Word) (g : Int → Int → Int) (h : BitVec 64 → BitVec 64 → FpRes) :
    Plan (List Effect) :=
  if a.typ = Ty.fixnum ∧ b.typ = Ty.fixnum then
    let r := g a.pay.toInt b.pay.toInt
    if r < -(2 ^ 63) ∨ (2 ^ 63 : Int) ≤ r then fail .promote 0
    else e.result d 4 (Word.fx (BitVec.ofInt 64 r)) 0
  else if isNum a && isNum b then
    let r := h (toFl a) (toFl b)
    e.result d 4 (Word.mk0 Ty.flonum r.val) r.sub
  else fail .generic 0

def genericOp (f : FR) (g : Int → Int → Int) (h : BitVec 64 → BitVec 64 → FpRes) (e : Env) : Plan (List Effect) := do
  zero f.sub
  zero f.md
  e.srcs [f.a, f.b] [f.d]
  e.generic f.d (e.r f.a) (e.r f.b) g h

def planAdd (f : FR) : Env → Plan (List Effect) := genericOp f (· + ·) (fpAdd 0)
def planSub (f : FR) : Env → Plan (List Effect) := genericOp f (· - ·) (fpSub 0)
def planMul (f : FR) : Env → Plan (List Effect) := genericOp f (· * ·) (fpMul 0)

def planAddi (f : FI) (e : Env) : Plan (List Effect) := do
  e.srcs [f.a] [f.d]
  e.generic f.d (e.r f.a) (Word.fx (sext f.imm)) (· + ·) (fpAdd 0)

def planEql (f : FR) (e : Env) : Plan (List Effect) := do
  zero f.sub
  zero f.md
  e.srcs [f.a, f.b] [f.d]
  let a := e.r f.a
  let b := e.r f.b
  return [e.to f.d 4 (Word.ofBool (if isNum a && isNum b then numEq a b else eqWord a b))]

def planLess (f : FR) (e : Env) : Plan (List Effect) := do
  defined (f.sub.toNat ≤ 1)
  zero f.md
  e.srcs [f.a, f.b] [f.d]
  let a := e.r f.a
  let b := e.r f.b
  if !(isNum a && isNum b) then fail .generic 0
  return [e.to f.d 4 (Word.ofBool (numLess a b (f.sub == 1)))]

/-- DIV.Q, DIV.F and DIV.SQRT (Table 04-4). -/
def planDiv (f : FR) (e : Env) : Plan (List Effect) := do
  defined (f.sub.toNat ≤ 2)
  if f.sub = 2 then zero f.b
  if f.sub = 0 then zero f.md else zero (f.md.extractLsb' 2 5)
  e.srcs (if f.sub = 2 then [f.a] else [f.a, f.b]) [f.d]
  let a := e.r f.a
  let b := e.r f.b
  let mode := bits f.md 0 2
  if f.sub = 2 then
    if a.typ ≠ Ty.flonum then fail .generic 0
    let r := fpSqrt mode a.pay
    e.result f.d 32 (Word.mk0 Ty.flonum r.val) r.sub true
  else if f.sub = 1 then
    if a.typ ≠ Ty.flonum ∨ b.typ ≠ Ty.flonum then fail .generic 0
    let r := fpDiv mode a.pay b.pay
    e.result f.d 30 (Word.mk0 Ty.flonum r.val) r.sub true
  else if a.typ = Ty.fixnum ∧ b.typ = Ty.fixnum then
    if b.pay = 0 then e.result f.d 40 (Word.fx 0) 4 true
    else if a.pay = 0x8000000000000000 ∧ b.pay = -1 then fail .promote 0
    else e.result f.d 40 (Word.fx (a.pay.sdiv b.pay)) 0 true
  else if isNum a && isNum b then
    let r := fpDiv 0 (toFl a) (toFl b)
    e.result f.d 40 (Word.mk0 Ty.flonum r.val) r.sub true
  else fail .generic 0

def planRem (f : FR) (e : Env) : Plan (List Effect) := do
  defined (f.sub.toNat ≤ 1)
  zero f.md
  e.srcs [f.a, f.b] [f.d]
  let a := e.r f.a
  let b := e.r f.b
  if a.typ ≠ Ty.fixnum ∨ b.typ ≠ Ty.fixnum then fail .generic 0
  if b.pay = 0 then e.result f.d 42 (Word.fx 0) 4 true
  else e.result f.d 42 (Word.fx (remBy (f.sub == 1) a.pay b.pay)) 0 true

/-! ### Floating point -/

/-- Two FL operands with a rounding mode in MOD[1:0]. -/
def flOp (f : FR) (g : Nat → BitVec 64 → BitVec 64 → FpRes) (e : Env) : Plan (List Effect) := do
  zero f.sub
  zero (f.md.extractLsb' 2 5)
  e.srcs [f.a, f.b] [f.d]
  let a ← e.ofType Ty.flonum f.a
  let b ← e.ofType Ty.flonum f.b
  let r := g (bits f.md 0 2) a.pay b.pay
  e.result f.d 4 (Word.mk0 Ty.flonum r.val) r.sub

def planFadd (f : FR) : Env → Plan (List Effect) := flOp f fpAdd
def planFsub (f : FR) : Env → Plan (List Effect) := flOp f fpSub
def planFmul (f : FR) : Env → Plan (List Effect) := flOp f fpMul

/-- FMA and FNMA: D is read and written. A free value decides the one exception IEEE 754 leaves open (log 6). -/
def flMulAdd (neg : Bool) (f : FR) (e : Env) : Plan (List Effect) := do
  zero f.sub
  zero (f.md.extractLsb' 2 5)
  e.srcs [f.a, f.b, f.d] []
  let a ← e.ofType Ty.flonum f.a
  let b ← e.ofType Ty.flonum f.b
  let d ← e.ofType Ty.flonum f.d
  let r := fpFma (bits f.md 0 2) neg a.pay b.pay d.pay (e.s.draw.getLsbD 0)
  let es ← e.result f.d 5 (Word.mk0 Ty.flonum r.val) r.sub
  return .drew :: es

def planFma (f : FR) : Env → Plan (List Effect) := flMulAdd false f
def planFnma (f : FR) : Env → Plan (List Effect) := flMulAdd true f

def planFcmp (f : FR) (e : Env) : Plan (List Effect) := do
  defined (f.sub.toNat ≤ 3)
  zero f.md
  e.srcs [f.a, f.b] [f.d]
  let a ← e.ofType Ty.flonum f.a
  let b ← e.ofType Ty.flonum f.b
  let v := match f.sub.toNat with
    | 0 => numEq a b
    | 1 => numLess a b false
    | 2 => numLess a b true
    | _ => fpNaN a.pay || fpNaN b.pay
  return [e.to f.d 4 (Word.ofTest v)]

def planFcvt (f : FR) (e : Env) : Plan (List Effect) := do
  defined (f.sub.toNat ≤ 3)
  zero f.b
  if f.sub.toNat ≤ 1 then zero (f.md.extractLsb' 2 5) else zero f.md
  e.srcs [f.a] [f.d]
  let mode := bits f.md 0 2
  match f.sub.toNat with
  | 0 => do
    let a ← e.ofType Ty.fixnum f.a
    e.result f.d 4 (Word.mk0 Ty.flonum (fixToFl mode a.pay)) 0
  | 1 => do
    let a ← e.ofType Ty.flonum f.a
    let r := flToFix mode a.pay
    e.result f.d 4 (Word.fx r.val) r.sub
  | 2 => do
    let a ← e.ofType Ty.raw f.a
    e.result f.d 4 (Word.mk0 Ty.flonum a.pay) 0
  | _ => do
    let a ← e.ofType Ty.flonum f.a
    e.result f.d 4 (Word.rawOf a.pay) 0

def planFmisc (f : FR) (e : Env) : Plan (List Effect) := do
  defined (f.sub.toNat ≤ 5)
  let two := f.sub = 2 ∨ f.sub = 3 ∨ f.sub = 5
  if !two then zero f.b
  zero f.md
  e.srcs (if two then [f.a, f.b] else [f.a]) [f.d]
  let a ← e.ofType Ty.flonum f.a
  let b ← if two then e.ofType Ty.flonum f.b else Except.ok a
  let sign : BitVec 64 := 0x8000000000000000
  let w := match f.sub.toNat with
    | 0 => Word.mk0 Ty.flonum (a.pay &&& ~~~sign)
    | 1 => Word.mk0 Ty.flonum (a.pay ^^^ sign)
    | 2 => Word.mk0 Ty.flonum (fpMinMax false a.pay b.pay)
    | 3 => Word.mk0 Ty.flonum (fpMinMax true a.pay b.pay)
    | 4 => Word.fx (BitVec.ofNat 64 (fpClass a.pay))
    | _ => Word.mk0 Ty.flonum ((a.pay &&& ~~~sign) ||| (b.pay &&& sign))
  return [e.to f.d 4 w]

end Sys2Proof.Machine
end

