-- ==== Sys2Proof/Machine/Branch.lean ====
section
/-! DEFINITION. Branches and jumps (R145, Table 04-6). -/

namespace Sys2Proof.Machine

/-- The target of a B- or J-format transfer (R96). -/
def Env.relative {w : Nat} (e : Env) (disp : BitVec w) : BitVec 64 := e.x.pc + (sext disp <<< 3)

/-- A branch on two register operands. -/
def branch (f : FB) (test : Env → Plan Bool) (e : Env) : Plan (List Effect) := do
  let taken ← test e
  return if taken then [.transfer 0 (e.relative f.disp)] else []

/-- A branch that compares two words of any type. -/
def branchAny (f : FB) (g : Word → Word → Bool) : Env → Plan (List Effect) :=
  branch f fun e => do
    e.srcs [f.a, f.b] []
    return g (e.r f.a) (e.r f.b)

/-- A branch that compares two I64 payloads. -/
def branchI64 (f : FB) (g : BitVec 64 → BitVec 64 → Bool) : Env → Plan (List Effect) :=
  branch f fun e => do
    e.srcs [f.a, f.b] []
    let a ← e.i64 f.a
    let b ← e.i64 f.b
    return g a.pay b.pay

def planBeq (f : FB) : Env → Plan (List Effect) := branchAny f eqWord
def planBne (f : FB) : Env → Plan (List Effect) := branchAny f fun a b => !eqWord a b
def planBlt (f : FB) : Env → Plan (List Effect) := branchI64 f fun a b => decide (a.toInt < b.toInt)
def planBge (f : FB) : Env → Plan (List Effect) := branchI64 f fun a b => decide (b.toInt ≤ a.toInt)
def planBltu (f : FB) : Env → Plan (List Effect) := branchI64 f fun a b => decide (a < b)
def planBgeu (f : FB) : Env → Plan (List Effect) := branchI64 f fun a b => decide (b ≤ a)

/-- A branch on A alone; the B field is a type code, or zero. -/
def branchOne (f : FB) (noB : Bool) (g : Word → Bool) : Env → Plan (List Effect) :=
  branch f fun e => do
    if noB then zero f.b
    e.srcs [f.a] []
    return g (e.r f.a)

def planBtype (f : FB) : Env → Plan (List Effect) := branchOne f false fun w => w.typ == f.b.setWidth 6
def planBntype (f : FB) : Env → Plan (List Effect) := branchOne f false fun w => w.typ != f.b.setWidth 6
def planBnil (f : FB) : Env → Plan (List Effect) := branchOne f true fun w => eqWord w Word.nil
def planBnnil (f : FB) : Env → Plan (List Effect) := branchOne f true fun w => !eqWord w Word.nil

def planBr (disp : BitVec 25) (e : Env) : Plan (List Effect) := .ok [.transfer 0 (e.relative disp)]

/-- FLT_ALIGN for a transfer target taken from an operand (R98, R136). -/
def alignTarget (a : BitVec 64) : Plan Unit :=
  need (a.toNat % 8 == 0) (.trap { cause := .align, info := info 0 0 a.toNat })

def planJmpr (f : FR) (e : Env) : Plan (List Effect) := do
  zero f.d
  zero f.b
  zero f.sub
  zero f.md
  e.fetched [f.a]
  alignTarget (e.r f.a).pay
  e.clean [f.a]
  let a ← e.i64 f.a
  return [.transfer 0 a.pay]

end Sys2Proof.Machine
end

