-- ==== Sys2Proof/Machine/Routines.lean ====
section
/-! DEFINITION. The routines' steps (R158 to R163, R247, R248, R262 to R265): what each reads, checks and does until its next
check point, its END, or the access it waits for. -/

namespace Sys2Proof.Machine

/-- What one step of a routine does: its effects, the routine that goes on (none: its END), and whether the step ends at a
check point. -/
structure Step where
  es : List Effect
  next : Option Routine := none
  chk : Bool := false
  /-- the live micro state afterwards, of a routine that the sequencer runs (R263) -/
  micro : Option Micro := none
  deriving DecidableEq, Repr

/-- A routine's step from its environment. -/
abbrev Turn := Env → Routine → Plan Step

/-- Register r of the running window takes a word in the step's cycle. A turn first waits for the groups of the registers that it writes,
which a moved context may not have fetched (R108, R124). -/
def Env.poke (e : Env) (r : BitVec 5) (w : Word) : Effect := .landNow (e.x.phys r) w

/-- Reads a word, checked against Table 02-6a, through the read barrier; a capability word is left to its pair (R160, R184). -/
def Env.copyIn (e : Env) (a : Nat) : Plan (Word × List Effect) := do
  let v ← e.readMem (BitVec.ofNat 64 a)
  e.deliverable v.1 a
  if isCapType v.1.typ ∨ lvD.toNat ≤ e.x.level.toNat then return (v.1, v.2.2)
  let r ← e.forwardRef v.1
  let x ← e.fix v.2.1.pa v.1 r.1
  return (r.1, v.2.2 ++ r.2 ++ x)

/-- Reads a pair of words, each checked, as a pair landing takes them; the barrier repairs the slot whole (R386). -/
def Env.pairIn (e : Env) (a : Nat) : Plan (Word × Word × List Effect) := do
  let lo ← e.readMem (BitVec.ofNat 64 a)
  let hi ← e.readMem (BitVec.ofNat 64 (a + 8))
  e.deliverable lo.1 a
  e.deliverable hi.1 (a + 8)
  if lvD.toNat ≤ e.x.level.toNat then return (lo.1, hi.1, lo.2.2 ++ hi.2.2)
  let p ← e.forwardPair lo.1 hi.1
  let x ← e.fixPair lo.2.1.pa lo.1 hi.1 p.1 p.2.1
  return (p.1, p.2.1, lo.2.2 ++ hi.2.2 ++ p.2.2 ++ x)

/-- A capability pair. -/
def isPair (lo hi : Word) : Bool := lo.typ == Ty.capLo && hi.typ == Ty.capHi

def isLocal (lo : Word) : Bool := !lo.pay.getLsbD 6

/-- Nib cycles of a step: `first` for the routine's first, which its entry precedes, else `later` (Table 07-6). -/
def Routine.took (r : Routine) (first later : Nat) : Effect := .took (if r.begun then later else first)

/-! ### SAVEM and LOADM (R158, R159, R183) -/

/-- Register k of the bank that IMM[14:13] names (Table 04-14). -/
def bankReg (imm : BitVec 15) (k : Nat) : BitVec 5 := BitVec.ofNat 5 (8 * bits imm 13 2 + k)

/-- The registers still to move: D's progress, or the mask. -/
def saveRem (d : Word) (imm : BitVec 15) : BitVec 8 :=
  if d.typ = Ty.fixnum ∧ d.pay >>> 8 = 0x100 then d.pay.setWidth 8 else imm.setWidth 8

def saveMarker (imm : BitVec 15) : Word := Word.mk0 Ty.spill (BitVec.ofNat 64 (bits imm 13 2 * 256 + bits imm 0 8))

def progWord (m : BitVec 8) : Word := Word.fx (0x10000#64 ||| m.setWidth 64)

/-- The lowest register of a mask. -/
def lowest (m : BitVec 8) : Option Nat := (upFrom 0 8).find? fun k => m.getLsbD k

/-- The registers that one step moves: an even pair of which both are selected, else one (R183). -/
def pairStep (m : BitVec 8) (j : Nat) : Bool := j % 2 == 0 && m.getLsbD (j + 1)

/-- The mask without them. -/
def leftAfter (m : BitVec 8) (j : Nat) : BitVec 8 :=
  if pairStep m j then setBit (setBit m j false) (j + 1) false else setBit m j false

/-- SAVEM: the marker first, then a register, or both registers of an even pair in one write. -/
def savemTurn (e : Env) (r : Routine) : Plan Step := do
  e.fetched [r.d]
  let a := r.area
  if !r.begun then
    let w ← e.storeMem (BitVec.ofNat 64 a) (.word (saveMarker r.imm) .keep) (accOf [saveMarker r.imm])
    return { es := w.2 ++ [.took 3], next := some { r with begun := true, vis := true }, chk := true }
  let rem : BitVec 8 := r.base.setWidth 8
  match lowest rem with
  | none => return { es := [e.poke r.d (Word.fx 0), .took 1] }
  | some j =>
    let two := pairStep rem j
    e.fetched (if two then [bankReg r.imm j, bankReg r.imm (j + 1)] else [bankReg r.imm j])
    let w := e.r (bankReg r.imm j)
    let w2 := e.r (bankReg r.imm (j + 1))
    if two && isPair w w2 && isLocal w && !r.sl then fail .perm (info 0 0 (a + 16 + 8 * j))
    let v ← e.storeMem (BitVec.ofNat 64 (a + 16 + 8 * j)) (if two then .pair w w2 .keep else .word w .keep)
      (accOf (if two then [w, w2] else [w]))
    let left := leftAfter rem j
    return { es := v.2 ++ [e.poke r.d (progWord left), .took (if two then 2 else 1)],
             next := some { r with base := left.setWidth 64, vis := true }, chk := true }

/-- LOADM: the marker's check, then a register, or both registers of an even pair. -/
def loadmTurn (e : Env) (r : Routine) : Plan Step := do
  e.fetched [r.d]
  let a := r.area
  if !r.begun then
    let m ← e.readMem (BitVec.ofNat 64 a)
    if m.1.typ ≠ Ty.spill ∨ m.1.pay >>> 8 ≠ BitVec.ofNat 64 (bits r.imm 13 2) then failTagAt a
    return { es := m.2.2 ++ [.took 4], next := some { r with begun := true } }
  let rem : BitVec 8 := r.base.setWidth 8
  match lowest rem with
  | none => return { es := [e.poke r.d (Word.fx 0), .took 1] }
  | some j =>
    let left := leftAfter rem j
    let next : Routine := { r with base := left.setWidth 64, vis := true }
    let at_ := a + 16 + 8 * j
    if pairStep rem j then
      e.fetched [bankReg r.imm j, bankReg r.imm (j + 1)]
      let p ← e.pairIn at_
      return { es := p.2.2 ++ [e.poke (bankReg r.imm j) p.1, e.poke (bankReg r.imm (j + 1)) p.2.1, e.poke r.d (progWord left), .took 2],
               next := some next, chk := true }
    else
      e.fetched [bankReg r.imm j]
      let w ← e.copyIn at_
      return { es := w.2 ++ [e.poke (bankReg r.imm j) (single w.1), e.poke r.d (progWord left), .took 1], next := some next, chk := true }

/-! ### BCOPY, BCMP, HASH (R160 to R162, R184, R190) -/

/-- A count register, as a number; negative counts are done. -/
def countOf (w : Word) : Nat := if w.pay.toInt < 0 then 0 else w.pay.toNat

/-- A capability's CAP.LO with its cursor moved. -/
def CapV.move (k : CapV) (d : Int) : Word := (k.setCursor (((k.cursor : Int) + d).toNat)).lo

/-- The routine after some words: its cursors moved, its count lowered. -/
def Routine.pass (r : Routine) (d : Int) (k : Nat) : Routine :=
  { r with w0 := (CapV.mk r.w0 r.w1).move d, w2 := (CapV.mk r.w2 r.w3).move d, count := r.count - k, begun := true, vis := true }

/-- The progress registers of BCOPY and BCMP take the routine's count and cursors. -/
def Env.progress (e : Env) (r : Routine) : List Effect :=
  [e.poke r.d (Word.fx (BitVec.ofNat 64 r.count)), e.poke r.a r.w0, e.poke r.b r.w2]

/-- BCOPY: a word, or a capability pair whole; `sub` 1 is the descending form. A pair is read once both its words are in bounds
(R160, R190). -/
def bcopyTurn (e : Env) (r : Routine) : Plan Step := do
  e.fetched [r.d, r.a, r.b]
  let ka : CapV := ⟨r.w0, r.w1⟩
  let kb : CapV := ⟨r.w2, r.w3⟩
  if r.count = 0 then return { es := [r.took 5 1] }
  let down := r.sub = 1
  let off : Int := if down then -8 else 0
  let a ← capCheck ka off 8 pR
  let b ← capCheck kb off 8 pW
  let w ← e.copyIn a
  -- a pair with both words in the range of the copy
  let first := if down then a - 8 else a
  let inside := (capCheck ka (if down then -16 else 0) 16 pR).isOk
  let paired := isCapType w.1.typ && decide (2 ≤ r.count) && (if down then a % 16 == 8 else a % 16 == 0) && inside
  if paired then
    let p ← e.pairIn first
    if isPair p.1 p.2.1 then
      if ka.cursor % 16 ≠ kb.cursor % 16 then fail .align (info 0 0 first)
      let off2 : Int := if down then -16 else 0
      let _ ← capCheck ka off2 16 (pR ||| pLC)
      let d ← capCheck kb off2 16 (pW ||| pSC)
      if isLocal p.1 then fail .perm (info 0 0 d)
      let v ← e.storeMem (BitVec.ofNat 64 d) (.pair p.1 p.2.1 .colour) .writeT
      let next := r.pass (if down then -16 else 16) 2
      return { es := w.2 ++ p.2.2 ++ v.2 ++ e.progress next ++ [r.took 6 2], next := some next, chk := true }
  let v ← e.storeMem (BitVec.ofNat 64 b) (.word w.1 .colour) (accOf [w.1])
  let next := r.pass (if down then -8 else 8) 1
  return { es := w.2 ++ v.2 ++ e.progress next ++ [r.took 5 1], next := some next, chk := true }

/-- BCMP. -/
def bcmpTurn (e : Env) (r : Routine) : Plan Step := do
  e.fetched [r.d, r.a, r.b]
  if r.count = 0 then return { es := [r.took 6 1] }
  let a ← capCheck ⟨r.w0, r.w1⟩ 0 8 pR
  let b ← capCheck ⟨r.w2, r.w3⟩ 0 8 pR
  let wa ← e.copyIn a
  let wb ← e.copyIn b
  if !eqWord wa.1 wb.1 then return { es := wa.2 ++ wb.2 ++ [r.took 6 1] }
  let next := r.pass 8 1
  return { es := wa.2 ++ wb.2 ++ e.progress next ++ [r.took 6 1], next := some next, chk := true }

/-- The accumulator after one word (Table 04-14's pseudocode). -/
def hashStep (d : BitVec 64) (w : Word) : BitVec 64 :=
  let x := (if isPointerType w.typ then 0 else w.pay) ^^^ (w.typ.setWidth 64 <<< 58)
  (d ^^^ x).rotateLeft 23 * 0x9E3779B97F4A7C15

/-- HASH; `w2` is the accumulator, whose TYPE stays the operand's (DESIGN CHOICE: the pseudocode gives the 64-bit value alone,
log 56). -/
def hashTurn (e : Env) (r : Routine) : Plan Step := do
  e.fetched [r.d, r.a, r.b]
  if r.count = 0 then return { es := [r.took 5 1] }
  let a ← capCheck ⟨r.w0, r.w1⟩ 0 8 pR
  let w ← e.readMem (BitVec.ofNat 64 a)
  if reservedWord w.1 then fail .tagReserved (info 0 0 a)
  let d := Word.mk0 r.w2.typ (hashStep r.w2.pay w.1)
  let next : Routine := { r with w0 := (CapV.mk r.w0 r.w1).move 8, w2 := d, count := r.count - 1, begun := true, vis := true }
  return { es := w.2.2 ++ [e.poke r.d d, e.poke r.b (Word.fx (BitVec.ofNat 64 next.count)), e.poke r.a next.w0, r.took 6 2],
           next := some next, chk := true }

/-! ### The arena, CONS and CONSN (R150, R152) -/

/-- arena_take(n) from an arena capability: the address, and the cursor word that lands in z6. -/
def arenaFrom (k : CapV) (n : Nat) : Plan (Nat × Word) := do
  if !k.ok then failTag 6
  let a ← capCheck k 0 (8 * n) (pR ||| pW)
  return (a, (k.setCursor (a + 8 * n)).lo)

/-- Register r takes a word when the routine ends, k cycles on (Table 03-7, R102). -/
def Env.atEnd (e : Env) (k : Nat) (r : BitVec 5) (w : Word) : Effect := .land k (.reg (e.x.phys r)) w

/-- CONS: both words of the cell at `base`; `w2` is the arena's cursor afterwards. -/
def consTurn (e : Env) (r : Routine) : Plan Step := do
  e.fetched [r.d, 6]
  if 15 ≤ (e.s.nib e.n).storeBuf.length then waitFor .bufferFull
  let s0 ← e.storeMem r.base (.word r.w0 .exact) (accOf [r.w0])
  let s1 ← e.storeMem (r.base + 8) (.word r.w1 .exact) (accOf [r.w1])
  e.cardOk s0.1
  return { es := s0.2 ++ s1.2 ++ [.card s0.1, e.atEnd 7 r.d (Word.mk0 Ty.cons r.base), e.atEnd 7 6 r.w2, .took 7] }

/-- CONSN: the bound and the storage first, then element idx of `count` of the vector `w0` into the storage at base; at the end
D and the arena's cursor land. -/
def consnTurn (e : Env) (r : Routine) : Plan Step := do
  e.fetched [r.d, 6]
  let h ← e.header r.w0
  if !r.begun then
    if hdrLen h.1 < r.count then fail .bounds (info 0 0 (h.2.1.toNat + 8 * (1 + hdrLen h.1)))
    let t ← arenaFrom ⟨r.w2, r.w3⟩ r.count
    return { es := h.2.2.2 ++ [.took 7], next := some { r with begun := true, base := BitVec.ofNat 64 t.1 } }
  if r.count ≤ r.idx then
    return { es := [e.atEnd 1 r.d (Word.mk0 Ty.cons r.base),
                    e.atEnd 1 6 ((CapV.mk r.w2 r.w3).setCursor (r.base.toNat + 8 * r.count)).lo, .took 1] }
  let va := h.2.1.toNat + 8 * (1 + r.idx)
  if hdrLen h.1 ≤ r.idx then fail .bounds (info 0 0 va)
  let w ← e.copyIn va
  let w' : Word := { w.1 with cdr := if r.idx + 1 < r.count then 1 else 2 }
  let v ← e.storeMem (r.base + BitVec.ofNat 64 (8 * r.idx)) (.word w' .exact) (accOf [w'])
  e.cardOk v.1
  return { es := h.2.2.2 ++ w.2 ++ v.2 ++ [.card v.1, .took 2], next := some { r with idx := r.idx + 1, vis := true }, chk := true }

/-! ### BIGSTEP (R163) -/

/-- BIGSTEP's results: the low limb and the carry, borrow or high limb, from exact sums. -/
def bigstep (sub : BitVec 3) (a b d c : Nat) : BitVec 64 × BitVec 64 :=
  match sub.toNat with
  | 0 => (BitVec.ofNat 64 (a + b + c), BitVec.ofNat 64 ((a + b + c) / 2 ^ 64))
  | 1 =>
    let x : Int := (a : Int) - b - c
    (BitVec.ofInt 64 x, BitVec.ofInt 64 (-(x / 2 ^ 64)))
  | _ => (BitVec.ofNat 64 (a * b + d + c), BitVec.ofNat 64 ((a * b + d + c) / 2 ^ 64))

/-- BIGSTEP: its check point after the reads, then its one writing step. -/
def bigstepTurn (e : Env) (r : Routine) : Plan Step := do
  e.fetched [r.d, r.d + 1]
  if !r.begun then .ok { es := [.took (if r.sub = 2 then 6 else 4)], next := some { r with begun := true }, chk := true }
  else
    let v := bigstep r.sub r.w0.pay.toNat r.w1.pay.toNat r.w2.pay.toNat r.w3.pay.toNat
    .ok { es := [e.atEnd 1 r.d (Word.rawOf v.1), e.atEnd 1 (r.d + 1) (Word.rawOf v.2), .took 1] }

/-! ### CSEAL and CUNSEAL (R154, R197 to R200, Table 04-11) -/

def failSealed {α : Type} (a : Nat) : Plan α := fail .sealed (info 0 0 a)

/-- key(K, right) of R154 and R197. -/
def Env.key (e : Env) (k : CapV) (right : BitVec 16) : Plan Nat := do
  if k.sealed || !k.has right then failSealed 0
  if k.len < 8 then failSealed 0
  let h ← e.readMem (BitVec.ofNat 64 k.base)
  if h.1.typ ≠ Ty.header ∨ !hdrKey h.1 ∨ hdrOtype h.1 = 0 then failSealed k.base
  return hdrOtype h.1

/-- CSEAL: the target HEADER takes the key as a locked update when its OTYPE is zero; the update needs the leaf's read right
(R198, R199, R329). -/
def csealTurn (e : Env) (r : Routine) : Plan Step := do
  e.fetched [r.d, r.d + 1]
  let c : CapV := ⟨r.w0, r.w1⟩
  let w ← e.access (BitVec.ofNat 64 c.base) .locked
  if inDev w.pa then fail .bus (info 0 0 w.pa)
  let h ← e.lockedWord w.pa
  if h.typ ≠ Ty.header ∨ hdrKey h then failSealed c.base
  let k ← e.key ⟨r.w2, r.w3⟩ pSEAL
  let d := c.setPerms (c.perms ||| 0x8000)
  if hdrOtype h ≠ 0 ∧ hdrOtype h ≠ k then failSealed c.base
  if hdrOtype h = 0 then e.logRoom w.pa
  return { es := (if hdrOtype h = 0 then [.locked w.pa (.seal k)] else []) ++ [e.atEnd 15 r.d d.lo, e.atEnd 15 (r.d + 1) d.hi, .took 15] }

/-- CUNSEAL. -/
def cunsealTurn (e : Env) (r : Routine) : Plan Step := do
  e.fetched [r.d, r.d + 1]
  let c : CapV := ⟨r.w0, r.w1⟩
  let h ← e.readMem (BitVec.ofNat 64 c.base)
  if h.1.typ ≠ Ty.header then failSealed c.base
  let k ← e.key ⟨r.w2, r.w3⟩ pUNSEAL
  if hdrOtype h.1 ≠ k then failSealed c.base
  let d := c.setPerms (c.perms &&& 0x7FFF)
  return { es := h.2.2 ++ [e.atEnd 12 r.d d.lo, e.atEnd 12 (r.d + 1) d.hi, .took 12] }

/-! ### GATE and GRET (R250 to R252) -/

def gateFail {α : Type} (sub aux addr : Nat) : Plan α := fail .gate (info sub aux addr)

/-- A fault inside a check becomes FLT_GATE with the cause in AUX. -/
def underGate {α : Type} (sub addr : Nat) (p : Plan α) : Plan α :=
  match p with
  | .error (.trap t) =>
    let aux := if t.cause = .spill then bits t.info 56 8 else t.cause.code.toNat
    .error (.trap { cause := .gate, info := info sub aux addr, deny := t.deny })
  | r => r

/-- A field of the gate descriptor that breaks R204 (Table 05-9). -/
def badArg (a : Nat) : Bool :=
  let code := a % 64
  match a / 64 % 8 with
  | 0 => code != 0
  | 1 => decide (0x1F < code)
  | 2 => decide (3 < code)
  | 3 => a / 512 % 2 != 0
  | _ => true

/-- Requirement i of a descriptor. -/
def gateArg (d : BitVec 64) (i : Nat) : Nat := bits d (12 * i) 12
def gateNarg (d : BitVec 64) : Nat := bits d 48 3

/-- The descriptor breaks R203 or R204. -/
def badDesc (w : Word) : Bool :=
  w.typ != Ty.raw || bits w.pay 58 6 != 0 || bits w.pay 51 5 != 0 || decide (4 < gateNarg w.pay)
    || (upFrom 0 4).any fun i => if i < gateNarg w.pay then badArg (gateArg w.pay i) else gateArg w.pay i != 0

/-- The permissions that a CODE of KIND 0b011 selects. -/
def codePerms (code : Nat) : BitVec 16 :=
  let c := BitVec.ofNat 6 code
  (if c.getLsbD 0 then pR else 0) ||| (if c.getLsbD 1 then pW else 0) ||| (if c.getLsbD 2 then pLC else 0)
    ||| (if c.getLsbD 3 then pSC else 0) ||| (if c.getLsbD 4 then pGLOBAL else 0) ||| (if c.getLsbD 5 then pX else 0)

/-- The registers that a requirement names. -/
def gateRegs (a : Nat) : List (BitVec 5) :=
  let r := BitVec.ofNat 5 (24 + a / 512 % 8)
  if a / 64 % 8 = 3 then [r, r + 1] else [r]

/-- The caller's n registers meet a requirement (R204). -/
def Env.meets (e : Env) (a : Nat) : Bool :=
  let r := BitVec.ofNat 5 (24 + a / 512 % 8)
  let w := e.r r
  let code := a % 64
  w.typ != Ty.poison && (match a / 64 % 8 with
    | 0 => true
    | 1 => w.typ == BitVec.ofNat 6 code
    | 2 => inClass w (code % 4)
    | _ => let k := e.pair r; k.ok && !k.sealed && k.has (codePerms code))

/-- The gate's stack capability is valid (R205). -/
def stackOk (k : CapV) : Bool :=
  k.ok && !k.sealed && k.has (pR ||| pW ||| pLC ||| pSC ||| pSL) && k.cursor % 16 == 0 && decide (k.cursor + 16 ≤ k.top)

/-- A word of the gate object, at the supervisor's rights. -/
def Env.gateWord (e : Env) (a : Nat) : Plan (Word × Where × List Effect) :=
  underGate 0x04 a (do
    let w ← e.readMem (BitVec.ofNat 64 a) true
    if reservedWord w.1 then fail .tagReserved (info 0 0 a)
    return w)

/-- The words of the gate frame (Table 06-7). -/
def gateFrame (x : Context) : Word × Word :=
  (Word.rawOf (BitVec.ofNat 64 (bits (x.pc + 16) 3 45 * 8 + x.level.toNat)), Word.rawOf (x.st.setWidth 64))

/-- GATE: every check, the frame's access, the window advance's check, and the store buffer entry; its effects bind at the
target pair (R236). The caller's n registers are read as they stand in the routine's step (DESIGN CHOICE: R250 gives the checks no
cycle, log 76). The frame of a stack on a device leaf goes to the device address as any pair store does (DESIGN CHOICE, log
57). -/
def gateTurn (e : Env) (r : Routine) : Plan Step := do
  let g : CapV := ⟨r.w0, r.w1⟩
  let h := g.base
  if !g.ok then gateFail 0x01 0 0
  if !g.sealed || !g.has (pGATE ||| pX) then gateFail 0x02 0 0
  if h % 16 ≠ 0 ∨ g.top < h + 40 then gateFail 0x03 0 h
  if 1 < e.x.level.toNat then gateFail 0x07 0 (h + 8)
  let hd ← e.gateWord h
  if hd.1.typ ≠ Ty.header ∨ !hdrGate hd.1 ∨ !hdrFrozen hd.1 ∨ hdrLen hd.1 < 4 then gateFail 0x05 0 h
  let desc ← e.gateWord (h + 8)
  let lo0 ← e.gateWord (h + 16)
  let hi0 ← e.gateWord (h + 24)
  let entry ← e.gateWord (h + 32)
  let stkp ← underGate 0x04 (h + 16) (e.forwardPair lo0.1 hi0.1)
  let stk : CapV := ⟨stkp.1, stkp.2.1⟩
  let d := desc.1.pay
  if badDesc desc.1 then gateFail 0x06 0 (h + 8)
  let lvl := bits d 56 2
  if 1 < lvl ∨ lvl < e.x.level.toNat then gateFail 0x07 0 (h + 8)
  if entry.1.typ ≠ Ty.fixnum ∨ bits entry.1.pay 0 3 ≠ 0 ∨ bits entry.1.pay 48 16 ≠ 0 then gateFail 0x08 0 (h + 32)
  if !stackOk stk then gateFail 0x09 0 (h + 16)
  e.fetched ((upFrom 0 (gateNarg d)).flatMap fun i => gateRegs (gateArg d i))
  match (upFrom 0 (gateNarg d)).find? fun i => !e.meets (gateArg d i) with
  | some i => gateFail (0x10 + i) (24 + gateArg d i / 512 % 8) 0
  | none =>
    let callee : Env := { e with x := e.x.setSt 0 2 lvl }
    let w ← underGate 0x0A stk.cursor (callee.access (BitVec.ofNat 64 stk.cursor) .write)
    let x ← underGate 0x04 (h + 16) (e.fixPair lo0.2.1.pa lo0.1 hi0.1 stkp.1 stkp.2.1)
    let adv ← underGate 0x0B 0 e.advanceOk
    e.groups [mBase ((e.x.cwp + 1) % 7) / 8]
    if 16 ≤ (e.s.nib e.n).storeBuf.length then waitFor .bufferFull
    let fr := gateFrame e.x
    let stk2 := stk.setCursor (stk.cursor + 16)
    return { es := hd.2.2 ++ desc.2.2 ++ lo0.2.2 ++ hi0.2.2 ++ entry.2.2 ++ stkp.2.2
                ++ x ++ adv
                ++ [.level (.gate (BitVec.ofNat 2 lvl) fr.1 fr.2 w.pa (!w.cached) (BitVec.ofNat 64 stk.cursor) stk2.lo stk2.hi) entry.1.pay, .took 11] }

/-- The status check of sub-cause 0x22; a level of the other group is not permitted either (R215; DEDUCED, log 77). -/
def badStatus (zero : Bool) (x : Context) (cl : BitVec 2) (cst : BitVec 32) : Bool :=
  zero != lvD.toNat.ble cl.toNat || cst.extractLsb' 0 2 != cl || cst &&& 0xC000F010 != 0
    || (cst ^^^ x.st) &&& 0xEC &&& ~~~(stwMask x.level) != 0 || (!zero && bits cst 2 2 == 3)

/-- GRET: the frame's checks and the window retreat's; its effects bind at the target pair (R236). -/
def gretTurn (e : Env) (r : Routine) : Plan Step := do
  let k : CapV := ⟨r.w0, r.w1⟩
  if e.x.tw || !k.ok || k.sealed || !k.has pR || decide (k.cursor < k.base + 16) then gateFail 0x20 0 0
  let a := k.cursor - 16
  if a % 16 ≠ 0 then gateFail 0x21 2 a
  let rd (a : Nat) : Plan (Word × Where × List Effect) := underGate 0x21 (k.cursor - 16) (do
    let w ← e.readMem (BitVec.ofNat 64 a)
    if reservedWord w.1 then fail .tagReserved (info 0 0 a)
    return w)
  let w0 ← rd a
  let w1 ← rd (a + 8)
  if w0.1.typ ≠ Ty.raw ∨ w1.1.typ ≠ Ty.raw ∨ bits w0.1.pay 48 16 ≠ 0 ∨ w0.1.pay.getLsbD 2 ∨ bits w1.1.pay 32 32 ≠ 0 then
    gateFail 0x20 0 0
  let cl : BitVec 2 := w0.1.pay.extractLsb' 0 2
  let cst : BitVec 32 := w1.1.pay.setWidth 32
  if e.x.level.toNat < cl.toNat || badStatus (e.c == 0) e.x cl cst then gateFail 0x22 0 a
  let fill ← underGate 0x23 0 (e.retreatOk fun op => e.runMem op 0)
  return { es := w0.2.2 ++ w1.2.2 ++ fill ++ [.level (.gret cl cst) (w0.1.pay &&& 0xFFFFFFFFFFF8), .took 9] }

/-! ### RBAR.COPY (R385 to R388, Table 07-6) -/

/-- The operation whose delivery met an item not yet copied goes on; the copy itself is the wait it ends in. -/
def rbarTurn (e : Env) (r : Routine) : Plan Step :=
  match r.mem with
  | some op => do
    let es ← e.runMem op 0
    return { es := es.map fun f => match f with
      | .land d t w => .land d t { w with pay := e.s.viaEntry e.n 0x0010 w.pay }
      | f => f }
  | none => .ok { es := [] }

end Sys2Proof.Machine
end

