-- ==== Sys2Proof/Machine/Calls.lean ====
section
/-! DEFINITION. Calls, returns and the trap return (R155, R235), and the issue of GATE and GRET (R250 to R252). -/

namespace Sys2Proof.Machine

/-! ### CALL, CALLR, RET -/

/-- The return address into n7 and the transfer, after the window advance's checks (R91, R155). -/
def Env.callTo (e : Env) (target : BitVec 64) : Plan (List Effect) := do
  let adv ← e.advanceOk
  return adv ++ [e.to 31 1 (Word.fx (e.x.pc + 16)), .transfer 1 target]

def planCall (disp : BitVec 25) (e : Env) : Plan (List Effect) := do
  e.fetched [31]
  e.callTo (e.relative disp)

def planCallr (f : FR) (e : Env) : Plan (List Effect) := do
  zero f.d
  zero f.b
  zero f.sub
  zero f.md
  e.fetched [f.a, 31]
  let a := e.r f.a
  if a.typ ≠ Ty.function then alignTarget a.pay
  e.clean [f.a]
  if a.typ = Ty.function then e.callTo (waddr a + 16)
  else
    let v ← e.i64 f.a
    e.callTo v.pay

/-- RET; in the trap window it is the trap return from the current level. -/
def planRet (f : FR) (e : Env) : Plan (List Effect) := do
  if e.x.tw then defined (f.a == 0)
  zero f.d
  zero f.b
  zero f.sub
  zero f.md
  if e.x.tw then return [.level (.trapRet e.x.level) (e.x.save e.x.level).pc]
  else
    e.fetched [f.a]
    alignTarget (e.r f.a).pay
    e.clean [f.a]
    let a ← e.i64 f.a
    let fill ← e.retreatOk fun op => e.mem op
    return .transfer 2 a.pay :: fill

/-! ### GATE and GRET at issue: fields, groups and POISON; their routines make every other check -/

def planGate (f : FR) (e : Env) : Plan (List Effect) := do
  zero f.d
  zero f.b
  zero f.sub
  zero f.md
  pairReg f.a
  e.fetched [f.a, f.a + 1]
  e.clean [f.a, f.a + 1]
  return [.run { op := .gate, slot := e.slot, a := f.a, w0 := e.r f.a, w1 := e.r (f.a + 1) }]

def planGret (f : FR) (e : Env) : Plan (List Effect) := do
  zero f.d
  zero f.a
  zero f.b
  zero f.sub
  zero f.md
  e.fetched [22, 23]
  return [.run { op := .gret, slot := e.slot, w0 := e.r 22, w1 := e.r 23 }]

end Sys2Proof.Machine
end

