-- ==== Sys2Proof/Machine/RefAccess.lean ====
section
/-! DEFINITION. Access through references (R146 to R148, Table 04-7) and through capabilities (R149, Table 04-8). -/

namespace Sys2Proof.Machine

/-! ### References -/

/-- The access address of LDV and STV, with its alignment (R148). -/
def Env.virtAddr (e : Env) (f : FI) : Plan (BitVec 64) := do
  let a := (e.r f.a).pay + (sext f.imm <<< 3)
  need (a.toNat % 8 == 0) (.trap { cause := .align, info := info 0 0 a.toNat })
  return a

def planLdx (f : FR) (e : Env) : Plan (List Effect) := do
  zero f.sub
  zero f.md
  e.srcs [f.a, f.b] [f.d]
  let r ← e.ref f.a
  let i ← e.ofType Ty.fixnum f.b
  e.mem (.ldRef r i.pay.toInt (e.x.phys f.d))

def planLdi (f : FI) (e : Env) : Plan (List Effect) := do
  e.srcs [f.a] [f.d]
  let r ← e.ref f.a
  e.mem (.ldRef r f.imm.toInt (e.x.phys f.d))

def planStx (f : FR) (e : Env) : Plan (List Effect) := do
  zero f.sub
  zero f.md
  e.srcs [f.a, f.b, f.d] []
  let r ← e.ref f.a
  let i ← e.ofType Ty.fixnum f.b
  let w ← e.nc f.d
  e.mem (.stRef r i.pay.toInt w)

def planSti (f : FI) (e : Env) : Plan (List Effect) := do
  e.srcs [f.a, f.d] []
  let r ← e.ref f.a
  let w ← e.nc f.d
  e.mem (.stRef r f.imm.toInt w)

def planLdbx (f : FR) (e : Env) : Plan (List Effect) := do
  zero f.sub
  zero f.md
  e.srcs [f.a, f.b] [f.d]
  let r ← e.ofType Ty.string f.a
  let k ← e.ofType Ty.fixnum f.b
  e.mem (.ldByte r k.pay.toInt (e.x.phys f.d))

def planStbx (f : FR) (e : Env) : Plan (List Effect) := do
  zero f.sub
  zero f.md
  e.srcs [f.a, f.b, f.d] []
  let r ← e.ofType Ty.string f.a
  let k ← e.ofType Ty.fixnum f.b
  let v ← e.ofType Ty.fixnum f.d
  if 255 < v.pay.toNat then failTag f.d
  e.mem (.stByte r k.pay.toInt (v.pay.setWidth 8))

def planLdv (f : FI) (e : Env) : Plan (List Effect) := do
  e.fetched [f.a, f.d]
  let a ← e.virtAddr f
  e.atLeast lvS
  e.clean [f.a]
  let _ ← e.i64 f.a
  e.mem (.ldVirt a (e.x.phys f.d))

def planStv (f : FI) (e : Env) : Plan (List Effect) := do
  e.fetched [f.a, f.d]
  let a ← e.virtAddr f
  e.atLeast lvS
  e.clean [f.a, f.d]
  let _ ← e.i64 f.a
  let w ← e.nc f.d
  e.mem (.stVirt a w)

def planHdrq (f : FR) (e : Env) : Plan (List Effect) := do
  defined (f.sub.toNat ≤ 4)
  zero f.b
  zero f.md
  e.srcs [f.a] [f.d]
  let r ← e.ref f.a
  e.mem (.hdr r f.sub (e.x.phys f.d))

def planFreeze (f : FR) (e : Env) : Plan (List Effect) := do
  zero f.d
  zero f.b
  zero f.sub
  zero f.md
  e.srcs [f.a] []
  let r ← e.ref f.a
  e.mem (.freeze r)

/-! ### Capabilities -/

/-- The capability operand of an access: alignment, POISON, tags, then SEALED, permissions and bounds (R149). -/
def Env.capAt (e : Env) (a : BitVec 5) (off : Int) (size : Nat) (rights : BitVec 16) (src : List (BitVec 5))
    (tags : Plan Unit) : Plan (BitVec 64) := do
  capAlign (e.pair a) off size
  e.clean ([a, a + 1] ++ src)
  let k ← e.cap a
  tags
  let v ← capCheck k off size rights
  return BitVec.ofNat 64 v

/-- The offset of an I-format access. -/
def immOff (imm : BitVec 15) : Int := 8 * imm.toInt

def planCld (f : FI) (e : Env) : Plan (List Effect) := do
  pairReg f.a
  e.fetched [f.a, f.a + 1, f.d]
  let a ← e.capAt f.a (immOff f.imm) 8 pR [] (.ok ())
  e.mem (.ldCap a (e.x.phys f.d))

def planCst (f : FI) (e : Env) : Plan (List Effect) := do
  pairReg f.a
  e.fetched [f.a, f.a + 1, f.d]
  let a ← e.capAt f.a (immOff f.imm) 8 pW [f.d] (do let _ ← e.nc f.d)
  e.mem (.stCap a (e.r f.d))

def planCldc (f : FI) (e : Env) : Plan (List Effect) := do
  pairReg f.a
  pairReg f.d
  e.fetched [f.a, f.a + 1, f.d, f.d + 1]
  let a ← e.capAt f.a (immOff f.imm) 16 (pR ||| pLC) [] (.ok ())
  e.mem (.ldPair a (e.x.phys f.d))

def planCstc (f : FI) (e : Env) : Plan (List Effect) := do
  pairReg f.a
  pairReg f.d
  e.fetched [f.a, f.a + 1, f.d, f.d + 1]
  let a ← e.capAt f.a (immOff f.imm) 16 (pW ||| pSC) [f.d, f.d + 1] (do let _ ← e.cap f.d)
  let k := e.pair f.d
  if isLocal k.lo then fail .perm (info 0 0 a.toNat)
  e.mem (.stPair a k.lo k.hi)

def planCldx (f : FR) (e : Env) : Plan (List Effect) := do
  zero f.sub
  zero f.md
  pairReg f.a
  e.fetched [f.a, f.a + 1, f.b, f.d]
  let a ← e.capAt f.a (8 * (e.r f.b).pay.toInt) 8 pR [f.b] (do let _ ← e.ofType Ty.fixnum f.b)
  e.mem (.ldCap a (e.x.phys f.d))

def planCstx (f : FR) (e : Env) : Plan (List Effect) := do
  zero f.sub
  zero f.md
  pairReg f.a
  e.fetched [f.a, f.a + 1, f.b, f.d]
  let a ← e.capAt f.a (8 * (e.r f.b).pay.toInt) 8 pW [f.b, f.d] (do
    let _ ← e.ofType Ty.fixnum f.b
    let _ ← e.nc f.d)
  e.mem (.stCap a (e.r f.d))

end Sys2Proof.Machine
end

