-- ==== Sys2Proof/Machine/Lists.lean ====
section
/-! DEFINITION. Lists (R150, R151), allocation (R152, R153) and the long instructions' issue (R158 to R163). -/

namespace Sys2Proof.Machine

/-! ### Lists -/

/-- CAR and CDR at issue: nil with SUB 1 lands nil without an access. -/
def carCdr (f : FR) (op : Word → Nat → MemOp) (e : Env) : Plan (List Effect) := do
  defined (f.sub.toNat ≤ 1)
  zero f.b
  zero f.md
  e.srcs [f.a] [f.d]
  let w := e.r f.a
  if f.sub = 1 ∧ eqWord w Word.nil then return [e.to f.d 3 Word.nil]
  else do
    let r ← e.ofType Ty.cons f.a
    e.mem (op r (e.x.phys f.d))

def planCar (f : FR) : Env → Plan (List Effect) := carCdr f (.car)
def planCdr (f : FR) : Env → Plan (List Effect) := carCdr f (.cdr)

/-- RPLACA and RPLACD at issue. -/
def rplac (f : FR) (op : Word → Word → MemOp) (e : Env) : Plan (List Effect) := do
  zero f.b
  zero f.sub
  zero f.md
  e.srcs [f.a, f.d] []
  let r ← e.ofType Ty.cons f.a
  let w ← e.nc f.d
  e.mem (op r w)

def planRplaca (f : FR) : Env → Plan (List Effect) := rplac f (.rplaca)
def planRplacd (f : FR) : Env → Plan (List Effect) := rplac f (fun r w => .rplacd r w f.d)

/-! ### The arena (R152) -/

/-- The alignment check of arena_take, on the cursor payload. -/
def Env.arenaAlign (e : Env) : Plan Unit := capAlign (e.pair 6) 0 8

def planCons (f : FR) (e : Env) : Plan (List Effect) := do
  zero f.sub
  zero f.md
  e.fetched [f.a, f.b, f.d, 6]
  e.arenaAlign
  e.clean [f.a, f.b, 6, 7]
  let x ← e.nc f.a
  let y ← e.nc f.b
  let t ← arenaFrom (e.pair 6) 2
  return [.run { op := .cons, d := f.d, a := f.a, b := f.b, slot := e.slot, base := BitVec.ofNat 64 t.1, w0 := x, w1 := y, w2 := t.2 }]

/-- CONSN at issue; a count of zero lands nil and takes the routine's time. -/
def planConsn (f : FR) (e : Env) : Plan (List Effect) := do
  zero f.sub
  zero f.md
  e.fetched [f.a, f.b, f.d, 6]
  let n := countOf (e.r f.b)
  if n ≠ 0 then e.arenaAlign
  e.clean (if n = 0 then [f.a, f.b] else [f.a, f.b, 6, 7])
  let v ← e.ofType Ty.vector f.a
  let b ← e.ofType Ty.fixnum f.b
  if b.pay.toInt < 0 then failTag f.b
  if n = 0 then return [e.to f.d 8 Word.nil, .took 8]
  return [.run { op := .consn, d := f.d, a := f.a, b := f.b, slot := e.slot, count := n, w0 := v, w2 := e.r 6, w3 := e.r 7 }]

/-! ### Allocation -/

/-- ALLOC and ALLOCI once length and RTYPE are known. -/
def Env.allocate (e : Env) (d : BitVec 5) (t : BitVec 6) (n : Int) : Plan (List Effect) := do
  if n < 0 ∨ 2 ^ 36 ≤ n then fail .bounds 0
  let k ← arenaFrom (e.pair 6) (1 + n.toNat)
  e.mem (.alloc k.1 t n.toNat (e.x.phys d) k.2 6)

def planAlloc (f : FR) (e : Env) : Plan (List Effect) := do
  defined (okRtype (f.md.setWidth 6))
  zero f.b
  zero f.sub
  zero (f.md.extractLsb' 6 1)
  e.fetched [f.a, f.d, 6]
  e.arenaAlign
  e.clean [f.a, 6, 7]
  let a ← e.ofType Ty.fixnum f.a
  let _ ← e.cap 6
  e.allocate f.d (f.md.setWidth 6) a.pay.toInt

def planAlloci (f : FI) (e : Env) : Plan (List Effect) := do
  defined (okRtype (f.imm.setWidth 6))
  zero f.a
  e.fetched [f.d, 6]
  e.arenaAlign
  e.clean [6, 7]
  e.allocate f.d (f.imm.setWidth 6) (bits f.imm 6 9)

/-! ### Long instructions -/

/-- Registers of a bank that a mask selects. -/
def maskRegs (imm : BitVec 15) : List (BitVec 5) :=
  ((upFrom 0 8).filter fun k => imm.getLsbD k).map (bankReg imm)

/-- SAVEM and LOADM at issue. -/
def saveLoad (f : FI) (op : RoutineOp) (bad : Bool) (rights : BitVec 16) (e : Env) : Plan (List Effect) := do
  defined (!bad)
  zero (f.imm.extractLsb' 8 5)
  pairReg f.a
  e.fetched [f.a, f.a + 1, f.d]
  capAlign (e.pair f.a) 0 16
  e.clean [f.a, f.a + 1, f.d]
  let k ← e.cap f.a
  let a ← capCheck k 0 80 rights
  return [.run { op := op, d := f.d, a := f.a, imm := f.imm, slot := e.slot, base := (saveRem (e.r f.d) f.imm).setWidth 64, area := a,
                 sl := k.has pSL }]

def planSavem (f : FI) : Env → Plan (List Effect) :=
  saveLoad f .savem ((maskRegs f.imm).contains f.d) (pW ||| pSC)

def planLoadm (f : FI) : Env → Plan (List Effect) :=
  let m := maskRegs f.imm
  saveLoad f .loadm (m.contains f.d || m.contains f.a || m.contains (f.a + 1) || m.contains 0) (pR ||| pLC)

/-- BCOPY and BCMP at issue. -/
def blockOp (f : FR) (op : RoutineOp) (maxSub : Nat) (e : Env) : Plan (List Effect) := do
  if maxSub = 0 then zero f.sub else defined (f.sub.toNat ≤ maxSub)
  zero f.md
  pairReg f.a
  pairReg f.b
  e.fetched [f.a, f.a + 1, f.b, f.b + 1, f.d]
  capAlign (e.pair f.a) 0 8
  capAlign (e.pair f.b) 0 8
  e.clean [f.a, f.a + 1, f.b, f.b + 1, f.d]
  let ka ← e.cap f.a
  let kb ← e.cap f.b
  let d ← e.ofType Ty.fixnum f.d
  return [.run { op := op, d := f.d, a := f.a, b := f.b, sub := f.sub, slot := e.slot, count := countOf d, w0 := ka.lo, w1 := ka.hi,
                 w2 := kb.lo, w3 := kb.hi }]

def planBcopy (f : FR) : Env → Plan (List Effect) := blockOp f .bcopy 1
def planBcmp (f : FR) : Env → Plan (List Effect) := blockOp f .bcmp 0

def planHash (f : FR) (e : Env) : Plan (List Effect) := do
  zero f.sub
  zero f.md
  pairReg f.a
  e.fetched [f.a, f.a + 1, f.b, f.d]
  capAlign (e.pair f.a) 0 8
  e.clean [f.a, f.a + 1, f.b, f.d]
  let k ← e.cap f.a
  let b ← e.ofType Ty.fixnum f.b
  let d ← e.i64 f.d
  return [.run { op := .hash, d := f.d, a := f.a, b := f.b, slot := e.slot, count := countOf b, w0 := k.lo, w1 := k.hi, w2 := d }]

/-- BIGSTEP: an odd or zero D is a reserved value, sub-cause 0x02 (DEDUCED from R131, log 58). -/
def planBigstep (f : FR) (e : Env) : Plan (List Effect) := do
  defined (f.sub.toNat ≤ 2 && f.d != 0 && !f.d.getLsbD 0)
  zero f.md
  e.fetched [f.a, f.b, f.d, f.d + 1]
  e.clean (if f.sub = 2 then [f.a, f.b, f.d, f.d + 1] else [f.a, f.b, f.d + 1])
  let a ← e.i64 f.a
  let b ← e.i64 f.b
  if f.sub = 2 then
    let _ ← e.i64 f.d
  let c ← e.i64 (f.d + 1)
  return [.run { op := .bigstep, d := f.d, a := f.a, b := f.b, sub := f.sub, slot := e.slot, w0 := a, w1 := b, w2 := e.r f.d, w3 := c }]

end Sys2Proof.Machine
end

