-- ==== Sys2Proof/Machine/CapOps.lean ====
section
/-! DEFINITION. Capability operations (R154, R192, R193, R197 to R201, Table 04-11). -/

namespace Sys2Proof.Machine

/-- An unsealed capability source, with DERIVE where it is needed. -/
def derivable (k : CapV) (derive : Bool) : Plan Unit := do
  if k.sealed then fail .sealed 0
  if derive && !k.has pDERIVE then fail .perm 0

def planCbound (f : FR) (e : Env) : Plan (List Effect) := do
  defined (f.sub.toNat ≤ 1)
  zero f.md
  pairReg f.d
  pairReg f.a
  e.srcs [f.a, f.a + 1, f.b] [f.d, f.d + 1]
  let k ← e.cap f.a
  let b ← e.ofType Ty.fixnum f.b
  derivable k true
  if b.pay.toInt < 0 then fail .bounds 0
  let l := b.pay.toNat
  match (if f.sub = 1 then reprUp l else reprExact l) with
  | none => fail .bounds 0
  | some (x, m) =>
    let stop := k.cursor + m * 8 ^ x
    if k.top < stop then fail .bounds (info 0 0 stop)
    return e.toPair f.d 2 { k with hi := { k.hi with pay := capHiPay k.cursor x m } }

def planCperm (f : FR) (e : Env) : Plan (List Effect) := do
  zero f.sub
  zero f.md
  pairReg f.d
  pairReg f.a
  e.srcs [f.a, f.a + 1, f.b] [f.d, f.d + 1]
  let k ← e.cap f.a
  let b ← e.i64 f.b
  derivable k true
  return e.toPair f.d 2 (k.setPerms (k.perms &&& b.pay.setWidth 16))

def planCinc (f : FI) (e : Env) : Plan (List Effect) := do
  pairReg f.d
  pairReg f.a
  e.srcs [f.a, f.a + 1] [f.d, f.d + 1]
  let k ← e.cap f.a
  derivable k false
  let a : Int := (k.cursor : Int) + f.imm.toInt
  if a < (k.base : Int) ∨ (k.top : Int) < a then fail .bounds (info 0 0 (a % 2 ^ 48).toNat)
  return e.toPair f.d 2 (k.setCursor a.toNat)

def planCget (f : FR) (e : Env) : Plan (List Effect) := do
  defined (f.sub.toNat ≤ 4)
  zero f.b
  zero f.md
  pairReg f.a
  e.srcs [f.a, f.a + 1] [f.d]
  let k ← e.cap f.a
  let v := match f.sub.toNat with
    | 0 => k.cursor
    | 1 => k.base
    | 2 => k.len
    | 3 => k.perms.toNat
    | _ => k.cursor - k.base
  return [e.to f.d 1 (Word.fx (BitVec.ofNat 64 v))]

/-- Alignment of a BASE, taken from the CAP.HI payload whatever the tags. -/
def baseAlign (k : CapV) : Plan Unit := need (k.base % 8 == 0) (.trap { cause := .align, info := info 0 0 k.base })

/-- The operands of CSEAL and CUNSEAL: fields, alignment, POISON, tags. -/
def Env.sealArgs (e : Env) (f : FR) : Plan (CapV × CapV) := do
  zero f.sub
  zero f.md
  pairReg f.d
  pairReg f.a
  pairReg f.b
  e.fetched [f.a, f.a + 1, f.b, f.b + 1, f.d, f.d + 1]
  baseAlign (e.pair f.a)
  baseAlign (e.pair f.b)
  e.clean [f.a, f.a + 1, f.b, f.b + 1]
  let a ← e.cap f.a
  let b ← e.cap f.b
  return (a, b)

/-- CSEAL and CUNSEAL at issue; their routines read the HEADERs. -/
def planCseal (f : FR) (e : Env) : Plan (List Effect) := do
  let v ← e.sealArgs f
  if v.1.sealed then failSealed 0
  return [.run { op := .cseal, d := f.d, a := f.a, b := f.b, slot := e.slot, w0 := v.1.lo, w1 := v.1.hi, w2 := v.2.lo, w3 := v.2.hi }]

def planCunseal (f : FR) (e : Env) : Plan (List Effect) := do
  let v ← e.sealArgs f
  return [.run { op := .cunseal, d := f.d, a := f.a, b := f.b, slot := e.slot, w0 := v.1.lo, w1 := v.1.hi, w2 := v.2.lo, w3 := v.2.hi }]

end Sys2Proof.Machine
end

