-- ==== Sys2Proof/Machine/Contexts.lean ====
section
/-! DEFINITION. Contexts, events and time (R164, R165, R117 to R122, R127), barriers (R166, R316, R317) and translation
invalidation (R167, R340). -/

namespace Sys2Proof.Machine

def planYield (f : FR) (_ : Env) : Plan (List Effect) := do
    zero f.d
    zero f.a
    zero f.b
    zero f.sub
    zero f.md
    return [.yield]

def planWait (f : FI) (e : Env) : Plan (List Effect) := do
  defined (bits f.imm 0 4 != 0)
  zero (f.imm.extractLsb' 4 11)
  zero f.a
  e.fetched [f.d]
  return [.wait (f.imm.setWidth 4) (e.x.phys f.d)]

def planSend (f : FR) (e : Env) : Plan (List Effect) := do
  zero f.sub
  zero f.md
  e.srcs [f.a, f.b] [f.d]
  let a ← e.ofType Ty.fixnum f.a
  let w ← e.nc f.b
  return [.send a.pay w (e.x.phys f.d)]

def planRecv (f : FR) (e : Env) : Plan (List Effect) := do
  zero f.a
  zero f.b
  zero f.sub
  zero f.md
  e.fetched [f.d]
  e.mem (.recv (e.x.phys f.d))

/-- The context that XR or XW names (R127); a number above 31 is FLT_PERM at every level (DEDUCED: the table names the cause at
level S, log 58). -/
def Env.named (e : Env) (r : BitVec 5) : Plan Nat := do
  let a ← e.ofType Ty.fixnum r
  if 31 < a.pay.toNat ∨ (e.x.level = lvS ∧ a.pay = 0) then fail .perm 0
  return a.pay.toNat

/-- Register and reserved bits of an XR or XW index. -/
def xIndex (imm : BitVec 15) : Plan Nat := do
  defined (bits imm 0 8 ≤ 143)
  zero (imm.extractLsb' 8 7)
  return bits imm 0 8

def planXr (f : FI) (e : Env) : Plan (List Effect) := do
  let k ← xIndex f.imm
  e.fetched [f.a, f.d]
  e.atLeast lvS
  e.clean [f.a]
  let d ← e.named f.a
  e.mem (.xread d k (e.x.phys f.d)) 2

def planXw (f : FI) (e : Env) : Plan (List Effect) := do
  let k ← xIndex f.imm
  e.fetched [f.a, f.d]
  e.atLeast lvS
  e.clean [f.a, f.d]
  let d ← e.named f.a
  if (e.s.ctx e.n d).unfetched.getLsbD (k / 8) then waitFor (.group d (k / 8))
  let w := e.r f.d
  return [.xwrite d k (if lvD.toNat ≤ e.x.level.toNat then w else single w)]

def planTimer (f : FR) (e : Env) : Plan (List Effect) := do
  zero f.d
  zero f.b
  zero f.sub
  zero f.md
  e.srcs [f.a] []
  let a ← e.ofType Ty.fixnum f.a
  return [.timer a.pay]

def planSteady (f : FI) (e : Env) : Plan (List Effect) := do
  defined (f.imm.toNat ≤ 512)
  zero f.d
  zero f.a
  e.atLeast lvS
  return [.steady f.imm.toNat]

/-! ### Barriers -/

def zeroFields (f : FZ) : Plan Unit := do
  zero f.d
  zero f.b
  zero f.md

/-- Stores of the context that are not yet acknowledged. -/
def Env.storesOut (e : Env) : Bool := ((e.s.nib e.n).storeBuf ++ (e.s.nib e.n).tracker).any (·.ctx == e.c)

/-- The pair after a barrier issues when every load before it has landed. -/
def Env.loadsLanded (e : Env) : List Effect :=
  if e.x.inflight.any fun l => decide (e.s.now e.n < l.due) then [.took 2] else []

/-- Every store that an XINV waits for has been acknowledged or dropped (R340). -/
def State.xinvDone (s : State) (v : Xinv) : Bool :=
  v.waits.all fun p => ((s.nib p.1).storeBuf ++ (s.nib p.1).tracker).all fun e => decide (p.2 ≤ e.seq)

/-- FLT_BARRIER for a store dropped before the barrier (R317). -/
def Env.noDrop (e : Env) : Plan Unit :=
  need (!e.x.barFault) (.trap { cause := .barrier, info := info 0 0 e.x.barAddr.toNat })

def planLbar (f : FZ) (e : Env) : Plan (List Effect) := do
  zeroFields f
  zero f.a
  return e.loadsLanded

def planSbar (f : FZ) (e : Env) : Plan (List Effect) := do
  zeroFields f
  zero f.a
  e.noDrop
  if e.storesOut then waitFor (.barrier .sbar)
  return []

def planFbar (f : FZ) (e : Env) : Plan (List Effect) := do
  zeroFields f
  zero f.a
  e.noDrop
  if e.storesOut || !e.x.xinvs.all e.s.xinvDone then waitFor (.barrier .fbar)
  return e.loadsLanded

def planXinvPage (f : FZ) (e : Env) : Plan (List Effect) := do
  zeroFields f
  e.fetched [f.a]
  e.atLeast lvS
  e.clean [f.a]
  let a ← e.i64 f.a
  return [.xinv (.page a.pay.toNat)]

def planXinvWard (f : FZ) (e : Env) : Plan (List Effect) := do
  zeroFields f
  zero f.a
  e.atLeast lvS
  return [.xinv .ward]

def planXinvAll (f : FZ) (e : Env) : Plan (List Effect) := do
  zeroFields f
  zero f.a
  e.atLeast lvD
  return [.xinv .all]

end Sys2Proof.Machine
end

