-- ==== Sys2Proof/Machine/Microcode.lean ====
section
/-! DEFINITION. The control store (R253 to R260, R275, R276, R281): parity, dispatch, match registers, the sequencer, and the live
micro state of a routine. The ROMs are private: their words, and what the private fields of a nanoword do, are constants with no
body (log 8). -/

namespace Sys2Proof.Machine

/-! ### Parity (R281) -/

/-- The number of ones among bits [lo + k − 1 : lo] is odd. -/
def oddOnes {w : Nat} (x : BitVec w) (lo : Nat) : Nat → Bool
  | 0 => false
  | k + 1 => x.getLsbD (lo + k) != oddOnes x lo k

/-- A stored word with its parity bits: each makes the ones of its segment even (DESIGN CHOICE: the sense of parity is not given,
log 59). -/
def storedMicro (v : BitVec 29) : BitVec 30 := setBit (v.setWidth 30) 29 (oddOnes v 0 29)
def storedNano (v : BitVec 168) : BitVec 176 :=
  (upFrom 0 8).foldl (fun x k => setBit x (168 + k) (oddOnes v (21 * k) 21)) (v.setWidth 176)
def storedMatch (v : BitVec 32) : BitVec 33 := setBit (v.setWidth 33) 32 (oddOnes v 0 32)


/-- The ROM words of a nib with their parity bits, RSV of every nanoword zero (Table 07-1, R257). No command changes them: a word of a ROM
that has come to fail its parity is the report of its nib (FAULT_REPORT). -/
def romMicro (a : Nat) : BitVec 29 :=
  let v := Config.microRom a
  setBit (v.setWidth 29) 28 (oddOnes v 0 28)
def romNano (a : Nat) : BitVec 176 := storedNano (Config.nanoRom a &&& ~~~0xFFFFFFF#168)
def romDispatch (v : BitVec 16) : BitVec 17 := setBit (v.setWidth 17) 16 (oddOnes v 0 16)
def romGood {w : Nat} (x : BitVec w) : Bool := !oddOnes x 0 w

def microGood (x : BitVec 30) : Bool := !oddOnes x 0 30
def nanoGood (x : BitVec 176) : Bool := (upFrom 0 8).all fun k => oddOnes x (21 * k) 21 == x.getLsbD (168 + k)
def matchGood (x : BitVec 33) : Bool := !oddOnes x 0 33

/-! ### Patch images in a nib (Table 07-1, Table 07-10) -/

/-- n fields of k bytes from offset o on. -/
def fieldsAt (img : List Byte) (o k : Nat) : Nat → List Nat
  | 0 => []
  | n + 1 => byteField img o k :: fieldsAt img (o + k) k n

/-- What the hub writes into a nib's patch RAMs and match registers (R280). -/
def patchStore (img : List Byte) : PatchStore where
  micro := (fieldsAt img 64 4 1024).map fun v => storedMicro (BitVec.ofNat 29 v)
  nano := (fieldsAt img 4160 24 256).map fun v => storedNano (BitVec.ofNat 168 v)
  regs := (fieldsAt img 10304 4 64).map fun v => storedMatch (BitVec.ofNat 32 v)

/-! ### Dispatch (R258, R259) -/

/-- The dispatch indices that are VALID in the ROM (Table 07-6). -/
def romIndices : List Nat :=
  upFrom 0x0F8 4 ++ upFrom 0x058 3 ++ upFrom 0x060 2 ++ [0x290, 0x298, 0x310, 0x318, 0x340, 0x348] ++ upFrom 0x350 16
    ++ upFrom 0x360 2 ++ [0x368, 0x370] ++ upFrom 0x378 3

/-- The dispatch index of an instruction (R258). -/
def dispatchIndex (w : BitVec 32) : Nat := bits w 25 7 * 8 + bits w 7 3

/-- Every index that the immediate bits of SAVEM and LOADM reach names one routine (R259). -/
def dispatchKey (i : Nat) : Nat := if 0x350 ≤ i ∧ i < 0x360 then i - i % 8 else i

/-- The dispatch table: VALID in [15], MADDR in [13:0]; the entry of BCOPY is that of chapter 7's example. -/
def dispatchEntry (i : Nat) : BitVec 16 :=
  if !romIndices.contains i then 0
  else if i = 0x360 then 0x9C40
  else 0x8000 ||| (Config.romEntry (dispatchKey i)).setWidth 16

/-- An enabled match register that fails its parity (R281). -/
def Nib.matchBad (b : Nib) : Bool := b.store.regs.any fun r => r.getLsbD 31 && !matchGood r

def entryValid (v : BitVec 16) : Bool := v.getLsbD 15
def entryAddr (v : BitVec 16) : BitVec 14 := v.extractLsb' 0 14

/-- A dispatch entry as it is read: one that fails its parity does not act (R281). -/
def entryRead (i : Nat) : Option (BitVec 16) :=
  let x := romDispatch (dispatchEntry i)
  if romGood x then some (x.setWidth 16) else none

/-- Where a patched routine begins (R276): a matched index enters the patch RAM at TARGET; a routine of which a ROM word is matched
begins at its MADDR, and so does one that meets a match register of bad parity, which its first fetch reports. -/
def Nib.patchedAt (b : Nib) (w : BitVec 32) : Option (BitVec 15) :=
  let i := dispatchIndex w
  if !b.patched then none
  else match entryRead i with
    | none => none
    | some v =>
      let a := entryAddr v
      if !entryValid v then none
      else if b.matchBad then some (a.setWidth 15)
      else match b.matchAt true i with
        | some t => some (BitVec.ofNat 15 (0x4000 + t))
        | none => if (Config.romPath a.toNat).any fun m => (b.matchAt false m).isSome then some (a.setWidth 15) else none

/-! ### The sequencer (R254, R255) -/

/-- The microword at a micro-address, with the address it was fetched from; a parity error of a patch word or an enabled match
register is sub-cause 0x03, one of the micro-ROM 0x01 (R276, R281). -/
def Nib.microAt (b : Nib) (upc : BitVec 15) : Except (BitVec 8) (BitVec 15 × BitVec 29) :=
  let patch (t : Nat) : Except (BitVec 8) (BitVec 15 × BitVec 29) :=
    let x := (b.store.micro[t]?).getD 0
    if microGood x then .ok (BitVec.ofNat 15 (0x4000 + t), x.setWidth 29) else .error 3
  if upc.getLsbD 14 then patch (bits upc 0 10)
  else if b.patched && b.matchBad then .error 3
  else match b.matchAt false upc.toNat with
    | some t => patch t
    | none => if romGood (romMicro upc.toNat) then .ok (upc, ((romMicro upc.toNat).setWidth 28).setWidth 29) else .error 1

/-- The nanoword that a microword names; NSEL stands in patch microwords alone. A parity error of the nano-ROM is sub-cause 0x02. -/
def Nib.nanoAt (b : Nib) (at_ : BitVec 15) (w : BitVec 29) : Except (BitVec 8) (BitVec 168) :=
  if at_.getLsbD 14 && w.getLsbD 28 then
    let x := (b.store.nano[bits w 17 8]?).getD 0
    if nanoGood x then .ok (x.setWidth 168) else .error 3
  else
    let x := romNano (bits w 17 11)
    if nanoGood x then .ok (x.setWidth 168) else .error 2

/-- A micro-address of the store that holds address u. -/
def sameStore (u : BitVec 15) (t : BitVec 14) : BitVec 15 := setBit (t.setWidth 15) 14 (u.getLsbD 14)

/-- The address after the microword at u, in its store. -/
def nextInStore (u : BitVec 15) : BitVec 15 := sameStore u (u.extractLsb' 0 14 + 1)

/-- SEQ (Table 07-3): the live state that fetches the next microword; none at END. -/
def Micro.seq (m : Micro) (u : BitVec 15) (w : BitVec 29) (cond : Bool) : Option Micro :=
  let goto (a : BitVec 15) : Option Micro := some { m with upc := a }
  let target := sameStore u (w.extractLsb' 0 14)
  let next := nextInStore u
  match bits w 14 3 with
  | 0 => goto next
  | 1 => goto target
  | 2 => goto (if cond then target else next)
  | 3 => some { m with ulc := m.ulc - 1, upc := if m.ulc - 1 = 0 then next else target }
  | 4 => some { m with uret := next, upc := target }
  | 5 => goto m.uret
  | 6 => none
  | _ => goto (if u.getLsbD 14 then (w.extractLsb' 0 14).setWidth 15 else BitVec.ofNat 15 (0x4000 + bits w 0 10))

/-- The nanoword's architectural fields (Table 07-4). -/
def nanoRaise (v : BitVec 168) : BitVec 8 := v.extractLsb' 107 8
def nanoRsub (v : BitVec 168) : BitVec 8 := v.extractLsb' 99 8
def nanoLoop (v : BitVec 168) : Nat := bits v 96 3
def nanoVis (v : BitVec 168) : Bool := v.getLsbD 95
def nanoProg (v : BitVec 168) : Bool := v.getLsbD 94
def nanoChk (v : BitVec 168) : Bool := v.getLsbD 93
def nanoBar (v : BitVec 168) : Bool := v.getLsbD 92
def nanoConst (v : BitVec 168) : BitVec 64 := v.extractLsb' 28 64

/-- The fault of a cause code (Table 06-2); a code that no fault of an instruction has acts as FLT_OPCODE (DESIGN CHOICE, log 59). -/
def faultOf (v : BitVec 8) : Cause :=
  ([.opcode, .align, .bus, .tag, .tagReserved, .bounds, .perm, .sealed, .xlate, .xrights, .walk, .rubric, .gate, .spill, .promote,
    .generic, .arith, .barrier, .poison].find? fun k => Cause.code k == v).getD .opcode

/-- Temporary k takes a word. -/
def Micro.setTemp (m : Micro) (k : BitVec 2) (w : Word) : Micro :=
  match k.toNat with
  | 0 => { m with ut0 := w }
  | 1 => { m with ut1 := w }
  | 2 => { m with ut2 := w }
  | _ => { m with ut3 := w }

/-- No microword makes a reserved encoding: such a word goes on as RAW (R41; DESIGN CHOICE, log 8). -/
def plainWord (w : Word) : Word := if reservedWord w then Word.rawOf w.pay else w

/-- Nib cycles of a microword: its own, and those until a word that it reads has landed, which the next one waits for (R254, Table 03-7; that
the next one reads it is DESIGN CHOICE, log 8). -/
def seqCycles (a : Config.NanoAct) : Nat := if a.read.isSome then 3 else 1

/-- The accesses of a nanoword: a read into a temporary, through the read barrier when BAR is set (R257). -/
def Env.seqRead (e : Env) (m : Micro) (a : Config.NanoAct) (bar : Bool) : Plan (Micro × List Effect) :=
  match a.read with
  | none => .ok (m, [])
  | some (va, k) => do
    let x ← e.readMem va
    e.deliverable x.1 va.toNat
    let f ← if bar then e.forwardRef x.1 else Except.ok (x.1, [])
    return (m.setTemp k f.1, x.2.2 ++ f.2 ++ if f.1 = x.1 then [] else [.repair x.2.1.pa x.1 f.1])

/-- A write. -/
def Env.seqWrite (e : Env) (a : Config.NanoAct) : Plan (List Effect) :=
  match a.write with
  | none => .ok []
  | some (va, x) => do
    let y ← e.storeMem va (.word (plainWord x) .keep) (accOf [plainWord x])
    return y.2

/-- A locked update of a line at its inkwell. -/
def Env.seqLock (e : Env) (a : Config.NanoAct) : Plan (List Effect) :=
  match a.lock with
  | none => .ok []
  | some (va, x) => do
    let y ← e.access va .locked
    if inDev y.pa then fail .bus (info 0 0 y.pa)
    let _ ← e.lockedWord y.pa
    return [.locked y.pa (.put (plainWord x))]

/-- An update of collector metadata, with the executive mask bit (R391). -/
def Env.seqData (e : Env) (a : Config.NanoAct) : Plan (List Effect) :=
  match a.data with
  | none => .ok []
  | some (pa, x) => do
    if !e.s.rubAllows (walkAsker e.n) .writeT pa.toNat then failRubric pa.toNat
    return [.metadata pa.toNat x]

/-- One microword of a routine from the patch RAM, with its nanoword (R254, R255, R257): the load of ULC comes before SEQ reads it. -/
def seqTurn (e : Env) (r : Routine) : Plan Step := do
  let b := e.s.nib e.n
  let m := e.x.micro
  match b.microAt m.upc with
  | .error k => return { es := [.ustore k], next := some r, micro := some m }
  | .ok (u, w) =>
  match b.nanoAt u w with
  | .error k => return { es := [.ustore k], next := some r, micro := some m }
  | .ok v => do
    e.fetched [r.d, r.d + 1, r.a, r.a + 1, r.b, r.b + 1]
    let a := Config.nanoAct v r.word [m.ut0, m.ut1, m.ut2, m.ut3, e.r r.d, e.r (r.d + 1), e.r r.a, e.r (r.a + 1), e.r r.b, e.r (r.b + 1)]
    if nanoRaise v ≠ 0 then fail (faultOf (nanoRaise v)) (info (nanoRsub v).toNat 0 a.addr.toNat)
    let rd ← e.seqRead { m with ut0 := plainWord a.ut0, ut1 := plainWord a.ut1, ut2 := plainWord a.ut2, ut3 := plainWord a.ut3 } a (nanoBar v)
    let wr ← e.seqWrite a
    let lk ← e.seqLock a
    let md ← e.seqData a
    let m := match nanoLoop v with
      | 1 => { rd.1 with ulc := (nanoConst v).setWidth 16 }
      | 2 => { rd.1 with ulc := a.srca }
      | _ => rd.1
    let regs := a.dst.toList ++ if nanoProg v then a.prog else []
    let es := rd.2 ++ wr ++ lk ++ md ++ regs.map (fun p => e.poke p.1 (plainWord p.2)) ++ [.took (seqCycles a)]
    match m.seq u w a.cond with
    | none => return { es := es, chk := nanoChk v }
    | some m => return { es := es, next := some { r with begun := true, vis := r.vis || nanoVis v }, chk := nanoChk v, micro := some m }

/-! ### The live micro state (R263, R266) -/

/-- A routine's first dispatch index, or its fixed entry point (Table 07-5, Table 07-6). -/
def RoutineOp.index : RoutineOp → Nat
  | .cons => 0x290 | .consn => 0x298 | .cseal => 0x310 | .cunseal => 0x318 | .gate => 0x340 | .gret => 0x348
  | .savem => 0x350 | .loadm => 0x358 | .bcopy => 0x360 | .bcmp => 0x368 | .hash => 0x370 | .bigstep => 0x378
  | .rbar => 0x010 | .seq => 0x000

/-- The operands that a routine has advanced. -/
def Routine.work (r : Routine) : List (BitVec 64) :=
  [r.base, BitVec.ofNat 64 r.idx, BitVec.ofNat 64 r.area, BitVec.ofNat 64 r.count, r.w0.pay, r.w1.pay, r.w2.pay, r.w3.pay,
    r.imm.setWidth 64, if r.begun then 1 else 0]

/-- The live micro state of a routine of the ROM: for BCOPY ascending as the example of chapter 7 gives it, else private (log 8). -/
def Routine.live (r : Routine) : Micro :=
  let at_ (w : Word) : Word := Word.rawOf (BitVec.ofNat 64 (bits w.pay 16 48))
  if r.op = .bcopy ∧ r.sub = 0 then
    { upc := if r.begun then 0x1C46 else 0x1C40, ulc := 0, ut0 := at_ r.w0, ut1 := at_ r.w2,
      ut2 := Word.fx (BitVec.ofNat 64 r.count), ut3 := Word.rawOf 0 }
  else
    let i := r.op.index + r.sub.toNat
    { upc := Config.liveUpc i r.work, ulc := Config.liveUlc i r.work, ut0 := Config.liveTemp i 0 r.work,
      ut1 := Config.liveTemp i 1 r.work, ut2 := Config.liveTemp i 2 r.work, ut3 := Config.liveTemp i 3 r.work }

/-- A slot keeps a live state (R270). -/
def Micro.save (m : Micro) (r : Option Routine) : MicroSlot :=
  { valid := true, upc := m.upc, ulc := m.ulc, ut0 := m.ut0, ut1 := m.ut1, ut2 := m.ut2, ut3 := m.ut3, routine := r }

/-- What a patched MTRAP or MRESUME makes of a live state (R260, R276). -/
def State.viaMicro (s : State) (n entry : Nat) (m : Micro) : Micro :=
  let v (w : Word) : Word := { w with pay := s.viaEntry n entry w.pay }
  { m with upc := (s.viaEntry n entry (m.upc.setWidth 64)).setWidth 15, ulc := (s.viaEntry n entry (m.ulc.setWidth 64)).setWidth 16,
           ut0 := v m.ut0, ut1 := v m.ut1, ut2 := v m.ut2, ut3 := v m.ut3 }

/-- MRESUME reloads the live state (R271). -/
def MicroSlot.load (m : MicroSlot) : Micro :=
  { upc := m.upc, ulc := m.ulc, ut0 := m.ut0, ut1 := m.ut1, ut2 := m.ut2, ut3 := m.ut3 }

end Sys2Proof.Machine
end

