-- ==== Sys2Proof/Machine/Effects.lean ====
section
/-! DEFINITION. What the slots of a pair do: faults and waits, messages, translation invalidation, and each effect on the state. -/

namespace Sys2Proof.Machine

/-! ### Faults due -/

/-- The context as it stood when an undo record was made (R109). -/
def Context.backTo (x : Context) (u : Undo) : Context :=
  { x with pc := u.pc, ws := u.ws, st := underMask x.st u.st 0x1EF, regs := u.regs, inflight := u.inflight, frames := u.frames,
           spillLo := u.spillLo, arith := u.arith }

/-- The context as it stood before the pair whose fault is precise, or before the level-changing transfer whose delay pair it is
(R109, R236). -/
def Context.rewind (x : Context) : Context :=
  match x.undo with
  | none => x
  | some u => { x.backTo u with xfer := none, undo := none, redo := none }

/-- MTRAP stores a live state in the slot of the level; patched, what it stores is a free value (R260, R270). -/
def Context.saveMicro (x : Context) (m : Micro) (r : Routine) : Context :=
  ({ x with routine := none, undo := none, redo := none }.setSlot x.level
    (m.save (some { r with got := [], stopped := false }))).setSt 7 1 1

/-- The context at a fault: a routine that has changed visible state micro-traps at the faulting step, any other pair stands as if
it had not issued (R236, R248, R272). In the delay pair of a level change also the progress registers go back (DEDUCED from R236, log 85). -/
def Context.faulted (x : Context) (m : Micro) : Context :=
  match x.routine with
  | some r => if r.vis && x.xfer.isNone then x.saveMicro m r else { x.rewind with routine := none }
  | none => x.rewind

/-- A fault is due at the context's next boundary; TRAP_ENTRY takes it (R221). A Rubric denial is recorded (R336). -/
def State.raise (s : State) (n c : Nat) (t : TrapReq) : State :=
  let s := match t.deny with
    | some a => s.deny (laneOf n) a
    | none => s
  s.modCtx n c fun x =>
    { x.faulted (s.viaMicro n 0x0030 x.micro) with faultDue := some t, parked := none, blockAns := none, fetchGot := none }

/-! ### Waits -/

/-- The context leaves issue (R107, R113 event 1). -/
def State.leave (s : State) (n c : Nat) (st : Nat) : State :=
  let s := s.modCtx n c fun x => x.setState st
  if (s.nib n).running = some c then s.modNib n fun b => { b with running := none } else s

/-- Tally indices of a park (Table 11-12). -/
def Wait.tallies : Wait → List Nat
  | .line _ _ => [3, 4]
  | .fetchLine _ _ => [3, 6]
  | .walk _ => [3, 7]
  | .page _ _ _ => [3]
  | .block _ _ _ _ => [3]
  | .devLoad _ => []
  | .group _ _ => [3]
  | .answer _ => [3]
  | .refill => [3]
  | .spillRoom => [3]
  | .barrier _ => []
  | .bufferFull => []
  | .ownStores => []
  | .entryOf _ => []
  | .shadeFull => []
  | .bucket _ => []
  | .copy _ => []

/-- The miss that an access meets after it has parked: it counts, the access's park does not again. -/
def Wait.misses (w : Wait) : List Nat := w.tallies.filter fun i => i != 3

/-- The read a wait sends to an inkwell. -/
def Wait.request (w : Wait) (n c : Nat) : List ReadReq :=
  match w with
  | .line l k => [{ nib := n, ctx := c, line := l, cached := k, fetch := false }]
  | .fetchLine l k => [{ nib := n, ctx := c, line := l, cached := k, fetch := true }]
  | .group d g => [{ nib := n, ctx := c, line := imageLine n d g, cached := false, fetch := false }]
  | _ => []

/-- The context parks (R107, R108); waits of a barrier's kind take it out of issue in the same way (R166, log 10). -/
def State.park (s : State) (n c : Nat) (p : Parked) : State :=
  let s := p.why.tallies.foldl (fun t i => t.count n i) s
  let s := { s with reads := s.reads ++ p.why.request n c }
  (s.modCtx n c fun x => { x with parked := some p }).leave n c stParked

/-! ### Messages (R118 to R120) -/

/-- The nib and context of a WCN of a ward. -/
def State.wcnAt (s : State) (w : Nat) (v : BitVec 64) : Option (Nat × Nat) :=
  if v.toNat < 16384 then
    match (s.ward w).wcns.find? fun e => e.1 == v.toNat with
    | some e => some (e.2 / 32, e.2 % 32)
    | none => none
  else none

/-- What a fault still goes back to once a pair's access or WAIT is done: the level-changing transfer before it (R236). -/
def Context.undoLeft (x : Context) : Option Undo := if x.xfer.isSome then x.undo else none

/-- A flag of EVF sets; a context that waits for it becomes READY, takes the value and clears the flags (R117). -/
def Context.flag (x : Context) (now : Nat) (mask : BitVec 16) : Context :=
  let x := { x with evf := x.evf ||| mask }.touch 0
  match x.waiting with
  | none => x
  | some (m, dst, iss) =>
    let v := x.evf &&& m.setWidth 16
    if v = 0 then x
    else (({ x with evf := x.evf &&& ~~~(v &&& 0xB), waiting := none, undo := x.undoLeft, redo := none }.setState stReady).launch now iss
      (.reg dst) (Word.fx (v.setWidth 64))).touch 0

def State.flagCtx (s : State) (n c : Nat) (mask : BitVec 16) : State :=
  s.modCtx n c fun x => x.flag (s.now n) mask

/-- A word joins a context's queue; the queue then is not empty (R116, R120). -/
def State.enqueue (s : State) (n c : Nat) (w : Word) : State :=
  (s.modCtx n c fun x => { x with queue := x.queue ++ [w] }.touchQueue).flagCtx n c 4

/-- The target takes a word (R119). -/
def State.accepts (s : State) (n c : Nat) : Bool :=
  let x := s.ctx n c
  let b := s.nib n
  b.active && !s.fenced && b.parkedBy == 0 && x.state != stIdle && x.state != stFrozen && decide (x.queue.length < 8)

/-- D-trap records held for want of room, in rising context number (R224). -/
def State.postHeld (s : State) (n : Nat) : State :=
  match (s.nib n).heldTraps with
  | [] => s
  | (c, code) :: r =>
    if (s.ctx n 0).queue.length < 8 then
      (s.modNib n fun b => { b with heldTraps := r }).enqueue n 0
        (Word.rawOf (BitVec.ofNat 64 ((if c = 0 then 2 else 1) * 2 ^ 60 + c * 256 + code.toNat)))
    else s

/-! ### Translation invalidation (R339, R340) -/

/-- Removes what an XINV covers from the TLBs of the nibs it covers and from every walk cache; walks under way end without
a result, so their pairs walk again. -/
def State.dropTranslations (s : State) (ward : Option Nat) (page : Option Nat) : State :=
  let hit (t : TlbEnt) : Bool := match page, ward with
    | some va, some w => t.hits w va
    | _, some w => t.ward == w
    | _, none => true
  let hitW (e : WalkEnt) : Bool := match page, ward with
    | some va, some w => e.ward == w && e.pre == walkPrefix e.level va
    | _, some w => e.ward == w
    | _, none => true
  { s with nibs := s.nibs.map fun b => (b.1, { b.2 with tlb := b.2.tlb.filter fun t => !hit t })
           walkCache := s.walkCache.map fun b => (b.1, b.2.filter fun t => !hitW t) }

/-- The nibs an XINV covers (R340). -/
def State.coveredNibs (s : State) (ward : Option Nat) : List Nat :=
  match ward with
  | some w => s.wardNibs w
  | none => s.listedNibs

/-- XINV acts: the removal at once, and the stores it then waits for (R340). -/
def State.xinv (s : State) (n c : Nat) (sc : XinvScope) : State :=
  let ward : Option (Option Nat) := match sc with
    | .all => some none
    | _ => if (s.ctx n c).level.toNat < lvD.toNat || s.xlValid n then some (some (s.xlWard n)) else none
  match ward with
  | none => s
  | some w =>
    let page := match sc with
      | .page va => some va
      | _ => none
    let v : Xinv := { waits := (s.coveredNibs w).map fun m => (m, (s.nib m).storeSeq) }
    let s := s.dropTranslations w page
    s.modCtx n c fun x => { x with xinvs := (x.xinvs ++ [v]).filter fun v => !s.xinvDone v }

/-! ### The caches and the store buffer (R283 to R292) -/

/-- A line enters L1; the line it displaces enters the blotter, whose oldest leaves (R283, R287, R288). -/
def Nib.fill (b : Nib) (k : CLine) (victim : Nat) : Nib :=
  let set (l : Nat) : Nat := l / 64 % 128
  let l1 := dropLine k.line b.l1
  let bl := dropLine k.line b.blotter
  let same := l1.filter fun j => set j.line == set k.line
  if same.length < 4 then { b with l1 := k :: l1, blotter := bl }
  else match same[victim % 4]? with
    | none => { b with l1 := k :: l1, blotter := bl }
    | some v =>
      let bl := if bl.length < 16 then bl else bl.drop 1
      { b with l1 := k :: dropLine v.line l1, blotter := bl ++ [v] }

/-- A line enters the instruction cache. -/
def Nib.fillCode (b : Nib) (k : CLine) (victim : Nat) : Nib :=
  let set (l : Nat) : Nat := l / 64 % 128
  let ic := dropLine k.line b.icache
  let same := ic.filter fun j => set j.line == set k.line
  if same.length < 4 then { b with icache := k :: ic }
  else match same[victim % 4]? with
    | none => { b with icache := k :: ic }
    | some v => { b with icache := k :: dropLine v.line ic }

/-- A store enters the buffer and updates the copies it may update (R286, R292). -/
def State.bufferStore (s : State) (n : Nat) (e : StoreEnt) : State :=
  s.modNib n fun b =>
    let b := { b with storeBuf := b.storeBuf ++ [{ e with seq := b.storeSeq }], storeSeq := b.storeSeq + 1 }
    if !e.merges then b
    else
      let up (ks : List CLine) : List CLine := ks.map fun k => if k.line = lineOf e.pa then k.store e else k
      { b with l1 := up b.l1, blotter := up b.blotter }

/-- Groups filled whole need no fetch (R124). -/
def Context.fetchedNow (x : Context) (g0 g1 : Nat) : Context :=
  { x with unfetched := setBit (setBit x.unfetched g0 false) g1 false }

/-- The engine's youngest frame goes back to registers (R90); its HB bit is the window's, and moves group 17 (R237). -/
def Context.takeBack (x : Context) (h m : Nat) : Context :=
  match x.frames.getLast? with
  | none => x
  | some f =>
    let base := if f.hb && (x.save x.level).live then 136 else h
    let x := (x.putRegs base (f.words.take 8)).putRegs m (f.words.drop 8)
    (({ x with frames := x.frames.dropLast }.touchFrames.setHb f.win f.hb).moveCursor (-144)).fetchedNow (base / 8) (m / 8)

/-- The engine's youngest frame holds forwarded words. -/
def Context.setHeld (x : Context) (ws : List Word) : Context :=
  match x.frames.getLast? with
  | none => x
  | some f => { x with frames := x.frames.dropLast ++ [{ f with words := ws }] }.touchFrames

/-- STEADY n issued in cycle t (R165, R245): the count restarts from n, within the 512 cycles of its region; after the limit has
ended a region it does nothing. -/
def Context.setSteady (x : Context) (t n : Nat) : Context :=
  if n = 0 then { x with steady := 0 }.setSt 8 1 0
  else if x.steadyUsed then x
  else
    let start := if x.stdy then x.steadyFrom else t + 1
    let room := start + 511 - t
    { x with steady := min n room, steadyFrom := start, steadyLim := decide (room ≤ n) }.setSt 8 1 1

/-- DKIND of a level-changing transfer: GATE calls, GRET and the trap return go back (Table 03-4). -/
def LevelXfer.kind : LevelXfer → Nat
  | .gate _ _ _ _ _ _ _ _ => 1
  | .gret _ _ => 2
  | .trapRet _ => 2

/-! ### Effects -/

/-- A result of another context's XW joins those in flight, and stays whatever becomes of the context's own pair (R105, R109). -/
def Context.launchAll (x : Context) (l : Landing) : Context :=
  let u (o : Option Undo) : Option Undo := o.map fun u => { u with inflight := insertLanding l u.inflight }
  { x with inflight := insertLanding l x.inflight, undo := u x.undo, redo := u x.redo }

/-- PRIO of a context once every result due has landed (R93). -/
def State.prioOf (s : State) (n c : Nat) : Nat := ((s.ctx n c).settle (c == 0) (s.now n)).prio

/-- One effect of a slot that issued in nib cycle t; `iss` is its place in the order of issue. A SEND to a WCN that is bound nowhere
in the ward is refused by an answer that comes from outside the nib (DESIGN CHOICE, log 64). -/
def State.effect (s : State) (n c t iss : Nat) (slot : Bool) (pc : BitVec 64) (e : Effect) : State :=
  match e with
  | .land d tg w => s.modCtx n c fun x => x.launch (t + d) iss tg w
  | .store k => s.bufferStore n k
  | .locked pa u => s.locked pa u
  | .recall l => s.modNib n fun b => match b.blotter.find? (·.line == l) with
      | some k => b.fill k (Config.freeVictim s.tick)
      | none => b
  | .park p => s.park n c { p with iss := iss }
  | .transfer k a => s.modCtx n c fun x => ((x.setWs 7 1 1).setWs 8 2 k).setWs 19 45 (a.toNat / 8)
  | .level v a => s.modCtx n c fun x => (({ x with xfer := some v }.setWs 7 1 1).setWs 8 2 v.kind).setWs 19 45 (a.toNat / 8)
  | .arith sub => s.modCtx n c fun x => { x with arith := x.arith ++ [{ sub := sub, pc := pc, slot := slot, at_ := t }] }
  | .steady k => s.modCtx n c fun x => x.setSteady t k
  | .yield =>
    let other := (upFrom 0 32).any fun j => j != c && (s.ctx n j).state == stReady && decide (s.prioOf n c ≤ s.prioOf n j)
    if !(s.ctx n c).stdy && other then s.leave n c stReady else s
  | .wait m dst =>
    let x := s.ctx n c
    let v := x.evf &&& m.setWidth 16
    if v = 0 then (s.modCtx n c fun x => { x with waiting := some (m, dst, iss) }).leave n c stWaiting
    else s.modCtx n c fun x => ({ x with evf := x.evf &&& ~~~(v &&& 0xB) }.touch 0).launch (t + 1) iss (.reg dst) (Word.fx (v.setWidth 64))
  | .popQueue =>
    let s := s.modCtx n c fun x =>
      let q := x.queue.drop 1
      { x with queue := q, evf := if q.isEmpty then x.evf &&& ~~~(4#16) else x.evf }.touchQueue
    if c = 0 then s.postHeld n else s
  | .send wcn w dst =>
    match s.wcnAt (s.xlWard n) wcn with
    | none => { s with answers := s.answers ++ [(n, c, false)] }.park n c { why := .answer dst, slot := slot, iss := iss }
    | some (m, d) =>
      if m = n then
        let ok := s.accepts n d
        let s := if ok then (s.enqueue n d w).count n 14 else s
        s.modCtx n c fun x => x.launch (t + 3) iss (.reg dst) (Word.ofTest ok)
      else
        let msg : SendMsg := { nib := n, ctx := c, tnib := m, tctx := d, word := w }
        { s with sends := s.sends ++ [msg] }.park n c { why := .answer dst, slot := slot, iss := iss }
  | .timer v => s.modCtx n c fun x =>
      { x with timer := if v.toInt ≤ 0 then none else some (min v.toNat (2 ^ 40 - 1)) }.touch 0
  | .xinv sc => s.xinv n c sc
  | .xwrite d r w =>
    let l : Landing := ⟨t + 2, iss, .reg r, w⟩
    s.modCtx n d fun x => if d = c then { x with inflight := insertLanding l x.inflight } else x.launchAll l
  | .run _ => s
  | .card pa => s.noteItem pa
  | .repair pa old new => s.repair pa old new
  | .repairPair pa o0 o1 n0 n1 => s.repairPair pa o0 o1 n0 n1
  | .shade w hi => s.modNib n fun b => { b with shade := b.shade ++ [(w, hi)] }
  | .reserve => s.modCtx n c fun x => x.moveCursor 144
  | .takeBack h m => s.modCtx n c fun x => x.takeBack h m
  | .heldWords ws => s.modCtx n c fun x => x.setHeld ws
  | .refilled w hb g0 g1 => s.modCtx n c fun x => ((x.setHb w hb).moveCursor (-144)).fetchedNow g0 g1
  | .group d g old ws => s.landGroup n d g old ws
  | .landNow r w => s.modCtx n c fun x => x.putReg r w
  | .took k => s.elapse n k
  | .tally i => s.count n i
  | .metadata pa v => s.writeOr pa (.word (Word.rawOf v) .exact)
  | .ustore k => s.detect n (.ustore k)
  | .drew => s.drawn

def State.effects (s : State) (n c t iss : Nat) (slot : Bool) (pc : BitVec 64) (es : List Effect) : State :=
  es.foldl (fun s e => s.effect n c t iss slot pc e) s

/-! ### Level-changing transfers at their target pair (R235, R236, R250 to R252) -/

/-- The pending transfer binds: level, status, window, PC and the gate frame. -/
def State.bind (s : State) (n c : Nat) : State :=
  let x := s.ctx n c
  if x.dly then s
  else match x.xfer with
    | none => s
    | some (.gate lvl f0 f1 pa unc va lo hi) =>
      let s := s.bufferStore n { ctx := c, pa := pa, va := va, kind := .pair f0 f1 .keep, ordered := x.ord, unc := unc }
      s.modCtx n c fun x =>
        let x := ({ x with xfer := none, undo := none, redo := none }.advance).setWs 8 2 0
        let x := (x.putReg (x.phys 22) lo).putReg (x.phys 23) hi
        (x.setSt 0 2 lvl.toNat).setSt 7 1 0
    | some (.gret lvl cst) =>
      s.modCtx n c fun x =>
        let x := ({ x with xfer := none, undo := none, redo := none }.retreat).setWs 8 2 0
        { x with st := setBits (underMask x.st cst 0xEC) 0 2 lvl.toNat }.touch 0
    | some (.trapRet _) =>
      s.modCtx n c fun x =>
        let l := x.level
        let v := x.save l
        let x := { x with xfer := none, undo := none, redo := none, pc := v.pc, st := x.returnSt (c == 0) (v.st.setWidth 32) }
        let x := (((x.setWs 0 3 (bits v.win 0 3)).setWs 6 1 0).setWs 7 3 (bits v.win 7 3)).setWs 19 45 (bits v.win 19 45)
        let x := (x.setSave l { v with cause := 0 }).setFreed l
        if x.mpend then x else x.setSlot x.level { x.slot x.level with valid := false }

end Sys2Proof.Machine
end

