-- ==== Sys2Proof/Machine/Encoding.lean ====
section
/-! DEFINITION. Instruction words: the formats of Table 03-5, the opcode map of Table 03-10, classes (Table 03-6) and control
transfers (R101), and the plan that a word of a CODE word names. -/

namespace Sys2Proof.Machine

/-! ### Formats (R96, Table 03-5) -/

def wordR (op : BitVec 7) (f : FR) : BitVec 32 := op ++ f.d ++ f.a ++ f.b ++ f.sub ++ f.md
/-- A row that names one SUB value. -/
def wordZ (op : BitVec 7) (sub : BitVec 3) (f : FZ) : BitVec 32 := op ++ f.d ++ f.a ++ f.b ++ sub ++ f.md
def wordI (op : BitVec 7) (f : FI) : BitVec 32 := op ++ f.d ++ f.a ++ f.imm
def wordB (op : BitVec 7) (f : FB) : BitVec 32 := op ++ f.a ++ f.b ++ f.disp
def wordJ (op : BitVec 7) (disp : BitVec 25) : BitVec 32 := op ++ disp
def wordU (op : BitVec 7) (f : FU) : BitVec 32 := op ++ f.d ++ f.imm

def fieldsR (w : BitVec 32) : FR :=
  { d := w.extractLsb' 20 5, a := w.extractLsb' 15 5, b := w.extractLsb' 10 5, sub := w.extractLsb' 7 3, md := w.extractLsb' 0 7 }
def fieldsZ (w : BitVec 32) : FZ :=
  { d := w.extractLsb' 20 5, a := w.extractLsb' 15 5, b := w.extractLsb' 10 5, md := w.extractLsb' 0 7 }
def fieldsI (w : BitVec 32) : FI := { d := w.extractLsb' 20 5, a := w.extractLsb' 15 5, imm := w.extractLsb' 0 15 }
def fieldsB (w : BitVec 32) : FB := { a := w.extractLsb' 20 5, b := w.extractLsb' 15 5, disp := w.extractLsb' 0 15 }
def fieldsU (w : BitVec 32) : FU := { d := w.extractLsb' 20 5, imm := w.extractLsb' 0 20 }

/-- A slot's half of a CODE word: slot 0 is [63:32], slot 1 is [31:0] (R8, R97). -/
def half (code : Word) (slot : Bool) : BitVec 32 := code.pay.extractLsb' (if slot then 0 else 32) 32

/-! ### Classes and transfers (Table 03-6, Table 03-10, R101) -/

def opClass (op : BitVec 7) : Cls :=
  if op == 0x07 || (decide (0x40 ≤ op) && decide (op ≤ 0x4D)) || op == 0x50 || op == 0x51 || op == 0x54 || op == 0x55
      || (decide (0x58 ≤ op) && decide (op ≤ 0x5A)) || (decide (0x72 ≤ op) && decide (op ≤ 0x75)) then .M
  else if (decide (0x08 ≤ op) && decide (op ≤ 0x0A)) || (decide (0x0D ≤ op) && decide (op ≤ 0x0F)) || op == 0x12 || op == 0x13
      || (decide (0x20 ≤ op) && decide (op ≤ 0x27)) then .X
  else if op == 0x0B || op == 0x0C || op == 0x1F || op == 0x52 || op == 0x53 || op == 0x62 || op == 0x63
      || (decide (0x68 ≤ op) && decide (op ≤ 0x6F)) then .F
  else if (decide (0x30 ≤ op) && decide (op ≤ 0x38)) || op == 0x3B || op == 0x3D || op == 0x3E then .B
  else if op == 0x39 || op == 0x3A || op == 0x3C || op == 0x70 || op == 0x71 || (decide (0x77 ≤ op) && decide (op ≤ 0x7E)) then .C
  else .A

/-- The control-transfer instructions: class B, CALL, CALLR, RET, GATE and GRET. -/
def opTransfer (op : BitVec 7) : Bool :=
  opClass op == .B || op == 0x39 || op == 0x3A || op == 0x3C || op == 0x68 || op == 0x69

/-- A word that NOP's row stands for: NOP itself, an undefined opcode, a reserved SUB of BAR or XINV (R129, R131). -/
def nopWord (w : BitVec 32) : Bool :=
  opOf w == 0 || opUndefined (opOf w) || ((opOf w == 0x78 || opOf w == 0x79) && decide (3 ≤ bits w 7 3))

/-- The instruction that a word spells (Table 03-10), as its plan. -/
def planOf (w : BitVec 32) : Env → Plan (List Effect) :=
  match (opOf w).toNat with
  | 0x01 => planMov (fieldsR w)
  | 0x02 => planMovi (fieldsI w)
  | 0x03 => planLui (fieldsU w)
  | 0x04 => planTypeof (fieldsR w)
  | 0x05 => planRetag (fieldsR w)
  | 0x06 => planTtest (fieldsR w)
  | 0x07 => planHdrq (fieldsR w)
  | 0x08 => planAdd (fieldsR w)
  | 0x09 => planSub (fieldsR w)
  | 0x0A => planMul (fieldsR w)
  | 0x0B => planDiv (fieldsR w)
  | 0x0C => planRem (fieldsR w)
  | 0x0D => planAddi (fieldsI w)
  | 0x0E => planEql (fieldsR w)
  | 0x0F => planLess (fieldsR w)
  | 0x10 => planIadd (fieldsR w)
  | 0x11 => planIsub (fieldsR w)
  | 0x12 => planImul (fieldsR w)
  | 0x13 => planMulh (fieldsR w)
  | 0x14 => planAnd (fieldsR w)
  | 0x15 => planOr (fieldsR w)
  | 0x16 => planXor (fieldsR w)
  | 0x17 => planShift (fieldsR w)
  | 0x18 => planIaddi (fieldsI w)
  | 0x19 => planAndi (fieldsI w)
  | 0x1A => planOri (fieldsI w)
  | 0x1B => planXori (fieldsI w)
  | 0x1C => planShifti (fieldsI w)
  | 0x1D => planIcmp (fieldsR w)
  | 0x1E => planEq (fieldsR w)
  | 0x1F => planIdiv (fieldsR w)
  | 0x20 => planFadd (fieldsR w)
  | 0x21 => planFsub (fieldsR w)
  | 0x22 => planFmul (fieldsR w)
  | 0x23 => planFma (fieldsR w)
  | 0x24 => planFnma (fieldsR w)
  | 0x25 => planFcmp (fieldsR w)
  | 0x26 => planFcvt (fieldsR w)
  | 0x27 => planFmisc (fieldsR w)
  | 0x30 => planBeq (fieldsB w)
  | 0x31 => planBne (fieldsB w)
  | 0x32 => planBlt (fieldsB w)
  | 0x33 => planBge (fieldsB w)
  | 0x34 => planBltu (fieldsB w)
  | 0x35 => planBgeu (fieldsB w)
  | 0x36 => planBtype (fieldsB w)
  | 0x37 => planBntype (fieldsB w)
  | 0x38 => planBr (w.extractLsb' 0 25)
  | 0x39 => planCall (w.extractLsb' 0 25)
  | 0x3A => planCallr (fieldsR w)
  | 0x3B => planJmpr (fieldsR w)
  | 0x3C => planRet (fieldsR w)
  | 0x3D => planBnil (fieldsB w)
  | 0x3E => planBnnil (fieldsB w)
  | 0x40 => planLdx (fieldsR w)
  | 0x41 => planLdi (fieldsI w)
  | 0x42 => planStx (fieldsR w)
  | 0x43 => planSti (fieldsI w)
  | 0x44 => planLdbx (fieldsR w)
  | 0x45 => planStbx (fieldsR w)
  | 0x46 => planLdv (fieldsI w)
  | 0x47 => planStv (fieldsI w)
  | 0x48 => planCld (fieldsI w)
  | 0x49 => planCst (fieldsI w)
  | 0x4A => planCldc (fieldsI w)
  | 0x4B => planCstc (fieldsI w)
  | 0x4C => planCldx (fieldsR w)
  | 0x4D => planCstx (fieldsR w)
  | 0x50 => planCar (fieldsR w)
  | 0x51 => planCdr (fieldsR w)
  | 0x52 => planCons (fieldsR w)
  | 0x53 => planConsn (fieldsR w)
  | 0x54 => planRplaca (fieldsR w)
  | 0x55 => planRplacd (fieldsR w)
  | 0x58 => planAlloc (fieldsR w)
  | 0x59 => planAlloci (fieldsI w)
  | 0x5A => planFreeze (fieldsR w)
  | 0x60 => planCbound (fieldsR w)
  | 0x61 => planCperm (fieldsR w)
  | 0x62 => planCseal (fieldsR w)
  | 0x63 => planCunseal (fieldsR w)
  | 0x64 => planCinc (fieldsI w)
  | 0x65 => planCget (fieldsR w)
  | 0x68 => planGate (fieldsR w)
  | 0x69 => planGret (fieldsR w)
  | 0x6A => planSavem (fieldsI w)
  | 0x6B => planLoadm (fieldsI w)
  | 0x6C => planBcopy (fieldsR w)
  | 0x6D => planBcmp (fieldsR w)
  | 0x6E => planHash (fieldsR w)
  | 0x6F => planBigstep (fieldsR w)
  | 0x70 => planYield (fieldsR w)
  | 0x71 => planWait (fieldsI w)
  | 0x72 => planSend (fieldsR w)
  | 0x73 => planRecv (fieldsR w)
  | 0x74 => planXr (fieldsI w)
  | 0x75 => planXw (fieldsI w)
  | 0x76 => planStr (fieldsR w)
  | 0x77 => planStw (fieldsR w)
  | 0x7A => planSteady (fieldsI w)
  | 0x7B => planTimer (fieldsR w)
  | 0x7C => planPretag (fieldsR w)
  | 0x7D => planSvr (fieldsI w)
  | 0x7E => planSvw (fieldsI w)
  | 0x78 =>
    match bits w 7 3 with
    | 0 => planLbar (fieldsZ w)
    | 1 => planSbar (fieldsZ w)
    | 2 => planFbar (fieldsZ w)
    | _ => planNop w
  | 0x79 =>
    match bits w 7 3 with
    | 0 => planXinvPage (fieldsZ w)
    | 1 => planXinvWard (fieldsZ w)
    | 2 => planXinvAll (fieldsZ w)
    | _ => planNop w
  | _ => planNop w

end Sys2Proof.Machine
end

