-- ==== Sys2Proof/Machine/Pair.lean ====
section
/-! DEFINITION. The issue of a pair (R97 to R104, R132, R136) and of what goes on in its place: a routine, from one park or check
point to the next (R261 to R273), and an operation that was parked (R107 to R109). -/

namespace Sys2Proof.Machine

/-! ### The pair's two slots -/

def slotOut (p : Plan (List Effect)) : SlotOut :=
  match p with
  | .ok es => .go es
  | .error o => o

/-- Pair conflicts of R100. -/
def conflict (a b : Cls) : Bool :=
  (a == b && (a == .X || a == .M || a == .B)) || ((a == .C || a == .F) && b != .A) || ((b == .C || b == .F) && a != .A)

def opcodeTrap (sub : BitVec 8) (slot : Bool) : TrapReq :=
  { cause := .opcode, info := BitVec.ofNat 64 (sub.toNat + if slot then 256 else 0), slot := slot }

/-- The first condition of a pair, in the order of R132 and R136, or both slots' effects. -/
def pairOutcome (c0 c1 : Cls) (t0 t1 dly : Bool) (o0 o1 : SlotOut) : Except (TrapReq ⊕ (Wait × Bool)) (List Effect × List Effect) :=
  match o0, o1 with
  | .opcode k, _ => .error (.inl (opcodeTrap k false))
  | _, .opcode k => .error (.inl (opcodeTrap k true))
  | _, _ =>
    if conflict c0 c1 then .error (.inl (opcodeTrap 5 false))
    else if dly && (t0 || t1) then .error (.inl (opcodeTrap 6 (!t0)))
    else match o0, o1 with
      | .trap t, _ => .error (.inl { t with slot := false })
      | .wait w, _ => .error (.inr (w, false))
      | _, .trap t => .error (.inl { t with slot := true })
      | _, .wait w => .error (.inr (w, true))
      | .go e0, .go e1 => .ok (e0, e1)
      | _, _ => .ok ([], [])

/-- A flourish instruction that the patch has replaced enters the patch RAM once its fields have passed (R258, R259, R276). -/
def patchedOut (b : Nib) (w : BitVec 32) (slot : Bool) (o : SlotOut) : SlotOut :=
  match o with
  | .opcode k => .opcode k
  | _ =>
    if opClass (opOf w) == .F then
      match b.patchedAt w with
      | none => o
      | some upc =>
        let f := fieldsR w
        .go [.run { op := .seq, d := f.d, a := f.a, b := f.b, sub := f.sub, imm := w.extractLsb' 0 15, slot := slot, word := w, idx := upc.toNat }]
    else o

/-- What the slot of a pair that holds word w does. -/
def slotOf (e : Env) (w : BitVec 32) (plan : Env → Plan (List Effect)) : SlotOut :=
  patchedOut (e.s.nib e.n) w e.slot (slotOut (plan e))

/-! ### Conditions -/

/-- A held machine check is due at the next pair boundary of context 0 (R226). -/
def State.checkDue (s : State) (n c : Nat) : Bool :=
  let x := s.ctx n 0
  c == 0 && !(s.nib n).heldChecks.isEmpty && !x.saveM.live && x.xfer.isNone && x.routine.isNone

/-- The running context of a nib can issue a pair, or go on with its routine up to its next check point (R111, R225, R226, R230,
R268, R412); a FLT_ARITH report falls within 24 nc (R232). -/
def State.canIssue (s : State) (n c : Nat) : Bool :=
  let b := s.nib n
  let x := s.ctx n c
  let bound := x.xfer.isSome || x.routine.isSome
  let on := x.stdy || x.xfer.isSome || x.routine.any fun r => !r.stopped
  b.active && b.running == some c && !b.closed && b.parkedBy == 0 && x.state == stRunning && x.parked.isNone
    && x.faultDue.isNone && !(s.stroke.faults.any (·.unit == n)) && !s.checkDue n c
    && (x.arith.all (fun r => decide (s.now n < r.at_ + 24)) || bound) && (x.spillFault.isNone || bound)
    && (!s.fenced || on) && (x.stopReq.isNone || on)
    && (s.stroke.phase == .opened || s.stroke.phase == .closing)

/-- The environment of the pair at PC: the target's window change made. -/
def State.pairEnv (s : State) (n c : Nat) (slot : Bool) : Env :=
  { s := s, n := n, c := c, x := (s.ctx n c).targetWindow, slot := slot }

/-- PC and WS after a pair issues: a delay pair goes to its target, any other to the next word (R95, R104). -/
def Context.nextPc (x : Context) : Context :=
  if x.dly then
    ({ x with pc := x.dtgt }.setWs 7 1 0).setWs 19 45 0
  else { x with pc := x.pc + 8 }.touch 0

def Context.snap (x : Context) : Undo :=
  { pc := x.pc, ws := x.ws, st := x.st, regs := x.regs, dirty := x.dirty, inflight := x.inflight, frames := x.frames,
    spillLo := x.spillLo, arith := x.arith }

/-- What R109 and R236 need of a pair is kept while its access, its WAIT, its routine or its level change is outstanding. -/
def Context.settleUndo (x : Context) : Context :=
  if x.parked.isSome || x.waiting.isSome || x.xfer.isSome || x.routine.isSome then x else { x with undo := none, redo := none }

/-- The fields of WS that carry a transfer (DLY, DKIND, DTGT) take those of another WS. -/
def Context.takeTransfer (x : Context) (ws : BitVec 64) : Context :=
  ((x.setWs 7 1 (bits ws 7 1)).setWs 8 2 (bits ws 8 2)).setWs 19 45 (bits ws 19 45)

/-! ### Routines (R261 to R265, R268 to R272) -/

def runOf (es : List Effect) : Option Routine :=
  es.findSome? fun e => match e with
    | .run r => some r
    | _ => none

/-- The live micro state at a routine's entry (R258, R263). -/
def Routine.entry (r : Routine) : Micro := if r.op = .seq then { upc := BitVec.ofNat 15 r.idx } else r.live

/-- A routine's step. -/
def routineTurn (op : RoutineOp) : Turn :=
  match op with
  | .savem => savemTurn
  | .loadm => loadmTurn
  | .bcopy => bcopyTurn
  | .bcmp => bcmpTurn
  | .hash => hashTurn
  | .consn => consnTurn
  | .bigstep => bigstepTurn
  | .cons => consTurn
  | .cseal => csealTurn
  | .cunseal => cunsealTurn
  | .gate => gateTurn
  | .gret => gretTurn
  | .rbar => rbarTurn
  | .seq => seqTurn

/-- A routine begins: PC and WS stay at its pair, and stand after it at its END (R261, R264). -/
def Context.begin (x : Context) (r : Routine) (pc ws : BitVec 64) : Context :=
  let r := { r with home := pc, after := some (x.pc, x.ws) }
  { x with pc := pc, routine := some r, micro := r.entry }.takeTransfer ws

/-- PC and WS at a routine's END: as its pair left them, or after the pair at which it was resumed. -/
def Context.endRoutine (x : Context) : Context :=
  match x.routine with
  | none => x
  | some r =>
    let y := { x with routine := none, blockAns := none }
    match r.after with
    | some a => if r.home = x.pc then { y with pc := a.1 }.takeTransfer a.2 else y.nextPc
    | none => y.nextPc

/-- A routine's step is done: its effects, and the END or the state it goes on from. -/
def State.stepDone (s : State) (n c : Nat) (r : Routine) (k : Step) : State :=
  let t := s.now n
  let pc := (s.ctx n c).pc
  match k.next with
  | none => ((s.modCtx n c Context.endRoutine).effects n c t (issueNo t r.slot) r.slot pc k.es).modCtx n c Context.settleUndo
  | some r' =>
    let s := s.effects n c t (issueNo t r.slot) r.slot pc k.es
    s.modCtx n c fun x =>
      { x with routine := some { r' with got := [], stopped := false }, micro := k.micro.getD r'.live, blockAns := none }

/-- The words of the next line of a copy, its source read through the nib's own copies (R285, R287, R387): what each place of the line
takes, as `State.copyLine` gives it. -/
def Env.copyWords (e : Env) (a : Nat) (r : CopyRec) : List Nat → Plan (List (Option Word) × List Effect)
  | [] => .ok ([], [])
  | b :: bs => do
    let x ← if r.dst ≤ b ∧ b < r.dst + r.len then do
        let v ← e.lookup { pa := a + (b - r.dst), cached := true }
        Except.ok (some (copiedWord ((b - r.dst) / 8) v.1), v.2)
      else Except.ok (none, [])
    let y ← e.copyWords a r bs
    return (x.1 :: y.1, x.2 ++ y.2)

/-- Stores of a line's words from a 16-byte-aligned address on: a pair whole, a word alone (R292). -/
def copyStores (c : Nat) (ord : Bool) (va : Nat → BitVec 64) (a : Nat) : List (Option Word) → List StoreEnt
  | f0 :: f1 :: r =>
    let one (b : Nat) (w : Word) : StoreEnt := { ctx := c, pa := b, va := va b, kind := .word w .exact, ordered := ord }
    (match f0, f1 with
      | some x, some y => [{ ctx := c, pa := a, va := va a, kind := .pair x y .exact, ordered := ord }]
      | some x, none => [one a x]
      | none, some y => [one (a + 8) y]
      | none, none => []) ++ copyStores c ord va (a + 16) r
  | _ => []

/-- RBAR.COPY's next line as effects: reads through L1, stores into the store buffer when it has room for them (R286, R292, R387). -/
def Env.copyLine (e : Env) (a : Nat) (r : CopyRec) : Plan (List Effect) := do
  let l := r.nextLine.1
  let w ← e.copyWords a r ((upFrom 0 8).map fun i => l + 8 * i)
  let es := copyStores e.c e.x.ord (fun b => BitVec.ofNat 64 (e.s.virtOf b)) l w.1
  if 16 < (e.s.nib e.n).storeBuf.length + es.length then waitFor .bufferFull
  return w.2 ++ es.map Effect.store

/-- The youngest of the nib's stores to a copy that is not yet visible (R294, R387). -/
def Nib.copyOut (b : Nib) (r : CopyRec) : Option StoreEnt :=
  (b.tracker ++ b.storeBuf).reverse.find? fun t => decide (r.dst ≤ t.pa) && decide (t.pa < r.dst + r.len)

/-- A routine that has check points takes each copied line as one (R265); a routine without any goes on to its END (R249). -/
def Routine.restarts (r : Routine) : Bool :=
  match r.op with
  | .gate => true
  | .gret => true
  | .cons => true
  | .cseal => true
  | .cunseal => true
  | _ => false

/-- RBAR.COPY goes one step on the item at a physical address: a line copied is a check point; with no room the context waits for
COPY_RECORD_RETRY; FORWARD is installed once every line is visible; a denied block raises FLT_RUBRIC (R265, R387, R388, R391). -/
def State.copyTurn (s : State) (n c : Nat) (r : Routine) (pa : Nat) : State :=
  let w := s.xlWard n
  let goes (line : Bool) (s : State) : State :=
    let r := { r with vis := r.vis || r.op == .rbar, begun := r.begun || r.op == .rbar, stopped := line && !r.restarts }
    s.modCtx n c fun x => { x with routine := some r }
  match s.copyNext (s.nibAsker n c (s.ctx n c).level) (walkAsker n) n w pa with
  | .denied a => s.raise n c { cause := .rubric, info := info 0 0 a, deny := some a, slot := r.slot }
  | .full => s.park n c { why := .bucket pa, slot := r.slot, got := r.got }
  | .start p => goes false (s.copyBegin n w pa p)
  | .line k =>
    match ({ s := s, n := n, c := c, x := s.ctx n c, slot := r.slot, got := r.got } : Env).copyLine pa k with
    | .ok es =>
      let t := s.now n
      goes true (((s.effects n c t (issueNo t r.slot) r.slot (s.ctx n c).pc (es ++ [.took 2])).lineDone k))
    | .error (.wait v) => s.park n c { why := v, slot := r.slot, got := r.got }
    | .error (.trap t) => s.raise n c { t with slot := r.slot }
    | .error _ => s
  | .install k =>
    match (s.nib n).copyOut k with
    | some t => s.park n c { why := .entryOf t.seq, slot := r.slot, got := r.got }
    | none => goes false (s.copyFinish w pa k)

/-- A routine parks with what its step has read so far (R262). -/
def State.parkRoutine (s : State) (n c : Nat) (r : Routine) (w : Wait) : State :=
  s.park n c { why := w, slot := r.slot, got := r.got }

/-- A routine at a check point with `stop` check points still to pass: the last one ends the run, unless a STEADY region or a level
change defers what is due (R236, R246, R268). -/
def Context.meetsStop (x : Context) (stop : Option Nat) : Bool := stop == some 0 && !x.stdy && x.xfer.isNone

/-- What a step of the context's routine sees (R261, R262). -/
def State.routineEnv (s : State) (n c : Nat) (r : Routine) : Env :=
  { s := s, n := n, c := c, x := s.ctx n c, slot := r.slot, got := r.got }

/-- The live routine of a context runs to its END, a fault, a park, or the check point at which a condition is due (R261, R262,
R268). -/
def State.runRoutine (n c : Nat) : Nat → Option Nat → State → State
  | 0, _, s => s
  | k + 1, stop, s =>
    let s := s.settled n c
    match (s.ctx n c).routine with
    | none => s
    | some r =>
      if s.stroke.faults.any (·.unit == n) then s
      else
        match routineTurn r.op (s.routineEnv n c r) r with
        | .error (.trap t) => s.raise n c { t with slot := r.slot }
        | .error (.opcode v) => s.raise n c (opcodeTrap v r.slot)
        | .error (.go _) => s
        | .error (.wait (.copy pa)) =>
          let s := s.copyTurn n c r pa
          if (s.ctx n c).routine.any fun r => !r.stopped then (if (s.ctx n c).parked.isSome then s else State.runRoutine n c k stop s) else s
        | .error (.wait w) => s.parkRoutine n c r w
        | .ok st =>
          let s := s.stepDone n c r st
          if !st.chk then State.runRoutine n c k stop s
          else if (s.ctx n c).meetsStop stop then s.modCtx n c fun x => { x with routine := x.routine.map fun (r : Routine) => { r with stopped := true } }
          else State.runRoutine n c k (stop.map (· - 1)) s

/-- Steps that a run takes at most; a routine from the patch RAM goes on with the context's next command (R269). -/
def Routine.steps (r : Routine) : Nat := r.count + 80

/-- The live routine goes on (R262, R268). -/
def State.goRoutine (s : State) (n c : Nat) (stop : Option Nat) : State :=
  match (s.ctx n c).routine with
  | none => s
  | some r => State.runRoutine n c r.steps stop s

/-! ### The pair -/

/-- Both slots of a pair take effect, and a routine that one of them names begins (R97, R102, R261). -/
def State.beginPair (s : State) (n c : Nat) (e0 e1 : List Effect) : State :=
  let t := s.now n
  let x := s.ctx n c
  let pc := x.pc
  let y := x.targetWindow
  let s := s.setCtx n c { y with blockAns := none, fetchGot := none, undo := some (x.undo.getD x.snap), redo := some x.snap }.nextPc
  let s := (s.elapse n 1).count n 0
  let s := s.effects n c t (issueNo t false) false pc e0
  let s := s.effects n c t (issueNo t true) true pc e1
  match runOf (e0 ++ e1) with
  | none => s.modCtx n c Context.settleUndo
  | some r => s.modCtx n c fun x => x.begin r pc y.ws

/-- A pair issues, and its routine runs; `stop` is the check point at which the routine meets a condition that is due. -/
def State.commitPair (s : State) (n c : Nat) (stop : Option Nat) (e0 e1 : List Effect) : State :=
  (s.beginPair n c e0 e1).goRoutine n c stop

/-- The slots' outcomes are known: the first condition, or the pair issues. -/
def State.finishPair (s : State) (n c : Nat) (stop : Option Nat) (w0 w1 : BitVec 32) (o0 o1 : SlotOut) : State :=
  match pairOutcome (opClass (opOf w0)) (opClass (opOf w1)) (opTransfer (opOf w0)) (opTransfer (opOf w1)) (s.pairEnv n c false).x.dly o0 o1 with
  | .error (.inl t) => s.raise n c t
  | .error (.inr w) => s.park n c { why := w.1, slot := w.2 }
  | .ok r => s.commitPair n c stop r.1 r.2

/-- The pair that a CODE word holds, of which `slot` is planned by the row that issues it. -/
def State.issuePair (s : State) (n c : Nat) (slot : Bool) (stop : Option Nat) (code : Word) (plan : Env → Plan (List Effect)) : State :=
  let own := slotOf (s.pairEnv n c slot) (half code slot) plan
  let other := slotOf (s.pairEnv n c (!slot)) (half code (!slot)) (planOf (half code (!slot)))
  s.finishPair n c stop (half code false) (half code true) (if slot then other else own) (if slot then own else other)

/-- The word of a pair that is, or may begin, a routine. -/
def routineWord (code : Word) : BitVec 32 × Bool :=
  if opClass (opOf (half code false)) == .F || opClass (opOf (half code true)) != .F then (half code false, false) else (half code true, true)

/-- The routine of a slot whose micro state no other record describes: it runs by the sequencer from UPC (R271, log 8). -/
def seqFrom (code : Word) : Routine :=
  let w := routineWord code
  let f := fieldsR w.1
  { op := .seq, d := f.d, a := f.a, b := f.b, sub := f.sub, imm := w.1.extractLsb' 0 15, slot := w.2, word := w.1, begun := true, vis := true }

/-- The routine that a VALID slot resumes. -/
def MicroSlot.resumes (m : MicroSlot) (code : Word) : Routine :=
  match m.routine with
  | some r => if r.op = .seq ∨ r.live = m.load then r else seqFrom code
  | none => seqFrom code

/-- MRESUME: the live state comes back from the slot of the level, in two cycles; the pair at PC does not issue (R271). -/
def State.mresume (s : State) (n c : Nat) (code : Word) : State :=
  let x := s.ctx n c
  let m := x.slot x.level
  let s := s.modCtx n c fun x =>
    let y := ({ x with fetchGot := none, blockAns := none }.setSlot x.level { m with valid := false, routine := none }).setSt 7 1 0
    { y with routine := some (m.resumes code), micro := s.viaMicro n 0x0028 m.load, undo := some (x.undo.getD y.snap), redo := some y.snap }
  s.elapse n 2

/-- A new pair comes to the front: results due have landed, and a level change binds at its target pair, before that pair's fetch
(R102, R236; DESIGN CHOICE, log 60). -/
def State.front (s : State) (n c : Nat) : State := (s.settled n c).bind n c

/-- The groups of a frame that the target pair's window advance hands to the spill engine are fetched (R88, R124). -/
def Context.spillUnfetched (x : Context) : Option Nat :=
  if !x.dly && x.dkind == 1 then x.spillGroups.find? fun g => x.unfetched.getLsbD g else none

/-- An instruction issues in a slot: the pair at PC holds its word in that slot, and both slots issue together (R97, log 5). A context
in a routine goes on with it; one with ST.MPEND resumes; a word that the pair does not hold issues nothing. -/
def issue (q : Issue) (w : BitVec 32) (stop : Option Nat) (plan : Env → Plan (List Effect)) (s0 : State) : Out :=
  let n := q.nib.val
  let c := q.ctx.val
  if !s0.canIssue n c then .next s0
  else if (s0.ctx n c).routine.isSome then .next (s0.goRoutine n c stop)
  else
    let s := s0.front n c
    let x := s.ctx n c
    match x.spillUnfetched with
    | some g => .next (s.park n c { why := .group c g })
    | none =>
      match (s.pairEnv n c false).fetch with
      | .error (.trap t) => .next (s.raise n c t)
      | .error (.wait v) => .next (s.park n c { why := v })
      | .error _ => .next s0
      | .ok code =>
        if x.mpend && (x.slot x.level).valid then .next ((s.mresume n c code).goRoutine n c stop)
        else if half code q.slot ≠ w then .next s0
        else
          let s := if x.mpend then s.modCtx n c fun x => x.setSt 7 1 0 else s
          .next (s.issuePair n c q.slot stop code plan)

/-! ### An operation that was parked goes on (R108, R109) -/

/-- The context's wait is over: it is READY, its pair issues again, or its routine goes on with the lines that came. -/
def Context.unpark (x : Context) : Context :=
  let got := match x.parked with
    | some p => p.got
    | none => []
  ({ x with parked := none, routine := x.routine.map fun (r : Routine) => { r with got := got } }.settleUndo).setState stReady

/-- The pair of a parked operation issues again once a wait that comes before its issue is over (R333). -/
def Context.reissue (x : Context) (slot : Bool) (w : Wait) : Context :=
  let x := match x.redo with
    | some u => x.backTo u
    | none => x
  { x with parked := some { why := w, slot := slot } }

/-- The operation meets an item not yet copied: RBAR.COPY runs in its place, its pair not yet over (R385). -/
def Context.beginCopy (x : Context) (op : MemOp) (p : Parked) : Context :=
  let r : Routine := { op := .rbar, mem := some op, slot := p.slot, got := p.got }
  let y := match x.redo with
    | some u => x.begin r u.pc (if u.ws.getLsbD 7 then u.ws else setBits u.ws 8 2 0)
    | none => x.begin r x.pc x.ws
  { y with parked := none }.setState stReady

/-- The parked operation of a context runs with the lines that came; it lands, waits again or faults. -/
def State.goOn (s : State) (n c : Nat) : State :=
  let s := s.settled n c
  let x := s.ctx n c
  match x.parked with
  | none => s
  | some p =>
    match p.op with
    | none => s.modCtx n c Context.unpark
    | some op =>
      let e : Env := { s := s, n := n, c := c, x := x, slot := p.slot, got := p.got }
      match e.runMem op 0 with
      | .ok es =>
        let s := s.modCtx n c fun y => { y with parked := none, blockAns := none }.settleUndo.setState stReady
        s.effects n c (s.now n) p.iss p.slot x.pc es
      | .error (.trap t) => (s.raise n c { t with slot := p.slot }).modCtx n c fun y => y.setState stReady
      | .error (.wait (.copy pa)) =>
        match x.routine with
        | some r => (s.modCtx n c Context.unpark).copyTurn n c r pa
        | none => s.modCtx n c fun y => y.beginCopy op p
      | .error (.wait w) =>
        let s := if w.goesOn || x.routine.isSome then w.misses.foldl (fun t i => t.count n i) s else s
        let s := { s with reads := s.reads ++ w.request n c }
        s.modCtx n c fun y =>
          if w.goesOn then { y with parked := some { p with why := w } }
          else match y.routine with
            | some r => { y with parked := some { why := w, slot := p.slot, got := r.got } }
            | none => y.reissue p.slot w
      | .error _ => s

end Sys2Proof.Machine
end

