-- ==== Sys2Proof/Machine/Faults.lean ====
section
/-! DEFINITION. What becomes of a context that a stop, a close or a switch meets: the access it abandons, the routine that
micro-traps (R109, R268, R270, R412, R604). -/

namespace Sys2Proof.Machine

/-- Waits whose answer a stop or a close awaits: a SEND to another nib, a spill write. -/
def Wait.awaited : Wait → Bool
  | .answer _ => true
  | .spillRoom => true
  | _ => false

/-- A routine without check points is under way: it runs to its END (R265, R268). -/
def Context.bare (x : Context) : Bool :=
  x.routine.any fun r => r.op == .cons || r.op == .cseal || r.op == .cunseal || r.op == .gate || r.op == .gret

/-- A routine is between two check points. -/
def Context.inRoutine (x : Context) : Bool := x.routine.any fun r => !r.stopped

def Context.awaits (x : Context) : Bool := match x.parked with
  | some p => p.why.awaited || x.bare
  | none => false

/-- A routine that stands at a check point or has passed one. -/
def Context.trappable (x : Context) : Option Routine :=
  match x.routine with
  | some r => if r.stopped || r.vis then some r else none
  | none => none

/-- The routine under way micro-traps at its last check point (R247, R270). -/
def State.microTrap (s : State) (n c : Nat) : State :=
  match (s.ctx n c).trappable with
  | some r => (s.modCtx n c fun x => { x with parked := none }.saveMicro (s.viaMicro n 0x0030 x.micro) r).count n 9
  | none => s

/-- A parked access, a WAIT or a routine that has passed no check point is given up: the context stands as the access's fault would
leave it (R109). -/
def Context.giveUp (x : Context) : Context :=
  if x.parked.isSome || x.waiting.isSome || x.routine.isSome then
    { x.rewind with parked := none, waiting := none, routine := none, blockAns := none, fetchGot := none }
  else { x with blockAns := none, fetchGot := none }

/-- A context leaves the nib's issue logic for good of this stroke. -/
def State.unseat (s : State) (n c : Nat) : State :=
  s.modNib n fun b => { b with running := if b.running = some c then none else b.running }

/-- The answers to an access that its context has given up are discarded when they come (R412, R604). -/
def State.dropAnswers (s : State) (n c : Nat) : State :=
  { s with reads := s.reads.filter fun r => !(r.nib == n && r.ctx == c), fills := s.fills.filter fun m => !(m.nib == n && m.ctx == c) }

/-- A stop or freeze takes effect (R604). -/
def State.stopNow (s : State) (n c : Nat) (r : StopReq) : State :=
  let s := s.microTrap n c
  let s := s.modCtx n c fun x => { x.giveUp with stopReq := none }.setState (if r = StopReq.stop then stIdle else stFrozen)
  (s.unseat n c).dropAnswers n c

/-- A trap is due at the context's next boundary (R230 items 2 to 4). -/
def Context.faultsDue (x : Context) : Bool := x.faultDue.isSome || x.spillFault.isSome || !x.arith.isEmpty

end Sys2Proof.Machine
end

