-- ==== Sys2Proof/Machine/CtxControl.lean ====
section
/-! DEFINITION. Context control (R526 to R528, R604): the items of a context as words, and the commands of CTX.CMD. -/

namespace Sys2Proof.Machine

/-! ### Register groups not yet fetched (R124) -/

/-- An image line of a context: its group, or state in a layout private to firmware but for the lines Table 11-6 gives. -/
def State.imageWords (s : State) (n c k : Nat) : List Word :=
  let x := mget ctxDefault s.ckpt.ctxs (key n c)
  let priv : List Word := (upFrom 0 8).map fun i => Word.rawOf (Config.privateWord (key n c) (8 * k + i) s.stroke.num)
  let group (i : Nat) (m : Bool) : List Word := match (if x.suspended.isSome then x.frames[i]? else none) with
    | some f => (f.words.drop (if m then 8 else 0)).take 8
    | none => List.replicate 8 Word.rawZero
  if k < 18 then (upFrom (8 * k) 8).map x.reg
  else if k = 19 then (upFrom 0 8).map fun i => (x.queue[i]?).getD Word.empty
  else if 25 ≤ k ∧ k < 29 then group ((k - 25) / 2) ((k - 25) % 2 == 1)
  else priv

/-- The shadow writer writes one pending line, neither logged nor watched (R21, R428, R430): the registers' words as they are, a lone
capability word too, so that the group's fetch gives back what was committed (DESIGN CHOICE beside R182, log 78). -/
def State.writeImage (s : State) (e : Nat × Nat × Nat) : State :=
  { s with imagePending := s.imagePending.filter fun x => x != e }.writeFixed (.shadow e.1) (imageLine e.1 e.2.1 e.2.2)
    (s.imageWords e.1 e.2.1 e.2.2)

/-- A read of an image line waits until its pending write is made (R428): the write is made first. -/
def State.flushImage (s : State) (l : Nat) : State :=
  (s.imagePending.filter fun e => imageLine e.1 e.2.1 e.2.2 == l).foldl State.writeImage s

/-- Words two by two through the read barrier, each item copied to the end when it must be. -/
def State.forwardAll (n c : Nat) : State → List Word → Except SlotOut (State × List Word)
  | s, a :: b :: r => do
    let p ← s.forwardHeld n c a b
    let q ← State.forwardAll n c p.1 r
    return (q.1, p.2.1 :: p.2.2 :: q.2)
  | s, ws => .ok (s, ws)

/-- A group of a context that CTX.CMD names is fetched as a lazy fetch does it: the shadow line through its inkwell, the read barrier,
the roots of MARK (R124, R372, R385). It is not, where the Rubric denies the line, a word is a reserved encoding, or the barrier cannot
end. -/
def State.fetchGroup (s : State) (n c g : Nat) : State × Bool :=
  if !(s.ctx n c).unfetched.getLsbD g then (s, true)
  else
    let l := imageLine n c g
    if !s.rubAllows (walkAsker n) .read l then (s.deny (laneOf n) l, false)
    else
      let s := (s.flushImage l).inkRead l
      let ws := s.line l
      if ws.any reservedWord then (s, false)
      else match (if c = 0 then Except.ok (s, ws) else State.forwardAll n c s ws) with
        | .ok r => (r.1.landGroup n c g ws (r.2.map fun w => { w with cdr := 0 }), true)
        | .error _ => (s, false)

/-! ### Items (Table 13-11) -/

/-- What a read of an item gives: a word with its tag, or a payload whose tag the spec does not give. -/
inductive Item where
  | word (w : Word)
  | plain (p : BitVec 64)
  | bad
  deriving DecidableEq, Repr

def slotWord0 (m : MicroSlot) : BitVec 64 :=
  BitVec.ofNat 64 ((if m.valid then 2 ^ 63 else 0) + m.upc.toNat * 2 ^ 32 + m.ulc.toNat)

def levelSlot (x : Context) (k : Nat) : MicroSlot := x.slot (BitVec.ofNat 2 k)

/-- The item of a context that ITEM and INDEX name. -/
def readItem (x : Context) (item idx : Nat) : Item :=
  match item with
  | 0 => if idx < 144 then .word (x.reg idx) else .bad
  | 1 => if idx = 0 then .plain x.pc else .bad
  | 2 => if idx = 0 then .plain (x.st.setWidth 64) else .bad
  | 3 => if idx = 0 then .plain x.ws else .bad
  | 4 => if idx = 0 then .plain (x.evf.setWidth 64) else .bad
  | 5 => if idx = 0 then .word x.spillLo else if idx = 1 then .word x.spillHi else .bad
  | 6 =>
    if 1 ≤ idx / 8 ∧ idx / 8 ≤ 3 ∧ idx % 8 ≤ 4 then .plain ((x.save (BitVec.ofNat 2 (idx / 8))).item (idx % 8)) else .bad
  | 7 => if idx < 8 then .word ((x.queue[idx]?).getD Word.empty) else .bad
  | 8 => if idx = 0 then .plain (BitVec.ofNat 64 (x.timer.getD 0)) else .bad
  | 9 =>
    if 4 ≤ idx / 8 ∨ 4 < idx % 8 then .bad
    else
      let m := levelSlot x (idx / 8)
      match idx % 8 with
      | 0 => .word (Word.rawOf (slotWord0 m))
      | 1 => .word m.ut0
      | 2 => .word m.ut1
      | 3 => .word m.ut2
      | _ => .word m.ut3
  | 10 => if idx = 0 then .plain ((if x.barFault then 0x8000000000000000 else 0) ||| (x.barAddr.setWidth 40).setWidth 64) else .bad
  | _ => .bad

/-- A write of one item as a privileged retag (R528), which makes no FORWARD or SPILL word (Table 02-5); none when it is refused. -/
def writeItem (x : Context) (item idx : Nat) (w : Word) : Option Context :=
  let p := w.pay
  let okWord := !reservedWord w && !badHeader w && w.typ != Ty.forward && w.typ != Ty.spill
  let w := unmarked w
  match item with
  | 0 => if idx < 144 ∧ okWord then some (x.putReg idx w) else none
  | 1 => if idx = 0 then some ({ x with pc := p &&& ~~~(7#64) }.touch 0) else none
  | 2 =>
    if idx = 0 ∧ 2 ≤ bits p 0 2 then none
    else if idx = 0 then some ({ x with st := underMask x.st (p.setWidth 32) 0x3FFF01EF }.touch 0)
    else none
  | 3 => if idx = 0 then some ({ x with ws := p &&& 0xFFFFFFFFFFF9FFFF }.touch 0) else none
  | 4 => if idx = 0 then some ({ x with evf := p.setWidth 16 &&& 0xF }.touch 0) else none
  | 5 =>
    if !okWord then none
    else if idx = 0 then some ({ x with spillLo := w }.touch 0)
    else if idx = 1 then some ({ x with spillHi := w }.touch 0)
    else none
  | 6 =>
    if 1 ≤ idx / 8 ∧ idx / 8 ≤ 3 ∧ idx % 8 ≤ 4 then
      let l := BitVec.ofNat 2 (idx / 8)
      let v := x.save l
      some (x.setSave l (match idx % 8 with
        | 0 => { v with pc := p &&& ~~~(7#64) }
        | 1 => { v with st := (p.setWidth 32).setWidth 64 }
        | 2 => { v with cause := p &&& 0x1FFF }
        | 3 => { v with info := p }
        | _ => { v with win := p &&& 0xFFFFFFFFFFF9FFFF }) |>.setFreed l)
    else none
  | 7 =>
    if !okWord then none
    else if idx < x.queue.length then some ({ x with queue := setAt x.queue idx w }.touchQueue)
    else if idx = x.queue.length ∧ x.queue.length < 8 then some ({ x with queue := x.queue ++ [w], evf := x.evf ||| 4 }.touchQueue)
    else none
  | 8 => if idx = 0 then some ({ x with timer := if p = 0 then none else some (min p.toNat (2 ^ 40 - 1)) }.touch 0) else none
  | 9 =>
    if 4 ≤ idx / 8 ∨ 4 < idx % 8 then none
    else
      let l := BitVec.ofNat 2 (idx / 8)
      let m := x.slot l
      match idx % 8 with
      | 0 =>
        if p &&& 0x7FFF8000FFFF0000 ≠ 0 then none
        else
          let upc : BitVec 15 := p.extractLsb' 32 15
          some (x.setSlot l { m with valid := p.getLsbD 63, upc := upc, ulc := p.extractLsb' 0 16 })
      | 1 => if okWord then some (x.setSlot l { m with ut0 := w }) else none
      | 2 => if okWord then some (x.setSlot l { m with ut1 := w }) else none
      | 3 => if okWord then some (x.setSlot l { m with ut2 := w }) else none
      | _ => if okWord then some (x.setSlot l { m with ut3 := w }) else none
  | 10 => if idx = 0 then some ({ x with barFault := p.getLsbD 63, barAddr := (p.extractLsb' 0 40).setWidth 48 }.touch 0) else none
  | _ => none

/-! ### The registers of the context-control page (Table 13-10) -/

def State.ctxSel (s : State) (n : Nat) : Nat × Nat × Nat :=
  let v := s.reg32 (ctxPage n)
  (bits v 16 5, bits v 8 8, bits v 0 8)

def State.ctxData (s : State) (n : Nat) : Word :=
  Word.ofTag ((s.reg32 (ctxPage n + 0x18)).extractLsb' 0 10)
    (((s.reg32 (ctxPage n + 0x14)).setWidth 64 <<< 32) ||| (s.reg32 (ctxPage n + 0x10)).setWidth 64)

def State.setCtxData (s : State) (n : Nat) (w : Word) : State :=
  ((s.setReg (ctxPage n + 0x10) (w.pay.setWidth 32)).setReg (ctxPage n + 0x14) (w.pay.extractLsb' 32 32)).setReg
    (ctxPage n + 0x18) (w.tag.setWidth 32)

/-- REFUSED of CTX.STATUS follows the last command. -/
def State.refused (s : State) (n : Nat) (b : Bool) : State := s.setReg (ctxPage n + 8) (if b then 1 else 0)

/-- CMD 0b001: the item goes to the data registers. The tag of an item that is no word is a free value. -/
def State.ctxReadCmd (s : State) (n : Nat) : State :=
  let k := s.ctxSel n
  let s := s.settled n k.1
  let f := if k.2.1 = 0 ∧ k.2.2 < 144 then s.fetchGroup n k.1 (k.2.2 / 8) else (s, true)
  let s := f.1
  if !f.2 then s.refused n true
  else match readItem (s.ctx n k.1) k.2.1 k.2.2 with
  | .word w => (s.setCtxData n w).refused n false
  | .plain p => ((s.setCtxData n (Word.ofTag (s.draw.setWidth 10) p)).drawn).refused n false
  | .bad => s.refused n true

/-- The context may be changed: not context 0, and IDLE or FROZEN. -/
def State.changeable (s : State) (n c : Nat) : Bool :=
  c != 0 && ((s.ctx n c).state == stIdle || (s.ctx n c).state == stFrozen)

/-- CMD 0b010: the data registers go to the item. -/
def State.ctxWriteCmd (s : State) (n : Nat) : State :=
  let k := s.ctxSel n
  if !s.changeable n k.1 then s.refused n true
  else
    let s := s.settled n k.1
    let f := if k.2.1 = 0 ∧ k.2.2 < 144 then s.fetchGroup n k.1 (k.2.2 / 8) else (s, true)
    let s := f.1
    if !f.2 then s.refused n true
    else match writeItem (s.ctx n k.1) k.2.1 k.2.2 (s.ctxData n) with
    | some x => (s.setCtx n k.1 x).refused n false
    | none => s.refused n true

/-- CMD 0b011: IDLE to READY. -/
def State.ctxStartCmd (s : State) (n : Nat) : State :=
  let c := (s.ctxSel n).1
  if c = 0 ∨ (s.ctx n c).state ≠ stIdle then s.refused n true
  else (s.modCtx n c fun x => x.setState stReady).refused n false

/-- The state of a live D save set returns to its context (R224); RES and HB of WS keep their values, as at a trap return (DEDUCED from
R235, log 61). -/
def Context.resumeD (x : Context) : Context :=
  let v := x.saveD
  let x := if v.live then
      { x with pc := v.pc, st := x.returnSt false (v.st.setWidth 32),
               ws := (x.ws &&& 0x1FC38) ||| (v.win &&& 0xFFFFFFFFFFF803C7) }.touch 0
    else x
  (x.setSave lvD { v with cause := 0 }).setFreed lvD

/-- CMD 0b101: clears the D save set, FROZEN to READY. -/
def State.ctxResumeCmd (s : State) (n : Nat) : State :=
  let c := (s.ctxSel n).1
  if !s.changeable n c then s.refused n true
  else (s.modCtx n c fun x =>
    let f := x.state == stFrozen
    let y := x.resumeD
    if f then y.setState stReady else y).refused n false

/-- CMD 0b100 and 0b110: accepted now; a context that is not active takes the state at once, any other at its boundary
(R604). -/
def State.ctxStopCmd (s : State) (n : Nat) (r : StopReq) : State :=
  let c := (s.ctxSel n).1
  if c = 0 then s.refused n true
  else
    let x := s.ctx n c
    let s := s.refused n false
    if x.state = stIdle ∨ x.state = stFrozen then s.stopNow n c r
    else s.modCtx n c fun x => { x with stopReq := some r }

/-- A write to CTX.CMD. -/
def State.ctxCmd (s : State) (n : Nat) (v : BitVec 32) : State :=
  match bits v 0 3 with
  | 1 => s.ctxReadCmd n
  | 2 => s.ctxWriteCmd n
  | 3 => s.ctxStartCmd n
  | 4 => s.ctxStopCmd n .stop
  | 5 => s.ctxResumeCmd n
  | 6 => s.ctxStopCmd n .freeze
  | _ => s

/-- A stop or freeze meets its context: at a pair boundary outside a level-changing transfer, with no trap due, or at a routine's
check point; when a parked answer has come; and not in a STEADY region (R230, R236, R246, R604). -/
def State.stopAct (s : State) (n c : Nat) : State :=
  let x := s.ctx n c
  match x.stopReq with
  | none => s
  | some r =>
    if x.stdy || x.xfer.isSome || x.awaits || x.bare || (x.inRoutine && x.parked.isNone) || x.faultsDue || s.checkDue n c then s
    else s.stopNow n c r

end Sys2Proof.Machine
end

