-- ==== Sys2Proof/Machine/SetupMap.lean ====
section
/-! DEFINITION. The set-up register space (ch 13): which block an address reaches, what each register reads, and which
fields a write may change. -/

namespace Sys2Proof.Machine

/-! ### Decoding (R506, R507, R521, R524, R525) -/

/-- The blocks of the register space; `empty` is a page that reads as zero. -/
inductive Blk where
  | id | rub | stk | psm | tal | pat | prt | was | swd | pwr | lcs | dbg
  | ink (s : Nat) | pcb (p : Nat)
  | win (w : Nat) | wrd (w : Nat) | rng (w : Nat) | ops (w : Nat) | col (w : Nat) | wtal (w : Nat) | pol (w : Nat)
  | uncore (l : Nat) | nib (n : Nat) | ctx (n : Nat) | empty
  deriving DecidableEq, Repr

/-- A hub device-level page. -/
def hubBlock (page : Nat) : Option Blk :=
  match page with
  | 0 => some .id
  | 1 => some .rub
  | 2 => some .stk
  | 3 => some .psm
  | 4 => some .tal
  | 5 => some .pat
  | 6 => some .prt
  | 7 => some .was
  | 8 => some .swd
  | 9 => some .pwr
  | 10 => some .lcs
  | 11 => some .dbg
  | k => if 16 ≤ k ∧ k < 24 then some (.ink (k - 16)) else if 96 ≤ k ∧ k < 104 then some (.pcb (k - 96)) else none

/-- A ward window's page. -/
def windowBlock (w page : Nat) : Blk :=
  match page with
  | 0 => .win w
  | 1 => .wrd w
  | 2 => .rng w
  | 3 => .ops w
  | 4 => .col w
  | 5 => .wtal w
  | 6 => .pol w
  | _ => .empty

/-- A page of leaf l's block. -/
def leafBlock (l page : Nat) : Option Blk :=
  if page = 0 then some (.uncore l)
  else if 256 ≤ page ∧ page < 256 + 4 * 136 then
    let n := l * 136 + (page - 256) / 4
    match (page - 256) % 4 with
    | 0 => some (.nib n)
    | 1 => some (.ctx n)
    | _ => some .empty
  else none

/-- The block of a device address; none when the address is unpopulated. -/
def blockAt (a : Nat) : Option Blk :=
  if !inDev a then none
  else
    let o := a - devBase
    if o < 0x100000 then hubBlock (o / 4096)
    else if o < 0x180000 then some (windowBlock ((o - 0x100000) / 0x10000) (o % 0x10000 / 4096))
    else if 0x1000000 ≤ o ∧ o < 0x2000000 then leafBlock ((o - 0x1000000) / 0x400000) (o % 0x400000 / 4096)
    else none

/-- The register's offset in its page: bits [11:10] are ignored. -/
def regOff (a : Nat) : Nat := a % 1024 / 4 * 4

def Blk.base : Blk → Nat
  | .id => pgID
  | .rub => pgRUB
  | .stk => pgSTK
  | .psm => pgPSM
  | .tal => pgTAL
  | .pat => pgPAT
  | .prt => pgPRT
  | .was => pgWAS
  | .swd => pgSWD
  | .pwr => pgPWR
  | .lcs => pgLCS
  | .dbg => pgDBG
  | .ink s => pgINK s
  | .pcb p => pgPCB p
  | .win w => window w
  | .wrd w => window w + 0x1000
  | .rng w => window w + 0x2000
  | .ops w => window w + 0x3000
  | .col w => window w + 0x4000
  | .wtal w => window w + 0x5000
  | .pol w => window w + 0x6000
  | .uncore l => 0xF001000000 + l * 0x400000
  | .nib n => nibPage n
  | .ctx n => ctxPage n
  | .empty => 0

/-- The power domain of a column, a leaf, a stack or a port is on. -/
def State.domain (s : State) (k : Nat) : Bool := s.power.domains.getLsbD k
def colDomain (n : Nat) : Nat := leafOf n * 8 + columnOf n

/-- A page whose domain is off does not acknowledge (R522). -/
def State.answers' (s : State) (b : Blk) : Bool :=
  match b with
  | .ink k => s.domain (36 + k)
  | .pcb p => s.domain (44 + p)
  | .uncore l => s.domain (32 + l)
  | .nib n => s.domain (colDomain n)
  | .ctx n => s.domain (colDomain n)
  | _ => true

/-! ### Where fields are held -/

/-- The key of a ring's register: the page's address and the ring RNG.SEL names (R470). -/
def ringKey (w r o : Nat) : Nat := window w + 0x2000 + o + r * 2 ^ 41
def State.ringSel (s : State) (w : Nat) : Nat := bits (s.reg32 (window w + 0x2000)) 0 6
/-- The key of a nib's staged assignment (R549). -/
def wasKey (n : Nat) : Nat := pgWAS + (n + 1) * 2 ^ 41

/-- The entry of a Rubric table (R345). -/
def State.rubSel (s : State) : Nat × Bool :=
  let v := s.reg32 pgRUB
  (bits v 0 9, v.getLsbD 31)

def rubAttrMask : BitVec 32 := 0xFFFFF033

/-! ### Guards (R511 to R516) -/

/-- RWP offsets of a block. -/
def rwpOffsets : Blk → List Nat
  | .rub => [0x10, 0x18, 0x20]
  | .stk => [0]
  | .pat => [0x10]
  | .prt => [0, 0x40, 0x80, 0xC0, 0x100, 0x140, 0x180, 0x1C0]
  | .was => [0]
  | .pwr => [0x10]
  | .lcs => [0]
  | _ => []

def State.guardOf (s : State) (b : Blk) : Option Guard := (s.guards.find? fun e => e.1 == b.base).map Prod.snd

/-! ### Tally views (R456) -/

/-- The page of a view: the wards 0–7, the device 8. -/
def talBase (view : Nat) : Nat := if view < 8 then window view + 0x5000 else pgTAL
def State.latch (s : State) (view : Nat) : Latch := mget (fun _ => {}) s.latches view
def State.viewSnap (s : State) (view : Nat) : Snapshot := (s.latch view).held.getD s.snap

/-- The unit and index that TAL.SEL names. -/
def State.talSel (s : State) (view : Nat) : Nat × Nat :=
  let v := s.reg32 (talBase view + 0xC)
  (bits v 16 10, bits v 0 4)

/-- The view reaches the unit: a ward view its assigned nibs and bound ports. -/
def State.talReach (s : State) (view unit : Nat) : Bool :=
  decide (8 ≤ view) || (decide (unit < 544) && mget (fun _ => none) (s.viewSnap view).assign unit == some view)
    || (decide (580 ≤ unit) && decide (unit < 588) && s.bound (unit - 580) == some view)

def State.talCounter (s : State) (view : Nat) : BitVec 64 :=
  let k := s.talSel view
  if s.talReach view k.1 then BitVec.ofNat 64 (mget (fun _ => 0) (s.viewSnap view).counts (k.1 * 16 + k.2)) else 0

/-! ### Status words -/

def StrokePhase.code : StrokePhase → Nat
  | .boot => 0
  | .opened => 1
  | .closing => 2
  | .rolling => 3
  | .held => 4
  | .failed => 5

def State.apply' (s : State) (k : Nat) : Apply := mget (fun _ => {}) s.applies k
def State.apend (s : State) (k : Nat) : Bool := (s.apply' k).pend || (s.apply' k).captured

def b2n (b : Bool) : Nat := if b then 1 else 0

def State.stkStatus (s : State) : BitVec 32 :=
  BitVec.ofNat 32 (s.stroke.phase.code * 2 ^ 28 + b2n (s.apend 8) * 2 ^ 27 + s.stroke.attempt % 256 * 65536 + min s.stroke.lastClose 65535)

def State.pwrStatus (s : State) : BitVec 32 :=
  let p := s.power
  BitVec.ofNat 32 (p.level * 2 ^ 29 + p.vLevel * 2 ^ 26 + p.tLevel * 2 ^ 23 + p.pLevel * 2 ^ 20 + b2n p.unclean * 2 ^ 19 + b2n p.throttle * 2 ^ 18)
def State.pwrVin (s : State) : BitVec 32 := BitVec.ofNat 32 (s.power.mv % 65536)
def State.pwrPin (s : State) : BitVec 32 := BitVec.ofNat 32 (s.power.pin % 65536)
def State.pwrTj (s : State) : BitVec 32 := BitVec.ofNat 32 (s.power.die * 256 + s.power.temp % 256)
def State.lcsState (s : State) : BitVec 32 :=
  BitVec.ofNat 32 (s.boot.life.toNat * 2 ^ 28 + s.boot.next.toNat * 2 ^ 24 + s.boot.fwmin.toNat)
def State.lcsBoot (s : State) : BitVec 32 :=
  BitVec.ofNat 32 (b2n s.boot.slot * 2 ^ 31 + s.boot.reason.toNat * 65536) ||| (s.reg32 (pgLCS + 0xC) &&& 0xFFFF)

/-- The unlock scopes in force; BLANK stands for none (R582, R586). -/
def State.blank (s : State) : Bool := s.boot.life == 1
/-- The debug port answers below shed level 1 (Table 14-4). -/
def State.debugOn (s : State) : Bool := s.power.level == 0 && !s.power.off && !s.power.lost.getLsbD 63
/-- Trace records are exported (R586). -/
def State.tracing (s : State) : Bool := (s.reg32 pgDBG).getLsbD 0 && (s.blank || s.dbg.scope.getLsbD 3) && s.debugOn

/-- Number of nibs assigned to a ward. -/
def State.nibsOf (s : State) (w : Nat) : List Nat := (s.assign.filter fun e => e.2 == some w).map Prod.fst
def State.assigned (s : State) (n : Nat) : Option Nat := mget (fun _ => none) s.assign n

/-- WAS.VIEW's byte of a nib (Table 14-7): PARKED by shedding, by the Steward, or unassigned. -/
def State.wasByte (s : State) (n : Nat) : Nat :=
  let b := s.nib n
  (match s.assigned n with
    | some w => 128 + 16 * w
    | none => 0) + 8 * b2n (b.parkedBy != 0) + 4 * b2n (posOf n == 16)

/-- Entry i of the decision journal, byte by byte as words (R559). -/
def journalAddr (i : Nat) : Nat := 0x4444000000 + 64 * (i % 1048576)

/-- JDATA register k of the entry that JSEL names; a ward sees others' entries as zero but for STROKE and INDEX (R561,
R562). -/
def State.jdata (s : State) (sel k : Nat) (ward : Option Nat) : BitVec 32 :=
  let head := s.steward.jhead
  if head ≤ sel ∨ sel + 1048576 ≤ head then 0
  else
    let w := (s.word (journalAddr sel + 8 * (k / 2))).pay
    let v : BitVec 32 := if k % 2 = 0 then w.setWidth 32 else w.extractLsb' 32 32
    let own := bits ((s.word (journalAddr sel + 8)).pay) 48 8
    match ward with
    | none => v
    | some x => if own = x ∨ own = 255 ∨ k ≤ 2 then v else 0

/-- PRT.STATUS of a port (Table 12-4). -/
def State.prtStatus (s : State) (p : Nat) : BitVec 32 :=
  let k := s.port p
  BitVec.ofNat 32 (b2n (s.boot.done && s.boot.steward == p) * 2 ^ 31 + b2n k.up * 2 ^ 30 + b2n k.cio * 2 ^ 29 + b2n k.ccache * 2 ^ 28
    + b2n k.cmem * 2 ^ 27 + (if k.up then (if k.wide then 16 else 8) else 0) * 65536 + k.speed.toNat * 4096
    + b2n (s.bindRefused.getLsbD p) * 8 + (s.bound p).getD 0)

def portBits (ps : List Nat) : Nat := ps.foldl (fun v p => v + 2 ^ p) 0

def State.ringStatus (s : State) (w r : Nat) : BitVec 32 :=
  BitVec.ofNat 32 ((s.ring w r).result.toNat * 2 ^ 28 + (s.ring w r).head)
def State.ringCq (s : State) (w r : Nat) : BitVec 32 := BitVec.ofNat 32 (b2n (s.ring w r).phase * 65536 + (s.ring w r).cqTail)

/-- GRD.STATUS of a page (Table 13-2). -/
def State.grdStatus (s : State) (b : Blk) : BitVec 32 := s.reg32 (b.base + 0x3F0) ||| (if (s.guardOf b).isSome then 2 else 0)

/-! ### Reads -/

/-- Reads of the hub device-level blocks. -/
def State.readHub (s : State) (b : Blk) (o : Nat) : BitVec 32 :=
  match b with
  | .id =>
    match o with
    | 0 => 0x1F6C9640
    | 4 => BitVec.ofNat 32 (0x20000200 + s.boot.variant.toNat * 65536)
    | 8 => 0x488C2088
    | 0xC => 0x00008480
    | 0x10 => s.boot.version.setWidth 32
    | 0x14 => s.linksFailed.setWidth 32
    | 0x18 => Config.serial.setWidth 32
    | 0x1C => Config.serial.extractLsb' 32 32
    | _ => 0
  | .rub =>
    let k := s.rubSel
    let e := mget rubDefault (if k.2 then s.rubActive else s.rubStaged) k.1
    match o with
    | 0 => s.reg32 pgRUB
    | 0x10 => e.start
    | 0x18 => e.last
    | 0x20 => e.attr &&& rubAttrMask
    | 0x30 => s.reg32 (pgRUB + 0x30) ||| s.rubOn.setWidth 32
    | 0x34 => s.reg32 (pgRUB + 0x34)
    | 0x38 => s.reg32 (pgRUB + 0x38)
    | 0x3C => s.reg32 (pgRUB + 0x3C)
    | _ => 0
  | .stk =>
    match o with
    | 0 => s.stagedReg pgSTK
    | 0x10 => BitVec.ofNat 32 s.stroke.num
    | 0x14 => BitVec.ofNat 32 (s.stroke.num / 2 ^ 32)
    | 0x18 => s.stkStatus
    | 0x1C => s.reg32 (pgSTK + 0x1C)
    | 0x20 => BitVec.ofNat 32 (s.stroke.voidUnit * 4096 + s.stroke.voidCode.toNat)
    | 0x24 => BitVec.ofNat 32 s.stroke.voidNum
    | 0x28 => BitVec.ofNat 32 s.stroke.voids
    | o => if 0x100 ≤ o ∧ o < 0x180 then s.reg32 (pgSTK + o) else 0
  | .psm =>
    match o with
    | 0 => s.stagedReg pgPSM
    | 4 => BitVec.ofNat 32 (s.stroke.used / 65536 % 65536)
    | 8 => BitVec.ofNat 32 (s.stroke.peak / 65536 % 65536)
    | 0xC => BitVec.ofNat 32 s.stroke.shorts
    | 0x10 => BitVec.ofNat 32 s.stroke.heldCount
    | _ => 0
  | .pat =>
    match o with
    | 4 => s.reg32 (pgPAT + 4)
    | 8 => s.reg32 (pgPAT + 8)
    | 0xC => s.reg32 (pgPAT + 0xC)
    | 0x10 => s.stagedReg (pgPAT + 0x10)
    | 0x18 => BitVec.ofNat 32 (s.patch.state.toNat * 2 ^ 28 + s.patch.err.toNat * 256)
    | 0x1C => if s.patch.active then BitVec.ofNat 32 (s.patch.version.toNat * 65536 + 1) else 0
    | 0x20 => s.boot.minver.setWidth 32
    | o => if 0x100 ≤ o ∧ o < 0x200 then s.reg32 (pgPAT + o) else 0
  | .prt =>
    if 0x200 ≤ o then 0
    else match o % 0x40 with
      | 0 => s.stagedReg (pgPRT + o)
      | 8 => s.prtStatus (o / 0x40)
      | _ => 0
  | .was =>
    match o with
    | 0 => s.stagedReg pgWAS
    | 8 => s.reg32 (pgWAS + 8)
    | o =>
      if 0x100 ≤ o ∧ o < 0x320 then
        let n := o - 0x100
        BitVec.ofNat 32 (s.wasByte n + 256 * s.wasByte (n + 1) + 65536 * s.wasByte (n + 2) + 2 ^ 24 * s.wasByte (n + 3))
      else 0
  | .swd =>
    match o with
    | 0 => s.reg32 pgSWD
    | 4 => BitVec.ofNat 32 s.steward.jhead
    | 8 => s.reg32 (pgSWD + 8)
    | o => if 0x40 ≤ o ∧ o < 0x80 then s.jdata (s.reg32 (pgSWD + 8)).toNat ((o - 0x40) / 4) none else 0
  | .pwr =>
    match o with
    | 0 => s.pwrStatus
    | 4 => s.pwrVin
    | 8 => s.pwrPin
    | 0xC => s.pwrTj
    | 0x10 => s.stagedReg (pgPWR + 0x10)
    | 0x18 => s.power.domains.setWidth 32
    | 0x1C => s.power.domains.extractLsb' 32 32
    | 0x20 => BitVec.ofNat 32 (min s.power.phaseCnt 255 * 2 ^ 24 + s.power.stage.toNat * 4096 + s.power.phaseDom)
    | 0x24 => s.reg32 (pgPWR + 0x24)
    | _ => 0
  | .lcs =>
    match o with
    | 0 => s.reg32 pgLCS
    | 8 => s.lcsState
    | 0xC => s.lcsBoot
    | 0x10 => s.reg32 (pgLCS + 0x10)
    | _ => 0
  | .dbg =>
    match o with
    | 0 => s.reg32 pgDBG
    | 4 => s.reg32 (pgDBG + 4)
    | 8 => BitVec.ofNat 32 (s.dbg.scope.toNat * 65536 + b2n s.tracing * 2 + b2n s.debugOn)
    | 0xC => BitVec.ofNat 32 s.dbg.drops
    | 0x10 => s.reg32 (pgDBG + 0x10)
    | _ => 0
  | .ink k =>
    match o with
    | 0 => if mget (fun _ => 0) s.inkState k = 2 then 0 else 1
    | 4 => ((mget (fun _ => 0) s.inkState k).setWidth 32) <<< 28
    | 8 => BitVec.ofNat 32 (mget (fun _ => 0) s.inkSets k)
    | 0xC => BitVec.ofNat 32 (s.ink.filter fun e => stackOf e.1 == k && e.2.dirty).length
    | _ => 0
  | .pcb p => Config.privateReg (pgPCB p + o) s.tick
  | _ => 0

/-- Reads of a tally block. -/
def State.readTal (s : State) (view o : Nat) : BitVec 32 :=
  match o with
  | 0 => if (s.latch view).held.isSome then 1 else 0
  | 4 => BitVec.ofNat 32 (s.viewSnap view).num
  | 8 => BitVec.ofNat 32 ((s.viewSnap view).num / 2 ^ 32)
  | 0xC => s.reg32 (talBase view + 0xC)
  | 0x10 => (s.talCounter view).setWidth 32
  | 0x14 => (if (s.latch view).held.isSome then s.talCounter view else (s.latch view).data).extractLsb' 32 32
  | 0x18 => if (s.viewSnap view).num = 0 || s.talReach view (s.talSel view).1 then 0 else 1
  | _ => 0

/-- Reads of ward windows, nib areas and leaf blocks. -/
def State.readPage (s : State) (b : Blk) (o : Nat) : BitVec 32 :=
  match b with
  | .tal => s.readTal 8 o
  | .wtal w => s.readTal w o
  | .win w =>
    match o with
    | 4 => s.reg32 (window w + 4)
    | 8 => if s.apend w then 1 else 0
    | _ => 0
  | .wrd w =>
    let a := window w + 0x1000
    match o with
    | 0 => BitVec.ofNat 32 (portBits (s.portsOf w) * 256 + b2n (s.stewardWard == some w) * 8 + w)
    | 4 => BitVec.ofNat 32 (s.nibsOf w).length
    | o => if 8 ≤ o ∧ o ≤ 0x18 then s.reg32 (a + o) else 0
  | .rng w =>
    let r := s.ringSel w
    match o with
    | 0 => s.reg32 (window w + 0x2000)
    | 0x28 => s.ringStatus w r
    | 0x2C => s.ringCq w r
    | o => if 4 ≤ o ∧ o ≤ 0x24 then s.stagedReg (ringKey w r o) else 0
  | .ops w => if o < 0x100 then s.reg32 (window w + 0x3000 + o) else 0
  | .col w => if o ≤ 0x10 then s.reg32 (window w + 0x4000 + o) else if o = 0x14 then s.reg32 (window w + 0x4014) else 0
  | .pol w =>
    if o < 0x40 then BitVec.ofNat 32 ((s.ward w).envField o 4)
    else if o = 0x40 then s.reg32 (window w + 0x6040)
    else if o = 0x44 then BitVec.ofNat 32 s.steward.jhead
    else if 0x80 ≤ o ∧ o < 0xC0 then s.jdata (s.reg32 (window w + 0x6040)).toNat ((o - 0x80) / 4) (some w)
    else 0
  | .nib n =>
    match o with
    | 0xC => BitVec.ofNat 32 (b2n (s.nib n).retired * 2 ^ 31 + b2n (posOf n == 16) * 2 ^ 30 + b2n ((s.nib n).parkedBy != 0) * 2 ^ 29)
    | o => if o ≤ 8 then s.reg32 (nibPage n + o) else 0
  | .ctx n =>
    match o with
    | 0 => s.reg32 (ctxPage n)
    | 8 => BitVec.ofNat 32 ((s.ctx n (s.ctxSel n).1).state * 512) ||| s.reg32 (ctxPage n + 8)
    | 0x10 => s.reg32 (ctxPage n + 0x10)
    | 0x14 => s.reg32 (ctxPage n + 0x14)
    | 0x18 => s.reg32 (ctxPage n + 0x18)
    | _ => 0
  | .uncore l => Config.privateReg (0xF001000000 + l * 0x400000 + o) s.tick
  | .empty => 0
  | b => s.readHub b o

/-- The register that an address reads as; GRD.STATUS stands at 0x3F0 of a page with paired registers. -/
def State.regRead (s : State) (b : Blk) (o : Nat) : BitVec 32 :=
  if o = 0x3F0 ∧ rwpOffsets b ≠ [] then s.grdStatus b else s.readPage b o

/-- What a read does besides: TAL.DATALO captures the counter; a private register is a free value (R456). -/
def State.regReadFx (s : State) (b : Blk) (o : Nat) : State :=
  let capture (view : Nat) : State :=
    if o = 0x10 ∧ (s.latch view).held.isNone then
      { s with latches := mset s.latches view { s.latch view with data := s.talCounter view } }
    else s
  match b with
  | .tal => capture 8
  | .wtal w => capture w
  | .pcb _ => s.drawn
  | .uncore _ => s.drawn
  | _ => s

end Sys2Proof.Machine
end

