-- ==== Sys2Proof/Machine/SetupWrite.lean ====
section
/-! DEFINITION. Writes of set-up registers (ch 13): the paired-write guard, masked writes, sequence clear, staged fields,
the commands that registers give, and the check of a requester's lane. -/

namespace Sys2Proof.Machine

/-! ### Ward status (R502) -/

/-- Flags of WRD.EVENT set; a flag that was clear calls for vector 0 after the next commit (R501). -/
def State.wardEvent (s : State) (w : Nat) (flags : BitVec 32) : State :=
  let a := window w + 0x1008
  let new := flags &&& ~~~(s.reg32 a)
  let s := s.setFlags a flags
  if new = 0 ∨ s.wardNews.contains w then s else { s with wardNews := w :: s.wardNews }

/-- A DROP (kind 1) or DENY (kind 2) of a port: the first is recorded while both flags are clear. -/
def State.wardError (s : State) (w p kind a : Nat) : State :=
  let base := window w + 0x1000
  let s := if s.reg32 (base + 8) &&& 3 = 0 then
      (s.setReg (base + 0xC) (BitVec.ofNat 32 a)).setReg (base + 0x10) (BitVec.ofNat 32 (kind * 4096 + p * 256 + a / 2 ^ 32 % 256))
    else s
  s.wardEvent w (if kind = 1 then 1 else 2)

/-- The first ring in error is recorded while RING and LINK are clear. -/
def State.ringError (s : State) (w r reason : Nat) (flag : BitVec 32) : State :=
  let base := window w + 0x1000
  let s := if s.reg32 (base + 8) &&& 0x18 = 0 then s.setReg (base + 0x18) (BitVec.ofNat 32 (reason * 256 + r)) else s
  s.wardEvent w flag

/-! ### The guard of a page (R511 to R515) -/

def State.setGuard (s : State) (b : Blk) (g : Option Guard) : State :=
  let rest := s.guards.filter fun e => e.1 != b.base
  match g with
  | none => { s with guards := rest }
  | some g => { s with guards := mset rest b.base g }

/-- A paired write fails: GUARD_ERR sets, and REASON, LANE and REG are recorded while it was clear. -/
def State.guardFail (s : State) (b : Blk) (reason lane off : Nat) : State :=
  let a := b.base + 0x3F0
  let s := if (s.reg32 a).getLsbD 0 then s
    else s.setReg a (BitVec.ofNat 32 (bits (s.reg32 a) 24 8 * 2 ^ 24 + reason * 2 ^ 20 + lane * 2 ^ 13 + off))
  s.setFlags a 1

/-- The page's guard is cancelled, has run out or is broken. -/
def State.guardEnd (s : State) (b : Blk) (reason : Nat) : State :=
  match s.guardOf b with
  | none => s
  | some g => (s.setGuard b none).guardFail b reason g.lane g.off

/-- Blocks that have a guard. -/
def guardBlocks : List Blk := [.rub, .stk, .pat, .prt, .was, .pwr, .lcs]

/-- Every guard is cancelled at a commit instant and at the start of a void (R515). -/
def State.cancelGuards (s : State) : State := guardBlocks.foldl (fun s b => s.guardEnd b 4) s

/-- A completed request to change the lifecycle (R572, R574). -/
def State.lifecycleRequest (s : State) (v : BitVec 32) : State :=
  let t := bits v 0 3
  let s := s.setReg pgLCS (v &&& 7)
  let life := s.boot.life
  let ok := s.boot.burning.isNone
    && ((t == 3 && life == 2) || (t == 4 && (life == 2 || life == 3) && s.dbg.scope.getLsbD 4))
  if ok then { s with boot := { s.boot with burning := some (BitVec.ofNat 4 t) } }
  else s.setFlags (pgLCS + 0x10) 2

/-- A paired write completes: the register or its staged value takes the recorded value (R512, R516). -/
def State.pairedTake (s : State) (b : Blk) (off : Nat) (v : BitVec 32) : State :=
  match b with
  | .rub =>
    let k := s.rubSel
    if k.2 then s
    else
      let e := mget rubDefault s.rubStaged k.1
      let e := if off = 0x10 then { e with start := v } else if off = 0x18 then { e with last := v } else { e with attr := v }
      { s with rubStaged := mset s.rubStaged k.1 e }
  | .stk =>
    let p := bits v 0 8
    if 25 ≤ p ∧ p ≤ 250 then s.setStaged pgSTK (v &&& 0xFF) else s.setFlags (pgSTK + 0x1C) 1
  | .pat => s.setStaged (pgPAT + 0x10) (v &&& 1)
  | .prt => s.setStaged (pgPRT + off) (v &&& 0x80000007)
  | .was =>
    let v := v &&& 0x83FF0007
    (s.setStaged pgWAS v).setStaged (wasKey (bits v 16 10)) v
  | .pwr =>
    let cap := bits v 16 7
    if 40 ≤ cap ∧ cap ≤ 95 ∧ bits v 8 4 ≤ 10 ∧ bits v 0 3 ≤ 4 then s.setStaged (pgPWR + 0x10) (v &&& 0x7F0F07)
    else s.setFlags (pgPWR + 0x24) 0x20
  | .lcs => s.lifecycleRequest v
  | _ => s

/-! ### Fields that writes change -/

/-- Bits of a plain RW register that a write changes. -/
def rwMask (b : Blk) (o : Nat) : BitVec 32 :=
  match b with
  | .rub => if o = 0 then 0x800001FF else 0
  | .pat => if o = 4 ∨ o = 8 ∨ o = 0xC then 0xFFFFFFFF else 0
  | .swd => if o = 0 then 0x1F else if o = 8 then 0xFFFFFFFF else 0
  | .dbg => if o = 0 then 0x3F else if o = 4 then 0x03FF001F else 0
  | .tal => if o = 0xC then 0x03FF000F else 0
  | .wtal _ => if o = 0xC then 0x03FF000F else 0
  | .rng _ => if o = 0 then 0x3F else 0
  | .pol _ => if o = 0x40 then 0xFFFFFFFF else 0
  | .ctx _ => if o = 0 then 0x1FFFFF else if o = 0x10 ∨ o = 0x14 then 0xFFFFFFFF else if o = 0x18 then 0x3FF else 0
  | _ => 0

/-- Writable bits of a ring's staged registers (Table 12-5). -/
def ringMask (o : Nat) : BitVec 32 :=
  match o with
  | 4 => 1
  | 8 => 0xFFFFFFFF
  | 0xC => 0xFFFFFFFF
  | 0x10 => 0xFFFFFFFF
  | 0x14 => 0xFFFFFFFF
  | 0x18 => 0x1F0F
  | 0x1C => 0xFFFFFF
  | 0x20 => 0xFFFFC000
  | 0x24 => 0xFFFF
  | _ => 0

/-- Flags of a WSC register. -/
def wscMask (b : Blk) (o : Nat) : BitVec 32 :=
  if o = 0x3F0 ∧ rwpOffsets b ≠ [] then 1
  else match b with
    | .rub => if o = 0x34 then 7 else 0
    | .stk => if o = 0x1C then 0x1F else 0
    | .pwr => if o = 0x24 then 0x3F else 0
    | .lcs => if o = 0x10 then 3 else 0
    | .dbg => if o = 0x10 then 3 else 0
    | .wrd _ => if o = 8 then 0x1F else 0
    | .col _ => if o = 0x10 then 0x1F else 0
    | _ => 0

/-- A write to a WSC register clears the flags written as 1 when its SEQ matches (R510). Clearing ERRLOG marks the error log
read (log 27). -/
def State.wscWrite (s : State) (b : Blk) (o : Nat) (v : BitVec 32) : State :=
  let a := b.base + o
  if bits v 24 8 = bits (s.reg32 a) 24 8 then
    let s := s.setReg a (s.reg32 a &&& ~~~(v &&& wscMask b o))
    match b with
    | .col w => if v.getLsbD 2 then s.modColl w fun k => { k with errRead := s.errNext } else s
    | _ => s
  else s

/-! ### Commands that registers give -/

/-- APPLY: the staged fields act at the commit of the next tick (R450, R451). -/
def State.applyGo (s : State) (k : Nat) (v : BitVec 32) : State :=
  if v.getLsbD 0 then { s with applies := mset s.applies k { s.apply' k with pend := true } } else s

/-- RUB.CTRL (R345). -/
def State.rubCommand (s : State) (v : BitVec 32) : State :=
  match bits v 0 2 with
  | 1 => { s with rubStaged := s.rubActive }
  | 2 => { s with rubStaged := s.rubStaged.map fun (e : Nat × RubEnt) => (e.1, { e.2 with attr := setBit e.2.attr 31 false }) }
  | _ => s

def patchLen : Nat := 26832

/-- PAT.CMD (R279, R280). A load that comes while one is under way is refused; the one under way goes on. -/
def State.patCommand (s : State) (v : BitVec 32) : State :=
  let p := s.patch
  match bits v 0 2 with
  | 1 =>
    if p.active || p.loading then { s with patch := { p with state := 4, err := 1 } }
    else if (s.reg32 (pgPAT + 4)).toNat ≠ patchLen then { s with patch := { p with state := 4, err := 2, verified := [] } }
    else
      { s with patch := { p with state := 1, err := 0, loading := true, verified := [], image := [] },
               hostReads := s.hostReads ++ [{ port := s.boot.steward,
                                              addr := (s.reg32 (pgPAT + 8)).toNat + 2 ^ 32 * (s.reg32 (pgPAT + 0xC)).toNat,
                                              len := patchLen, why := .patch }] }
  | 2 => if p.active || p.state != 3 then s else { s with patch := { p with state := 0, err := 0, verified := [] } }
  | _ => s

/-- The sets of an inkwell below k have been visited by its write-back: their lines are directory-only (R307). -/
def State.inkVisit (s : State) (k n : Nat) : State :=
  let hit (l : Nat) : Bool := stackOf l == k && decide (inkSet l < n)
  let s := s.count (588 + k) 2 (s.ink.filter fun e => hit e.1 && e.2.dirty).length
  { s with ink := (s.ink.map fun e => if hit e.1 then (e.1, { e.2 with dirty := false, data := false }) else e).filter fun e => e.2 != {},
           inkSets := mput (fun _ => 0) s.inkSets k n }

def State.setInk (s : State) (k : Nat) (v : BitVec 4) : State := { s with inkState := mset s.inkState k v }

/-- INK.CTRL.EN (R307, R308). The set a stopped write-back had reached is a free value. -/
def State.inkWrite (s : State) (k : Nat) (en : Bool) : State :=
  let st := mget (fun _ => 0) s.inkState k
  if en then
    (if st = 1 then ((s.inkVisit k (s.draw.toNat % 16385)).drawn).setInk k 0 else if st = 2 then s.setInk k 0 else s)
  else if st = 0 then ({ s with inkSets := mput (fun _ => 0) s.inkSets k 0 }).setInk k 1
  else s

/-- TAL.LATCH (R456). -/
def State.latchWrite (s : State) (view : Nat) (hold : Bool) : State :=
  let k := { s.latch view with held := if hold then some s.snap else none }
  { s with latches := mset s.latches view k }

/-- XL registers take writes while contexts 1–31 are IDLE (R526). -/
def State.xlWrite (s : State) (n o : Nat) (v : BitVec 32) : State :=
  if (upFrom 1 31).all fun c => (s.ctx n c).state == stIdle then
    s.setReg (nibPage n + o) (v &&& (if o = 0 then 0xFFFFFE00 else if o = 4 then 0xFF else 0x80000007))
  else s

/-- PWR.CMD with the key (R548). -/
def State.pwrCommand (s : State) (v : BitVec 32) : State :=
  if v.extractLsb' 16 16 = 0x4F46 ∧ bits v 0 2 = 1 then { s with power := { s.power with turnOff := true } } else s

/-! ### One register write -/

/-- A write takes effect, with no guard armed. -/
def State.writePlainReg (s : State) (b : Blk) (o : Nat) (v : BitVec 32) : State :=
  if wscMask b o ≠ 0 then s.wscWrite b o v
  else if rwMask b o ≠ 0 then s.setReg (b.base + o) (underMask (s.reg32 (b.base + o)) v (rwMask b o))
  else match b with
    | .rub => if o = 4 then s.rubCommand v else s
    | .stk => if o = 8 then s.applyGo 8 v else s
    | .psm =>
      if o = 0 then (let k := bits v 0 6; if 1 ≤ k ∧ k ≤ 32 then s.setStaged pgPSM (v &&& 0x3F) else s.setFlags (pgSTK + 0x1C) 1)
      else s
    | .pat => if o = 0 then s.patCommand v else s
    | .pwr => if o = 0x28 then s.pwrCommand v else s
    | .ink k => if o = 0 then s.inkWrite k (v.getLsbD 0) else s
    | .tal => if o = 0 then s.latchWrite 8 (v.getLsbD 0) else s
    | .wtal w => if o = 0 then s.latchWrite w (v.getLsbD 0) else s
    | .win w =>
      if o = 0 then s.applyGo w v
      else if o = 4 then
        let m : BitVec 32 := v >>> 16
        s.setReg (window w + 4) (underMask (s.reg32 (window w + 4)) v m)
      else s
    | .rng w => if ringMask o = 0 then s else s.setStaged (ringKey w (s.ringSel w) o) (v &&& ringMask o)
    | .nib n => if o ≤ 8 then s.xlWrite n o v else s
    | .ctx n => if o = 4 then s.ctxCmd n v else s
    | _ => s

/-- A write applied to a page: the guard first, then its own effect (R511 to R514). -/
def State.regWrite (s : State) (lane : Nat) (b : Blk) (o : Nat) (v : BitVec 32) : State :=
  let s := match s.guardOf b with
    | some g => if g.at_ + 256 < s.hub then s.guardEnd b 3 else s
    | none => s
  if (rwpOffsets b).contains o then
    (s.guardEnd b 2).setGuard b (some { off := o, val := v, lane := lane, at_ := s.hub })
  else if 4 ≤ o ∧ (rwpOffsets b).contains (o - 4) then
    match s.guardOf b with
    | some g =>
      if g.off + 4 = o ∧ g.lane = lane then
        (if v = ~~~g.val then (s.setGuard b none).pairedTake b g.off g.val else s.guardEnd b 1)
      else s.guardEnd b 2
    | none => s.guardFail b 5 lane (o - 4)
  else (s.guardEnd b 2).writePlainReg b o v

/-! ### Lanes (Table 01-2, R503, R349) -/

/-- The requester of a lane; a host port's is its bound ward. -/
def State.laneAsker (s : State) (lane : Nat) : Option Asker :=
  if lane < 8 then some { lane := lane, bit := mExe, fall := true }
  else if lane < 12 then some { lane := lane, bit := mPum, fall := false }
  else if lane < 20 then (s.bound (lane - 12)).map (hostAsker (lane - 12))
  else if lane < 23 then some { lane := lane, bit := mExe, fall := true }
  else some dbgAsker

/-- The addresses a host reaches: its ward's window through BAR0, the hub blocks through BAR4 of the steward port (R462). -/
def State.barReach (s : State) (p a : Nat) : Bool :=
  s.boot.done && (s.port p).up
    && ((match s.bound p with
        | some w => decide (window w ≤ a) && decide (a < window w + 0x10000)
        | none => false) || (s.boot.steward == p && decide (devBase ≤ a) && decide (a < devBase + 0x100000)))

def inLeafBlocks (a : Nat) : Bool := decide (0xF001000000 ≤ a) && decide (a < 0xF002000000)

/-- The scope check of a debug access outside LOCK regions (Table 15-13). -/
def State.dbgScopeOk (s : State) (a : Nat) : Bool :=
  s.blank || (if inLeafBlocks a then s.dbg.scope.getLsbD 2 else s.boot.life != 3 || s.dbg.scope.getLsbD 0)

/-- An access to a leaf's blocks waits while the leaf's link sends blocks again (R17, log 81). -/
def State.leafWaits (s : State) (a : Nat) : Bool := inLeafBlocks a && s.resending (560 + (a - 0xF001000000) / 0x400000)

/-- The lane may make the access at all; the debug master's scope is checked after LOCK regions (Table 15-13). -/
def State.laneReach (s : State) (lane a : Nat) : Bool :=
  if s.leafWaits a then false
  else if lane = 23 then s.debugOn
  else if 12 ≤ lane ∧ lane < 20 then s.barReach (lane - 12) a
  else true

/-- The block lies in a LOCK region that the lifecycle state and the scope close (Table 09-10). -/
def State.lockedFrom (s : State) (a : Nat) : Bool :=
  (match s.rubEntry a with
    | some e => e.lock
    | none => false)
    && !s.blank && (s.boot.life == 3 || !s.dbg.scope.getLsbD 1)

/-- A debug access that Table 09-10 stops is logged and counted (R359). -/
def State.lockNote (s : State) (a : Nat) : State :=
  let s := s.rubEvent 4 23 a
  { s with dbg := { s.dbg with tally := s.dbg.tally + 1 } }

/-- The bus-error status of a lane's interface (R24). -/
def State.busError (s : State) (lane : Nat) : State :=
  if lane = 23 then { s with dbg := { s.dbg with accStatus := 3 } } else s.emit (.busError lane)

/-- What a denied access of a lane leaves (Table 09-9). -/
def State.laneDenied (s : State) (lane a : Nat) (write : Bool) : State :=
  let s := s.deny lane a
  if 12 ≤ lane ∧ lane < 20 then
    let p := lane - 12
    if write then
      let s := s.count (580 + p) 6
      match s.bound p with
      | some w => s.wardError w p 2 a
      | none => s
    else s
  else if lane = 23 then { s with dbg := { s.dbg with tally := s.dbg.tally + 1 } }
  else if lane = 20 then s.busError 20
  else s

/-- The outcome of a debug access: 0x0001 done, 0x0002 refused, 0x0003 bus error (R581). -/
def State.setAccess (s : State) (op : BitVec 8) (pa : BitVec 40) (status : BitVec 13) (w : Word) : State :=
  { s with dbg := { s.dbg with accOp := op, accAddr := pa, accStatus := status, accTag := w.tag, accPay := w.pay } }

/-- An access that Table 09-10 stops: logged, and it completes with POISON and the status of success (R359). -/
def State.lockAccess (s : State) (op : BitVec 8) (pa : BitVec 40) : State :=
  (s.lockNote pa.toNat).setAccess op pa 1 (Word.poisonOf 2)

/-- A refused access performs nothing and counts in the debug tally (R582). -/
def State.refuseAccess (s : State) (op : BitVec 8) (pa : BitVec 40) : State :=
  { s with dbg := { s.dbg with tally := s.dbg.tally + 1 } }.setAccess op pa 2 Word.rawZero

/-- The debug master's access register takes the outcome of its access; the other lanes have none. -/
def State.laneDone (s : State) (lane : Nat) (op : BitVec 8) (a : Nat) (status : BitVec 13) (w : Word) : State :=
  if lane = 23 then s.setAccess op (BitVec.ofNat 40 a) status w else s

/-- What becomes of a lane's register access: stopped by Table 09-10, refused by the debug scope, denied, unpopulated, changing nothing
(R503), or performed. -/
inductive LaneWay where
  | locked | refused | denied | unpopulated | nothing
  | go (b : Blk)
  deriving DecidableEq, Repr

/-- The checks of a register access, in order (R19, R24, R358, R503); without its own reach or a bound ward a lane makes none. -/
def State.laneWay (s : State) (lane a : Nat) (k : Acc) : LaneWay :=
  if !s.laneReach lane a then .nothing
  else match s.laneAsker lane with
    | none => .nothing
    | some q =>
      if lane = 23 ∧ s.lockedFrom a then .locked
      else if lane = 23 ∧ !s.dbgScopeOk a then .refused
      else if !s.rubAllows q k a then .denied
      else if a % 4 ≠ 0 then .nothing
      else match blockAt a with
        | none => .unpopulated
        | some b => if s.answers' b then .go b else .nothing

/-- A 4-byte write of a requester (R503). -/
def State.laneWrite (s : State) (lane a : Nat) (v : BitVec 32) : State :=
  match s.laneWay lane a .write with
  | .locked => s.lockAccess 4 (BitVec.ofNat 40 a)
  | .refused => s.refuseAccess 4 (BitVec.ofNat 40 a)
  | .denied => (s.laneDenied lane a true).laneDone lane 4 a 2 Word.rawZero
  | .unpopulated => (s.busError lane).laneDone lane 4 a 3 Word.rawZero
  | .nothing => s
  | .go b => (s.regWrite lane b (regOff a) v).laneDone lane 4 a 1 (Word.rawOf (v.setWidth 64))

/-- A 4-byte read of a requester: the state after it, and the value it returns; a LOCK region reads as POISON (Table 09-10). -/
def State.laneRead (s : State) (lane a : Nat) : State × BitVec 32 :=
  match s.laneWay lane a .read with
  | .locked => (s.lockAccess 3 (BitVec.ofNat 40 a), 2)
  | .refused => (s.refuseAccess 3 (BitVec.ofNat 40 a), 0)
  | .denied => ((s.laneDenied lane a false).laneDone lane 3 a 2 Word.rawZero, 0)
  | .unpopulated => ((s.busError lane).laneDone lane 3 a 3 Word.rawZero, 0)
  | .nothing => (s, 0)
  | .go b =>
    let v := s.regRead b (regOff a)
    ((s.regReadFx b (regOff a)).laneDone lane 3 a 1 (Word.rawOf (v.setWidth 64)), v)

/-- A lane's access that the replicas decide: where they disagree, it is denied by a machine check alone (R355). -/
def State.laneMeets (s : State) (lane a : Nat) (k : Acc) (agree : Bool) (go : State → State) : State :=
  match s.laneWay lane a k with
  | .nothing => go s
  | .refused => go s
  | .locked => go s
  | _ => if agree then go s else s.vote lane a

/-- A context-control command that reads a group's shadow image: replicas, and that line, as the command meets them (R66, R355). -/
def State.ctxMeets (s : State) (lane n : Nat) (m : Meets) (go : State → State) : State :=
  s.laneMeets lane (ctxPage n + 4) .write m.agree fun s =>
    let k := s.ctxSel n
    let reads := k.2.1 == 0 && (s.ctx n k.1).unfetched.getLsbD (k.2.2 / 8)
    let r := s.meet (fun j => reads && j == imageLine n k.1 (k.2.2 / 8)) m.errs
    if r.2 then go r.1 else r.1

end Sys2Proof.Machine
end

