-- ==== Sys2Proof/Machine/Traps.lean ====
section
/-! DEFINITION. Taking a trap (R217 to R230): the save set, the level and the handler's address, escalation, the freezing of a
ward context with its D-trap record, and machine checks that were held. -/

namespace Sys2Proof.Machine

/-- base(L) of R218. -/
def trapBase (l : BitVec 2) : BitVec 64 := if l = lvS then 0x1000 else 0x4400000000

/-- SV.CAUSE (Table 06-3). -/
def causeWord (t : TrapReq) (lvl : BitVec 2) (esc : Bool) : BitVec 64 :=
  BitVec.ofNat 64 (t.cause.code.toNat + lvl.toNat * 256 + (if esc then 1024 else 0) + (if t.impr then 2048 else 0)
    + (if t.slot then 4096 else 0))

/-- The save set that a trap fills, from the context as it stands (R221). -/
def Context.trapSave (x : Context) (t : TrapReq) (esc : Bool) : SaveSet :=
  { pc := x.pc, st := x.st.setWidth 64, cause := causeWord t x.level esc, info := t.info, win := x.ws }

/-- Entry at level L: enter(L, cause, info, slot) of R221. No memory is touched and no register changes. -/
def Context.enter (x : Context) (l : BitVec 2) (t : TrapReq) (esc : Bool) : Context :=
  let v := x.trapSave t esc
  let x := x.setSave l v
  let st := setBit (setBit (setBit (setBits x.st 0 2 l.toNat) 8 false) 7 false) 5 true
  let ws := setBits (setBits (setBit x.ws 6 true) 7 3 0) 19 45 0
  let y := { x with st := st, ws := ws, pc := trapBase l + (t.cause.code.setWidth 64) * 32, steady := 0, steadyLim := false }
  y.touch 0

/-- The level at which a cause below 0x20 is taken in a ward context: FLT_BUS and FLT_RUBRIC at D, the others at S (Table
06-2). -/
def Cause.atD : Cause → Bool
  | .bus => true
  | .rubric => true
  | _ => false

/-- A D-trap record, or context 0's M report, goes to context 0's queue, or is held in rising context number (R224, R226). -/
def State.postRecord (s : State) (n c : Nat) (code : BitVec 8) : State :=
  let b := s.nib n
  let before := b.heldTraps.filter fun h => decide (h.1 ≤ c)
  let after := b.heldTraps.filter fun h => decide (c < h.1)
  (s.modNib n fun b => { b with heldTraps := before ++ [(c, code)] ++ after }).postHeld n

/-- The outcome of Table 06-5 for a trap due in a context. -/
inductive TrapWay where
  | enter (l : BitVec 2) (esc : Bool)
  | freeze (esc : Bool)
  | nested
  deriving DecidableEq, Repr

def Context.way (x : Context) (zero : Bool) (k : Cause) : TrapWay :=
  if zero then
    if !x.saveD.live then .enter lvD false
    else if !x.saveM.live then .enter lvM true
    else .nested
  else if k.atD then .freeze false
  else if x.saveS.live then .freeze true
  else .enter lvS false

/-- The level whose save set takes the trap. -/
def TrapWay.level : TrapWay → BitVec 2
  | .enter l _ => l
  | .freeze _ => lvD
  | .nested => lvM

/-- What taking the trap settles in the context: the reports due, the barrier-fault flag, the spill engine's suspension. -/
def Context.trapTaken (x : Context) (t : TrapReq) (spill : Bool) (l : BitVec 2) : Context :=
  let x := if t.impr then { x with arith := [], faultDue := none }
    else if spill then { x with spillFault := none, suspended := some l, spillGo := false, faultDue := none }.touch 11
    else { x with faultDue := none }
  let x := if t.cause = .barrier then { x with barFault := false }.touch 0 else x
  { x with undo := none, redo := none, xfer := none, routine := none, parked := none, waiting := none }

/-- A trap is taken (R221 to R224, R228, R229). -/
def State.takeTrap (s : State) (n c : Nat) (t : TrapReq) (spill : Bool) : State :=
  let s := (s.modCtx n c fun x => x.settle (c == 0) (s.now n + 64)).count n 8
  let x := s.ctx n c
  let w := x.way (c == 0) t.cause
  let s := s.modCtx n c fun x => x.trapTaken t spill w.level
  match w with
  | .enter l esc => s.modCtx n c fun x => x.enter l t esc
  | .freeze esc =>
    let s := s.modCtx n c fun x =>
      let y := (x.setSave lvD (x.trapSave t esc)).setSt 8 1 0
      { y with steady := 0, steadyLim := false }.setState stFrozen
    (s.unseat n c).postRecord n c t.cause.code
  | .nested =>
    let s := s.modCtx n c fun x => x.setState stFrozen
    (s.unseat n c).detect n (.nested 0)

/-- The trap that is due for a context, in the order of R230 and R233; `true` when the spill engine raised it. Between a level-changing
transfer and its target pair only the delay pair's own fault is taken: FLT_ARITH and FLT_SPILL are held back until the transfer has
bound (DESIGN CHOICE, log 60). -/
def Context.trapDue (x : Context) : Option (TrapReq × Bool) :=
  if x.xfer.isSome then (x.faultDue.map fun t => (t, false))
  else match x.arith with
    | r :: rs =>
      some ({ cause := .arith, info := info r.sub.toNat (min rs.length 255) r.pc.toNat, slot := r.slot, impr := true }, false)
    | [] =>
      match x.spillFault with
      | some t => some (t, true)
      | none => x.faultDue.map fun t => (t, false)

/-- A nib may act at pair boundaries: it serves, is not closed or parked, and no machine check of its own is reported (R225). -/
def State.serves (s : State) (n : Nat) : Bool :=
  let b := s.nib n
  b.active && !b.closed && b.parkedBy == 0 && !(s.stroke.faults.any (·.unit == n))
    && (s.stroke.phase == .opened || s.stroke.phase == .closing)

/-- TRAP_ENTRY: the running context takes the first trap due; a held machine check comes before it (R230). -/
def execTrapEntry (n : Fin 544) (c : Fin 32) (s : State) : Out :=
  let x := s.ctx n.val c.val
  if s.serves n.val && (s.nib n.val).running == some c.val && x.routine.isNone && x.parked.isNone
      && !s.checkDue n.val c.val then
    match x.trapDue with
    | some t => .next (s.takeTrap n.val c.val t.1 t.2)
    | none => .next s
  else .next s

/-- The M entry of a machine check in context 0 (R226, R227). A precise fault due at the pair it displaces is met again when that pair
issues (R230, R231). -/
def State.enterCheck (s : State) (n : Nat) (h : HeldCheck) (k : Cause) : State :=
  let s := s.modCtx n 0 fun x => x.settle true (s.now n + 64)
  (s.modCtx n 0 fun x => { x with faultDue := none }.enter lvM { cause := k, info := h.info } false).count n 8

/-- The cause of a machine-check code. -/
def checkCause (v : BitVec 8) : Cause :=
  match v.toNat with
  | 0x20 => .mcChecker
  | 0x21 => .mcUstore
  | 0x22 => .mcVote
  | 0x23 => .mcUncorr
  | 0x24 => .mcLink
  | 0x25 => .mcColophon
  | 0x26 => .mcLockstep
  | 0x27 => .mcClock
  | 0x28 => .mcArray
  | _ => .mcNested

/-- HELD_CHECK_ENTRY: the oldest held check enters at M at a pair boundary of context 0 once its M save set is not live. -/
def execHeldCheckEntry (n : Fin 544) (s : State) : Out :=
  let b := s.nib n.val
  let x := s.ctx n.val 0
  match b.heldChecks with
  | [] => .next s
  | h :: hs =>
    if s.serves n.val && !x.saveM.live && x.xfer.isNone && x.routine.isNone && x.parked.isNone
        && (x.state == stReady || x.state == stRunning) then
      .next ((s.modNib n.val fun b => { b with heldChecks := hs }).enterCheck n.val h (checkCause h.code))
    else .next s

end Sys2Proof.Machine
end

