-- ==== Sys2Proof/Machine/NibEvents.lean ====
section
/-! DEFINITION. Events of a nib's memory path (ch 08, 09): walks, Rubric answers, reads at an inkwell and their fills, the way
of a store to its inkwell or register, invalidations, acknowledgements and barriers. -/

namespace Sys2Proof.Machine

/-! ### Parked contexts -/

/-- The access a context is parked on ends in a fault; the context is READY (R109). -/
def State.faultParked (s : State) (n c : Nat) (t : TrapReq) : State :=
  let sl := match (s.ctx n c).parked with
    | some p => p.slot
    | none => false
  (s.raise n c { t with slot := sl }).modCtx n c fun x => x.setState stReady

/-- What a context is parked on. -/
def State.whyParked (s : State) (n c : Nat) : Option Wait := ((s.ctx n c).parked).map Parked.why

/-- The contexts of a nib whose wait a test names go on. -/
def State.wake (s : State) (n : Nat) (p : Nat → Wait → Bool) : State :=
  (upFrom 0 32).foldl (fun s c => match s.whyParked n c with
    | some w => if p c w then s.goOn n c else s
    | none => s) s

/-- Waits that a store's acknowledgement or drop may end (R296, R314). -/
def State.wakeStores (s : State) (n : Nat) : State :=
  let b := s.nib n
  let all := b.storeBuf ++ b.tracker
  s.wake n fun c w => match w with
    | .ownStores => !all.any (·.ctx == c)
    | .entryOf q => !all.any (·.seq == q)
    | _ => false

/-! ### Walks (R331 to R334) -/

/-- A leaf enters the TLB of 64 entries. -/
def Nib.install (b : Nib) (t : TlbEnt) (victim : Nat) : Nib :=
  let rest := b.tlb.filter fun u => !(u.ward == t.ward && u.large == t.large && u.vpn == t.vpn)
  { b with tlb := (if rest.length < 64 then rest else rest.eraseIdx (victim % 64)) ++ [t] }

/-- Entries a walk has read enter the leaf's walk cache of 256 entries. -/
def keepWalks (victim : Nat) : List WalkEnt → List WalkEnt → List WalkEnt
  | old, [] => old
  | old, e :: es =>
    let rest := old.filter fun u => !(u.level == e.level && u.ward == e.ward && u.pre == e.pre)
    keepWalks victim ((if rest.length < 256 then rest else rest.eraseIdx (victim % 256)) ++ [e]) es

/-- A walk's leaf enters the TLB, and the entries that it read the leaf's walk cache (R334). -/
def State.takeWalk (s : State) (n : Nat) (r : TlbEnt × List WalkEnt) : State :=
  let v := Config.freeVictim s.tick
  let leaf := leafOf n
  let s := s.drawn.modNib n fun b => b.install r.1 v
  { s with walkCache := mset s.walkCache leaf (keepWalks v (mget (fun _ => []) s.walkCache leaf) r.2) }

/-- The table entries that a walk reads from a level on (R331). -/
def walkPath (s : State) (n va : Nat) : Nat → Nat → Nat → List Nat
  | 0, _, _ => []
  | k + 1, level, table =>
    let a := table + 8 * walkIndex level va
    match walkStep s (walkAsker n) va table level with
    | .error _ => if inSys a && s.rubAllows (walkAsker n) .read a then [a] else []
    | .ok p => a :: if entLeaf p then [] else walkPath s n va k (level + 1) (entPpn p * 65536)

/-- The table entries that a walk reads, from where the walk cache lets it begin (R332). -/
def walkReads (s : State) (n va : Nat) : List Nat :=
  let ward := s.xlWard n
  match s.cachedWalk n ward va 2 with
  | some e => if entLeaf e.entry then [] else walkPath s n va 1 3 (entPpn e.entry * 65536)
  | none =>
    match s.cachedWalk n ward va 1 with
    | some e => walkPath s n va 2 2 (entPpn e.entry * 65536)
    | none => walkPath s n va 3 1 (s.xlRoot n)

/-- WALK_COMPLETE: the walk's reads pass their inkwells; the leaf is installed and the pair will issue again, or the walk's fault is
taken at the pair. A table line that is lost ends the walk without a result (R69). -/
def execWalkComplete (n : Fin 544) : Routed (Fin 32) → State → Out
  | ⟨c, m⟩, s =>
  match s.whyParked n.val c.val with
  | some (.walk va) =>
    if s.resending n.val then .next s else
    let path := walkReads s n.val va
    let r := s.meet (fun l => path.any fun a => lineOf a == l) m.errs
    if !m.agree then .next (s.vote (laneOf n.val) (path.headD 0))
    else if !r.2 then .next r.1
    else
    let s := path.foldl (fun s a => s.inkRead (lineOf a)) r.1
    match walk s n.val va with
    | .error t => .next (s.faultParked n.val c.val t)
    | .ok r => .next ((s.takeWalk n.val r).goOn n.val c.val)
  | _ => .next s

/-! ### Rubric answers (R335, R336, R355) -/

/-- A TLB entry takes the verdict of one class for a page that it maps. -/
def TlbEnt.learn (t : TlbEnt) (ward page : Nat) (fall : Bool) (v : Verdict) : TlbEnt :=
  let maps := if t.large then decide (t.ppn ≤ page) && decide (page < t.ppn + 8192) else t.ppn == page
  if t.ward == ward && maps then
    let t := if t.page = page then t else { t with page := page, fall := none, noFall := none }
    if fall then { t with fall := some v } else { t with noFall := some v }
  else t

/-- The verdict cache of 16 entries takes a verdict. -/
def Nib.learn (b : Nib) (e : VerdictEnt) (victim : Nat) : Nib :=
  let rest := b.verdicts.filter fun u => !(u.page == e.page && u.fall == e.fall)
  { b with verdicts := (if rest.length < 16 then rest else rest.eraseIdx (victim % 16)) ++ [e] }

/-- A page check answers, with the mask bit of the access: the verdict cache holds those of the executive mask bit (R335). -/
def State.pageAnswer (s : State) (n c pa : Nat) (fall tlb : Bool) : State :=
  let q := if tlb then { s.nibAsker n c (s.ctx n c).level with fall := fall } else walkAsker n
  let v := s.verdict q (pageOf pa)
  let s := if tlb then s.modNib n fun b => { b with tlb := b.tlb.map fun t => t.learn (s.xlWard n) (pageOf pa) fall v }
    else s.drawn.modNib n fun b => b.learn { page := pageOf pa, fall := fall, v := v } (Config.freeVictim s.tick)
  s.goOn n c

/-- A device register load passes its check: the register answers, or does not (R299, R504). -/
def State.deviceRead (s : State) (n c pa : Nat) (b : Blk) : State :=
  let s := s.modCtx n c fun x => { x with parked := x.parked.map fun p => { p with why := .devLoad pa } }
  if s.answers' b then
    let o := regOff pa
    let lo := s.regRead b o
    let s := s.regReadFx b o
    let hi := s.regRead b (o + 4)
    let s := s.regReadFx b (o + 4)
    { s with fills := s.fills ++ [{ nib := n, ctx := c, line := pa, cached := false, fetch := false,
                                    ans := .words [Word.rawOf (hi ++ lo)] }] }
  else s

/-- The lane answers a block (R336): a denial and an unpopulated target are taken at the pair. -/
def State.blockAnswer (s : State) (n c pa : Nat) (k : Acc) (fall load : Bool) : State :=
  let q := { s.nibAsker n c (s.ctx n c).level with fall := fall }
  if !s.rubAllows q k pa then s.faultParked n c { cause := .rubric, info := info 0 0 pa, deny := some pa }
  else if inMem pa then
    (if !load then (s.modCtx n c fun x => { x with blockAns := some (lineOf pa, k) }).goOn n c
     else
       let w : Wait := if k = .exec then .fetchLine (lineOf pa) false else .line (lineOf pa) false
       let s := { s with reads := s.reads ++ w.request n c }
       s.modCtx n c fun x => { x with parked := x.parked.map fun p => { p with why := w } })
  else match blockAt pa with
    | none => s.faultParked n c { cause := .bus, info := info 0 0 pa }
    | some b =>
      if !load then (s.modCtx n c fun x => { x with blockAns := some (lineOf pa, k) }).goOn n c
      else if k = .exec then
        (s.modCtx n c fun x =>
          { x with fetchGot := some { line := lineOf pa, words := List.replicate 8 Word.rawZero } }).goOn n c
      else s.deviceRead n c pa b

/-- RUBRIC_ANSWER; replicas that disagree deny by a machine check alone (R355). -/
def execRubricAnswer (n : Fin 544) (c : Fin 32) (agree : Bool) (s : State) : Out :=
  if s.resending n.val then .next s
  else match s.whyParked n.val c.val with
  | some (.page pa fall tlb) => if agree then .next (s.pageAnswer n.val c.val pa fall tlb) else .next (s.vote (laneOf n.val) pa)
  | some (.block pa k fall load) => if agree then .next (s.blockAnswer n.val c.val pa k fall load) else .next (s.vote (laneOf n.val) pa)
  | _ => .next s

/-! ### Reads at an inkwell (R67 to R69, R300, R301, R305) -/

/-- Invalidations on their way from the inkwell of a line to a nib. -/
def State.invalsTo (s : State) (n l : Nat) : List (Nat × Nat) := s.invals.filter fun p => p.1 == n && stackOf p.2 == stackOf l

/-- An inkwell serves a read: the line, its holders, its place in the inkwell; the nib keeps no copy of a line that the inkwell does
not hold (R303). -/
def State.serveRead (s : State) (r : ReadReq) : State :=
  let l := r.line
  let s := s.inkRead l
  let keeps := (r.cached || r.fetch) && s.inkHas l
  let ent := s.inkEnt l
  let s := if keeps then s.setInkEnt l { ent with holders := ent.holders.add r.nib } else s
  { s with fills := s.fills ++ [{ nib := r.nib, ctx := r.ctx, line := l, cached := r.cached && keeps, fetch := r.fetch,
                                  ans := .words (s.line l), behind := (s.invalsTo r.nib l).length }] }

/-- A descriptor slot that its port has not written yet: nib reads of its line are held (R481). -/
def State.slotPending (s : State) (l : Nat) : Bool :=
  s.rings.any fun e => e.2.en && e.2.pendSlots.any fun i => e.2.xpa + 64 * (i % 64) == l

/-- A shadow image line whose write is pending: reads of it are held (R428). -/
def State.imageHeld (s : State) (l : Nat) : Bool := s.imagePending.any fun p => imageLine p.1 p.2.1 p.2.2 == l

/-- A read may have to wait at its inkwell: for a write that awaits acknowledgements, a descriptor, a shadow line not yet written
(R294, R428, R481). -/
def State.readWaits (s : State) (l : Nat) : Bool :=
  s.writes.any (fun w => lineOf w.ent.pa == l) || s.hostWrites.any (fun w => w.blocks.any (·.1 == l)) || s.slotPending l || s.imageHeld l

/-- The fetch of a shadow line is a request of its own, with the executive's mask bit (R124, R347): the Rubric may deny it. -/
def State.fetchDenied (s : State) (r : ReadReq) : Bool :=
  match s.whyParked r.nib r.ctx with
  | some (.group d g) => imageLine r.nib d g == r.line && !s.rubAllows (walkAsker r.nib) .read r.line
  | _ => false

/-- INKWELL_READ: a read reaches its inkwell, and is served, or not delivered (R69). -/
def execInkwellRead (k : Nat) (errs : List (Nat × Ecc)) (agree : Bool) (s : State) : Out :=
  match takeAt s.reads k with
  | none => .next s
  | some (r, rest) =>
    if s.readWaits r.line || s.resending r.nib then .next s
    else
      let s := { s with reads := rest }
      if !agree then .next (s.vote (laneOf r.nib) r.line)
      else if s.fetchDenied r then
        .next (s.faultParked r.nib r.ctx { cause := .rubric, info := info 0 0 r.line, deny := some r.line })
      else
        let e := s.meet (fun l => l == r.line) errs
        if e.2 then .next (e.1.serveRead r) else .next e.1

/-! ### Fills (R108, R109, R124, R287) -/

/-- A register group's line has come: it lands, through the read barrier, in the context that waits for it (R124, R385). -/
def State.groupFill (s : State) (n c d g : Nat) (k : CLine) : State :=
  (s.modCtx n c fun x => { x with parked := x.parked.map fun p => { p with op := some (.fetchGroup d g), got := p.got ++ [k] } }).goOn n c

/-- A fill meets the access that asked for it; a fill that no access awaits is dropped. L1 takes the line with the nib's own stores;
an ordered context's load reads it as the inkwell sent it (R314, R315). -/
def State.takeFill (s : State) (m : FillMsg) : State :=
  let n := m.nib
  let c := m.ctx
  match m.ans with
  | .fault t => if (s.ctx n c).parked.isSome then s.faultParked n c t else s
  | .words ws =>
    let raw : CLine := { line := m.line, words := ws }
    let k := (s.nib n).merge raw
    let v := Config.freeVictim s.tick
    let s := if m.cached then s.drawn.modNib n fun b => if m.fetch then b.fillCode k v else b.fill k v else s
    let got (s : State) : State :=
      (s.modCtx n c fun x =>
        { x with parked := x.parked.map fun p => { p with got := p.got ++ [if x.ord then raw else k] } }).goOn n c
    match s.whyParked n c with
    | some (.line l _) => if l = m.line ∧ !m.fetch then got s else s
    | some (.devLoad pa) => if pa = m.line then got s else s
    | some (.fetchLine l _) =>
      if l = m.line ∧ m.fetch then (s.modCtx n c fun x => { x with fetchGot := some k }).goOn n c else s
    | some (.group d g) => if imageLine n d g = m.line then s.groupFill n c d g k else s
    | _ => s

/-- An earlier message of the same inkwell to the same nib has not arrived (R291). -/
def State.fillWaits (s : State) (m : FillMsg) : Bool :=
  !inDev m.line && (decide (0 < m.behind)
    || (s.fills.takeWhile (· != m)).any fun k => k.nib == m.nib && !inDev k.line && stackOf k.line == stackOf m.line)

/-- LINE_FILL: the oldest answer to a context's accesses arrives. -/
def execLineFill (n : Fin 544) (c : Fin 32) (s : State) : Out :=
  match takeFirst (fun m => m.nib == n.val && m.ctx == c.val) s.fills with
  | none => .next s
  | some (m, rest) => if s.fillWaits m || s.resending n.val then .next s else .next ({ s with fills := rest }.takeFill m)

/-! ### Stores on their way (R293 to R298, R314) -/

/-- STORE_BUFFER_SEND: the oldest entry joins the completion tracker; an ordered context has one at a time on its way. -/
def execStoreBufferSend (n : Fin 544) (s : State) : Out :=
  let b := s.nib n.val
  match b.storeBuf with
  | [] => .next (s.wake n.val fun _ w => w == .bufferFull)
  | e :: rest =>
    if b.tracker.length < 32 ∧ !(e.ordered && b.tracker.any (·.ctx == e.ctx)) then
      let s := s.modNib n.val fun b => { b with storeBuf := rest, tracker := b.tracker ++ [e] }
      .next (s.wake n.val fun _ w => w == .bufferFull)
    else .next s

/-- A tracker entry of nib n with a number changes. -/
def State.modStore (s : State) (n q : Nat) (f : StoreEnt → StoreEnt) : State :=
  s.modNib n fun b => { b with tracker := b.tracker.map fun e => if e.seq = q then f e else e }

/-- The target has taken a store: its acknowledgement is on the way. -/
def State.acknowledge (s : State) (n : Nat) (e : StoreEnt) : State :=
  let s := s.modStore n e.seq fun e => { e with arrived := true, done := true }
  { s with storeAcks := s.storeAcks ++ [(n, e)] }

/-- The inkwell applies a store (R294). -/
def State.inkApply (s : State) (n : Nat) (e : StoreEnt) : State := (s.applyStore n e).acknowledge n e

/-- A store is held for want of log room until the commit (R432). -/
def State.holdStore (s : State) (n : Nat) (e : StoreEnt) : State :=
  let s := s.modStore n e.seq fun e => { e with arrived := true }
  s.hold (.store n e)

/-- A store reaches its inkwell: held, or its line's holders are told first, or applied. -/
def State.inkStore (s : State) (n : Nat) (e : StoreEnt) : State :=
  let l := lineOf e.pa
  let hs := (s.holderNibs (s.inkEnt l).holders).filter fun m => m != n || e.kind.formed
  if s.held l then s.holdStore n e
  else if hs.isEmpty then s.inkApply n e
  else
    let s := s.modStore n e.seq fun e => { e with arrived := true }
    { s with writes := s.writes ++ [{ nib := n, ent := e, waits := hs }],
             invals := s.invals ++ hs.map fun m => (m, l) }

/-- A store reaches a register page (R298, R504); a page whose domain is off never acknowledges. -/
def State.regStore (s : State) (n : Nat) (e : StoreEnt) (v : BitVec 64) : State :=
  let a := e.pa + if v.getLsbD 63 then 4 else 0
  match blockAt a with
  | some b =>
    if s.answers' b then (s.regWrite (laneOf n) b (regOff a) (v.setWidth 32)).acknowledge n e
    else s.modStore n e.seq fun e => { e with arrived := true }
  | none => s.modStore n e.seq fun e => { e with arrived := true }

/-- The lane's request for a store, which its verdict has allowed (R337). -/
def State.storeDenied (s : State) (n : Nat) (e : StoreEnt) : Bool :=
  let k : Acc := match e.kind with
    | .word w _ => if w.typ = Ty.raw then .write else .writeT
    | .pair _ _ _ => .writeT
    | _ => .write
  !s.rubAllows { s.nibAsker n e.ctx lvS with fall := true } k e.pa

/-- STORE_ARRIVAL of the k-th sent store of a nib. Stores to one line arrive in order (R312); the log copy of its line may meet the
memory code (R68). A lane that denies what the verdict allowed is a machine check, and the store is not performed (R337). -/
def execStoreArrival (n : Fin 544) : Routed Nat → State → Out
  | ⟨k, m⟩, s =>
  let b := s.nib n.val
  match b.tracker[k]? with
  | none => .next s
  | some e =>
    let l := lineOf e.pa
    if e.arrived || e.done || (b.tracker.take k).any (fun t => lineOf t.pa == l && !t.done)
        || s.writes.any (fun w => lineOf w.ent.pa == l) || s.resending n.val then .next s
    else if !m.agree || s.storeDenied n.val e then .next (s.vote (laneOf n.val) e.pa)
    else match e.kind with
      | .dev v => .next (s.regStore n.val e v)
      | _ =>
        let r := s.meet (fun j => j == l && !s.logged l) m.errs
        if r.2 then .next (r.1.inkStore n.val e) else .next r.1

/-- STORE_ACK: the oldest acknowledgement reaches the nib, and the entry leaves the tracker. -/
def execStoreAck (n : Fin 544) (s : State) : Out :=
  match takeFirst (fun a => a.1 == n.val && !s.resending n.val) s.storeAcks with
  | none => .next s
  | some (a, rest) =>
    let s := { s with storeAcks := rest }.modNib n.val fun b => { b with tracker := b.tracker.filter fun e => e.seq != a.2.seq }
    .next (s.wakeStores n.val)

/-- A store that no target acknowledges is dropped: the barrier-fault flag with the oldest address, and a barrier that waits
ends its wait (R298, R317). -/
def State.dropStore (s : State) (n : Nat) (e : StoreEnt) : State :=
  let s := (s.modNib n fun b => { b with tracker := b.tracker.filter fun t => t.seq != e.seq }).countDrop n
  let s := s.modCtx n e.ctx fun x =>
    if x.barFault then x else { x with barFault := true, barAddr := e.va.setWidth 48 }.touch 0
  (s.wakeStores n).wake n fun c w => c == e.ctx && (w == .barrier .sbar || w == .barrier .fbar)

/-- The register that a store names never acknowledges it. -/
def State.deadTarget (s : State) (e : StoreEnt) : Bool :=
  match e.kind with
  | .dev v => match blockAt (e.pa + if v.getLsbD 63 then 4 else 0) with
    | some b => !s.answers' b
    | none => true
  | _ => false

/-- STORE_DROP_TIMEOUT of the k-th sent store of a nib. -/
def execStoreDropTimeout (n : Fin 544) (k : Nat) (s : State) : Out :=
  match (s.nib n.val).tracker[k]? with
  | none => .next s
  | some e => if !e.done && s.deadTarget e then .next (s.dropStore n.val e) else .next s

/-- DEVICE_LOAD_TIMEOUT: a register load that no target answers raises FLT_BUS (R299). -/
def execDeviceLoadTimeout (n : Fin 544) (c : Fin 32) (s : State) : Out :=
  match s.whyParked n.val c.val with
  | some (.devLoad pa) =>
    if s.fills.any fun m => m.nib == n.val && m.ctx == c.val && m.line == pa then .next s
    else .next ((s.countDrop n.val).faultParked n.val c.val { cause := .bus, info := info 0 0 pa })
  | _ => .next s

/-- The wait of a barrier has ended (R166, R317). -/
def State.barrierOver (s : State) (n c : Nat) (b : Bar) : Bool :=
  let x := s.ctx n c
  let out := ((s.nib n).storeBuf ++ (s.nib n).tracker).any (·.ctx == c)
  match b with
  | .lbar => true
  | .sbar => x.barFault || !out
  | .fbar => x.barFault || (!out && x.xinvs.all s.xinvDone)

/-- BARRIER_COMPLETE: the context is READY, and the barrier's pair issues again. -/
def execBarrierComplete (n : Fin 544) (c : Fin 32) (s : State) : Out :=
  match s.whyParked n.val c.val with
  | some (.barrier b) => if s.barrierOver n.val c.val b then .next (s.goOn n.val c.val) else .next s
  | _ => .next s

/-! ### Invalidations (R289, R291, R294, R302) -/

/-- A fill of the same inkwell, sent before an invalidation to the nib, has not arrived (R291). -/
def State.invalWaits (s : State) (p : Nat × Nat) : Bool :=
  s.fills.any fun m => m.nib == p.1 && !inDev m.line && stackOf m.line == stackOf p.2 && m.behind == 0

/-- An invalidation has arrived: the fills sent after it wait for one fewer. -/
def State.invalArrived (s : State) (p : Nat × Nat) : State :=
  { s with fills := s.fills.map fun (m : FillMsg) =>
      if m.nib = p.1 ∧ stackOf m.line = stackOf p.2 then { m with behind := m.behind - 1 } else m }

/-- INVALIDATION: the oldest one on its way to a nib from an inkwell whose fills before it have arrived removes the line. -/
def execInvalidation (n : Fin 544) (s : State) : Out :=
  match takeFirst (fun p => p.1 == n.val && !s.invalWaits p && !s.resending n.val) s.invals with
  | none => .next s
  | some (p, rest) =>
    let s := ({ s with invals := rest, acks := s.acks ++ [p] }).invalArrived p
    .next (s.modNib n.val fun b => b.drop p.2)

/-! ### The collector's barriers (R382, R387) -/

/-- SHADE_BUFFER_DRAIN: the oldest shaded word joins the grey queue of the nib's ward. -/
def execShadeBufferDrain (n : Fin 544) (s : State) : Out :=
  match (s.nib n.val).shade with
  | [] => .next s
  | g :: rest =>
    let s := (s.modNib n.val fun b => { b with shade := rest }).pushGrey (s.xlWard n.val) (.word g.1 g.2)
    .next (s.wake n.val fun _ w => w == .shadeFull)

/-- COPY_RECORD_RETRY: a context that found its bucket full tries again. -/
def execCopyRecordRetry (n : Fin 544) (c : Fin 32) (s : State) : Out :=
  match s.whyParked n.val c.val with
  | some (.bucket _) => .next (s.goOn n.val c.val)
  | _ => .next s

end Sys2Proof.Machine
end

