-- ==== Sys2Proof/Machine/Scheduling.lean ====
section
/-! DEFINITION. The scheduler, timers, STEADY's limit, messages on their way (ch 03) and the spill engine's writes (R240 to
R244). -/

namespace Sys2Proof.Machine

/-! ### Scheduling (R111 to R115) -/

/-- A context holds the nib: in a STEADY region, or between a level-changing transfer and its target pair, its delay pair parked or
waiting too (R115, R236). -/
def Context.holdsNib (x : Context) : Bool :=
  (x.stdy || x.xfer.isSome) && (x.state == stReady || x.state == stRunning || x.state == stParked)
    || x.xfer.isSome && x.state == stWaiting

/-- Contexts that may issue once the fence or their own stop request stands: what holds the nib, and a routine that has to reach its
END, or, before the fence, its next check point (R236, R246, R247, R412). -/
def State.mayStill (s : State) (n c : Nat) : Bool :=
  let x := s.ctx n c
  x.holdsNib || x.bare || (!s.fenced && (x.stopReq.isNone || x.inRoutine))

/-- READY contexts that a decision may pick. -/
def State.readyOn (s : State) (n : Nat) : List Nat :=
  let cs := (upFrom 0 32).filter fun c => (s.ctx n c).state == stReady && s.mayStill n c
  match (upFrom 0 32).find? fun c => (s.ctx n c).holdsNib with
  | some h => cs.filter fun c => c == h
  | none => cs

/-- The highest priority among contexts (R93). -/
def State.topPrio (s : State) (n : Nat) (cs : List Nat) : Nat := cs.foldl (fun m c => max m (s.prioOf n c)) 0

/-- The choice of R112 among READY contexts: the next in rotation at the highest priority. -/
def State.choose (s : State) (n : Nat) (cs : List Nat) : Option Nat :=
  let p := s.topPrio n cs
  let same := cs.filter fun c => s.prioOf n c == p
  let last := ((s.nib n).lastRun[p]?).getD 0
  match same.find? fun c => decide (last < c) with
  | some c => some c
  | none => same.head?

/-- A context is switched in: one switch cycle (R113). -/
def State.switchTo (s : State) (n c : Nat) : State :=
  let p := s.prioOf n c
  let s := s.modCtx n c fun x => { x with steadyUsed := false }.setState stRunning
  ((s.elapse n 1).modNib n fun b => { b with running := some c, lastRun := setAt b.lastRun p c }).count n 1

/-- The running context gives way; a routine at a check point micro-traps (R247). -/
def State.preempt (s : State) (n c : Nat) : State :=
  ((s.microTrap n c).modCtx n c fun x => x.setState stReady).unseat n c

/-- A nib takes scheduling decisions: it serves and no fence has closed it to all but a STEADY region (R411, R412). -/
def State.decides (s : State) (n : Nat) : Bool :=
  s.serves n && (!s.fenced || (upFrom 0 32).any fun c => (s.ctx n c).holdsNib || (s.ctx n c).bare)

/-- The running context does not give way: it holds the nib, a trap or a held check is due for it, or its routine is between two
check points (R115, R230, R247). -/
def State.keepsNib (s : State) (n c : Nat) : Bool :=
  let x := s.ctx n c
  x.holdsNib || x.faultsDue || x.bare || x.inRoutine || s.checkDue n c

/-- A decision of R112; a running context gives way only to a higher priority (R113 events 1 and 2). -/
def State.schedule (s : State) (n : Nat) : State :=
  if !s.decides n then s
  else match s.choose n (s.readyOn n) with
    | none => s
    | some c =>
      match (s.nib n).running with
      | none => s.switchTo n c
      | some r =>
        if s.keepsNib n r || decide (s.prioOf n c ≤ s.prioOf n r) then s else (s.preempt n r).switchTo n c

/-- SCHEDULING_DECISION. -/
def execSchedulingDecision (n : Fin 544) (s : State) : Out := .next (s.schedule n.val)

/-- TIME_SLICE_EXPIRY: another READY context of the running context's priority takes the nib (R113 event 3). -/
def execTimeSliceExpiry (n : Fin 544) (s : State) : Out :=
  match (s.nib n.val).running with
  | none => .next s
  | some r =>
    let same := (s.readyOn n.val).filter fun c => s.prioOf n.val c == s.prioOf n.val r
    if !s.decides n.val || s.keepsNib n.val r then .next s
    else match s.choose n.val same with
      | none => .next s
      | some c => .next ((s.preempt n.val r).switchTo n.val c)

/-- MICRO_TRAP: a routine that has stopped at its check point stores its live state, and its context leaves issue (R247, R266); a
STEADY region and a level change defer what it stopped for (R115, R236). -/
def execMicroTrap (n : Fin 544) (c : Fin 32) (s : State) : Out :=
  let x := s.ctx n.val c.val
  if (x.routine.any fun r => r.stopped) && x.parked.isNone && !x.stdy && x.xfer.isNone then .next (s.preempt n.val c.val) else .next s

/-- TIMER_EXPIRY (R122); a nib that has closed takes it after the next open (R411). -/
def execTimerExpiry (n : Fin 544) (c : Fin 32) (s : State) : Out :=
  match (s.ctx n.val c.val).timer with
  | none => .next s
  | some _ => if (s.nib n.val).closed then .next s else .next ((s.modCtx n.val c.val fun x => { x with timer := none }.touch 0).flagCtx n.val c.val 1)

/-- STEADY_LIMIT_EXPIRY: the region ends; at the limit of 512, STEADY acts as NOP until the context's next decision (R245). -/
def execSteadyLimitExpiry (n : Fin 544) (c : Fin 32) (s : State) : Out :=
  let x := s.ctx n.val c.val
  if x.stdy then
    .next (s.modCtx n.val c.val fun x =>
      { x with steadyUsed := x.steadyUsed || x.steadyLim, steady := 0, steadyLim := false }.setSt 8 1 0)
  else .next s

/-! ### Messages (R119, R120) -/

/-- A word on its way to another leaf has its links to cross: its sender's, and the one that brings events to its target (R17). -/
def State.sendWaits (s : State) (m : SendMsg) : Bool :=
  leafOf m.nib != leafOf m.tnib && (s.resending m.nib || s.eventWaits m.tnib)

/-- SEND_DELIVERY: the k-th word on its way meets its target's queue; the answer starts back. -/
def execSendDelivery (k : Nat) (s : State) : Out :=
  match takeAt s.sends k with
  | none => .next s
  | some (m, rest) =>
    if s.sendWaits m then .next s else
    let s := { s with sends := rest }
    let ok := s.accepts m.tnib m.tctx
    let s := if ok then (s.enqueue m.tnib m.tctx m.word).count m.tnib 14 else s
    .next { s with answers := s.answers ++ [(m.nib, m.ctx, ok)] }

/-- SEND_ANSWER: the sender takes 1 or 0 in its register and is READY. -/
def execSendAnswer (n : Fin 544) (c : Fin 32) (s : State) : Out :=
  match takeFirst (fun a => a.1 == n.val && a.2.1 == c.val) s.answers with
  | none => .next s
  | some (a, rest) =>
    let s := { s with answers := rest }
    match (s.ctx n.val c.val).parked with
    | some { why := .answer dst, iss := iss, .. } =>
      .next (s.modCtx n.val c.val fun x =>
        ({ x with parked := none, undo := x.undoLeft, redo := none }.setState stReady).launch (s.now n.val) iss
          (.reg dst) (Word.ofTest a.2.2))
    | _ => .next s

/-! ### Spill writes (R240 to R244, Table 06-6a) -/

/-- The pairs of a spill frame: marker and RAW zero, then the sixteen registers two by two. -/
def SpillFrame.pairs (f : SpillFrame) : List (Word × Word) :=
  let mark := Word.mk0 Ty.spill (BitVec.ofNat 64 (0x10000 + (if f.hb then 0x20000 else 0) + f.win))
  let rec two : List Word → List (Word × Word)
    | a :: b :: r => (a, b) :: two r
    | _ => []
  (mark, Word.rawZero) :: two f.words

/-- The check of one pair's address on the nib's lane: translation, rights, Rubric; a device leaf is a failure of its own (R242). A TLB
miss waits for the engine's walk. -/
def Env.spillAt (e : Env) (va : Nat) : Plan Nat := do
  let t ← e.translate (BitVec.ofNat 64 va)
  if inDev t.1.pa && t.2.isSome then fail .bus 0
  match t.2 with
  | some l => if !l.permits (e.x.level == lvS) .writeT then fail .xrights 0
  | none => pure ()
  if !e.s.rubAllows (e.s.nibAsker e.n e.c e.x.level) .writeT t.1.pa then failRubric t.1.pa
  if !inMem t.1.pa then fail .bus 0
  return t.1.pa

/-- A frame's pairs and their physical addresses; the failure names the pair's virtual address. -/
def State.spillPlan (n c : Nat) : State → Nat → List (Word × Word) → Except (SlotOut × Nat) (State × List (Nat × Word × Word))
  | s, _, [] => .ok (s, [])
  | s, a, p :: ps =>
    match (Env.mk s n c (s.ctx n c) false []).spillAt a with
    | .error o => .error (o, a)
    | .ok pa =>
      match (if c = 0 then Except.ok (s, p.1, p.2) else s.forwardHeld n c p.1 p.2) with
      | .error o => .error (o, a)
      | .ok q =>
        match State.spillPlan n c q.1 (a + 16) ps with
        | .error o => .error o
        | .ok r => .ok (r.1, (pa, q.2.1, q.2.2) :: r.2)

/-- The failure of a spill write: FLT_SPILL 0x05 is due, and the engine is suspended (R242). -/
def State.spillFails (s : State) (n c : Nat) (t : TrapReq) (a : Nat) : State :=
  let s := match t.deny with
    | some b => s.deny (laneOf n) b
    | none => s
  s.modCtx n c fun x =>
    { x with spillFault := some { cause := .spill, info := info 5 t.cause.code.toNat a }, suspended := some lvU, spillGo := false }.touchFrames

/-- Pairs of a frame at the inkwell: the marker's pair with COLOUR 0, the registers' with memory's (Table 10-5). -/
def State.writeFrame (s : State) : WriteMode → List (Nat × Word × Word) → State
  | _, [] => s
  | m, p :: ps => (s.writeAs p.1 (.pair p.2.1 p.2.2 m)).writeFrame .keep ps

/-- A frame that has been written is held no more, also when the pair that is out goes back (R109). -/
def Context.frameWritten (x : Context) (f : SpillFrame) : Context :=
  let u (o : Option Undo) : Option Undo := o.map fun u => if u.frames.head? = some f then { u with frames := u.frames.tail } else u
  { x with undo := u x.undo, redo := u x.redo }

/-- The engine writes its oldest frame; it waits when the log has no room for a line it writes (R432). A walk that it needs fills the
TLB (R334). -/
def State.spillWrite (s : State) (n c : Nat) : Nat → State
  | 0 => s
  | k + 1 =>
    let x := s.ctx n c
    match x.frames with
    | [] => s
    | f :: rest =>
      match State.spillPlan n c s f.cursor.toNat f.pairs with
      | .error (.wait (.walk va), a) =>
        match walk s n va with
        | .error t => s.spillFails n c t a
        | .ok r => ((walkReads s n va).foldl (fun s a => s.inkRead (lineOf a)) s |>.takeWalk n r).spillWrite n c k
      | .error (.trap t, a) => s.spillFails n c t a
      | .error _ => s
      | .ok r =>
        if r.2.any fun p => s.held (lineOf p.1) then s
        else
          let s := (r.1.writeFrame .colour r.2).modCtx n c fun x => ({ x.touchFrames with frames := rest, suspended := none, spillGo := false }).frameWritten f
          match s.whyParked n c with
          | some .spillRoom => s.goOn n c
          | _ => s

/-- Where the engine's oldest frame goes, when its addresses are known. -/
def State.spillTargets (s : State) (n c : Nat) : List Nat :=
  match (s.ctx n c).frames with
  | [] => []
  | f :: _ => match State.spillPlan n c s f.cursor.toNat f.pairs with
    | .ok r => r.2.map Prod.fst
    | .error _ => []

/-- SPILL_WRITE_COMPLETE: replicas may disagree over the frame's first block (R355), and the copies that the log takes of its lines may
meet the memory code (R68). -/
def execSpillWriteComplete (n : Fin 544) : Routed (Fin 32) → State → Out
  | ⟨c, m⟩, s =>
  if (s.ctx n.val c.val).spillHeld || s.resending n.val then .next s
  else
    let ts := s.spillTargets n.val c.val
    if !m.agree && !ts.isEmpty then .next (s.vote (laneOf n.val) (ts.headD 0))
    else
      let r := s.meet (fun j => ts.any (fun a => lineOf a == j) && !s.logged j) m.errs
      .next (if r.2 then r.1.spillWrite n.val c.val 4 else r.1)

/-- The save set in which a FLT_SPILL was taken is live no more (R242). -/
def Context.spillFree (x : Context) : Bool := x.suspended.isSome && !x.spillHeld

/-- SPILL_RETRY: the engine goes on with the frame it kept. -/
def execSpillRetry (n : Fin 544) (c : Fin 32) (s : State) : Out :=
  if (s.ctx n.val c.val).spillFree then .next (s.modCtx n.val c.val fun x => { x.touchFrames with suspended := none, spillGo := false })
  else .next s

end Sys2Proof.Machine
end

