-- ==== Sys2Proof/Machine/Collector.lean ====
section
/-! DEFINITION. The pumice engines' work (R366, R372 to R377, R380, R393 to R395): marking, whole-sheet scans, copying and zero
fill. -/

namespace Sys2Proof.Machine

/-- The log has room for n more lines (R432); an engine stops before a write that would be held. -/
def State.roomFor (s : State) (n : Nat) : Bool := !s.attemptOn || decide (s.stroke.used + 72 * n ≤ s.budget)

/-- The engine's chunk key (R388). -/
def copierOf (e w : Nat) : Nat := 544 + 8 * e + w

/-- A unit has reported in this attempt. -/
def State.reported (s : State) (u : Nat) : Bool := s.stroke.reports.any fun e => e.1 == u

/-- The engine runs: it is not paused by shedding, its leaf is on, it has not made its checkpoint, and its link has nothing to send again (R17, R400,
R411). -/
def State.engineUp (s : State) (e w : Nat) : Bool :=
  !(s.collOf w).shedSusp && s.domain (52 + e / 4) && (s.stroke.phase == .opened || s.stroke.phase == .closing) && !s.reported (544 + e)
    && !s.resending (544 + e)

/-- The engine may work on its ward's cycle, which is not suspended. -/
def State.engineOn (s : State) (e w : Nat) : Bool := !(s.collOf w).susp && s.engineUp e w

/-! ### Blocks of an engine's requests (R20, R354, R395)

An engine asks for one to four consecutive blocks of a 256-byte-aligned span. A request is performed up to its first denied block; the
engine then goes on with its next request (DEDUCED from R354 and R395, log 70). -/

/-- Of the lines an engine asks for, those that are performed. -/
def State.granted (s : State) (e : Nat) (k : Acc) (ls : List Nat) : List Nat :=
  ls.filter fun l => ls.all fun m => !(m / 256 == l / 256 && decide (m ≤ l)) || s.mayBy (some e) k m

/-- The first denied line of each request. -/
def State.deniedLines (s : State) (e : Nat) (k : Acc) (ls : List Nat) : List Nat :=
  ls.filter fun l => !s.mayBy (some e) k l && ls.all fun m => !(m / 256 == l / 256 && decide (m < l)) || s.mayBy (some e) k m

/-- n consecutive lines. -/
def linesFrom (a n : Nat) : List Nat := (upFrom 0 n).map fun i => a + 64 * i

def State.engineDeniedAll (s : State) (e w : Nat) (ls : List Nat) : State := ls.foldl (fun s l => s.engineDenied e w l) s

/-! ### Marking (R373) -/

/-- Where the item of a slot's word begins, when that lies in the window, and the addresses read to tell. -/
def State.slotItem (s : State) (w : Nat) (x hi : Word) : Option Nat × List Nat :=
  let base := if isRefType x.typ then (waddr x).toNat else (CapV.mk x hi).base
  if base < 2 ^ 38 then s.boundItem w x hi else (none, [])

/-- The first word of the item at a virtual address, where its sheet is condemned. -/
def State.condemnedAt (s : State) (w va : Nat) : Option Nat :=
  (s.sheetAtV w (va / sheetBytes)).bind fun h =>
    if s.sheetState h = shCondemned then some (h * sheetBytes + va % sheetBytes) else none

/-- What a slot's word is read for to forward it: the item it is bound to, that item's sheet, and its first word in a condemned one. -/
def State.slotReads (s : State) (w : Nat) (x hi : Word) : List Nat :=
  let r := s.slotItem w x hi
  r.2 ++ match r.1 with
    | none => []
    | some va => ((s.sheetAtV w (va / sheetBytes)).map descAddr).toList ++ (s.condemnedAt w va).toList

/-- A slot's word forwarded when its target lies in a condemned sheet and is FORWARD (R373, R386); a reserved encoding forwards
nothing (R42). -/
def State.forwardSlot (s : State) (w : Nat) (x hi : Word) : Word × Word :=
  match (s.slotItem w x hi).1 with
  | none => (x, hi)
  | some va =>
    match (s.condemnedAt w va).map s.word with
    | none => (x, hi)
    | some t =>
      if t.typ ≠ Ty.forward ∨ reservedWord t then (x, hi)
      else if isRefType x.typ then ({ x with pay := t.pay }, hi)
      else
        let d : BitVec 64 := (t.pay - BitVec.ofNat 64 va) <<< 16
        ({ x with pay := x.pay + d }, { hi with pay := hi.pay + d })

/-- A slot is replaced by one locked update on the engine's lane, its COLOUR and CDR kept; a pair whole (R183, R386). -/
def State.patchSlot (s : State) (e w a : Nat) (x hi : Word) (pair : Bool) : State :=
  if s.word a = x ∧ (!pair || s.word (a + 8) == hi) then s
  else if !s.mayBy (some e) .writeT a then s.engineDenied e w a
  else
    let s := (s.logLine (lineOf a)).putWord a x
    (if pair then s.putWord (a + 8) hi else s).changed (lineOf a) none

/-- A reserved first word that a slot's word leads to is logged (R42). -/
def State.logTarget (s : State) (e w : Nat) (x hi : Word) : State :=
  match ((s.slotItem w x hi).1.bind fun va => s.condemnedAt w va) with
  | some t => if reservedWord (s.word t) then s.errLog e w 1 t else s
  | none => s

/-- One word of an item: forwarded, shaded, and its COLOUR set (R373); a reserved encoding is logged and left (R42). A slot whose
target the engine may not read stays as it is (R395). -/
def State.scanSlot (s : State) (e w a : Nat) : State :=
  let x := s.word a
  let hi := if x.typ = Ty.capLo then s.word (a + 8) else Word.rawZero
  let pair := x.typ == Ty.capLo && hi.typ == Ty.capHi && a % 16 == 0
  if reservedWord x then s.errLog e w 1 a
  else if isRefType x.typ || pair then
    match s.barred (some e) (s.slotReads w x hi) with
    | some b => s.engineDenied e w b
    | none =>
      let r := s.forwardSlot w x hi
      let s := ((s.logTarget e w x hi).patchSlot e w a r.1 r.2 pair).shadeWord (some e) w r.1 r.2
      let m := (s.collOf w).markc
      let s := s.paint (some e) w a m
      if pair then s.paint (some e) w (a + 8) m else s
  else s

/-- The words at some addresses scanned in order, each block as its first word is met read at its inkwell. -/
def State.scanSlots (s : State) (e w : Nat) : List Nat → State
  | [] => s
  | a :: r => ((if a % 64 = 0 then s.inkRead a else s).scanSlot e w a).scanSlots e w r

/-- Physical addresses of the n words of the item at a: a LARGE run goes on in the sheet mapped after (R363, R373). -/
def State.itemPath (s : State) (w a n : Nat) : List Nat :=
  (upFrom 0 n).filterMap fun i =>
    let p := a + 8 * i
    if sheetOf p = sheetOf a then some p else s.heapAt w (s.virtOf a + 8 * i)

/-- Words scanned as the engine's requests for their lines are granted (R354, R395). -/
def State.scanPath (s : State) (e w : Nat) (ps : List Nat) : State :=
  let ls := (ps.map lineOf).eraseDups
  let ok := s.granted e .read ls
  (s.scanSlots e w (ps.filter fun p => ok.contains (lineOf p))).engineDeniedAll e w (s.deniedLines e .read ls)

/-- scan(item) of R373 on the item at a virtual address; a FORWARD's item is its copy. -/
def State.scanItem (s : State) (e w va : Nat) : State :=
  match s.heapAt w va with
  | none => s
  | some a0 =>
    let a := if (s.word a0).typ = Ty.forward then (s.heapAt w (s.word a0).pay.toNat).getD a0 else a0
    let x := s.word a
    let n := s.itemWords a
    match s.barred (some e) [descAddr (sheetOf a0), a0, descAddr (sheetOf a), a] with
    | some b => s.engineDenied e w b
    | none =>
      if !s.mayBy (some e) .writeT a then s.engineDenied e w a
      else if x.typ = Ty.poison then (s.errLog e w 3 a).setBad e w (sheetOf a)
      else
        let path := s.itemPath w a n
        let s := (if a % 64 = 0 then s else s.inkRead (lineOf a)).paint (some e) w a (s.collOf w).markc
        let s := (s.addLive (some e) w (sheetOf a) (8 * n)).count (544 + e) 0 (8 * n)
        let s := (s.modColl w fun k => { k with live := k.live + 8 * n }).scanPath e w path
        if x.typ ≠ Ty.header ∧ x.cdr = 1 then
          s.shadeWord (some e) w (Word.mk0 Ty.cons (BitVec.ofNat 64 (s.virtOf a + 8))) Word.rawZero
        else s

/-- Item starts of a line from position p on, q being the position before it, and the addresses read (R366). -/
def State.startsFrom (s : State) (l : Nat) : Nat → Nat → Nat → List Nat × List Nat
  | 0, _, _ => ([], [])
  | k + 1, q, p =>
    if l + 64 ≤ p then ([], [])
    else
      let reads := cardAddr p :: s.itemReads p
      if s.parseEnds p q then ([], reads)
      else
        let r := s.startsFrom l k p (p + 8 * s.itemWords p)
        (if l ≤ p then p :: r.1 else r.1, reads ++ r.2)

/-- Items that begin in a line, by the card and the parse, and the addresses read to find them (R366). -/
def State.startsIn (s : State) (l : Nat) : List Nat × List Nat :=
  let c := s.cardByte l
  let r := if c = 0xFF then ([], []) else s.startsFrom l 64 l (l - l % 512 + 8 * c)
  (r.1, cardAddr l :: r.2)

/-- A grey-queue entry is taken (R373, R374, R383). -/
def State.scanGrey (s : State) (e w : Nat) (g : Grey) : State :=
  match g with
  | .word x hi =>
    let r := s.boundItem w x hi
    match s.barred (some e) r.2 with
    | some b => s.engineDenied e w b
    | none =>
      match r.1 with
      | some va => s.scanItem e w va
      | none =>
        if x.typ = Ty.capLo ∧ hi.typ = Ty.capHi then
          let k : CapV := ⟨x, hi⟩
          s.pinRange (some e) w k.base k.top
        else s
  | .rescan l =>
    let r := s.startsIn l
    match s.barred (some e) r.2 with
    | some b => s.engineDenied e w b
    | none => r.1.foldl (fun s a => s.scanItem e w (s.virtOf a)) s

/-- Words of the item that an entry names, for the log room it may need. -/
def State.greyWords (s : State) (w : Nat) (g : Grey) : Nat :=
  match g with
  | .word x hi => ((s.boundItem w x hi).1.map (s.itemWordsV w)).getD 1
  | .rescan _ => 64

/-- Reserved encodings among the words of a line are logged (R42), and mark nothing. -/
def State.markable (s : State) (e w l : Nat) : State × List Word :=
  (((upFrom 0 8).zip (s.line l)).foldl (fun s p => if reservedWord p.2 then s.errLog e w 1 (l + 8 * p.1) else s) s,
    (s.line l).map fun x => if reservedWord x then Word.rawZero else x)

/-- A register group that is a root: read from its shadow line while still unfetched, and shaded (R372). -/
def State.scanRoot (s : State) (e w : Nat) (r : Nat × Nat) : State :=
  let n := r.1 / 32
  let c := r.1 % 32
  let l := imageLine n c r.2
  if s.imagePending.contains (n, c, r.2) then s
  else
    let s := s.modColl w fun k => { k with roots := k.roots.filter fun x => x != r }
    if !(s.ctx n c).unfetched.getLsbD r.2 then s
    else if !s.mayBy (some e) .read l then s.engineDenied e w l
    else
      let r := (s.inkRead l).markable e w l
      r.1.shadePairs (some e) w r.2

/-- Lines that an engine reads: of the ward's heap sheets, and of the system region. -/
def State.heapLine (s : State) (w l : Nat) : Bool := (inHeap l && s.sheetWard (sheetOf l) == some w) || inSys l

/-- An engine's request in ward w, whose first block is that of a, meets what the command brings: replicas that disagree, or lines with
errors, of which an uncorrectable one of the system region is a machine check and gives the engine nothing (R66 to R69, R355). -/
def State.engineMeets (s : State) (e w a : Nat) (m : Meets) (go : State → State) : Out :=
  if !m.agree then .next (s.vote (8 + e / 4) a)
  else
    let r := s.meet (s.heapLine w) m.errs
    .next (if r.2 then go r.1 else r.1)

/-- Where the oldest entry of a ward's grey queue lies. -/
def State.greyHead (s : State) (w : Nat) : Nat := greyAddr w ((s.collOf w).greyAt + greyMax - (s.collOf w).grey.length)

/-- ENGINE_SCAN: a root if one is left, else the oldest grey entry. -/
def execEngineScan : Routed (Fin 16) → State → Out
  | ⟨e, m⟩, s =>
  match s.engineWard e.val with
  | none => .next s
  | some w =>
    let k := s.collOf w
    if !s.engineOn e.val w || k.phase != .mark then .next s
    else match k.roots with
      | r :: _ => if s.roomFor 40 then s.engineMeets e.val w (imageLine (r.1 / 32) (r.1 % 32) r.2) m fun s => s.scanRoot e.val w r else .next s
      | [] =>
        match k.grey with
        | [] => .next s
        | g :: rest =>
          if s.roomFor (s.greyWords w g + 40) then
            s.engineMeets e.val w (s.greyHead w) m fun s =>
              if s.mayBy (some e.val) .read (s.greyHead w) then (s.modColl w fun k => { k with grey := rest }).scanGrey e.val w g
              else s.engineDenied e.val w (s.greyHead w)
          else .next s

/-- WHOLE_SHEET_SCAN: every pointer word of a pinned sheet, once in a cycle: SCANNED sets also where blocks were denied, which leave the
sheet BAD (R354, R374, R395; DEDUCED, log 70). -/
def execWholeSheetScan : Routed (Fin 16) → State → Out
  | ⟨e, m⟩, s =>
  match s.engineWard e.val with
  | none => .next s
  | some w =>
    let k := s.collOf w
    match k.scans with
    | [] => .next s
    | h :: rest =>
      if !s.engineOn e.val w || k.phase != .mark || !s.roomFor 524290 then .next s
      else s.engineMeets e.val w (h * sheetBytes) m fun s =>
        let ls := linesFrom (h * sheetBytes) (sheetBytes / 64)
        let t := (s.modColl w fun k => { k with scans := rest }).scanSlots e.val w
          ((s.granted e.val .read ls).flatMap fun l => (upFrom 0 8).map fun i => l + 8 * i)
        let t := t.freshDesc (some e.val) w h
        (t.putDesc (some e.val) w h 0 (t.desc h 0 ||| 2)).engineDeniedAll e.val w (s.deniedLines e.val .read ls)

/-! ### Copying (R380, R387, R395) -/

/-- Errors met in the words an engine copies: reserved encodings (R42), lines read as POISON (R68). -/
def State.copyErrors (s : State) (e w : Nat) : List (Nat × Word) → State
  | [] => s
  | (a, x) :: r =>
    (if reservedWord x then s.errLog e w 1 a else if x = Word.poisonOf 1 then s.errLog e w 4 a else s).copyErrors e w r

/-- Words of the item at a that its copy record has done. -/
def State.wordsDone (s : State) (w a : Nat) : Nat :=
  match s.copyRec w a with
  | some r => min (r.len / 8) ((lineOf r.dst + 64 * r.done - r.dst) / 8)
  | none => 0

/-- The copy protocol as an engine runs it on an item (R387, R395): the words it has read are checked, a denied block leaves the item
uncopied and the sheet BAD. The answer is whether the engine goes on. -/
def State.engineCopy (s : State) (e w a : Nat) : State × Bool :=
  let n := s.itemWords a
  let words := ((upFrom 0 n).map fun i => (a + 8 * i, s.word (a + 8 * i))).drop (s.wordsDone w a)
  let r := s.copyRun (pumAsker e) (pumAsker e) (copierOf e w) w a (s.copySteps a)
  let read (t : State) : List (Nat × Word) := words.take (t.wordsDone w a - s.wordsDone w a)
  match r.2 with
  | .finished => (r.1.copyErrors e w words, true)
  | .full => (r.1.copyErrors e w (read r.1), false)
  | .denied b => ((r.1.copyErrors e w (read r.1)).engineDenied e w b |>.setBad e w (sheetOf a), true)

/-- What an engine does with the item at a physical address: whether it can go on. -/
def State.copyItem (s : State) (e w a : Nat) : State × Bool :=
  let x := s.word a
  let k := s.collOf w
  if x.typ = Ty.forward ∨ !(x.col == k.markc || x.col == 3) then (s, true)
  else if !s.roomFor (s.itemWords a / 4 + 24) then (s, false)
  else s.engineCopy e w a

/-- The first item start that a card names at p or after it, within k cards, and the card bytes read (R365, R366). -/
def State.nextStart (s : State) : Nat → Nat → Option Nat × List Nat
  | 0, _ => (none, [])
  | k + 1, p =>
    let q := p - p % 512 + 8 * s.cardByte p
    if s.cardByte p ≠ 0xFF ∧ p ≤ q then (some q, [cardAddr p])
    else
      let r := s.nextStart k (p - p % 512 + 512)
      (r.1, cardAddr p :: r.2)

/-- Cards from p's on in its sheet. -/
def cardsLeft (p : Nat) : Nat := (sheetBytes - p % sheetBytes + 511) / 512

/-- The parse of a condemned sheet from position p, q being the item before it: the state, and whether it reached its end. Where a card
ends the parse, it goes on from the next item start that a card names, until the sheet has none (R366, R380; DEDUCED, log 71). -/
def State.copySheet (s : State) (e w past : Nat) : Nat → Nat → Nat → State × Bool
  | 0, _, _ => (s, true)
  | k + 1, q, p =>
    if past ≤ p then (s, true)
    else match s.barred (some e) (cardAddr p :: s.itemReads p) with
      | some b => ((s.engineDenied e w b).setBad e w (sheetOf p), true)
      | none =>
        if (s.word p).typ = Ty.poison then ((s.errLog e w 3 p).setBad e w (sheetOf p), true)
        else if s.parseEnds p q then
          let r := s.nextStart (cardsLeft p) p
          match s.barred (some e) r.2, r.1 with
          | some b, _ => ((s.engineDenied e w b).setBad e w (sheetOf p), true)
          | none, none => (s, true)
          | none, some p' => s.copySheet e w past k p' p'
        else
          let len := 8 * s.itemWords p
          let r := s.copyItem e w p
          if r.2 then r.1.copySheet e w past k p (p + len) else (r.1, false)

/-- The first block that ENGINE_COPY reads: of the item whose copy record is completed, else of the sheet that is parsed. -/
def State.copyBlock (s : State) (w : Nat) : Nat :=
  match s.copyRecs.find? fun r => r.ward == w with
  | some r => r.src
  | none => (s.collOf w).parsing.headD 0 * sheetBytes

/-- ENGINE_COPY: an engine parses a condemned sheet and copies its marked items; copy records are completed first. -/
def execEngineCopy : Routed (Fin 16) → State → Out
  | ⟨e, m⟩, s =>
  match s.engineWard e.val with
  | none => .next s
  | some w =>
    let k := s.collOf w
    if !s.engineOn e.val w || !(k.phase == .evacuate || k.phase == .finish) then .next s
    else s.engineMeets e.val w (s.copyBlock w) m fun s =>
      match s.copyRecs.find? fun r => r.ward == w with
      | some r => (s.engineCopy e.val w r.src).1
      | none =>
        match k.parsing with
        | [] => s
        | h :: _ =>
          let base := h * sheetBytes
          let r := s.copySheet e.val w (base + sheetBytes) (sheetBytes / 4) (base + sheetBytes) base
          if r.2 then r.1.modColl w fun k => { k with parsing := k.parsing.filter fun x => x != h } else r.1

/-! ### Zero fill (R377) -/

/-- RELEASING sheets of a ward that are not yet filled. -/
def State.releasing (s : State) (w : Nat) : List Nat :=
  (upFrom 0 8192).filter fun h => s.sheetWard h == some w && s.sheetState h == shReleasing && !s.isBad h
    && !(s.collOf w).zeroed.contains h

/-- The card bytes of a line of the card table take 0xFF. -/
def State.clearCards (s : State) (l : Nat) : State := (upFrom 0 8).foldl (fun s i => s.writeMeta (l + 8 * i) 0xFFFFFFFFFFFFFFFF) s

/-- A line takes RAW zero. -/
def State.zeroLine (s : State) (l : Nat) : State := (s.putPairs l (List.replicate 8 (some Word.rawZero))).changed l none

/-- The lines of a sheet, and those of its cards. -/
def sheetLines (h : Nat) : List Nat := linesFrom (h * sheetBytes) (sheetBytes / 64)
def cardLines (h : Nat) : List Nat := linesFrom (cardBase + h * sheetBytes / 512) (sheetBytes / 512 / 64)

/-- A sheet filled with RAW zero, and its cards, as the engine's requests are granted (R354, R377). -/
def State.zeroSheet (s : State) (e h : Nat) : State :=
  let ls := s.granted e .write (sheetLines h)
  (((s.granted e .write (cardLines h)).foldl State.clearCards (ls.foldl State.zeroLine s))).count (544 + e) 2 (64 * ls.length)

/-- ZERO_FILL: the lowest RELEASING sheet; it is FREE from the next boundary, or BAD where a block was denied (R354, R377, R395,
R401). -/
def execZeroFill : Routed (Fin 16) → State → Out
  | ⟨e, m⟩, s =>
  match s.engineWard e.val with
  | none => .next s
  | some w =>
    match s.releasing w with
    | [] => .next s
    | h :: _ =>
      if !s.engineOn e.val w || !s.roomFor 525400 then .next s
      else s.engineMeets e.val w (h * sheetBytes) m fun s =>
        let no := s.deniedLines e.val .write (sheetLines h) ++ s.deniedLines e.val .write (cardLines h)
        let t := s.zeroSheet e.val h
        if no.isEmpty then t.modColl w fun k => { k with zeroed := k.zeroed ++ [h] }
        else (t.engineDeniedAll e.val w no).setBad e.val w h

end Sys2Proof.Machine
end

