-- ==== Sys2Proof/Machine/CollectorCycle.lean ====
section
/-! DEFINITION. What the collector does at a stroke boundary (R370 to R380, R399, R401): cycles start, roots are taken, MARK
ends with RELEASE, SELECT and the flip, EVACUATE ends. -/

namespace Sys2Proof.Machine

/-- The sheets of a ward, and those in one state. -/
def State.sheetsOf (s : State) (w : Nat) : List Nat := (upFrom 0 8192).filter fun h => s.sheetWard h == some w
def State.sheetsIn (s : State) (w st : Nat) : List Nat := (s.sheetsOf w).filter fun h => s.sheetState h == st
/-- FREE sheets that nothing has been promised. -/
def State.freeSheetsOf (s : State) (w : Nat) : List Nat := (s.sheetsIn w shFree).filter fun h => !(s.collOf w).handed.contains h

/-- Context keys 1–31 of the ward's nibs. -/
def State.wardCtxs (s : State) (w : Nat) : List (Nat × Nat) :=
  (s.wardNibs w).flatMap fun n => (upFrom 1 31).map fun c => (n, c)

/-- The second and third items of R371: every group unfetched, routines forgotten. -/
def Context.flipped (x : Context) : Context :=
  let off (m : MicroSlot) : MicroSlot := { m with valid := false, routine := none }
  let noPend (v : SaveSet) : SaveSet := { v with st := setBit v.st 7 false }
  let y := { x with unfetched := 0x3FFFF, slotU := off x.slotU, slotS := off x.slotS, slotD := off x.slotD, slotM := off x.slotM,
                    saveS := noPend x.saveS, saveD := noPend x.saveD, saveM := noPend x.saveM, st := setBit x.st 7 false,
                    routine := none }
  (((((y.touch 0).touch 2).touch 3).touch 4).touch 5).touch 6

def State.flipCtxs (s : State) (w : Nat) : State :=
  (s.wardCtxs w).foldl (fun s k => s.modCtx k.1 k.2 Context.flipped) s

/-- The traced words of a queue, each on the grey queue; a CAP.LO with the CAP.HI after it (R371). -/
def State.greyQueue (s : State) (w : Nat) : List Word → State
  | [] => s
  | x :: r => (if isTraced x then s.pushGrey w (.word x (if x.typ = Ty.capLo then r.headD Word.rawZero else Word.rawZero)) else s).greyQueue w r

/-- Words taken as roots that are held outside the register groups: queues, SPILLCAP, frames (R371, R372). -/
def State.shadeCtx (s : State) (w : Nat) (x : Context) : State :=
  let s := (s.greyQueue w x.queue).shadeWord none w x.spillLo x.spillHi
  x.frames.foldl (fun s f => s.shadePairs none w f.words) s

/-- Every descriptor of a sheet of the ward that holds items begins the cycle afresh, also one that nothing will mark (DEDUCED from R211:
such a sheet is eligible again, log 67); a FREE sheet's keeps the cycle it was last in, so that an arena made of it in MARK is not
eligible at that MARK's end (R209, R378). -/
def State.clearMarks (s : State) (w : Nat) : State :=
  ((s.sheetsOf w).filter fun h => s.sheetState h == shArena || s.sheetState h == shFull || s.sheetState h == shCondemned).foldl
    (fun s h =>
      ((s.setDesc h 0 (s.desc h 0 &&& ~~~(0xA#64))).setDesc h 1 0).setDesc h 2 (BitVec.ofNat 64 (s.collOf w).cycle)) s

/-- The marks of items still queued are undone: they are white again (R376, R399; DEDUCED: an item left grey would never be scanned,
log 72). -/
def State.ungrey (s : State) (w : Nat) : State :=
  (s.collOf w).grey.foldl (fun s g => match g with
    | .rescan _ => s
    | .word x hi => match (s.boundItem w x hi).1.bind (s.heapAt w) with
      | none => s
      | some a => if (s.word a).col = 3 then s.putLocked a { s.word a with col := 0 } else s) s

/-- The root boundary that begins MARK (R371), or begins it again (R376). -/
def State.rootBoundary (s : State) (w : Nat) (again : Bool) : State :=
  let s := s.ungrey w
  let k := s.collOf w
  let markc : BitVec 2 := if k.markc = 1 then 2 else 1
  let s := s.modColl w fun k =>
    { k with
      phase := .mark
      markc := markc
      cycle := if again then k.cycle else (k.cycle + 1) % 2 ^ 32
      consv := k.consv || again
      restart := false
      grey := []
      scans := []
      live := 0
      roots := [] }
  let s := (s.clearMarks w).flipCtxs w
  let cs := s.wardCtxs w
  let s := s.modColl w fun k => { k with roots := cs.flatMap fun p => (upFrom 0 18).map fun g => (key p.1 p.2, g) }
  cs.foldl (fun s p => s.shadeCtx w (s.ctx p.1 p.2)) s

/-- A cycle starts in a mode (R397, R398): FINISH first when a frozen set exists. -/
def State.startCycle (s : State) (w mode : Nat) : State :=
  let s := s.modColl w fun k => { k with mode := mode, start := none, copied := 0, releasedSheets := 0, live := 0 }
  if (s.collOf w).frozen then
    let set := (s.sheetsIn w shCondemned).filter fun h => !s.isBad h
    s.modColl w fun k => { k with phase := .finish, parsing := set }
  else s.rootBoundary w false

/-! ### The boundary that ends MARK (R375, R377 to R379) -/

/-- MARK is complete (R375). -/
def State.markDone (s : State) (w : Nat) : Bool :=
  let k := s.collOf w
  k.phase == .mark && k.roots.isEmpty && k.grey.isEmpty && k.scans.isEmpty && !k.restart
    && (s.wardNibs w).all fun n => (s.nib n).shade.isEmpty

/-- The condemned maps of the ward's nibs. -/
def State.setCondemned (s : State) (w : Nat) (f : List Nat → List Nat) : State :=
  (s.wardNibs w).foldl (fun s n => s.modNib n fun b => { b with condemned := f b.condemned }) s

/-- The sheets of the LARGE run whose first sheet is h. -/
def State.runOfSheets (s : State) (w h : Nat) : List Nat :=
  (upFrom (s.sheetV h) (s.sheetRun h)).filterMap fun v => s.sheetAtV w v

/-- RELEASE (R377). -/
def State.release (s : State) (w : Nat) : State :=
  let k := s.collOf w
  let gone := (s.sheetsIn w shCondemned).filter fun h => !s.isBad h
  let runs := (s.sheetsIn w shFull).filter fun h =>
    sheetLarge s h && s.sheetRun h != 0 && (s.word (h * sheetBytes)).col != k.markc
      && (s.runOfSheets w h).all fun x => !s.pinned w x && !s.isBad x
  let all := gone ++ runs.flatMap fun h => s.runOfSheets w h
  let arenas := (s.sheetsIn w shArena).filter fun h => !s.pinned w h
  let vs := gone.map s.sheetV
  let s := all.foldl (fun s h => s.setSheetState h shReleasing) s
  let s := arenas.foldl (fun s h => s.setSheetState h shFull) s
  let s := s.setCondemned w fun m => m.filter fun v => !vs.contains v
  s.modColl w fun k => { k with releasedSheets := k.releasedSheets + all.length }

/-- Sheets by rising LIVE, then by rising VSHEET. -/
def insertSheet (le : Nat → Nat → Bool) (h : Nat) : List Nat → List Nat
  | [] => [h]
  | x :: xs => if le h x then h :: x :: xs else x :: insertSheet le h xs

/-- The sheets condemned while the three conditions of R378 hold. -/
def takeCondemned (live : Nat → Nat) (occ copy free : Nat) : Nat → List Nat → List Nat
  | _, [] => []
  | tot, h :: hs =>
    let t := tot + live h
    if live h * 100 ≤ occ * sheetBytes ∧ t ≤ copy ∧ (t + 29360127) / 29360128 ≤ free then
      h :: takeCondemned live occ copy free t hs
    else []

/-- SELECT (R378, R398). -/
def State.select (s : State) (w : Nat) : State :=
  let k := s.collOf w
  let live (h : Nat) : Nat := (s.desc h 1).toNat
  let le (a b : Nat) : Bool := decide (live a < live b) || (live a == live b && decide (s.sheetV a ≤ s.sheetV b))
  let ok := (s.sheetsIn w shFull).filter fun h =>
    s.sheetKind h == 0 && !(s.desc h 0).getLsbD 3 && s.desc h 2 == BitVec.ofNat 64 k.cycle
  let order := ok.foldl (fun l h => insertSheet le h l) []
  let free := s.freeSheetsOf w
  let occ := if k.mode = 1 then 100 else (s.ward w).envField 4 1
  let set := if k.mode = 2 then [] else takeCondemned live occ ((s.ward w).envField 8 2 * 0x4000000) free.length 0 order
  let tot := set.foldl (fun t h => t + live h) 0
  let copies := free.take ((tot + 29360127) / 29360128)
  let s := set.foldl (fun s h => s.setSheetState h shCondemned) s
  let s := copies.foldl (fun s h => ((s.setSheetState h shCopy).setDesc h 3 0)) s
  s.modColl w fun c => { c with parsing := set }

/-- The end of MARK and the flip to EVACUATE. -/
def State.endMark (s : State) (w : Nat) : State :=
  let s := s.modColl w fun k => { k with consv := false }
  let s := (s.release w).select w
  let vs := ((s.collOf w).parsing).map s.sheetV
  let s := s.setCondemned w fun m => m ++ vs.filter fun v => !m.contains v
  let s := s.modColl w fun k => { k with phase := .evacuate }
  s.flipCtxs w

/-! ### The boundary that ends EVACUATE or FINISH (R380) -/

/-- Filled sheets become FREE (R377, R401). -/
def State.freeSheets (s : State) (w : Nat) : State :=
  let zs := (s.collOf w).zeroed
  let s := zs.foldl (fun s h => (s.setSheetState h shFree).setDesc h 0 (setBits (setBits (s.desc h 0) 60 4 shFree) 16 14 0)) s
  s.modColl w fun k => { k with zeroed := [] }

def State.evacDone (s : State) (w : Nat) : Bool :=
  let k := s.collOf w
  (k.phase == .evacuate || k.phase == .finish) && k.parsing.isEmpty && !(s.copyRecs.any fun r => r.ward == w)
    && (s.sheetsIn w shReleasing).isEmpty

/-- COPY sheets become FULL, chunks in them are given up, DONE sets; after FINISH, MARK begins. -/
def State.endEvac (s : State) (w : Nat) : State :=
  let copies := s.sheetsIn w shCopy
  let s := { s with chunks := s.chunks.filter fun c => !copies.contains (sheetOf c.2.1) }
  let s := copies.foldl (fun s h => s.setSheetState h shFull) s
  let fin := (s.collOf w).phase == .finish
  let s := s.modColl w fun k => { k with phase := .idle, frozen := false, events := k.events ||| 1 }
  if fin then s.rootBoundary w false else s

/-- Sheets that SPAWN handed out become ARENA (R401, Table 10-2). -/
def State.arenaSheets (s : State) (w : Nat) : State :=
  let hs := (s.collOf w).handed
  (hs.foldl (fun s h => s.setSheetState h shArena) s).modColl w fun k => { k with handed := [] }

/-! ### One boundary of a ward's collector (R370, R376, R399) -/

/-- CANCEL of a cycle (Table 10-9). -/
def State.cancelCycle (s : State) (w : Nat) : State :=
  match (s.collOf w).phase with
  | .mark => (s.ungrey w).modColl w fun k => { k with phase := .idle, consv := true, grey := [], roots := [], scans := [], restart := false, susp := false }
  | .idle => s
  | _ => s.modColl w fun k => { k with phase := .idle, frozen := true, parsing := [], susp := false }

/-- Phase changes of a ward at a boundary. A suspended MARK restarts only on RESUME. -/
def State.collBoundary (s : State) (w : Nat) : State :=
  let s := (s.freeSheets w).arenaSheets w
  let k := s.collOf w
  let stopped := k.susp || k.shedSusp
  if k.phase == .mark && k.restart && !stopped then s.rootBoundary w true
  else if s.markDone w && !stopped then s.endMark w
  else if s.evacDone w && !stopped then s.endEvac w
  else match k.phase, k.start with
    | .idle, some m => s.startCycle w m
    | _, _ => s

/-- COL registers as the boundary leaves them (Table 10-10). -/
def State.publishColl (s : State) (w : Nat) : State :=
  let k := s.collOf w
  let b := window w + 0x4000
  let ph := match k.phase with
    | .idle => 0
    | .mark => 1
    | .evacuate => 2
    | .finish => 3
  let rel := !(s.sheetsIn w shReleasing).isEmpty
  let st := ph * 2 ^ 28 + b2n (k.susp || k.shedSusp) * 2 ^ 27 + b2n k.frozen * 2 ^ 26 + b2n k.consv * 2 ^ 25 + b2n rel * 2 ^ 24
    + k.markc.toNat * 2 ^ 22 + k.engines * 65536
  let s := s.setReg b (BitVec.ofNat 32 st)
  let s := s.setReg (b + 4) (BitVec.ofNat 32 k.cycle)
  let s := s.setReg (b + 8) (BitVec.ofNat 32 ((s.sheetsIn w shCondemned).length * 65536 + (s.sheetsIn w shFree).length))
  let s := s.setReg (b + 0xC) (BitVec.ofNat 32 (k.copied / 65536))
  let s := s.setReg (b + 0x14) (BitVec.ofNat 32 (s.errNext % 65536))
  (s.setFlags (b + 0x10) k.events).modColl w fun k => { k with events := 0 }

end Sys2Proof.Machine
end

