-- ==== Sys2Proof/Machine/RingHub.lean ====
section
/-! DEFINITION. Rings in the hub (R469 to R485, R500, R501): doorbells and descriptors, exchange areas, completion records and
their release, ring configuration at a boundary, inputs and their journal (R414, R444). -/

namespace Sys2Proof.Machine

/-! ### Device writes (R430, R432, R483) -/

/-- A word that no nib writes goes to memory: logged, watched, held when the log has no room (R430, R432). -/
def State.putDevice (s : State) (pa : Nat) (x : Word) : State := s.writeOr pa (.word x .exact)

/-- A device write of a word by a port for a ward, asked on its lane (R19, R483). -/
def State.devWrite (s : State) (p w pa : Nat) (x : Word) : State :=
  if s.rubAllows (hostAsker p w) .write pa then s.putDevice pa x else s.laneDenied (12 + p) pa true

/-- Words at pa, pa + 8, … of one line. -/
def State.putDevices (s : State) (pa : Nat) : List Word → State
  | [] => s
  | x :: xs => (s.putDevice pa x).putDevices (pa + 8) xs

/-- A device write of words of one line: one request, which the lane answers whole (R20, R349). -/
def State.devWrites (s : State) (p w pa : Nat) (xs : List Word) : State :=
  if s.rubAllows (hostAsker p w) .write pa then s.putDevices pa xs else s.laneDenied (12 + p) pa true

/-- A device read of a word on the port's lane, as it stands at its inkwell; a denied block reads as zero with poison (Table 09-9). -/
def State.devRead (s : State) (p w pa : Nat) : State × Word :=
  if s.rubAllows (hostAsker p w) .read pa then (s.inkRead (lineOf pa), s.word pa)
  else (s.laneDenied (12 + p) pa false, Word.mk0 Ty.poison 0)

/-- The 64-bit words of a byte string as RAW words. -/
def rawWords : Nat → List Byte → List Word
  | 0, _ => []
  | k + 1, bs => Word.rawOf (BitVec.ofNat 64 (leNat (bs.take 8))) :: rawWords k (bs.drop 8)

/-! ### Inputs and the journal (R414, R444) -/

def State.journalOf (s : State) (p : Nat) : List JInput := mget (fun _ => []) s.journal p
def State.noteInput (s : State) (p : Nat) (j : JInput) : State :=
  { s with journal := mput (fun _ => []) s.journal p (s.journalOf p ++ [j]) }
def State.laterInput (s : State) (p : Nat) (j : JInput) : State :=
  { s with nextInputs := mput (fun _ => []) s.nextInputs p (mget (fun _ => []) s.nextInputs p ++ [j]) }

/-- Inputs are taken into the attempt that is open (R414). -/
def State.takesInput (s : State) : Bool := s.stroke.phase == .opened

/-- The link runs in 256-byte flit mode, which serves at 32 and 64 GT/s alone (R457; a link at these rates is taken to run in it, DESIGN
CHOICE, log 80). -/
def Port.flit (k : Port) : Bool := k.up && decide (5 ≤ k.speed.toNat)

/-- Command data moves by CXL.cache (R458). -/
def Port.caches (k : Port) : Bool := k.flit && k.ccache

/-- Reads of command data. -/
def HostPurpose.isData : HostPurpose → Bool
  | .op _ _ _ => true
  | .envelope _ => true
  | _ => false

/-- The device asks a host for bytes. -/
def State.askHost (s : State) (p addr len : Nat) (why : HostPurpose) : State :=
  { s with hostReads := s.hostReads ++ [{ port := p, addr := addr, len := len, why := why, cache := (s.port p).caches && why.isData }] }

/-- A transfer of a port holds a host's line (R459). -/
def HostRead.holds (h : HostRead) (p : Nat) (line : BitVec 64) : Bool :=
  h.port == p && h.cache && decide (h.addr / 64 ≤ line.toNat / 64) && decide (line.toNat / 64 ≤ (h.addr + h.len - 1) / 64)

/-- Snoops of lines that no transfer holds any more are answered (R459). -/
def State.freeSnoops (s : State) (p : Nat) : State :=
  let held (l : BitVec 64) : Bool := s.hostReads.any fun h => h.holds p l
  let free := (s.port p).snoops.filter fun l => !held l
  free.foldl (fun s l => s.emit (.snoopInvalid p l)) (s.modPort p fun k => { k with snoops := k.snoops.filter held })

/-! ### Exchange areas (R480, R481) -/

def State.xword (s : State) (k : Ring) (o : Nat) : Word := s.word (k.xpa + o)
def Ring.size (k : Ring) : Nat := 2 ^ k.sqlog

/-- Indices that may be fetched now: up to the tail, and on a service ring below CONSUMED + 64. -/
def Ring.fetchable (k : Ring) (r consumed : Nat) : List Nat :=
  let n := (k.tail + k.size - k.marked) % k.size
  let idx := (upFrom k.marked n).map fun i => i % k.size
  if r = 0 then idx else idx.filter fun i => decide ((i + k.size - consumed % k.size) % k.size < 64)

/-- The port fetches every descriptor that it may, and marks the slots it will fill (R481); in D3hot its rings pause (R461). -/
def State.fetchMore (s : State) (w r : Nat) : State :=
  let k := s.ring w r
  if !k.en || (s.port k.port).d3 then s
  else
    let c := if r = 0 then (s, Word.rawZero) else s.devRead k.port w (k.xpa + 0x2008)
    let idx := k.fetchable r c.2.pay.toNat
    let s := c.1.modRing w r fun k =>
      { k with marked := (k.marked + idx.length) % k.size, pendSlots := if r = 0 then [] else k.pendSlots ++ idx }
    idx.foldl (fun s i => s.askHost k.port (k.sq + 64 * i) 64 (.desc w r i)) s

/-! ### Doorbells (R474 to R476) -/

/-- An accepted doorbell reaches the device: the tail, the slots' marks, TAIL, the wake event (R30, R31, R476, R481). -/
def State.deliverBell (s : State) (w r tail : Nat) : State :=
  let k := s.ring w r
  if !k.en then s
  else
    let s := (s.modRing w r fun k => { k with tail := tail }).noteInput k.port (.doorbell w r tail)
    let s := s.fetchMore w r
    if r = 0 then s
    else { s.devWrite k.port w (k.xpa + 0x2000) (Word.rawOf (BitVec.ofNat 64 tail)) with doorEvents := s.doorEvents ++ [(w, r, tail)] }

/-- A doorbell value that passes R475, or its fate. -/
def State.bell (s : State) (p w r : Nat) (v : BitVec 32) : State :=
  let k := s.ring w r
  let tail := bits v 0 16
  let s := s.count (580 + p) 0
  if !k.en then s
  else if k.size ≤ tail then s.ringError w r 1 8
  else if v.extractLsb' 16 16 ≠ 0 then s
  else if (s.port p).d3 then s.modPort p fun q => { q with heldBells := q.heldBells ++ [(r, tail)] }
  else if s.takesInput then s.deliverBell w r tail
  else if s.stroke.phase == .failed then s
  else s.laterInput p (.doorbell w r tail)

/-- The check of a doorbell or completion head on the port's lane (R474). -/
def State.bellDenied (s : State) (p w : Nat) : Bool := !s.rubAllows (hostAsker p w) .write (window w + 0x2000)

/-- The ring's fetches under way end. -/
def HostPurpose.isDesc (y : HostPurpose) (w r : Nat) : Bool :=
  match y with
  | .desc v q _ => v == w && q == r
  | _ => false

/-- A ring is disabled with a RESULT (R472). -/
def State.disableRing (s : State) (w r : Nat) (res : BitVec 4) : State :=
  { (s.setReg (ringKey w r 4) 0).modRing w r fun k => { k with en := false, result := res, pendSlots := [] } with
    hostReads := s.hostReads.filter fun h => !h.why.isDesc w r }

/-! ### Completion records (R478, R479, R500, R501) -/

/-- Bytes of a record (Table 12-9). -/
def recordBytes (k : Ring) (r : RecordOut) : List Byte :=
  leBytes 4 r.tag.toNat ++ leBytes 2 k.head ++ [r.status]
    ++ [(r.flags &&& 0xFE) ||| (if k.phase then 1 else 0)] ++ leBytes 8 r.result.toNat

/-- The completion ring of a record has room (R479). -/
def Ring.roomFor (k : Ring) : Bool := (k.cqTail + 1) % 2 ^ k.cqlog != k.cqHead

/-- A record goes to the host's completion ring. -/
def State.writeRecord (s : State) (r : RecordOut) : State :=
  let k := s.ring r.ward r.ring
  let s := s.emit (.write k.port (k.cq + 16 * k.cqTail) (recordBytes k r) false)
  let s := s.modRing r.ward r.ring fun k =>
    { k with cqTail := (k.cqTail + 1) % 2 ^ k.cqlog, phase := if k.cqTail + 1 = 2 ^ k.cqlog then !k.phase else k.phase }
  s.count (580 + k.port) 7

/-- Released records leave in order, each when its ring has room; the rings whose written records ask for an interrupt. -/
def State.drainStaging : List Staged → State → List Staged → List (Nat × Nat) → State × List Staged × List (Nat × Nat)
  | [], s, keep, irqs => (s, keep, irqs)
  | .record r :: rest, s, keep, irqs =>
    let blocked := keep.any fun x => match x with
      | .record q => q.ward == r.ward && q.ring == r.ring
      | _ => false
    if r.released && !blocked && (s.ring r.ward r.ring).roomFor && !(s.port (s.ring r.ward r.ring).port).d3 then
      let irqs := if r.flags.getLsbD 2 && !irqs.contains (r.ward, r.ring) then irqs ++ [(r.ward, r.ring)] else irqs
      State.drainStaging rest (s.writeRecord r) keep irqs
    else State.drainStaging rest s (keep ++ [.record r]) irqs
  | x :: rest, s, keep, irqs => State.drainStaging rest s (keep ++ [x]) irqs

/-- A port can send an interrupt. -/
def State.canSignal (s : State) (p : Nat) : Bool := (s.port p).up && (s.port p).msix && !(s.port p).d3

/-- Every released record that has room is written, and one message follows per ring (R501). -/
def State.sendRecords (s : State) : State :=
  let r := State.drainStaging s.staging s [] []
  let s := { r.1 with staging := r.2.1 }
  r.2.2.foldl (fun s k =>
    let g := s.ring k.1 k.2
    if g.vec ≠ 0x7F ∧ s.canSignal g.port then s.emit (.msix g.port g.vec) else s) s

/-- What a port initiates leaves it; in D3hot it waits for D0 (R461). -/
def State.portSend (s : State) (p : Nat) (o : HostOut) : State :=
  if (s.port p).d3 then s.modPort p fun k => { k with heldOut := k.heldOut ++ [o] } else s.emit o

/-- Command data leaves by its port, by WrCur while CXL.cache is enabled (R458). -/
def State.portWrite (s : State) (p a : Nat) (bs : List Byte) (poison : Bool) : State :=
  s.portSend p (if (s.port p).caches then .wrCur p a bs poison else .write p a bs poison)

/-- At a commit every staged write and record of the attempt is released (R416, R500). -/
def State.releaseStaging (s : State) : State :=
  let s := s.staging.foldl (fun s x => match x with
    | .data p a bs poison => s.portWrite p a bs poison
    | .record _ => s) s
  let keep := s.staging.filterMap fun x => match x with
    | .record r => some (.record { r with released := true })
    | .data _ _ _ _ => none
  { s with staging := keep }.sendRecords

/-! ### Collection of posted records (R484, R485) -/

/-- Records from the slots of a service ring, oldest first. -/
def State.postedFrom (s : State) (w r : Nat) (k : Ring) : Nat → Nat → State × List RecordOut
  | _, 0 => (s, [])
  | i, n + 1 =>
    let a := s.devRead k.port w (k.xpa + 0x1000 + 16 * (i % 256))
    let b := a.1.devRead k.port w (k.xpa + 0x1008 + 16 * (i % 256))
    let rest := b.1.postedFrom w r k (i + 1) n
    (rest.1, { ward := w, ring := r, tag := a.2.pay.setWidth 32, status := a.2.pay.extractLsb' 48 8, flags := a.2.pay.extractLsb' 56 8,
               result := b.2.pay } :: rest.2)

/-- Records in a port's staging, which holds 65,536 (R500). -/
def State.stagedRecords (s : State) (p : Nat) : Nat :=
  (s.staging.filter fun x => match x with
    | .record r => (s.ring r.ward r.ring).port == p
    | .data _ _ _ _ => false).length

/-- One service ring at a commit: bad POSTED disables it, else its new records are staged as released, as far as staging has room; the
others are collected at a later commit (R500). -/
def State.collectRing (s : State) (w r : Nat) : State :=
  let k := s.ring w r
  if r = 0 || !k.en then s
  else
    let p := s.devRead k.port w (k.xpa + 0x2010)
    let n := p.2.pay.toNat
    if p.2.typ ≠ Ty.fixnum ∨ n < k.relCount ∨ k.relCount + 256 < n then
      (p.1.disableRing w r 5).ringError w r 2 8
    else
      let m := min (n - k.relCount) (65536 - s.stagedRecords k.port)
      let rs := p.1.postedFrom w r k k.relCount m
      let out := rs.2.map fun x => Staged.record { x with released := true }
      { rs.1 with staging := rs.1.staging ++ out }.modRing w r fun k => { k with relCount := k.relCount + m }

/-- The port writes RELEASED of every enabled service ring whose area does not show it. -/
def State.writeReleased (s : State) : State :=
  s.rings.foldl (fun s e =>
    let w := e.1 / 64
    let k := s.ring w (e.1 % 64)
    let v := Word.rawOf (BitVec.ofNat 64 k.relCount)
    if e.1 % 64 ≠ 0 ∧ k.en ∧ s.xword k 0x2018 ≠ v then s.devWrite k.port w (k.xpa + 0x2018) v else s) s

/-! ### Ring configuration (R471, R472) -/

/-- The level-1 table of a ward's nibs, or what the executive keeps for a ward with none. -/
def State.rootOf (s : State) (w : Nat) : Nat :=
  match (s.wardNibs w).head? with
  | some n => s.xlRoot n
  | none => Config.wardRoot w

/-- A ward's translation as the hub walks it for a port (R487): an entry, or a failure with the block it was denied. The walk reads on the
port's lane with the executive's mask bit, as a nib's walk does on the nib's (DEDUCED, log 31). -/
def State.wardWalk (s : State) (p w va : Nat) : Except (Option Nat) TlbEnt :=
  match walkFrom s { lane := 12 + p, bit := mExe, fall := true } w va 3 1 (s.rootOf w) with
  | .ok r => .ok r.1
  | .error t => .error t.deny

/-- A hub walk that the Rubric stopped is a denial (R349). -/
def State.walkDenied (s : State) (p : Nat) (d : Option Nat) : State :=
  match d with
  | some a => s.laneDenied (12 + p) a false
  | none => s

/-- A ring's fields as a boundary finds them: captured values over the active ones. -/
def ringField (s : State) (vals : Map (BitVec 32)) (w r o : Nat) : BitVec 32 :=
  ((vals.find? fun e => e.1 == ringKey w r o).map Prod.snd).getD (s.reg32 (ringKey w r o))

/-- The ring that fields describe. -/
def ringOf (s : State) (v : Map (BitVec 32)) (w r : Nat) : Ring :=
  let f := ringField s v w r
  { en := (f 4).getLsbD 0, sq := (f 8).toNat + 2 ^ 32 * (f 0xC).toNat, cq := (f 0x10).toNat + 2 ^ 32 * (f 0x14).toNat,
    sqlog := bits (f 0x18) 0 4, cqlog := bits (f 0x18) 8 5, vec := bits (f 0x1C) 17 7, port := bits (f 0x1C) 14 3,
    wcn := bits (f 0x1C) 0 14, xva := bits (f 0x20) 14 18 * 16384 + 2 ^ 32 * bits (f 0x24) 0 16 }

/-- Every block of an exchange area lies in entries that grant the port's ward bit R and W. -/
def State.areaOk (s : State) (w p a : Nat) : Bool :=
  (upFrom 0 256).all fun i => s.rubAllows (hostAsker p w) .read (a + 64 * i) && s.rubAllows (hostAsker p w) .write (a + 64 * i)

/-- An enabled ring q of the ward stays enabled at this boundary: no captured field disables it. -/
def State.stays (s : State) (vals : Map (BitVec 32)) (w q : Nat) : Bool := (s.ring w q).en && (ringField s vals w q 4).getLsbD 0

/-- The checks of Table 12-6: a RESULT on failure, or the ring with its exchange area. The other rings are as the boundary leaves them:
fields of one APPLY act together (R453). -/
def State.ringCheck (s : State) (vals : Map (BitVec 32)) (w r : Nat) (k : Ring) : Except (BitVec 4) Ring :=
  let fieldsOk := decide (4 ≤ k.sqlog) && decide (k.sqlog ≤ 12) && decide (4 ≤ k.cqlog) && decide (k.cqlog ≤ 16)
    && k.sq % 64 == 0 && k.cq % 16 == 0 && ((decide (1 ≤ k.vec) && decide (k.vec ≤ 64)) || k.vec == 0x7F)
  let other := (upFrom 1 63).any fun q => q != r && s.stays vals w q && (s.ring w q).wcn == k.wcn
  if !fieldsOk then .error 2
  else if s.bound k.port ≠ some w then .error 3
  else if r = 0 then .ok k
  else if (s.wcnAt w (BitVec.ofNat 64 k.wcn)).isNone || other then .error 3
  else match s.wardWalk k.port w k.xva with
    | .error _ => .error 4
    | .ok t =>
      let a := t.pa k.xva
      if t.dev || !t.c || !s.areaOk w k.port a then .error 4 else .ok { k with xpa := a }

/-- Fields of a ring but EN are the same. -/
def sameRing (a b : Ring) : Bool :=
  a.sq == b.sq && a.cq == b.cq && a.sqlog == b.sqlog && a.cqlog == b.cqlog && a.vec == b.vec && a.port == b.port
    && a.wcn == b.wcn && a.xva == b.xva

/-- The offsets of a ring's staged registers. -/
def ringOffsets : List Nat := [4, 8, 0xC, 0x10, 0x14, 0x18, 0x1C, 0x20, 0x24]

/-- Captured fields of a ring become active. -/
def State.takeRingRegs (s : State) (vals : Map (BitVec 32)) (w r : Nat) : State :=
  ringOffsets.foldl (fun s o => s.setReg (ringKey w r o) (ringField s vals w r o)) s

/-- The ward's operations that run or are suspended. -/
def Ward.busy (k : Ward) : Bool := !k.ops.isEmpty

/-- A ring at the boundary where its staged fields act (R471, R472). -/
def State.applyRing (s : State) (vals : Map (BitVec 32)) (w r : Nat) : State :=
  if !(ringOffsets.any fun o => vals.any fun e => e.1 == ringKey w r o) then s
  else
    let old := s.ring w r
    let new := ringOf s vals w r
    let refuse (c : BitVec 4) : State := s.modRing w r fun k => { k with result := c }
    if new.en && old.en then
      (if sameRing new (ringOf s [] w r) then s else refuse 2)
    else if new.en then
      match s.ringCheck vals w r new with
      | .error c =>
        let s := match s.wardWalk new.port w new.xva with
          | .error d => if c = 4 then s.walkDenied new.port d else s
          | .ok _ => s
        s.modRing w r fun k => { k with result := c }
      | .ok k => (s.takeRingRegs vals w r).modRing w r fun _ => { k with result := 1, en := true }
    else if old.en then
      (if r = 0 ∧ (s.ward w).busy then refuse 3
       else (s.takeRingRegs vals w r).disableRing w r 6)
    else s.takeRingRegs vals w r

end Sys2Proof.Machine
end

