-- ==== Sys2Proof/Machine/PcieConfig.lean ====
section
/-! DEFINITION. What a host reads of a port's configuration space (R457, R461, Table 12-2) and of BAR2 (R462, R474). Where a capability
stands, and the places of its fields, are PCIe's and CXL's (PRESUMED, log 39). -/

namespace Sys2Proof.Machine

/-- The first word of a capability: its ID, the next one's offset, its own register. -/
def capWord (id next own : Nat) : BitVec 32 := BitVec.ofNat 32 (id + next * 2 ^ 8 + own * 2 ^ 16)

/-- The first word of an extended capability: its ID, its version, the next one's offset. -/
def extCapWord (id version next : Nat) : BitVec 32 := BitVec.ofNat 32 (id + version * 2 ^ 16 + next * 2 ^ 20)

/-- The second word of a CXL DVSEC: vendor ID 0x1E98, revision and length. -/
def dvsecWord (revision length : Nat) : BitVec 32 := BitVec.ofNat 32 (0x1E98 + revision * 2 ^ 16 + length * 2 ^ 20)

/-- Registers whose contents the host writes or PCIe, CXL or the firmware image fixes: command, subsystem IDs, device and link control,
AER, the physical-layer capabilities, DOE, CXL status and the ranges' bases. -/
def configOpen (o : Nat) : Bool :=
  o == 0x2C || o == 0x50 || o == 0x78 || (0x104 ≤ o && o < 0x148) || (0x164 ≤ o && o < 0x18C) || o == 0x1A4 || o == 0x1A8
    || (0x1B4 ≤ o && o < 0x1E0) || (0x1E4 ≤ o && o < 0x210) || (0x214 ≤ o && o < 0x240) || (0x244 ≤ o && o < 0x28C)
    || (0x294 ≤ o && o < 0x2A8) || (0x310 ≤ o && o < 0x318) || o == 0x320 || o == 0x324 || o == 0x330 || o == 0x334 || (0x34C ≤ o && o < 0x360)

/-- A port's configuration space by word offset; a register that is not listed reads zero (R457). -/
def State.configWord (s : State) (p o : Nat) : BitVec 32 :=
  let k := s.port p
  let host (mask : BitVec 32) : BitVec 32 := Config.configSpace p o &&& mask
  let steward := s.boot.steward == p
  match o with
  | 0x000 => 0x96401F6C
  | 0x004 => 0x00100000 ||| host 0xFFFF
  | 0x008 => 0x12000020
  | 0x010 => 4 ||| host 0xFFFF0000
  | 0x014 => host 0xFFFFFFFF
  | 0x018 => 4 ||| host 0xFFFE0000
  | 0x01C => host 0xFFFFFFFF
  | 0x020 => if steward then 4 ||| host 0xFFF00000 else 0
  | 0x024 => if steward then host 0xFFFFFFFF else 0
  | 0x034 => 0x40
  | 0x040 => capWord 0x01 0x48 3
  | 0x044 => (if k.d3 then 3 else 0) ||| host 8
  | 0x048 => capWord 0x10 0x90 2
  | 0x04C => 0x10008002
  | 0x054 => 0x00400106
  | 0x058 => host 0xFFFF ||| BitVec.ofNat 32 (k.speed.toNat * 2 ^ 16 + (if k.wide then 16 else 8) * 2 ^ 20)
  | 0x074 => 0x7E
  | 0x090 => capWord 0x11 0 (64 + (if k.msix then 0x8000 else 0))
  | 0x094 => 0x1002
  | 0x098 => 0x1802
  | 0x100 => extCapWord 0x01 2 0x150
  | 0x150 => extCapWord 0x03 1 0x160
  | 0x154 => Config.serial.extractLsb' 0 32
  | 0x158 => Config.serial.extractLsb' 32 32
  | 0x160 => extCapWord 0x19 1 0x1A0
  | 0x1A0 => extCapWord 0x25 1 0x1B0
  | 0x1B0 => extCapWord 0x26 1 0x1E0
  | 0x1E0 => extCapWord 0x2A 1 0x210
  | 0x210 => extCapWord 0x31 1 0x240
  | 0x240 => extCapWord 0x27 1 0x290
  | 0x290 => extCapWord 0x2E 1 0x300
  | 0x300 => extCapWord 0x23 1 0x340
  | 0x304 => dvsecWord 3 0x3C
  | 0x308 => 0x00270000
  | 0x30C => BitVec.ofNat 32 ((if k.ccache then 1 else 0) + 2 + (if k.cmem then 4 else 0)) ||| host 0xFFFF0000
  | 0x318 => 0x40
  | 0x31C => 3
  | 0x328 => 0x10
  | 0x32C => 3
  | 0x340 => extCapWord 0x23 1 0x380
  | 0x344 => dvsecWord 2 0x20
  | 0x348 => 7 ||| host 0xFFFF0000
  | 0x380 => extCapWord 0x23 1 0
  | 0x384 => dvsecWord 0 0x18
  | 0x388 => 8
  | 0x390 => 0x00010102
  | _ => if configOpen o then Config.configSpace p o else 0

/-- A 4-byte read of configuration space. -/
def State.configRead (s : State) (p : Nat) (off : BitVec 12) : BitVec 32 := s.configWord p (off.toNat / 4 * 4)

/-- A doorbell that waits at its port for its ring, as the next stroke's input. -/
def JInput.bellOf (w r : Nat) : JInput → Option Nat
  | .doorbell v q t => if v = w ∧ q = r then some t else none
  | _ => none

/-- The last tail accepted of a ring: one that waits for D0, one that waits for the next stroke, or the one delivered (R474). -/
def State.lastTail (s : State) (p w r : Nat) : Nat :=
  match ((s.port p).heldBells.filter fun b => b.1 == r).getLast? with
  | some b => b.2
  | none => (((mget (fun _ => []) s.nextInputs p).filterMap (JInput.bellOf w r)).getLast?).getD (s.ring w r).tail

/-- What a 4-byte read of BAR2 through a port returns (R462, R474): a doorbell and a completion head give the last value accepted; the
MSI-X table and its pending bits are the host's, the component registers CXL's. No row of the opcode table makes such a read. -/
def State.bar2Read (s : State) (p o : Nat) : BitVec 32 :=
  let r := o % 0x800 / 8 % 64
  let ring (f : Nat → Nat) : BitVec 32 := match s.bound p with
    | some w => BitVec.ofNat 32 (f w)
    | none => 0
  if o < 0x200 ∧ o % 8 = 0 then ring fun w => s.lastTail p w r
  else if 0x800 ≤ o ∧ o < 0xA00 ∧ o % 8 = 0 then ring fun w => (s.ring w r).cqHead
  else if 0x1000 ≤ o ∧ o < 0x2000 then Config.configSpace p (0x20000 + o)
  else if 0x10000 ≤ o ∧ o < 0x20000 then Config.configSpace p (0x20000 + o)
  else 0

end Sys2Proof.Machine
end

