-- ==== Sys2Proof/Machine/HostPort.lean ====
section
/-! DEFINITION. What hosts send to a port (ch 12): doorbells, completion heads, descriptors, CXL.mem accesses, snoops,
configuration requests, link events; and blocks of the die-to-die links (R17, R18). -/

namespace Sys2Proof.Machine

/-! ### Rings -/

/-- DOORBELL (R474, R475). -/
def execDoorbell (p : Fin 8) (ring : Fin 64) (v : BitVec 32) (s : State) : Out :=
  let k := s.port p.val
  match s.bound p.val with
  | none => .next s
  | some w =>
    if !s.boot.done || !k.up then .next s
    else if s.bellDenied p.val w then .next (s.laneDenied (12 + p.val) (window w + 0x2000) true)
    else .next (s.bell p.val w ring.val v)

/-- DOORBELL_EVENT: the k-th wake event reaches context 0 of the service context's nib, which wakes the service context (R31,
R476); events for a closed or parked nib are held. -/
def execDoorbellEvent (k : Nat) (s : State) : Out :=
  match takeAt s.doorEvents k with
  | none => .next s
  | some (e, rest) =>
    let g := s.ring e.1 e.2.1
    let drop := { s with doorEvents := rest }
    match s.wcnAt e.1 (BitVec.ofNat 64 g.wcn) with
    | none => .next drop
    | some (n, c) =>
      let b := s.nib n
      if !b.active || b.parkedBy != 0 || !s.takesInput || decide (8 ≤ (s.ctx n 0).queue.length) || s.eventWaits n then .next s
      else
        let rec_ := Word.rawOf (BitVec.ofNat 64 (3 * 2 ^ 60 + e.1 * 2 ^ 56 + e.2.1 * 2 ^ 48 + e.2.2))
        let s := drop.enqueue n 0 rec_
        .next (if (s.ctx n c).state = stIdle then s else s.flagCtx n c 2)

/-- COMPLETION_HEAD (R474, R475, R500). -/
def execCompletionHead (p : Fin 8) (ring : Fin 64) (v : BitVec 32) (s : State) : Out :=
  let k := s.port p.val
  match s.bound p.val with
  | none => .next s
  | some w =>
    let g := s.ring w ring.val
    if !s.boot.done || !k.up then .next s
    else if s.bellDenied p.val w then .next (s.laneDenied (12 + p.val) (window w + 0x2000) true)
    else if 2 ^ g.cqlog ≤ v.toNat then .next (s.count (580 + p.val) 0)
    else .next (s.modRing w ring.val fun k => { k with cqHead := v.toNat }).sendRecords

/-- The journal's unused answer to a read, which a new attempt takes in place of the host's (R444). -/
def State.replayed (s : State) (p addr len : Nat) : Option (JInput × List JInput) :=
  takeFirst (fun j => match j with
    | .data a bs => a == addr && bs.length == len
    | .fail a l => a == addr && l == len
    | .doorbell _ _ _ => false) (mget (fun _ => []) s.replay p)

/-- Bytes that a read delivers into the attempt, and the journal without the answer used. -/
def State.answerOf (s : State) (p addr len : Nat) (data : Option (List Byte)) : State × Option (List Byte) :=
  match s.replayed p addr len with
  | some (.data _ bs, rest) => ({ s with replay := mput (fun _ => []) s.replay p rest }, some bs)
  | some (.fail _ _, rest) => ({ s with replay := mput (fun _ => []) s.replay p rest }, none)
  | _ => (s, data)

/-- What comes at or after the tick waits for the stroke that opens next (R414). -/
def State.defer (s : State) (h : HostRead) (data : Option (List Byte)) : State :=
  { s with hostReads := s.hostReads.map fun g => if g = h ∧ g.late.isNone then { g with late := some data } else g }

/-- An arrived descriptor goes to its slot, or to the executive (R481, R486). -/
def State.takeDesc (s : State) (w r : Nat) (bytes : List Byte) : State :=
  let k := s.ring w r
  let i := k.head
  let s := (s.noteInput k.port (.data (k.sq + 64 * i) bytes)).count (580 + k.port) 1
  let s := s.modRing w r fun k => { k with head := (k.head + 1) % k.size, pendSlots := k.pendSlots.erase i }
  if r = 0 then s.modWard w fun x => { x with cmds := x.cmds ++ [bytes] }
  else s.devWrites k.port w (k.xpa + 64 * (i % 64)) (rawWords 8 bytes)

/-- DESCRIPTOR_ARRIVAL: the next descriptor of a ring arrives; data that comes after the tick waits for the next stroke, and
the executive holds at most 64 commands (R414, R486). -/
def execDescriptorArrival (w : Fin 8) (ring : Fin 64) (bytes : List Byte) (s : State) : Out :=
  let k := s.ring w.val ring.val
  match takeFirst (fun h => h.why == .desc w.val ring.val k.head) s.hostReads with
  | none => .next s
  | some (h, rest) =>
    let full := ring.val == 0 && decide (64 ≤ (s.ward w.val).cmds.length)
    if bytes.length != 64 then .next s
    else if !s.takesInput then .next (s.defer h (some bytes))
    else if full then .next s
    else
      let r := ({ s with hostReads := rest }).answerOf h.port h.addr 64 (h.late.getD (some bytes))
      match r.2 with
      | some bs => .next (r.1.takeDesc w.val ring.val bs)
      | none => .next ((r.1.disableRing w.val ring.val 5).ringError w.val ring.val 3 8)

/-- CONSUMED_REREAD (R481). -/
def execConsumedReread (w : Fin 8) (ring : Fin 64) (s : State) : Out :=
  if s.takesInput then .next (s.fetchMore w.val ring.val) else .next s

/-! ### CXL.mem (R71 to R77, R434 to R436, R463, R464) -/

/-- The aperture is mapped and answers. -/
def State.aperture (s : State) (p : Nat) (sp : Space) : Bool :=
  let k := s.port p
  s.boot.done && k.flit && k.cmem && (match sp with
    | .payload => k.dec0.isSome
    | .tags => k.dec1.isSome)

/-- Bytes of a line's payloads, little-endian, and of its tags (R7, R71). -/
def payBytes (ws : Line) : List Byte := ws.flatMap fun w => leBytes 8 w.pay.toNat
def tagBytes (ws : Line) : List Byte := ws.flatMap fun w => leBytes 2 w.tag.toNat

/-- A line's read carries the poison indication (R73). -/
def poisoned (ws : Line) : Bool := ws.any fun w => w.typ == Ty.poison || reservedWord w

/-- A stack in self-refresh leaves it for an access (R540). -/
def State.leaveRefresh (s : State) (l : Nat) : State :=
  { s with power := { s.power with refresh := setBit s.power.refresh (stackOf l) false } }

/-- Blocks of a request from address a to past: each with its first byte and its length within it. -/
def blocksOf (a len : Nat) : List (Nat × Nat × Nat) :=
  (upFrom (a / 64) ((a % 64 + len + 63) / 64)).map fun b =>
    let lo := max a (64 * b)
    (64 * b, lo % 64, min (a + len) (64 * b + 64) - lo)

/-- A payload read block by block, up to the first denied block; blocks from there on are poison and zero (R354, Table 09-9). -/
def State.readBlocks (s : State) (p w : Nat) : Bool → List (Nat × Nat × Nat) → State
  | _, [] => s
  | stop, (l, o, n) :: rest =>
    let ok := !stop && s.rubAllows (hostAsker p w) .read l
    if ok then
      let ws := s.committed l
      let s := ((s.leaveRefresh l).inkRead l).count (580 + p) 2 n
      (s.emit (.memData p (((payBytes ws).drop o).take n) (poisoned ws))).readBlocks p w false rest
    else
      let s := if stop then s else s.deny (12 + p) l
      (s.emit (.memData p (List.replicate n 0) true)).readBlocks p w true rest

/-- A tag read block by block: each 64-byte block of tags covers four heap lines. -/
def State.readTagBlocks (s : State) (p w : Nat) : Bool → List (Nat × Nat × Nat) → State
  | _, [] => s
  | stop, (b, o, n) :: rest =>
    let ls := (upFrom (o / 16) ((o % 16 + n + 15) / 16)).map fun i => 4 * b + 64 * i
    match ls.find? fun l => !s.rubAllows (hostAsker p w) .read l with
    | some l =>
      let s := if stop then s else s.deny (12 + p) l
      (s.emit (.memData p (List.replicate n 0) true)).readTagBlocks p w true rest
    | none =>
      if stop then (s.emit (.memData p (List.replicate n 0) true)).readTagBlocks p w true rest
      else
        let all := (upFrom 0 4).flatMap fun i => tagBytes (s.committed (4 * b + 64 * i))
        let s := (ls.foldl (fun t l => (t.leaveRefresh l).inkRead l) s).count (580 + p) 2 n
        (s.emit (.memData p ((all.drop o).take n) false)).readTagBlocks p w false rest

/-- The heap lines that a request names: those of its payload blocks, or those whose tags it takes. -/
def linesNamed (sp : Space) (a len : Nat) : List Nat :=
  match sp with
  | .payload => (blocksOf a len).map (·.1)
  | .tags => (upFrom (a / 16) ((a % 16 + len + 15) / 16)).map fun i => 64 * i

/-- Replicas of the Rubric that disagree over a host's first block deny it (R355); else its lines meet the memory code (R66). -/
def State.hostMeets (s : State) (p : Nat) (ls : List Nat) (m : Meets) (go : State → State) : Out :=
  if !m.agree then .next (s.vote (12 + p) (ls.headD 0)) else .next (go (s.meet (fun l => ls.contains l) m.errs).1)

/-- HOST_MEM_READ. -/
def execHostMemRead (p : Fin 8) (sp : Space) (off : BitVec 40) : Routed Nat → State → Out
  | ⟨len, m⟩, s =>
  let k := s.port p.val
  let lim := match sp with
    | .payload => heapEnd
    | .tags => heapEnd / 4
  match s.bound p.val with
  | none => .next (if k.up then s.emit (.memUnsupported p.val) else s)
  | some w =>
    if k.changing then .next s
    else if !s.aperture p.val sp || decide (lim < off.toNat + len) then
      .next (if k.up then s.emit (.memUnsupported p.val) else s)
    else s.hostMeets p.val (linesNamed sp off.toNat len) m fun s => match sp with
      | .payload => s.readBlocks p.val w false (blocksOf off.toNat len)
      | .tags => s.readTagBlocks p.val w false (blocksOf off.toNat len)

/-- A word that host writes leave unchanged (R75). -/
def hostKeeps (w : Word) : Bool := w.typ == Ty.header || w.typ == Ty.forward || w.typ == Ty.xlate || w.typ == Ty.spill

/-- Bytes [o, o + n) of a payload replaced. -/
def putBytes (p : BitVec 64) (o : Nat) (bs : List Byte) : BitVec 64 := setBits p (8 * o) (8 * bs.length) (leNat bs)

/-- What a host write of bytes at offset o of a line leaves of word i, and whether it touches it (R74, R75). -/
def hostWord (w : Word) (i o : Nat) (bs : List Byte) : Word × Bool :=
  let lo := max (8 * i) o
  let hi := min (8 * i + 8) (o + bs.length)
  if hi ≤ lo then (w, false)
  else if hostKeeps w then (w, true)
  else (Word.rawOf (putBytes w.pay (lo - 8 * i) ((bs.drop (lo - o)).take (hi - lo))), true)

/-- A line after a host write: the pairs it touches under the broken-pair rule (R74 to R76). -/
def hostPairs (o : Nat) (bs : List Byte) : Nat → Line → Line
  | i, a :: b :: r =>
    let f := hostWord a i o bs
    let g := hostWord b (i + 1) o bs
    let q := if f.2 || g.2 then pairRule false (f.2 && hostKeeps a) (g.2 && hostKeeps b) a b f.1 g.1 else (a, b)
    q.1 :: q.2 :: hostPairs o bs (i + 2) r
  | _, r => r

/-- The words of a line that a host write drops. -/
def hostDrops (ws : Line) (o : Nat) (bs : List Byte) : List Nat :=
  (upFrom 0 8).filter fun i => (hostWord ((ws[i]?).getD Word.rawZero) i o bs).2 && hostKeeps ((ws[i]?).getD Word.rawZero)

/-- A host write changes word w at place i of its line. -/
def hostChanges (o : Nat) (bs : List Byte) (i : Nat) (w : Word) : Bool := (hostWord w i o bs).2 && !hostKeeps w

/-- Pairs of a line written without a log entry, through the write barrier (R76, R430). -/
def State.putHostPairs (s : State) (l o : Nat) (bs : List Byte) : Nat → Line → State
  | i, a :: b :: r =>
    let pa := l + 8 * i
    let o0 := s.word pa
    let o1 := s.word (pa + 8)
    let wr := (hostChanges o bs i o0, hostChanges o bs (i + 1) o1)
    let s := if o0 = a ∧ o1 = b ∧ !wr.1 ∧ !wr.2 then s else ((s.shadeOver pa false wr o0 o1 a b).putWord pa a).putWord (pa + 8) b
    s.putHostPairs l o bs (i + 2) r
  | _, _ => s

/-- Dropped words of a line: the port counts them, and the first one's address goes to the ward's error status (R75, R491). -/
def State.noteDrops (s : State) (p w l : Nat) (drops : List Nat) : State :=
  match drops with
  | [] => s
  | i :: _ => (s.count (580 + p) 4 drops.length).wardError w p 1 (l + 8 * i)

/-- A host write of one block as its inkwell applies it: the line, and the logged copy with the same effect (R435, R436). -/
def State.hostLine (s : State) (p w l o : Nat) (bs : List Byte) : State :=
  let drops := hostDrops (s.line l) o bs
  let new := hostPairs o bs 0 (s.line l)
  let s := { s with log := s.log.map fun (e : LogLine) => if e.line = l then { e with words := hostPairs o bs 0 e.words } else e }
  let s := ((s.putHostPairs l o bs 0 new).leaveRefresh l).changed l none
  (s.count (580 + p) 3 bs.length).noteDrops p w l drops

/-- A host write is applied, and its port answers (R302). -/
def State.landHost (s : State) (h : HostWrite) : State :=
  let s := h.blocks.foldl (fun s b => s.hostLine h.port h.ward b.1 b.2.1 b.2.2) s
  if (s.port h.port).up then s.emit (.memDone h.port) else s

/-- The blocks of a write with their bytes. -/
def withBytes : List (Nat × Nat × Nat) → List Byte → List (Nat × Nat × List Byte)
  | [], _ => []
  | (l, o, n) :: rest, bs => (l, o, bs.take n) :: withBytes rest (bs.drop n)

/-- A host write of the blocks before the first denied one (R354): applied when every holder of their lines has acknowledged its
invalidation, at once where none holds one (R302). -/
def State.writeBlocks (s : State) (p w : Nat) (bs : List (Nat × Nat × List Byte)) : State :=
  let may (b : Nat × Nat × List Byte) : Bool := s.rubAllows (hostAsker p w) .write b.1
  let go := bs.takeWhile may
  let s := match bs.dropWhile may with
    | [] => s
    | b :: _ => s.laneDenied (12 + p) b.1 true
  let waits := go.flatMap fun b => (s.holderNibs (s.inkEnt b.1).holders).map fun m => (m, b.1)
  let h : HostWrite := { port := p, ward := w, blocks := go, waits := waits }
  if waits.isEmpty then s.landHost h else { s with hostWrites := s.hostWrites ++ [h], invals := s.invals ++ waits }

/-- HOST_MEM_WRITE. -/
def execHostMemWrite (p : Fin 8) (off : BitVec 40) : Routed (List Byte) → State → Out
  | ⟨bytes, m⟩, s =>
  let k := s.port p.val
  match s.bound p.val with
  | none => .next (if k.up then s.emit (.memUnsupported p.val) else s)
  | some w =>
    if k.changing then .next s
    else if !s.aperture p.val .payload || decide (heapEnd < off.toNat + bytes.length) then
      .next (if k.up then s.emit (.memUnsupported p.val) else s)
    else s.hostMeets p.val (linesNamed .payload off.toNat bytes.length) m fun s =>
      s.writeBlocks p.val w (withBytes (blocksOf off.toNat bytes.length) bytes)

/-! ### Acknowledged invalidations (R294, R302) -/

/-- Host writes whose last acknowledgement has come are applied. -/
def State.releaseHosts (s : State) : State :=
  let ready := s.hostWrites.filter (·.waits.isEmpty)
  let s := { s with hostWrites := s.hostWrites.filter fun h => !h.waits.isEmpty }
  ready.foldl State.landHost s

/-- Nib stores whose last acknowledgement has come are applied, or held for want of log room. -/
def State.releaseWrites (s : State) (l : Nat) : State :=
  let ready := s.writes.filter fun w => lineOf w.ent.pa == l && w.waits.isEmpty
  let s := { s with writes := s.writes.filter fun w => !(lineOf w.ent.pa == l && w.waits.isEmpty) }
  ready.foldl (fun s w => if s.held l then s.holdStore w.nib w.ent else s.inkApply w.nib w.ent) s

/-- INVALIDATION_ACK: the k-th acknowledgement on its way reaches the inkwell. -/
def execInvalidationAck (k : Nat) (s : State) : Out :=
  match takeAt s.acks k with
  | none => .next s
  | some (p, rest) =>
    if s.resending p.1 then .next s else
    let s := { s with
      acks := rest
      hostWrites := s.hostWrites.map fun (w : HostWrite) => { w with waits := w.waits.erase p }
      writes := s.writes.map fun (w : PendWrite) => if lineOf w.ent.pa = p.2 then { w with waits := w.waits.erase p.1 } else w }
    .next (s.releaseWrites p.2).releaseHosts

/-- The heap lines whose tags a tag-aperture request names (R464). -/
def tagLines (off n : Nat) : List Nat := linesNamed .tags off n

/-- TAG_APERTURE_WRITE: completes and changes nothing; the port counts it (R77). A block that the Rubric denies is recorded, as for any host
write (R354, R464); one through a port that is bound to no ward completes and counts too (DESIGN CHOICE, log 63). -/
def execTagApertureWrite (p : Fin 8) (off : BitVec 40) (bytes : List Byte) (s : State) : Out :=
  let k := s.port p.val
  if k.changing then .next s
  else if !s.aperture p.val .tags || decide (heapEnd / 4 < off.toNat + bytes.length) then
    .next (if k.up then s.emit (.memUnsupported p.val) else s)
  else
    let denied := (s.bound p.val).bind fun w => (tagLines off.toNat bytes.length).find? fun l => !s.rubAllows (hostAsker p.val w) .write l
    let s := s.count (580 + p.val) 5
    .next ((match denied with
      | some l => s.laneDenied (12 + p.val) l true
      | none => s).emit (.memDone p.val))

/-! ### Link and configuration -/

/-- SNOOP: the answer of an invalid holder, at once or when the transfer that holds the line ends (R459). -/
def execSnoop (p : Fin 8) (line : BitVec 64) (s : State) : Out :=
  if !(s.port p.val).up then .next s
  else if s.hostReads.any fun h => h.holds p.val line then .next (s.modPort p.val fun k => { k with snoops := k.snoops ++ [line] })
  else .next (s.emit (.snoopInvalid p.val line))

/-- Writes, doorbells and rings that waited in D3hot go on at the return to D0 (R461). -/
def State.toD0 (s : State) (p : Nat) : State :=
  let k := s.port p
  let s := s.modPort p fun k => { k with d3 := false, heldBells := [], heldOut := [] }
  let s := k.heldOut.foldl State.emit s
  let s := k.heldBells.foldl (fun s b => match s.bound p with
    | none => s
    | some w => if s.takesInput then s.deliverBell w b.1 b.2 else s.laterInput p (.doorbell w b.1 b.2)) s
  let s := s.sendRecords
  if s.takesInput then s.rings.foldl (fun s e => if e.2.port = p then s.fetchMore (e.1 / 64) (e.1 % 64) else s) s else s

/-- CONFIG_REQUEST (R461, R566). -/
def execConfigRequest (p : Fin 8) (r : CfgReq) (s : State) : Out :=
  let k := s.port p.val
  if !k.up then .next s
  else if !s.boot.done then .next (s.emit (.cfgRetry p.val))
  else match r with
    | .read off => .next (s.emit (.cfg p.val (s.configRead p.val off)))
    | .dstate d3 => if d3 then .next (s.modPort p.val fun k => { k with d3 := true }) else .next (s.toD0 p.val)
    | .enables a b c => .next (s.modPort p.val fun k => { k with cio := a, ccache := b, cmem := c })
    | .msix on => .next (s.modPort p.val fun k => { k with msix := on })
    | .write _ _ => .next s

/-- HDM_DECODER_COMMIT (R463). -/
def execHdmDecoderCommit (p : Fin 8) (dec : Fin 2) (base : BitVec 64) (ways : Nat) (s : State) : Out :=
  if !(s.port p.val).up || !s.boot.done then .next s
  else
    let v := if ways = 1 then some base else none
    .next (s.modPort p.val fun k =>
      let k := { k with decErr := setBit k.decErr dec.val (ways != 1) }
      if dec.val = 0 then { k with dec0 := v } else { k with dec1 := v })

/-- What a link event does to the port itself; a reset of the function clears what the host has set. -/
def Port.lose (k : Port) (e : LinkEvent) : Port :=
  let c := { k with cio := false, ccache := false, cmem := false, d3 := false, msix := false, dec0 := none, dec1 := none,
                    decErr := 0, linkEv := true, heldBells := [], heldOut := [], snoops := [],
                    changing := false }
  match e with
  | .flr => c
  | _ => { c with up := false, speed := 0 }

/-- A port loses its host: reads through it end, and the boundary does the rest (R460). -/
def State.losePort (s : State) (p : Nat) (e : LinkEvent) : State := s.modPort p fun k => k.lose e

/-- HOST_LINK_EVENT. -/
def execHostLinkEvent (p : Fin 8) (e : LinkEvent) (s : State) : Out :=
  if (s.port p.val).up then .next (s.losePort p.val e) else .next s

/-- HOST_LINK_TRAINED: the port is up (R566). -/
def execHostLinkTrained (p : Fin 8) (wide : Bool) (speed : BitVec 4) (s : State) : Out :=
  if (s.port p.val).up || !s.domain (44 + p.val) || s.power.off || s.power.hold then .next s
  else .next (s.modPort p.val fun k => { k with up := true, wide := wide, speed := speed })

/-- PORT_WIDTH_CHANGE_DONE (R538). -/
def execPortWidthChangeDone (p : Fin 8) (s : State) : Out :=
  if (s.port p.val).changing then
    .next (s.modPort p.val fun k => { k with changing := false, wide := decide (s.power.level < 4) })
  else .next s

/-! ### Links between dies (R17, R18) -/

/-- LINK_BLOCK: good blocks pass, an error is re-sent, and a link that fails after its retries is given up by MC_LINK. -/
def execLinkBlock (leaf : Fin 4) (link : Fin 2) (fate : BlockFate) (s : State) : Out :=
  let k := linkBit leaf.val link.val
  if s.linksFailed.getLsbD k then .next s
  else match fate with
    | .good => .next { s with resend := mput (fun _ => 0) s.resend k 0 }
    | .resent => .next { s with resend := mput (fun _ => 0) s.resend k (min 64 (mget (fun _ => 0) s.resend k + 1)) }
    | .dead =>
      .next ({ s with linksFailed := setBit s.linksFailed k true, resend := mput (fun _ => 0) s.resend k 0 }.detect
        (572 + k) (.link (BitVec.ofNat 8 k)))

end Sys2Proof.Machine
end

