-- ==== Sys2Proof/Machine/Commands.lean ====
section
/-! DEFINITION. Ring 0's commands (R477, R486 to R498): when the next one starts, its field checks, operations and final
records, and the commands that move no heap words. -/

namespace Sys2Proof.Machine

/-! ### Descriptors (Table 12-8, Table 12-11) -/

/-- Status codes of Table 12-10. -/
abbrev okSuccess : BitVec 8 := 0x00
abbrev okInvalidOpcode : BitVec 8 := 0x01
abbrev okInvalidField : BitVec 8 := 0x02
abbrev okDenied : BitVec 8 := 0x03
abbrev okHostFault : BitVec 8 := 0x04
abbrev okNoResource : BitVec 8 := 0x05
abbrev okCancelled : BitVec 8 := 0x06
abbrev okImageRejected : BitVec 8 := 0x07
abbrev okVerifyFailed : BitVec 8 := 0x08
abbrev okNotFound : BitVec 8 := 0x09
abbrev okReset : BitVec 8 := 0x0A
abbrev okState : BitVec 8 := 0x0B
abbrev okPoison : BitVec 8 := 0x0C

def descOp (d : List Byte) : Nat := byteField d 0 1
def descFlags (d : List Byte) : Nat := byteField d 1 1
def descTag (d : List Byte) : Nat := byteField d 4 4

/-- Commands that ring 0 takes; POST is a service ring's. -/
def definedOp (op : Nat) : Bool := decide (op ≤ 0x11) && op != 3

/-- Long commands (Table 12-11). -/
def longOp (op : Nat) : Bool := op == 1 || (decide (4 ≤ op) && decide (op ≤ 9)) || op == 0xC || op == 0x11

/-- Operand bytes of a command, as ranges of offset and length. -/
def operandBytes (op : Nat) : List (Nat × Nat) :=
  match op with
  | 0x01 => [(8, 28)]
  | 0x02 => [(8, 44)]
  | 0x04 => [(8, 24)]
  | 0x05 => [(8, 32)]
  | 0x06 => [(8, 25)]
  | 0x07 => [(8, 16)]
  | 0x08 => [(8, 12)]
  | 0x0A => [(8, 9)]
  | 0x0B => [(8, 12)]
  | 0x0C => [(8, 12), (24, 32)]
  | 0x0E => [(8, 4)]
  | 0x0F => [(8, 4)]
  | 0x10 => [(8, 4)]
  | 0x11 => [(8, 1)]
  | _ => []

/-- Reserved bytes and bits are zero (R477). -/
def descClean (d : List Byte) : Bool :=
  byteField d 2 2 == 0 && decide (descFlags d < 4)
    && (upFrom 8 56).all fun i => (operandBytes (descOp d)).any (fun r => decide (r.1 ≤ i) && decide (i < r.1 + r.2))
        || byteField d i 1 == 0

/-! ### Start and end of commands -/

/-- The port of a ward's ring 0. -/
def State.cmdPort (s : State) (w : Nat) : Nat := (s.ring w 0).port

/-- Bytes in a port's staging (R500). -/
def State.stagedBytes (s : State) (p : Nat) : Nat :=
  s.staging.foldl (fun n x => match x with
    | .data q _ bs _ => if q = p then n + bs.length else n
    | .record _ => n) 0

/-- Staging has room for n bytes more. -/
def State.stageRoom (s : State) (p n : Nat) : Bool := decide (s.stagedBytes p + n ≤ 0x2000000)

/-- The ward's next command, when nothing holds it back (R486, R500). -/
def State.nextCmd (s : State) (w : Nat) : Option (List Byte) :=
  let k := s.ward w
  match k.cmds with
  | [] => none
  | d :: _ =>
    if !s.takesInput || (descFlags d / 2 % 2 == 1 && !k.openIdx.isEmpty) || (longOp (descOp d) && decide (16 ≤ k.ops.length))
        || decide (65536 < s.stagedRecords (s.cmdPort w) + 2) || !s.stageRoom (s.cmdPort w) 64 then none
    else some d

/-- The front command starts; its place in the ring's order is the count of commands started before it. -/
def State.takeCmd (s : State) (w : Nat) : State :=
  s.modWard w fun k => { k with cmds := k.cmds.tail, started := k.started + 1, openIdx := k.openIdx ++ [k.started] }

/-- The final record of a command (Table 12-9). -/
def finalRecord (w : Nat) (d : List Byte) (idx : Nat) (st : BitVec 8) (res : BitVec 64) : RecordOut :=
  { ward := w, ring := 0, tag := BitVec.ofNat 32 (descTag d), status := st, flags := if descFlags d % 2 = 1 then 4 else 0,
    result := res, idx := some idx }

def State.finish (s : State) (w : Nat) (d : List Byte) (idx : Nat) (st : BitVec 8) (res : BitVec 64) : State :=
  { s with staging := s.staging ++ [.record (finalRecord w d idx st res)] }

/-- The lowest free operation slot. -/
def Ward.freeSlot (k : Ward) : Nat := ((upFrom 0 16).find? fun i => k.ops.all fun o => o.slot != i).getD 0

/-- A long operation begins: its number, its slot and its ACCEPT record (R496). -/
def State.beginOp (s : State) (w : Nat) (d : List Byte) (idx total aux : Nat) : State :=
  let k := s.ward w
  let slot := k.freeSlot
  let s := s.modWard w fun k =>
    { k with ops := k.ops ++ [{ num := k.opNext, slot := slot, desc := d, idx := idx, total := total, aux := aux }],
             opNext := (k.opNext + 1) % 2 ^ 32 }
  { s with staging := s.staging ++ [.record { ward := w, ring := 0, tag := BitVec.ofNat 32 (descTag d), status := okSuccess, flags := 2,
                                              result := BitVec.ofNat 64 (k.opNext + slot * 2 ^ 32) }] }

/-- One operation of a ward changes. -/
def State.modOp (s : State) (w slot : Nat) (f : Op → Op) : State :=
  s.modWard w fun k => { k with ops := k.ops.map fun (o : Op) => if o.slot = slot then f o else o }

/-- An operation's work ends; its final record follows at the commit (R496). -/
def State.endOp (s : State) (w slot : Nat) (st : BitVec 8) (res : BitVec 64) : State :=
  s.modOp w slot fun o => if o.fin.isSome then o else { o with fin := some (st, res) }

/-- The operation that a command's event advances: the oldest that runs. -/
def State.running (s : State) (w code : Nat) : Option Op :=
  (s.ward w).ops.find? fun o => descOp o.desc == code && !o.susp && o.fin.isNone

/-- One event of a command: the ward's next command starts when it has this opcode (an opcode that ring 0 does not take
completes at any), else a running operation of it goes on. -/
def State.command (s : State) (w code : Nat) (start : List Byte → Nat → State → State) (work : Op → State → State) : Out :=
  let go : State := if s.takesInput then
      (match s.running w code with
        | some o => work o s
        | none => s)
    else s
  match s.nextCmd w with
  | none => .next go
  | some d =>
    let idx := (s.ward w).started
    if !definedOp (descOp d) then .next ((s.takeCmd w).finish w d idx okInvalidOpcode 0)
    else if descOp d ≠ code then .next go
    else if descClean d then .next (start d idx (s.takeCmd w))
    else .next ((s.takeCmd w).finish w d idx okInvalidField 0)

/-- A short command has no work of its own after its start. -/
def noWork (_ : Op) (s : State) : State := s

/-! ### Commands without heap words -/

/-- NOP. -/
def execNopCommand (w : Fin 8) (s : State) : Out :=
  s.command w.val 0 (fun d i s => s.finish w.val d i okSuccess 0) noWork

/-- FENCE: its record waits for every earlier one (R494). -/
def execFence (w : Fin 8) (s : State) : Out :=
  s.command w.val 0xD (fun d i s => s.modWard w.val fun k => { k with fences := k.fences ++ [(d, i)] }) noWork

/-- A request takes its place by the order in which its command was fetched (R498). -/
def insertReq (q : Request) : List Request → List Request
  | [] => [q]
  | x :: xs => if q.idx < x.idx then q :: x :: xs else x :: insertReq q xs

/-- A request that acts at the next boundary (R494, R498). -/
def State.ask (s : State) (w : Nat) (k : ReqKind) (d : List Byte) (idx : Nat) : State :=
  s.modWard w fun x => { x with reqs := insertReq { kind := k, num := byteField d 8 4, desc := d, idx := idx } x.reqs }

/-- SUSPEND. -/
def execSuspend (w : Fin 8) (s : State) : Out := s.command w.val 0xE (fun d i s => s.ask w.val .suspend d i) noWork
/-- RESUME. -/
def execResume (w : Fin 8) (s : State) : Out := s.command w.val 0xF (fun d i s => s.ask w.val .resume d i) noWork
/-- CANCEL. -/
def execCancel (w : Fin 8) (s : State) : Out := s.command w.val 0x10 (fun d i s => s.ask w.val .cancel d i) noWork

/-- POLICY: the envelope image is fetched, and acts at the boundary (R494, R558). -/
def execPolicy (w : Fin 8) (s : State) : Out :=
  s.command w.val 0xB (fun d i s =>
    if byteField d 16 4 ≠ 64 then s.finish w.val d i okInvalidField 0xFF
    else (s.modWard w.val fun k => { k with policyWait := k.policyWait ++ [(d, i)] }).askHost (s.cmdPort w.val) (byteField d 8 8) 64
      (.envelope w.val)) noWork

/-! ### QUERY (R493) -/

/-- ID.REV.ROMREV of this part. -/
def romRev : Nat := 0x0200

/-- The ward's contexts 1–31 that are IDLE. -/
def State.idleCtxs (s : State) (n : Nat) : List Nat := (upFrom 1 31).filter fun c => (s.ctx n c).state == stIdle

/-- The QUERY block of a selector. -/
def State.queryBlock (s : State) (w sel : Nat) : List Byte :=
  if sel = 0 then
    [4, 8, 17, 16, 32, 8, 4, 8] ++ leBytes 2 0x9640 ++ leBytes 2 romRev
      ++ leBytes 2 s.boot.version.toNat ++ leBytes 2 (if s.patch.active then s.patch.version.toNat else 0)
      ++ leBytes 8 (s.stroke.num - 1) ++ leBytes 4 (s.reg32 pgSTK).toNat ++ leBytes 4 (s.reg32 pgPSM).toNat ++ leBytes 32 0
  else
    let ns := s.wardNibs w
    let idle := ns.foldl (fun t n => t + (s.idleCtxs n).length) 0
    let rings := (upFrom 0 64).foldl (fun v r => if (s.ring w r).en then v + 2 ^ r else v) 0
    leBytes 1 w ++ leBytes 1 (portBits (s.portsOf w)) ++ leBytes 2 ns.length ++ leBytes 2 (31 * ns.length - idle) ++ leBytes 2 idle
      ++ leBytes 2 (s.sheetsOf w).length ++ leBytes 2 (s.sheetsIn w shFree).length ++ leBytes 4 0 ++ leBytes 8 rings
      ++ leBytes 1 (s.ward w).ops.length ++ leBytes 39 0

/-- QUERY. -/
def execQuery (w : Fin 8) (s : State) : Out :=
  s.command w.val 0xA (fun d i s =>
    if 1 < byteField d 16 1 then s.finish w.val d i okInvalidField 0
    else ({ s with staging := s.staging ++ [Staged.data (s.cmdPort w.val) (byteField d 8 8) (s.queryBlock w.val (byteField d 16 1)) false] }).finish
      w.val d i okSuccess 0) noWork

/-! ### Operations that others carry out -/

/-- COLLECT: a cycle starts at the next boundary, or the command attaches to the one that runs (R398). -/
def execCollect (w : Fin 8) (s : State) : Out :=
  s.command w.val 7 (fun d i s =>
    if 2 < byteField d 8 8 then s.finish w.val d i okInvalidField 0
    else
      let s := s.beginOp w.val d i 0 0
      if (s.collOf w.val).phase = .idle ∧ (s.collOf w.val).start.isNone then
        s.modColl w.val fun k => { k with start := some (byteField d 8 8) }
      else s) noWork

/-- ATTEST: measured at the commit instant of the stroke in which it starts (R577, R578). -/
def execAttest (w : Fin 8) (s : State) : Out :=
  s.command w.val 0xC (fun d i s =>
    if byteField d 16 4 < 17344 then s.finish w.val d i okInvalidField 0
    else s.beginOp w.val d i 1 0) noWork

/-- WARD_RESET acts at the next boundary (R495). -/
def execWardReset (w : Fin 8) (s : State) : Out :=
  s.command w.val 0x11 (fun d i s =>
    let t := byteField d 8 1
    if 7 < t ∨ (t ≠ w.val ∧ s.stewardWard ≠ some w.val) then s.finish w.val d i okInvalidField 0
    else s.beginOp w.val d i (s.sheetsOf t).length 0) noWork

/-! ### POST (R480 to R484) -/

/-- A block of its exchange area that the Rubric denies to its nib is the service context's fault. -/
def State.areaFault (s : State) (n c pa : Nat) : State :=
  (s.raise n c { cause := .rubric, info := info 0 0 pa, deny := some pa }).modCtx n c fun x =>
    if x.state = stRunning then x else { x with waiting := none }.setState stReady

/-- Addresses of its exchange area that a service context reads for a descriptor: CONSUMED, POSTED and RELEASED, and the descriptor's
slot (R482, R484). -/
def Ring.areaReads (k : Ring) (got : Nat) : List Nat := [k.xpa + 0x2008, k.xpa + 64 * (got % 64)]

/-- Stores of a service context to its exchange area, in order: words at offsets (R482, R484). The first that the Rubric denies to its
nib is the context's fault, and no later one is made. -/
def State.areaStores (s : State) (n c : Nat) (k : Ring) : List (Nat × Word) → State
  | [] => s
  | (o, x) :: r =>
    let pa := k.xpa + o
    if s.rubAllows (s.nibAsker n c (s.ctx n c).level) (if x.typ = Ty.raw then .write else .writeT) pa then
      (s.writeAs pa (.word x .keep)).areaStores n c k r
    else s.areaFault n c pa

/-- POST: the service context takes its next descriptor and posts a record. A POST is answered with the words given, any other
opcode with INVALID_OPCODE; while the log has no room for a store it waits (R432). -/
def State.postOne (s : State) (w r n c : Nat) (rec0 rec1 : BitVec 64) : State :=
  let k := s.ring w r
  let got := (s.xword k 0x2008).pay.toNat % k.size
  let posted := (s.xword k 0x2010).pay.toNat
  let rel := (s.xword k 0x2018).pay.toNat
  let a := 0x1000 + 16 * (posted % 256)
  if (k.tail + k.size - got) % k.size = 0 ∨ k.pendSlots.contains got ∨ 256 ≤ posted - rel
      ∨ s.held (lineOf (k.xpa + a)) ∨ s.held (lineOf (k.xpa + 0x2008)) then s
  else match s.firstDenied ((k.areaReads got).map fun a => (s.nibAsker n c (s.ctx n c).level, Acc.read, a)) with
  | some a => s.areaFault n c a
  | none =>
    let s := (k.areaReads got).foldl (fun s a => s.inkRead (lineOf a)) s
    let d0 := (s.xword k (64 * (got % 64))).pay
    let w0 : BitVec 64 := if bits d0 0 8 = 3 then rec0
      else BitVec.ofNat 64 (bits d0 32 32 + 2 ^ 48 * okInvalidOpcode.toNat)
    let w1 : BitVec 64 := if bits d0 0 8 = 3 then rec1 else 0
    s.areaStores n c k
      [(a, Word.rawOf w0), (a + 8, Word.rawOf w1), (0x2010, Word.fx (BitVec.ofNat 64 (posted + 1))), (0x2008, Word.fx (BitVec.ofNat 64 ((got + 1) % k.size)))]

/-- POST. -/
def execPost (w : Fin 8) (ring : Fin 64) (rec0 rec1 : BitVec 64) (s : State) : Out :=
  let k := s.ring w.val ring.val
  if ring.val = 0 ∨ !k.en ∨ !s.takesInput then .next s
  else match s.wcnAt w.val (BitVec.ofNat 64 k.wcn) with
    | none => .next s
    | some (n, c) =>
      let b := s.nib n
      if !b.active || b.parkedBy != 0 || (s.ctx n c).state == stIdle || (s.ctx n c).state == stFrozen then .next s
      else .next (s.postOne w.val ring.val n c rec0 rec1)

end Sys2Proof.Machine
end

