-- ==== Sys2Proof/Machine/CommandsData.lean ====
section
/-! DEFINITION. Commands that move heap words or walk the heap (R487 to R492): IMAGE_LOAD, IMPORT, EXPORT, COPY, SPAWN,
HEAP_VERIFY, SCRUB. Each event moves one word or the words up to the next line boundary. -/

namespace Sys2Proof.Machine

/-! ### Heap access of commands (R487, R488) -/

/-- Device address of a ward address for a command: a leaf with DEV = 0 that grants the S right; the walk may leave a denial. -/
def State.cmdPage (s : State) (p tw va : Nat) (k : Acc) : Except State Nat :=
  match s.wardWalk p tw va with
  | .ok t => if t.permits true k && !t.dev then .ok (t.pa va) else .error s
  | .error d => .error (s.walkDenied p d)

/-- A command's access to a block on lane 12 + P: its address, or the denial it leaves. -/
def State.cmdBlock (s : State) (p w tw va : Nat) (k : Acc) : Except State Nat :=
  match s.cmdPage p tw va k with
  | .error t => .error t
  | .ok a =>
    if s.rubAllows (hostAsker p w) k a then .ok a
    else .error (s.laneDenied (12 + p) (lineOf a) (k != .read))

/-- A line after a command's write of some of its words under the broken-pair rule; `keep` leaves HEADER, FORWARD, XLATE and
SPILL words alone (R75, R76, R182). -/
def devPairs (keep : Bool) (put : Nat → Option Word) : Nat → Line → Line
  | i, a :: b :: r =>
    let one (w : Word) (v : Option Word) : Word × Bool := match v with
      | none => (w, false)
      | some x => if keep && hostKeeps w then (w, true) else (x, false)
    let f := one a (put i)
    let g := one b (put (i + 1))
    let q := if (put i).isSome || (put (i + 1)).isSome then pairRule false f.2 g.2 a b f.1 g.1 else (a, b)
    q.1 :: q.2 :: devPairs keep put (i + 2) r
  | _, r => r

/-- Pairs of a line take new words through the log and the write barrier. -/
def State.putDevPairs (s : State) (keep : Bool) (put : Nat → Option Word) (l : Nat) : Nat → Line → State
  | i, a :: b :: r =>
    let pa := l + 8 * i
    let wr (j : Nat) (w : Word) : Bool := (put j).isSome && !(keep && hostKeeps w)
    let f := (wr i (s.word pa), wr (i + 1) (s.word (pa + 8)))
    (if s.word pa = a ∧ s.word (pa + 8) = b ∧ !f.1 ∧ !f.2 then s else s.putPair pa false f a b).putDevPairs keep put l (i + 2) r
  | _, _ => s

/-- A device write of words k, k + 1, … of a line. -/
def State.cmdLine (s : State) (keep : Bool) (l k : Nat) (ws : List Word) : State :=
  let put (i : Nat) : Option Word := if k ≤ i then ws[i - k]? else none
  (s.putDevPairs keep put l 0 (devPairs keep put 0 (s.line l))).changed l none

/-- A request for a line on a lane: replicas that disagree deny it (R355), else the line meets the memory code (R66); a write meets it
in the copy that the log takes (R68). -/
def State.cmdMeets (s : State) (lane l : Nat) (write : Bool) (m : Meets) (go : State → State) : State :=
  if !m.agree then s.vote lane l
  else
    let r := s.meet (fun j => j == l && !(write && s.logged l)) m.errs
    if r.2 then go r.1 else r.1

/-- The executive's own access on lane 20 (R19): made, or denied with the bus-error status of its interface (Table 09-9). -/
def State.asExec (s : State) (k : Acc) (a : Nat) (go : State → State) : State :=
  if s.rubAllows mgmtAsker k a then go s else s.laneDenied 20 a (k != .read)

/-- The words of a line that a keeping write drops. -/
def State.cmdDrops (s : State) (l k n : Nat) : List Nat := (upFrom k n).filter fun i => hostKeeps (s.word (l + 8 * i))

/-- Words from an 8-aligned address to the end of its line. -/
def toLineEnd (a : Nat) : Nat := (64 - a % 64) / 8

/-- RESULT of IMPORT and COPY. -/
def moveResult (o : Op) : BitVec 64 := BitVec.ofNat 64 (o.done + min o.dropped 0xFFFFFF * 2 ^ 40)

/-! ### IMPORT (R491) -/

/-- Bytes that one read of host memory asks for (log 31). -/
def importChunk : Nat := 4096

/-- One line of an import: the next chunk is asked for, or the words of a line are written. -/
def State.importWork (s : State) (w : Nat) (m : Meets) (o : Op) : State :=
  let p := s.cmdPort w
  let at_ := o.done + o.dropped
  if o.total ≤ at_ then s.endOp w o.slot okSuccess (moveResult o)
  else match o.got0 with
    | none =>
      if s.hostReads.any fun h => h.why == .op w o.slot 0 then s
      else s.askHost p (byteField o.desc 8 8 + 8 * at_) (min importChunk (8 * (o.total - at_))) (.op w o.slot 0)
    | some bs =>
      let va := byteField o.desc 16 8 + 8 * at_
      match s.cmdBlock p w w va .write with
      | .error t => t.endOp w o.slot okDenied (moveResult o)
      | .ok a =>
        let l := lineOf a
        let n := min (toLineEnd a) (bs.length / 8)
        if s.held l then s
        else s.cmdMeets (12 + p) l true m fun s =>
          let drops := s.cmdDrops l (a % 64 / 8) n
          let s := s.cmdLine true l (a % 64 / 8) (rawWords n bs)
          let s := s.noteDrops p w l drops
          s.modOp w o.slot fun x =>
            { x with done := x.done + n - drops.length, dropped := x.dropped + drops.length,
                     got0 := if bs.length ≤ 8 * n then none else some (bs.drop (8 * n)) }

/-- IMPORT. -/
def execImportCmd : Routed (Fin 8) → State → Out
  | ⟨w, m⟩, s =>
  s.command w.val 4 (fun d i s =>
    let va := byteField d 16 8
    let n := byteField d 24 8
    if va % 8 ≠ 0 ∨ n % 8 ≠ 0 ∨ n < 8 ∨ 2 ^ 40 < n ∨ 2 ^ 48 < va + n then s.finish w.val d i okInvalidField 0
    else s.beginOp w.val d i (n / 8) 0)
    (fun o s => s.importWork w.val m o)

/-! ### EXPORT (R491) -/

/-- RESULT of EXPORT. -/
def exportResult (o : Op) : BitVec 64 := BitVec.ofNat 64 o.done

/-- One line of an export. -/
def State.exportWork (s : State) (w : Nat) (m : Meets) (o : Op) : State :=
  let p := s.cmdPort w
  if o.total ≤ o.done then s.endOp w o.slot (if o.poison then okPoison else okSuccess) (exportResult o)
  else if !s.stageRoom p 80 then s
  else match s.cmdBlock p w w (byteField o.desc 24 8 + 8 * o.done) .read with
    | .error t => t.endOp w o.slot okDenied (exportResult o)
    | .ok a => s.cmdMeets (12 + p) (lineOf a) false m fun s =>
      let n := min (toLineEnd a) (o.total - o.done)
      let s := s.inkRead (lineOf a)
      let ws := s.line (lineOf a)
      let part := (ws.drop (a % 64 / 8)).take n
      let bad := poisoned ws
      let out := [Staged.data p (byteField o.desc 8 8 + 8 * o.done) (payBytes part) bad]
      let tags := if byteField o.desc 16 8 = 0 then []
        else [Staged.data p (byteField o.desc 16 8 + 2 * o.done) (tagBytes part) false]
      { s with staging := s.staging ++ out ++ tags }.modOp w o.slot fun x =>
        { x with done := x.done + n, poison := x.poison || bad }

/-- EXPORT. -/
def execExportCmd : Routed (Fin 8) → State → Out
  | ⟨w, m⟩, s =>
  s.command w.val 5 (fun d i s =>
    let va := byteField d 24 8
    let n := byteField d 32 8
    if va % 8 ≠ 0 ∨ n % 8 ≠ 0 ∨ n < 8 ∨ 2 ^ 40 < n ∨ 2 ^ 48 < va + n then s.finish w.val d i okInvalidField 0
    else s.beginOp w.val d i (n / 8) 0)
    (fun o s => s.exportWork w.val m o)

/-! ### COPY (R491, R212) -/

/-- What COPY makes of a word: immediates and POISON as they are with COLOUR 0, any other, a reserved encoding too, RAW with its
payload (R41, R491). -/
def copyWord (x : Word) : Word :=
  if (x.typ ≤ 0x04 ∨ x.typ = Ty.poison) ∧ !reservedWord x then { x with col := 0 } else Word.rawOf x.pay

/-- One step of a copy: the words up to the next line boundary of either side. -/
def State.copyWork (s : State) (w : Nat) (m : Meets) (o : Op) : State :=
  let p := s.cmdPort w
  let at_ := o.done + o.dropped
  if o.total ≤ at_ then s.endOp w o.slot (if o.poison then okPoison else okSuccess) (moveResult o)
  else
    let sva := byteField o.desc 8 8 + 8 * at_
    let dva := byteField o.desc 16 8 + 8 * at_
    match s.cmdBlock p w (byteField o.desc 32 1) sva .read with
    | .error t => t.endOp w o.slot okDenied (moveResult o)
    | .ok a =>
      s.cmdMeets (12 + p) (lineOf a) false m fun s =>
      let n := min (o.total - at_) (min (toLineEnd a) (toLineEnd dva))
      let s := s.inkRead (lineOf a)
      let ws := (((s.line (lineOf a)).drop (a % 64 / 8)).take n).map copyWord
      match s.cmdBlock p w w dva (accOf ws) with
      | .error t => t.endOp w o.slot okDenied (moveResult o)
      | .ok b =>
        let l := lineOf b
        if s.held l then s
        else
          let drops := s.cmdDrops l (b % 64 / 8) n
          let s := s.cmdLine true l (b % 64 / 8) ws
          let s := s.noteDrops p w l drops
          s.modOp w o.slot fun x =>
            { x with done := x.done + n - drops.length, dropped := x.dropped + drops.length,
                     poison := x.poison || ws.any (fun y => y.typ == Ty.poison) }

/-- COPY. -/
def execCopyCmd : Routed (Fin 8) → State → Out
  | ⟨w, m⟩, s =>
  s.command w.val 6 (fun d i s =>
    let a := byteField d 8 8
    let b := byteField d 16 8
    let n := byteField d 24 8
    if 7 < byteField d 32 1 ∨ a % 8 ≠ 0 ∨ b % 8 ≠ 0 ∨ 2 ^ 37 < n ∨ 2 ^ 48 < a + 8 * n ∨ 2 ^ 48 < b + 8 * n then
      s.finish w.val d i okInvalidField 0
    else s.beginOp w.val d i n 0)
    (fun o s => s.copyWork w.val m o)

/-! ### IMAGE_LOAD (R489) -/

/-- Word k of the two arrays. -/
def arrayWord (pay tag : List Byte) (k : Nat) : Word :=
  Word.ofTag (BitVec.ofNat 10 (byteField tag (2 * k) 2)) (BitVec.ofNat 64 (byteField pay (8 * k) 8))

/-- Words of the item that begins at word k of the arrays (R366). -/
def arrayItem (pay tag : List Byte) (k : Nat) : Nat :=
  let x := arrayWord pay tag k
  if x.typ = Ty.header then 1 + hdrLen x else if x.cdr = 0 then 2 else 1

/-- Word t of the arrays begins an item, by the parse from word p. -/
def arrayStart (pay tag : List Byte) (t : Nat) : Nat → Nat → Bool
  | 0, p => p == t
  | k + 1, p => if t ≤ p then p == t else arrayStart pay tag t k (p + arrayItem pay tag p)

/-- The rules of R489 for word k. -/
def imageWordOk (pay tag : List Byte) (va n k : Nat) : Bool :=
  let x := arrayWord pay tag k
  let t := (waddr x).toNat
  let i := (t - va) / 8
  let y := arrayWord pay tag i
  byteField tag (2 * k) 2 / 1024 == 0 && !reservedWord x
    && (decide (x.typ ≤ 0x04) || x.typ == Ty.code
      || (x.typ == Ty.header && hdrOtype x == 0 && !hdrGate x && !badHeader x)
      || (isRefType x.typ && decide (va ≤ t) && decide (t < va + 8 * n) && arrayStart pay tag i (i + 1) 0
          && (if x.typ = Ty.cons then y.typ != Ty.header else y.typ == Ty.header && hdrRtype y == x.typ)))

/-- RESULT of IMAGE_LOAD. -/
def imageResult (o : Op) (bad : Nat) : BitVec 64 := BitVec.ofNat 64 (o.done + bad * 2 ^ 32)

/-- One word of an image. -/
def State.imageWork (s : State) (w : Nat) (m : Meets) (o : Op) : State :=
  let p := s.cmdPort w
  let va := byteField o.desc 24 8
  if o.total ≤ o.done then s.endOp w o.slot okSuccess (imageResult o 0)
  else match o.got0, o.got1 with
    | some pay, some tag =>
      if !imageWordOk pay tag va o.total o.done then s.endOp w o.slot okImageRejected (imageResult o o.done)
      else
        let x := { arrayWord pay tag o.done with col := 0 }
        match s.cmdBlock p w w (va + 8 * o.done) (accOf [x]) with
        | .error t => t.endOp w o.slot okDenied (imageResult o 0)
        | .ok a =>
          if s.held (lineOf a) || !s.roomFor 2 then s
          else s.cmdMeets (12 + p) (lineOf a) true m fun s =>
            let s := s.cmdLine false (lineOf a) (a % 64 / 8) [x]
            let s := if arrayStart pay tag o.done (o.done + 1) 0 then s.asExec .write (cardBase + a / 512) (·.noteItem a) else s
            s.modOp w o.slot fun y => { y with done := y.done + 1 }
    | _, _ => s

/-- Every sheet that a range of ward addresses meets is FIXED, or ARENA where that is allowed; a capability is built over no CONDEMNED or
RELEASING sheet (R403). -/
def State.sheetsOk (s : State) (w va n : Nat) (arena : Bool) : Bool :=
  decide (va + n ≤ 2 ^ 38) && (upFrom (va / sheetBytes) ((va % sheetBytes + n + sheetBytes - 1) / sheetBytes)).all fun v =>
    match s.sheetAtV w v with
    | some h => if arena then s.sheetKind h == 1 || s.sheetState h == shArena
      else s.sheetKind h == 1 && s.sheetState h != shCondemned && s.sheetState h != shReleasing
    | none => false

/-- IMAGE_LOAD: both arrays are fetched whole, then the words go in rising order. -/
def execImageLoad : Routed (Fin 8) → State → Out
  | ⟨w, m⟩, s =>
  s.command w.val 1 (fun d i s =>
    let va := byteField d 24 8
    let n := byteField d 32 4
    if va % 8 ≠ 0 ∨ n = 0 ∨ !s.sheetsOk w.val va (8 * n) true then s.finish w.val d i okInvalidField 0
    else
      let slot := (s.ward w.val).freeSlot
      let p := s.cmdPort w.val
      ((s.beginOp w.val d i n 0).askHost p (byteField d 8 8) (8 * n) (.op w.val slot 0)).askHost p (byteField d 16 8) (2 * n)
        (.op w.val slot 1))
    (fun o s => s.imageWork w.val m o)

/-! ### SPAWN (R490) -/

/-- A capability over a range with the permissions given. -/
def rangeCap (base len : Nat) (perms : BitVec 16) : Word × Word :=
  let r := (reprExact len).getD (0, 0)
  (Word.mk0 Ty.capLo (BitVec.ofNat 64 (base * 65536 + perms.toNat)), Word.mk0 Ty.capHi (capHiPay base r.1 r.2))

/-- A range of SPAWN: 16-byte aligned, of at least 144 bytes and a representable length, within FIXED sheets of the ward. -/
def State.spawnRange (s : State) (w va n : Nat) : Bool :=
  va % 16 == 0 && decide (144 ≤ n) && (reprExact n).isSome && s.sheetsOk w va n false

/-- The nib that SPAWN chooses: the hinted one, or the least busy of the ward's (R490). -/
def State.spawnNib (s : State) (w hint : Nat) : Option Nat :=
  let free := (s.wardNibs w).filter fun n => !(s.idleCtxs n).isEmpty
  if free.contains hint then some hint
  else
    let best := free.foldl (fun m n => max m (s.idleCtxs n).length) 0
    free.find? fun n => (s.idleCtxs n).length == best

/-- The lowest WCN that is not bound in a ward. -/
def State.freeWcn (s : State) (w : Nat) : Nat :=
  ((upFrom 0 16384).find? fun v => !((s.ward w).wcns.any fun e => e.1 == v)).getD 0

/-- A virtual sheet of the executive's choice that the ward does not use and that no nib of it holds condemned, if there is one (R403,
log 6). -/
def State.chooseV (s : State) (w : Nat) : Option Nat :=
  let vs := (upFrom 0 8192).filter fun v => (s.sheetAtV w v).isNone && !(s.wardNibs w).any fun n => (s.nib n).condemned.contains v
  vs[Config.freeSheet s.tick % max vs.length 1]?

/-- A table pointer entry, and a leaf of 64 KiB that grants every right. -/
def tableEntry (a : Nat) : Word := Word.mk0 Ty.xlate (BitVec.ofNat 64 (a / 65536 * 2 ^ 40 + 1))
def pageEntry (a : Nat) : Word := Word.mk0 Ty.xlate (BitVec.ofNat 64 (a / 65536 * 2 ^ 40 + 0x5FD))

/-- The table below an entry, on lane 20; where there is none, the executive places one where it keeps the ward's tables (log 6). A
denied access leaves none. -/
def State.tableBelow (s : State) (w entry key : Nat) : State × Option Nat :=
  if !s.rubAllows mgmtAsker .read entry then (s.laneDenied 20 entry false, none)
  else
    let x := s.word entry
    let s := s.inkRead (lineOf entry)
    if x.typ = Ty.xlate ∧ x.pay.getLsbD 0 ∧ !entLeaf x.pay then (s, some (entPpn x.pay * 65536))
    else if !s.rubAllows mgmtAsker .writeT entry then (s.laneDenied 20 entry true, none)
    else
      let a := Config.wardTable w key
      (s.writeAs entry (.word (tableEntry a) .exact), some a)

/-- Leaf entries of k pages from virtual page vp on. -/
def State.mapLeaves (s : State) (table vp pa : Nat) : Nat → State
  | 0 => s
  | k + 1 =>
    let e := table + 8 * (vp % 8192)
    (s.asExec .writeT e fun s => s.writeAs e (.word (pageEntry pa) .exact)).mapLeaves table (vp + 1) (pa + 65536) k

/-- The executive maps physical sheet h at virtual sheet v of a ward. -/
def State.mapSheet (s : State) (w v h : Nat) : State :=
  let va := v * sheetBytes
  let t2 := s.tableBelow w (s.rootOf w + 8 * walkIndex 1 va) (walkIndex 1 va)
  match t2.2 with
  | none => t2.1
  | some a =>
    let t3 := t2.1.tableBelow w (a + 8 * walkIndex 2 va) (64 + va / 2 ^ 29)
    match t3.2 with
    | none => t3.1
    | some b => t3.1.mapLeaves b (va / 65536) (h * sheetBytes) 512

/-- The context that SPAWN makes READY. -/
def spawnCtx (d : List Byte) (wcn : Nat) (arena : Option (Word × Word)) : Context :=
  let ctl := byteField d 48 1
  let stack := rangeCap (byteField d 24 8) (byteField d 44 4) spillPerms
  let spill := rangeCap (byteField d 16 8) (byteField d 40 4) spillPerms
  let x : Context := { pc := BitVec.ofNat 64 (byteField d 8 8) &&& ~~~(7#64), spillLo := spill.1, spillHi := spill.2, stateDirty := 0xFFF,
                       st := BitVec.ofNat 32 (wcn * 65536 + stReady * 512 + ctl / 4 % 4 * 4 + ctl % 4) }
  let x := ((x.putReg 1 (Word.fx (BitVec.ofNat 64 (byteField d 32 8)))).putReg 4 stack.1).putReg 5 stack.2
  let x := match arena with
    | some a => (x.putReg 6 a.1).putReg 7 a.2
    | none => x
  { x with dirty := 0x3FFFF }

/-- Permissions of SPAWN's arena capability. -/
def arenaPerms : BitVec 16 := pR ||| pW ||| pLC ||| pSC ||| pGLOBAL ||| pDERIVE

/-- The physical and virtual sheet of SPAWN's arena: the lowest FREE sheet, where the executive maps it. -/
def State.arenaSheet (s : State) (w : Nat) : Option (Nat × Nat) :=
  match (s.freeSheetsOf w).head?, s.chooseV w with
  | some h, some v => some (h, v)
  | _, _ => none

/-- SPAWN on the nib and context chosen; an arena's sheet is mapped at once and becomes ARENA at the next boundary (R401). -/
def State.spawnOn (s : State) (w n c : Nat) (d : List Byte) (sheet : Option (Nat × Nat)) : State :=
  let wcn := s.freeWcn w
  let r : State × Option (Word × Word) := match sheet with
    | none => (s, none)
    | some (h, v) =>
      let s := (s.asExec .write (descAddr h) fun s => s.setDesc h 0 (setBits (s.desc h 0) 32 13 v)).mapSheet w v h
      let s := s.modColl w fun k => { k with handed := k.handed ++ [h] }
      ({ s with tick := s.tick + 1 }, some (rangeCap (v * sheetBytes) sheetBytes arenaPerms))
  let s := r.1.setCtx n c (spawnCtx d wcn r.2)
  s.modWard w fun k => { k with wcns := mset k.wcns wcn (key n c) }

/-- A nib that the executive selects is unparked at the next boundary (R555). -/
def State.askUnpark (s : State) (w n : Nat) : State :=
  if (s.nib n).parkedBy.getLsbD 1 then
    { s with steward := { s.steward with pend := s.steward.pend ++ [{ kind := 5, ward := BitVec.ofNat 8 w, old := BitVec.ofNat 64 n,
                                                                      new := BitVec.ofNat 64 n, arg := n }] } }
  else s

/-- SPAWN's start. -/
def State.spawn (s : State) (w : Nat) (d : List Byte) (i : Nat) : State :=
  let ctl := byteField d 48 1
  let hint := byteField d 50 2
  let arena := ctl / 16 % 2 == 1
  let bad := decide (31 < ctl) || byteField d 49 1 != 0 || decide (1 < ctl % 4) || ctl / 4 % 4 == 3
    || !s.spawnRange w (byteField d 16 8) (byteField d 40 4) || !s.spawnRange w (byteField d 24 8) (byteField d 44 4)
    || (hint != 0xFFFF && !(s.wardNibs w).contains hint)
  if bad then s.finish w d i okInvalidField 0
  else
    let sheet := if arena then s.arenaSheet w else none
    match s.spawnNib w hint with
    | none => s.finish w d i okNoResource 0
    | some n =>
      if arena && sheet.isNone then s.finish w d i okNoResource 0
      else
        let c := ((s.idleCtxs n).head?).getD 1
        ((s.spawnOn w n c d sheet).askUnpark w n).finish w d i okSuccess (BitVec.ofNat 64 (s.freeWcn w + n * 65536))

/-- SPAWN; it waits while the log has no room for the lines that mapping an arena writes (R432). -/
def execSpawn (w : Fin 8) (s : State) : Out := if s.roomFor 80 then s.command w.val 2 (fun d i s => s.spawn w.val d i) noWork else .next s

/-! ### HEAP_VERIFY (R492) -/

/-- KIND of the error that one word shows, if any, and the addresses read to tell beside the sheet's own (R492). -/
def State.wordError (s : State) (w a : Nat) : Option Nat × List Nat :=
  let x := s.word a
  if x.typ = Ty.poison then (some 5, [])
  else if reservedWord x then (some 4, [])
  else if isRefType x.typ then
    let va := (waddr x).toNat
    match (if va < 2 ^ 38 then s.heapAt w va else none) with
    | none => (some 1, [])
    | some t0 =>
      let t := if (s.word t0).typ = Ty.forward then (s.heapAt w (s.word t0).pay.toNat).getD t0 else t0
      let f := s.itemFound w va
      let reads := f.2 ++ [t0, t]
      if f.1 ≠ some va then (some 1, reads)
      else
        let h := s.word t
        if x.typ = Ty.cons then (if h.typ = Ty.header then some 2 else none, reads)
        else (if h.typ = Ty.header ∧ hdrRtype h = x.typ then none else some 2, reads)
  else if x.typ = Ty.capLo then
    (if a % 16 = 0 ∧ (CapV.mk x (s.word (a + 8))).ok then none else some 3, [])
  else if x.typ = Ty.capHi then (if a % 16 = 8 ∧ (s.word (a - 8)).typ = Ty.capLo then none else some 3, [])
  else (none, [])

/-- Errors among n words, as address and KIND; KIND 0 names a block that the engine may not read. -/
def State.wordErrors (s : State) (e w a : Nat) : Nat → List (Nat × Nat)
  | 0 => []
  | k + 1 =>
    let x := s.wordError w a
    let here := match s.barred (some e) x.2, x.1 with
      | some b, _ => [(b, 0)]
      | none, some v => [(a, v)]
      | none, none => []
    here ++ s.wordErrors e w (a + 8) k

/-- An engine assigned to the ward that runs its HEAP_VERIFY and SCRUB: the lowest (R487; DESIGN CHOICE, log 36). -/
def State.workEngine (s : State) (w : Nat) : Option Nat :=
  (upFrom 0 16).find? fun e => s.engineWard e == some w && s.engineUp e w

/-- The parse of a sheet by engine e from position p, q being the item before it, of which the bytes below `lim` are readable: POISON
at an item start is logged and makes the sheet BAD (R366, R395). A card ends the parse, which goes on from the next item start that a
card names; a card that names another start than the parse finds is KIND 6, one that names none is no error (DEDUCED, log 71). The
answer holds the errors of the items' words. -/
def State.verifyFrom (s : State) (e w past lim : Nat) : Nat → Nat → Nat → State × List (Nat × Nat)
  | 0, _, _ => (s, [])
  | k + 1, q, p =>
    if lim ≤ p then (s, [])
    else if (s.word p).typ = Ty.poison then ((s.errLog e w 3 p).setBad e w (sheetOf p), [(p, 5), (p, 6)])
    else if s.parseEnds p q then
      let bad := if s.cardByte p = 0xFF then [] else [(p, 6)]
      match (s.nextStart (cardsLeft p) p).1 with
      | none => (s, bad)
      | some p' =>
        let r := s.verifyFrom e w past lim k p' p'
        (r.1, bad ++ r.2)
    else
      let len := 8 * s.itemWords p
      let words := s.wordErrors e w p (min len (lim - p) / 8)
      if past < p + len then (s, words ++ [(p, 6)])
      else
        let r := s.verifyFrom e w past lim k p (p + len)
        (r.1, words ++ r.2)

/-- A sheet read up to a byte: the sheets after the first of a LARGE run hold words of its object. -/
def State.verifySheet (s : State) (e w h lim : Nat) : State × List (Nat × Nat) :=
  let base := h * sheetBytes
  if sheetLarge s h then (s, s.wordErrors e w base ((lim - base) / 8))
  else s.verifyFrom e w (base + sheetBytes) lim (sheetBytes / 4) (base + sheetBytes) base

/-- Lines that an engine reads pass their inkwells. -/
def State.inkReads (s : State) (a n : Nat) : State := (upFrom 0 n).foldl (fun s i => s.inkRead (a + 64 * i)) s

/-- Lines of a sheet that an engine may read, up to the first denied one (R354). -/
def State.readable (s : State) (e h : Nat) : Nat := ((sheetLines h).takeWhile fun l => s.mayBy (some e) .read l).length

/-- An engine's request over a sheet: what its lines meet (R66, R355), then its blocks up to the first denied one, of which it hears
the count (R354). -/
def State.overSheet (s : State) (e h : Nat) (m : Meets) (go : Nat → State → State) : State :=
  let base := h * sheetBytes
  if !m.agree then s.vote (8 + e / 4) base
  else
    let s := (s.meet (fun l => sheetOf l == h) m.errs).1
    let n := s.readable e h
    go n (s.inkReads base n)

/-- List entries of errors, from the place the list has reached. -/
def errorEntries (p list cap : Nat) : Nat → List (Nat × Nat) → List Staged
  | _, [] => []
  | i, e :: es =>
    if list = 0 ∨ cap ≤ i then []
    else .data p (list + 16 * i) (leBytes 8 e.1 ++ leBytes 8 e.2) false :: errorEntries p list cap (i + 1) es

/-- RESULT of HEAP_VERIFY; `aux` counts the errors. -/
def verifyResult (o : Op) : BitVec 64 := BitVec.ofNat 64 (min o.aux (2 ^ 32 - 1) + o.done * 2 ^ 32)

/-- The command stops before a block that the Rubric denies, with status DENIED (R354, R487). -/
def State.verifyDenied (s : State) (e w b : Nat) (o : Op) (found : Nat) : State :=
  (s.engineDenied e w b).endOp w o.slot okDenied (verifyResult { o with aux := o.aux + found })

/-- One sheet of a verification, up to a denied block, before which it stops (R354, R487). Its errors enter the list as staging has
room, `dropped` of this sheet so far; the others wait for the next commit (R500). -/
def State.verifyWork (s : State) (w : Nat) (m : Meets) (o : Op) : State :=
  let p := s.cmdPort w
  match (s.sheetsOf w)[o.done]? with
  | none => s.endOp w o.slot (if o.aux = 0 then okSuccess else okVerifyFailed) (verifyResult o)
  | some h =>
    match s.workEngine w with
    | none => s
    | some e => s.overSheet e h m fun n s =>
      let base := h * sheetBytes
      let r := s.verifySheet e w h (base + 64 * n)
      let all := decide (n = sheetBytes / 64)
      let errs := (r.2.filter fun x => x.2 != 0).drop o.dropped
      let room := (0x2000000 - s.stagedBytes p) / 16
      let new := errorEntries p (byteField o.desc 8 8) (byteField o.desc 16 4) o.aux (errs.take room)
      let t := { r.1 with staging := r.1.staging ++ new }
      if room < errs.length then
        t.modOp w o.slot fun x => { x with aux := x.aux + room, dropped := x.dropped + room }
      else
        match (r.2.find? fun x => x.2 == 0).map Prod.fst with
        | some b => t.verifyDenied e w b o errs.length
        | none =>
          if all then t.modOp w o.slot fun x => { x with done := x.done + 1, aux := x.aux + errs.length, dropped := 0 }
          else t.verifyDenied e w (base + 64 * n) o errs.length

/-- HEAP_VERIFY. -/
def execHeapVerify : Routed (Fin 8) → State → Out
  | ⟨w, m⟩, s =>
  s.command w.val 8 (fun d i s => s.beginOp w.val d i (s.sheetsOf w.val).length 0) (fun o s => s.verifyWork w.val m o)

/-! ### SCRUB (R492) -/

/-- A counter of the HBM3E controllers, over all stacks. -/
def State.stackTotal (s : State) (i : Nat) : Nat := (upFrom 588 8).foldl (fun t u => t + mget (fun _ => 0) s.tallies (16 * u + i)) 0

/-- RESULT of SCRUB: the corrections and remappings that its reads brought about, which `aux` counts. -/
def scrubResult (o : Op) : BitVec 64 := BitVec.ofNat 64 o.aux

/-- One sheet of a scrub: every line of it is read, so that R67 and R68 act. -/
def State.scrubWork (s : State) (w : Nat) (m : Meets) (o : Op) : State :=
  match (s.sheetsOf w)[o.done]?, s.workEngine w with
  | none, _ => s.endOp w o.slot okSuccess (scrubResult o)
  | some _, none => s
  | some h, some e =>
    let was := s
    s.overSheet e h m fun n s =>
      let new := (s.stackTotal 3 - was.stackTotal 3) + (s.stackTotal 4 - was.stackTotal 4) * 2 ^ 32
      let all := decide (n = sheetBytes / 64)
      let t := s.modOp w o.slot fun x => { x with done := x.done + b2n all, aux := x.aux + new }
      if all then t
      else (t.engineDenied e w (h * sheetBytes + 64 * n)).endOp w o.slot okDenied (scrubResult { o with aux := o.aux + new })

/-- SCRUB. -/
def execScrub : Routed (Fin 8) → State → Out
  | ⟨w, m⟩, s =>
  s.command w.val 9 (fun d i s => s.beginOp w.val d i (s.sheetsOf w.val).length 0) (fun o s => s.scrubWork w.val m o)

end Sys2Proof.Machine
end

