-- ==== Sys2Proof/Machine/Close.lean ====
section
/-! DEFINITION. The tick and the close of a stroke (R405 to R421, R450, R454): the fence, what each unit's close does, close
reports, fault reports, the late report, and the check of a staged Rubric table (R350). -/

namespace Sys2Proof.Machine

/-! ### Trace records (R586) -/

/-- A trace record of an enabled source enters the export buffer, or is counted as dropped. -/
def State.traceRec (s : State) (typ bit : Nat) (pay : BitVec 64) : State :=
  if !s.tracing || !(s.reg32 pgDBG).getLsbD bit then s
  else
    let head (t : Nat) : List Byte := leBytes 1 t ++ leBytes 1 s.stroke.attempt ++ leBytes 6 s.stroke.num
    let d := s.dbg
    let drop := if d.dropped = 0 then [] else [head 7 ++ leBytes 8 d.dropped]
    if 64 < d.trace.length + 1 + drop.length then
      { s with dbg := { d with dropped := d.dropped + 1, drops := (d.drops + 1) % 2 ^ 32 } }
    else { s with dbg := { d with trace := d.trace ++ drop ++ [head typ ++ leBytes 8 pay.toNat], dropped := 0 } }

/-- What one cycle is counted as: a nib's state, and each engine's assignment to a ward (Table 11-12). -/
def State.tallyCycle (s : State) : State :=
  let s := s.nibs.foldl (fun s e => if e.2.active then s.tallyCycles e.1 1 else s) s
  (upFrom 0 16).foldl (fun s e => if (s.engineWard e).isSome then s.count (544 + e) 5 else s) s

/-- One hub cycle in which no command waits: the counter advances, units count the cycle, and the trace output takes a record (log 7). -/
def State.idleCycle (s : State) : State :=
  let s := { s.tallyCycle with hub := s.hub + 1 }
  match s.dbg.trace with
  | [] => s
  | r :: rest => { s with dbg := { s.dbg with trace := rest } }.emit (.trace r)

/-! ### The staged Rubric table (R350) -/

/-- The region in which an entry of a kind must lie (Table 09-5). -/
def kindRange (k : Nat) : Nat × Nat :=
  match k with
  | 0 => (0, heapEnd)
  | 1 => (0, heapEnd)
  | 2 => (heapEnd, palEnd)
  | 3 => (palEnd, sysEnd)
  | _ => (devBase, devEnd)

/-- Check 1. -/
def RubEnt.formOk (e : RubEnt) : Bool :=
  let r := kindRange e.kind
  decide (e.kind ≤ 4) && decide (e.first < e.past) && decide (r.1 ≤ e.first) && decide (e.past ≤ r.2)
    && e.attr &&& ~~~rubAttrMask == 0

/-- Check 2. -/
def RubEnt.maskOk (e : RubEnt) (steward : Option Nat) : Bool :=
  let wards := (upFrom 0 8).filter fun w => e.mask.getLsbD w
  let within (a b : Nat) : Bool := decide (a ≤ e.first) && decide (e.past ≤ b)
  let offPcb : Bool := decide (e.past ≤ pgPCB 0) || decide (pgPCB 8 ≤ e.first)
  match e.kind with
  | 2 => wards.isEmpty
  | 3 => wards.isEmpty
  | 4 => wards.all fun w =>
      within (window w) (window w + 0x10000) || (steward == some w && within devBase (devBase + 0x100000) && offPcb)
  | _ => true

def RubEnt.meets (e f : RubEnt) : Bool := decide (e.first < f.past) && decide (f.first < e.past)

/-- The first pair of entries that share a line. -/
def firstOverlap : Map RubEnt → Option (Nat × Nat)
  | [] => none
  | e :: es => match es.find? fun f => e.2.meets f.2 with
    | some f => some (e.1, f.1)
    | none => firstOverlap es

/-- RUB.STATUS fields of a table's check (Table 09-8). -/
def rubResult (r a b : Nat) : BitVec 32 := BitVec.ofNat 32 (r * 2 ^ 28 + a * 2 ^ 17 + b * 2 ^ 8)

/-- The checks of R350 in order, on a staged table. -/
def State.rubCheck (s : State) (t : Map RubEnt) : BitVec 32 :=
  let v := t.filter fun e => e.2.valid
  let locks := s.rubActive.filter fun e => e.2.valid && e.2.lock
  match v.find? fun e => !e.2.formOk with
  | some e => rubResult 2 e.1 0
  | none => match v.find? fun e => !e.2.maskOk s.stewardWard with
    | some e => rubResult 3 e.1 0
    | none => match firstOverlap v with
      | some p => rubResult 4 p.1 p.2
      | none => match (if s.boot.life = 3 then locks.find? fun e => !(t.any fun f => f.2 == e.2) else none) with
        | some e => rubResult 5 e.1 0
        | none => rubResult 1 0 0

/-! ### The tick (R405, R411, R450, R454) -/

/-- The APPLY that a staged register obeys: a ward window's, or the device's (8). -/
def applyOf (a : Nat) : Nat :=
  let b := a % 2 ^ 41
  if window 0 ≤ b ∧ b < window 8 then (b - window 0) / 0x10000 else 8

/-- Every pending APPLY captures the staged values present. -/
def State.captureApplies (s : State) : State :=
  (upFrom 0 9).foldl (fun s k =>
    let p := s.apply' k
    if p.pend then
      { s with applies := mset s.applies k
                 { pend := false, captured := true, vals := s.staged.filter fun e => applyOf e.1 == k } }
    else s) s

/-- A counter of a unit. Of a nib's cycles with no issue the tally holds those that its clock does not give: the count of a nib that is
gated off, and for a spare, to be taken off, the cycles before it served. -/
def State.counter (s : State) (u i : Nat) : Nat :=
  let v := mget (fun _ => 0) s.tallies (u * 16 + i)
  if u < 544 ∧ i = 2 ∧ (s.nib u).active then (v + s.noIssue u) % 2 ^ 64 else v

/-- The counters of a unit join the snapshot that the close captures. -/
def State.captureUnit (s : State) (u : Nat) : State :=
  let cs := (upFrom 0 16).foldl (fun m i => mput (fun _ => 0) m (u * 16 + i) (s.counter u i)) s.capture.counts
  { s with capture := { s.capture with counts := cs } }

/-- The tick's cause holds: a short stroke's threshold, shed level 5 or an ordered turn-off (R405, R432). -/
def State.tickDue (s : State) (c : TickCause) : Bool :=
  match c with
  | .period => true
  | .short => s.shortDue
  | .early => s.power.l5 || s.power.turnOff

/-- STROKE_TICK. A void that is due comes first. -/
def execStrokeTick (cause : TickCause) (s : State) : Out :=
  if s.stroke.phase ≠ .opened ∨ s.stroke.voided ∨ !s.tickDue cause then .next s
  else
    let short := cause == TickCause.short
    let s := { s with stroke := { s.stroke with phase := .closing, tickAt := s.hub, short := short, early := cause == TickCause.early,
                                                reports := [], shorts := s.stroke.shorts + b2n short },
                      capture := { num := s.stroke.num, counts := [], assign := s.assign } }
    let s := (upFrom 580 8).foldl (fun s u => s.captureUnit u) (s.captureApplies)
    let s := if short then s.setFlags (pgSTK + 0x1C) 2 else s
    if (s.apply' 8).captured then
      .next { s with stroke := { s.stroke with rubOk := some (s.rubCheck s.rubStaged), rubTable := s.rubStaged } }
    else .next s

/-! ### Closing a nib (R412, R413, R268, R319) -/

/-- Number of set bits. -/
def popcount {w : Nat} (x : BitVec w) : Nat := ((upFrom 0 w).filter fun i => x.getLsbD i).length

/-- A context that the fence must wait for: a STEADY region, an unfinished level change, an awaited answer, a routine that runs to
its END, or one that runs on to its next check point (R236, R246, R268, R412). -/
def Context.delaysClose (x : Context) : Bool :=
  x.state != stIdle && x.state != stFrozen
    && (x.stdy || x.xfer.isSome || x.bare || (x.inRoutine && x.parked.isNone && x.state == stRunning)
      || (x.parked.any fun p => match p.why with
        | .answer _ => true
        | _ => false))

/-- The spill engine of a context writes its frames before the close; frames it cannot write, for a failure or for want of log room,
stay with the context (R242, R412, R432). -/
def State.spills (s : State) (n c : Nat) : Bool :=
  let x := s.ctx n c
  !x.frames.isEmpty && !x.spillHeld && s.roomFor 1

/-- The running context has no trap due, which comes before the fence (R230). -/
def State.trapFree (s : State) (n : Nat) : Bool :=
  match (s.nib n).running with
  | some c => !(s.ctx n c).faultsDue && !s.checkDue n c
  | none => true

/-- A held write is the store of nib n with a number. -/
def HeldWrite.isStore (h : HeldWrite) (n q : Nat) : Bool :=
  match h with
  | .store m e => m == n && e.seq == q
  | _ => false

/-- Every store of the nib is acknowledged, dropped or held for want of log room; its shadow writer has finished (R412, R428,
R432). -/
def State.nibQuiet (s : State) (n : Nat) : Bool :=
  let b := s.nib n
  b.storeBuf.isEmpty && (b.tracker.all fun e => s.heldWrites.any fun h => h.isStore n e.seq)
    && !(s.imagePending.any fun p => p.1 == n) && s.trapFree n
    && (upFrom 0 32).all fun c => !(s.ctx n c).delaysClose && !s.spills n c

/-- A context closes: a routine micro-traps at its last check point, an access, a WAIT or a routine that has passed none is given up,
results land. -/
def State.closeCtx (s : State) (n c : Nat) : State :=
  let x := s.ctx n c
  let stops := x.parked.isSome || x.waiting.isSome || (x.routine.isSome && x.trappable.isNone)
  let s := s.microTrap n c
  let x := s.ctx n c
  if stops || !x.inflight.isEmpty || x.blockAns.isSome || x.fetchGot.isSome then
    let y := x.giveUp.settle (c == 0) (s.now n + 64)
    (s.setCtx n c (if stops then y.setState stReady else y)).dropAnswers n c
  else s

/-- Lines that a context's close copies: dirty groups and dirty state lines (R426). -/
def Context.dirtyLines (x : Context) : List Nat :=
  ((upFrom 0 18).filter fun g => x.dirty.getLsbD g) ++ ((upFrom 0 12).filter fun k => x.stateDirty.getLsbD k).map fun k => 18 + k

/-- The dirty lines of a nib's contexts, as the image names them. -/
def State.nibLines (s : State) (n : Nat) : List (Nat × Nat × Nat) :=
  (upFrom 0 32).flatMap fun c => (s.ctx n c).dirtyLines.map fun k => (n, c, k)

/-- Every dirty bit clears. -/
def Context.clean (x : Context) : Context := { x with dirty := 0, stateDirty := 0 }

/-- A nib copies its dirty lines into the banks that are not selected, and their bits clear (R412 step 6, R426). A bank's line holds
what its context holds from here to the commit; the selected banks are State.ckpt (log 79). -/
def State.copyShadow (s : State) (n : Nat) : State :=
  let ls := s.nibLines n
  { (ls.map fun e => e.2.1).eraseDups.foldl (fun s c => s.modCtx n c Context.clean) s with shadowDue := s.shadowDue ++ ls }

/-- A nib closes (R412). -/
def State.closeNib (s : State) (n : Nat) : State :=
  let s := (upFrom 0 32).foldl (fun s c => s.closeCtx n c) s
  let s := (s.nib n).shade.foldl (fun s g => s.pushGrey (s.xlWard n) (.word g.1 g.2)) s
  (s.modNib n fun b => { b with closed := true, shade := [] }).copyShadow n

/-- Lines that a nib's close copied. -/
def State.linesOf (s : State) (n : Nat) : Nat := (s.shadowDue.filter fun e => e.1 == n).length

/-! ### Close reports (R415 to R418, Table 11-2, Table 11-3) -/

/-- The power domain of a unit. -/
def unitDomain (u : Nat) : Option Nat :=
  if u < 544 then some (colDomain u)
  else if u < 560 then some (52 + (u - 544) / 4)
  else if u < 564 then some (32 + (u - 560))
  else if u < 572 then some (32 + (u - 564) / 2)
  else if u < 580 then some (56 + (u - 572) % 2)
  else if u < 588 then some (44 + (u - 580))
  else if u < 596 then some (36 + (u - 588))
  else if u < 598 then some (56 + (u - 596))
  else if u = 598 ∨ u = 603 then some 56
  else if u = 601 then none
  else some 61

/-- A unit of a domain that was switched off does not report until a rollback has taken the loss in (R533). -/
def State.silent (s : State) (u : Nat) : Bool :=
  match unitDomain u with
  | none => false
  | some d => !s.domain d && !s.power.lost.getLsbD d

/-- Lists of k elements each, n of them. -/
def chunksOf {α : Type} (k : Nat) : Nat → List α → List (List α)
  | 0, _ => []
  | n + 1, l => l.take k :: chunksOf k n (l.drop k)

/-- Lines of an attempt's journal: index lines of eight entries, and data lines of 64 bytes (R414). -/
def indexLines (js : List JInput) : Nat := (js.length + 7) / 8
def JInput.dataLines : JInput → Nat
  | .data _ bs => (bs.length + 63) / 64
  | _ => 0

/-- Journal lines that a port wrote for the attempt. -/
def State.journalLines (s : State) (p : Nat) : Nat :=
  let js := s.journalOf p
  indexLines js + js.foldl (fun t j => t + j.dataLines) 0

/-- An input as its index line's private entry tells it. -/
def JInput.fields : JInput → List (BitVec 64)
  | .doorbell w r t => [0, BitVec.ofNat 64 w, BitVec.ofNat 64 r, BitVec.ofNat 64 t]
  | .data a bs => [1, BitVec.ofNat 64 a, BitVec.ofNat 64 bs.length]
  | .fail a n => [2, BitVec.ofNat 64 a, BitVec.ofNat 64 n]

/-- The journal as lines of words. -/
def journalImage (js : List JInput) : List (List Word) :=
  (chunksOf 8 (indexLines js) js).map (fun c => privateWords (c.flatMap JInput.fields) 8)
    ++ js.flatMap fun j => match j with
      | .data _ bs => (chunksOf 64 j.dataLines bs).map (rawWords 8)
      | _ => []

/-- Port P's part of the input journal area (Table 01-4); its layout is the model's (DESIGN CHOICE, log 28). -/
def inputAddr (p i : Nat) : Nat := 0x4420000000 + 0x4000000 * p + 64 * (i % 0x100000)

/-- A port seals its journal: its lines are written as a fixed-range writer (R21, R414). -/
def State.sealJournal (s : State) (p : Nat) : State :=
  let ls := journalImage (s.journalOf p)
  (ls.zip (upFrom 0 ls.length)).foldl (fun s e => s.writeFixed (.journal p) (inputAddr p e.2) e.1) s

/-- An engine's checkpoint goes to its line of the ward's collector record, in a private format (R364, Table 11-2, R402). -/
def State.checkpoint (s : State) (e : Nat) : State :=
  match s.engineWard e with
  | none => s
  | some w =>
    let k := s.collOf w
    let l := 0x4448080000 + 0x10000 * w + 64 * e
    let fields := [k.cycle, k.greyAt, k.grey.length, k.roots.length, k.scans.headD 0, k.parsing.headD 0].map (BitVec.ofNat 64)
    if s.mayBy (some e) .write l then ((s.logLine l).putLine l 0 (privateWords fields 8)).changed l none else s.engineDenied e w l

/-- A report word: UNIT, STATUS, SEQ and COUNT (Table 11-3). -/
def State.reportWord (s : State) (u status n : Nat) : BitVec 64 :=
  BitVec.ofNat 64 (u * 2 ^ 54 + status * 2 ^ 52 + s.stroke.num % 2 ^ 16 * 2 ^ 36 + n % 2 ^ 24)

/-- A unit's report enters its slot, with its counters; a port's counters were taken at the tick (R450, R454). -/
def State.report (s : State) (u status n : Nat) : State :=
  let s := { s with stroke := { s.stroke with reports := mset s.stroke.reports u (s.reportWord u status n) } }
  if 580 ≤ u ∧ u < 588 then s else s.captureUnit u

/-- A spare or gated nib, a port whose domain is off, a failed link's end (Table 11-2). -/
def State.gatedUnit (s : State) (u : Nat) : Bool :=
  if u < 544 then !(s.nib u).active
  else if 564 ≤ u ∧ u < 572 then s.linksFailed.getLsbD (u - 564)
  else if 572 ≤ u ∧ u < 580 then s.linksFailed.getLsbD (u - 572)
  else decide (580 ≤ u ∧ u < 588) && !s.domain (44 + (u - 580))

/-! ### The reduction tree (R419, R420) -/

/-- A close report as a node combines it: units, whether each closed or was gated, and the sum of COUNT. -/
structure Combined where
  units : Nat
  closed : Bool
  count : Nat
  deriving DecidableEq, Repr

/-- A node combines its slots once all are filled. -/
def combine : List (Option Combined) → Option Combined
  | [] => some ⟨0, true, 0⟩
  | none :: _ => none
  | some a :: r => (combine r).map fun b => ⟨a.units + b.units, a.closed && b.closed, a.count + b.count⟩

/-- The close report in a unit's slot. -/
def State.slotOf (s : State) (u : Nat) : Option Combined :=
  let v := mget (fun _ => 0) s.stroke.reports u
  if s.reported u then some ⟨1, decide (bits v 52 2 ≤ 1), bits v 0 24⟩ else none

def State.columnNode (s : State) (l c : Nat) : Option Combined := combine ((upFrom (136 * l + 17 * c) 17).map s.slotOf)

/-- A leaf's 8 columns, 4 engines, uncore and 2 link ends. -/
def State.leafNode (s : State) (l : Nat) : Option Combined :=
  combine ((upFrom 0 8).map (s.columnNode l) ++ (upFrom (544 + 4 * l) 4).map s.slotOf ++ s.slotOf (560 + l)
    :: (upFrom (564 + 2 * l) 2).map s.slotOf)

/-- A leaf's result reaches the root over link 0 of the leaf, or the surviving link (R18). -/
def State.leafResult (s : State) (l : Nat) : Option Combined :=
  if s.linksFailed.getLsbD (2 * l) && s.linksFailed.getLsbD (2 * l + 1) then none else s.leafNode l

/-- The root's 36 inputs. -/
def State.rootNode (s : State) : Option Combined :=
  combine ((upFrom 0 4).map s.leafResult ++ (upFrom 572 8).map s.slotOf ++ (upFrom 580 24).map s.slotOf)

/-- CLOSE_REPORT of a unit whose close is done; a gated unit reports at once, and a link end when its re-send buffer holds no block
(R17, Table 11-2). -/
def execCloseReport (u : Fin 604) (s : State) : Out :=
  let u := u.val
  if s.stroke.phase ≠ .closing ∨ s.stroke.voided ∨ s.reported u ∨ s.silent u then .next s
  else if s.gatedUnit u then .next (s.report u 0 0)
  else if u < 544 then
    (if s.nibQuiet u then .next ((s.closeNib u).report u 1 ((s.closeNib u).linesOf u)) else .next s)
  else if u < 560 then .next ((s.checkpoint (u - 544)).report u 1 (b2n (s.engineWard (u - 544)).isSome))
  else if 564 ≤ u ∧ u < 580 ∧ s.resending u then .next s
  else if 580 ≤ u ∧ u < 588 then
    let k := s.journalLines (u - 580)
    .next (((s.sealJournal (u - 580)).count u 8 k).report u 1 k)
  else if u = 598 then
    (if (upFrom 0 604).all fun v => v == 598 || s.reported v then .next (s.report u 1 0) else .next s)
  else .next (s.report u 1 0)

/-- CLOSE_TIMEOUT: the lowest-numbered unit that has not reported is named (R415). -/
def execCloseTimeout (s : State) : Out :=
  if s.stroke.phase ≠ .closing then .next s
  else match (upFrom 0 604).find? fun u => !s.reported u with
    | none => .next s
    | some u => .next (s.detect u .colophon)

/-- The comparators of a fixed-range writer disagree over a line: its unit sends that line no write in this attempt (R21;
DESIGN CHOICE, log 88). -/
def State.noteMisfit (s : State) (u : Nat) (c : McCause) : State :=
  match c with
  | .vote l a =>
    if l = 0xFE ∧ !s.stroke.misfits.contains (u, lineOf a.toNat) then
      { s with stroke := { s.stroke with misfits := s.stroke.misfits ++ [(u, lineOf a.toNat)] } }
    else s
  | _ => s

/-- FAULT_REPORT: the root acts on the first (R421, R425). -/
def execFaultReport (u : Fin 605) (c : McCause) (s : State) : Out :=
  if s.stroke.phase = .boot ∨ s.stroke.phase = .failed ∨ s.power.off then .next s
  else .next ((s.noteMisfit u.val c).detect u.val c)

end Sys2Proof.Machine
end

