-- ==== Sys2Proof/Machine/Execute.lean ====
section
/-! DEFINITION. The meaning of each instruction row: the word that its fields spell (Table 03-5, Table 03-10) issues with its plan. -/

namespace Sys2Proof.Machine

/-- NOP, and any word that no other row names. -/
def execNop (q : Issue) (w : BitVec 32) (s : State) : Out := if nopWord w then issue q w none (planNop w) s else .next s

def execMov (q : Issue) (f : FR) (s : State) : Out := issue q (wordR 0x01 f) none (planMov f) s
def execMovi (q : Issue) (f : FI) (s : State) : Out := issue q (wordI 0x02 f) none (planMovi f) s
def execLui (q : Issue) (f : FU) (s : State) : Out := issue q (wordU 0x03 f) none (planLui f) s
def execTypeof (q : Issue) (f : FR) (s : State) : Out := issue q (wordR 0x04 f) none (planTypeof f) s
def execRetag (q : Issue) (f : FR) (s : State) : Out := issue q (wordR 0x05 f) none (planRetag f) s
def execTtest (q : Issue) (f : FR) (s : State) : Out := issue q (wordR 0x06 f) none (planTtest f) s
def execPretag (q : Issue) (f : FR) (s : State) : Out := issue q (wordR 0x7C f) none (planPretag f) s
def execStr (q : Issue) (f : FR) (s : State) : Out := issue q (wordR 0x76 f) none (planStr f) s
def execStw (q : Issue) (f : FR) (s : State) : Out := issue q (wordR 0x77 f) none (planStw f) s
def execSvr (q : Issue) (f : FI) (s : State) : Out := issue q (wordI 0x7D f) none (planSvr f) s
def execSvw (q : Issue) (f : FI) (s : State) : Out := issue q (wordI 0x7E f) none (planSvw f) s
def execIadd (q : Issue) (f : FR) (s : State) : Out := issue q (wordR 0x10 f) none (planIadd f) s
def execIsub (q : Issue) (f : FR) (s : State) : Out := issue q (wordR 0x11 f) none (planIsub f) s
def execAnd (q : Issue) (f : FR) (s : State) : Out := issue q (wordR 0x14 f) none (planAnd f) s
def execOr (q : Issue) (f : FR) (s : State) : Out := issue q (wordR 0x15 f) none (planOr f) s
def execXor (q : Issue) (f : FR) (s : State) : Out := issue q (wordR 0x16 f) none (planXor f) s
def execShift (q : Issue) (f : FR) (s : State) : Out := issue q (wordR 0x17 f) none (planShift f) s
def execIaddi (q : Issue) (f : FI) (s : State) : Out := issue q (wordI 0x18 f) none (planIaddi f) s
def execAndi (q : Issue) (f : FI) (s : State) : Out := issue q (wordI 0x19 f) none (planAndi f) s
def execOri (q : Issue) (f : FI) (s : State) : Out := issue q (wordI 0x1A f) none (planOri f) s
def execXori (q : Issue) (f : FI) (s : State) : Out := issue q (wordI 0x1B f) none (planXori f) s
def execShifti (q : Issue) (f : FI) (s : State) : Out := issue q (wordI 0x1C f) none (planShifti f) s
def execIcmp (q : Issue) (f : FR) (s : State) : Out := issue q (wordR 0x1D f) none (planIcmp f) s
def execEq (q : Issue) (f : FR) (s : State) : Out := issue q (wordR 0x1E f) none (planEq f) s
def execImul (q : Issue) (f : FR) (s : State) : Out := issue q (wordR 0x12 f) none (planImul f) s
def execMulh (q : Issue) (f : FR) (s : State) : Out := issue q (wordR 0x13 f) none (planMulh f) s
def execIdiv (q : Issue) (f : FR) (s : State) : Out := issue q (wordR 0x1F f) none (planIdiv f) s
def execAdd (q : Issue) (f : FR) (s : State) : Out := issue q (wordR 0x08 f) none (planAdd f) s
def execSub (q : Issue) (f : FR) (s : State) : Out := issue q (wordR 0x09 f) none (planSub f) s
def execMul (q : Issue) (f : FR) (s : State) : Out := issue q (wordR 0x0A f) none (planMul f) s
def execAddi (q : Issue) (f : FI) (s : State) : Out := issue q (wordI 0x0D f) none (planAddi f) s
def execEql (q : Issue) (f : FR) (s : State) : Out := issue q (wordR 0x0E f) none (planEql f) s
def execLess (q : Issue) (f : FR) (s : State) : Out := issue q (wordR 0x0F f) none (planLess f) s
def execDiv (q : Issue) (f : FR) (s : State) : Out := issue q (wordR 0x0B f) none (planDiv f) s
def execRem (q : Issue) (f : FR) (s : State) : Out := issue q (wordR 0x0C f) none (planRem f) s
def execFadd (q : Issue) (f : FR) (s : State) : Out := issue q (wordR 0x20 f) none (planFadd f) s
def execFsub (q : Issue) (f : FR) (s : State) : Out := issue q (wordR 0x21 f) none (planFsub f) s
def execFmul (q : Issue) (f : FR) (s : State) : Out := issue q (wordR 0x22 f) none (planFmul f) s
def execFma (q : Issue) (f : FR) (s : State) : Out := issue q (wordR 0x23 f) none (planFma f) s
def execFnma (q : Issue) (f : FR) (s : State) : Out := issue q (wordR 0x24 f) none (planFnma f) s
def execFcmp (q : Issue) (f : FR) (s : State) : Out := issue q (wordR 0x25 f) none (planFcmp f) s
def execFcvt (q : Issue) (f : FR) (s : State) : Out := issue q (wordR 0x26 f) none (planFcvt f) s
def execFmisc (q : Issue) (f : FR) (s : State) : Out := issue q (wordR 0x27 f) none (planFmisc f) s
def execBeq (q : Issue) (f : FB) (s : State) : Out := issue q (wordB 0x30 f) none (planBeq f) s
def execBne (q : Issue) (f : FB) (s : State) : Out := issue q (wordB 0x31 f) none (planBne f) s
def execBlt (q : Issue) (f : FB) (s : State) : Out := issue q (wordB 0x32 f) none (planBlt f) s
def execBge (q : Issue) (f : FB) (s : State) : Out := issue q (wordB 0x33 f) none (planBge f) s
def execBltu (q : Issue) (f : FB) (s : State) : Out := issue q (wordB 0x34 f) none (planBltu f) s
def execBgeu (q : Issue) (f : FB) (s : State) : Out := issue q (wordB 0x35 f) none (planBgeu f) s
def execBtype (q : Issue) (f : FB) (s : State) : Out := issue q (wordB 0x36 f) none (planBtype f) s
def execBntype (q : Issue) (f : FB) (s : State) : Out := issue q (wordB 0x37 f) none (planBntype f) s
def execBnil (q : Issue) (f : FB) (s : State) : Out := issue q (wordB 0x3D f) none (planBnil f) s
def execBnnil (q : Issue) (f : FB) (s : State) : Out := issue q (wordB 0x3E f) none (planBnnil f) s
def execBr (q : Issue) (disp : BitVec 25) (s : State) : Out := issue q (wordJ 0x38 disp) none (planBr disp) s
def execJmpr (q : Issue) (f : FR) (s : State) : Out := issue q (wordR 0x3B f) none (planJmpr f) s
def execCall (q : Issue) (disp : BitVec 25) (s : State) : Out := issue q (wordJ 0x39 disp) none (planCall disp) s
def execCallr (q : Issue) (f : FR) (s : State) : Out := issue q (wordR 0x3A f) none (planCallr f) s
def execRet (q : Issue) (f : FR) (s : State) : Out := issue q (wordR 0x3C f) none (planRet f) s
def execGate (q : Issue) (f : FR) (s : State) : Out := issue q (wordR 0x68 f) none (planGate f) s
def execGret (q : Issue) (f : FR) (s : State) : Out := issue q (wordR 0x69 f) none (planGret f) s
def execLdx (q : Issue) (f : FR) (s : State) : Out := issue q (wordR 0x40 f) none (planLdx f) s
def execLdi (q : Issue) (f : FI) (s : State) : Out := issue q (wordI 0x41 f) none (planLdi f) s
def execStx (q : Issue) (f : FR) (s : State) : Out := issue q (wordR 0x42 f) none (planStx f) s
def execSti (q : Issue) (f : FI) (s : State) : Out := issue q (wordI 0x43 f) none (planSti f) s
def execLdbx (q : Issue) (f : FR) (s : State) : Out := issue q (wordR 0x44 f) none (planLdbx f) s
def execStbx (q : Issue) (f : FR) (s : State) : Out := issue q (wordR 0x45 f) none (planStbx f) s
def execLdv (q : Issue) (f : FI) (s : State) : Out := issue q (wordI 0x46 f) none (planLdv f) s
def execStv (q : Issue) (f : FI) (s : State) : Out := issue q (wordI 0x47 f) none (planStv f) s
def execHdrq (q : Issue) (f : FR) (s : State) : Out := issue q (wordR 0x07 f) none (planHdrq f) s
def execFreeze (q : Issue) (f : FR) (s : State) : Out := issue q (wordR 0x5A f) none (planFreeze f) s
def execCld (q : Issue) (f : FI) (s : State) : Out := issue q (wordI 0x48 f) none (planCld f) s
def execCst (q : Issue) (f : FI) (s : State) : Out := issue q (wordI 0x49 f) none (planCst f) s
def execCldc (q : Issue) (f : FI) (s : State) : Out := issue q (wordI 0x4A f) none (planCldc f) s
def execCstc (q : Issue) (f : FI) (s : State) : Out := issue q (wordI 0x4B f) none (planCstc f) s
def execCldx (q : Issue) (f : FR) (s : State) : Out := issue q (wordR 0x4C f) none (planCldx f) s
def execCstx (q : Issue) (f : FR) (s : State) : Out := issue q (wordR 0x4D f) none (planCstx f) s
def execCar (q : Issue) (f : FR) (s : State) : Out := issue q (wordR 0x50 f) none (planCar f) s
def execCdr (q : Issue) (f : FR) (s : State) : Out := issue q (wordR 0x51 f) none (planCdr f) s
def execRplaca (q : Issue) (f : FR) (s : State) : Out := issue q (wordR 0x54 f) none (planRplaca f) s
def execRplacd (q : Issue) (f : FR) (s : State) : Out := issue q (wordR 0x55 f) none (planRplacd f) s
def execCons (q : Issue) (f : FR) (s : State) : Out := issue q (wordR 0x52 f) none (planCons f) s
def execConsn (q : Issue) (f : FR) (stop : Option Nat) (s : State) : Out := issue q (wordR 0x53 f) stop (planConsn f) s
def execAlloc (q : Issue) (f : FR) (s : State) : Out := issue q (wordR 0x58 f) none (planAlloc f) s
def execAlloci (q : Issue) (f : FI) (s : State) : Out := issue q (wordI 0x59 f) none (planAlloci f) s
def execCbound (q : Issue) (f : FR) (s : State) : Out := issue q (wordR 0x60 f) none (planCbound f) s
def execCperm (q : Issue) (f : FR) (s : State) : Out := issue q (wordR 0x61 f) none (planCperm f) s
def execCinc (q : Issue) (f : FI) (s : State) : Out := issue q (wordI 0x64 f) none (planCinc f) s
def execCget (q : Issue) (f : FR) (s : State) : Out := issue q (wordR 0x65 f) none (planCget f) s
def execCseal (q : Issue) (f : FR) (s : State) : Out := issue q (wordR 0x62 f) none (planCseal f) s
def execCunseal (q : Issue) (f : FR) (s : State) : Out := issue q (wordR 0x63 f) none (planCunseal f) s
def execSavem (q : Issue) (f : FI) (stop : Option Nat) (s : State) : Out := issue q (wordI 0x6A f) stop (planSavem f) s
def execLoadm (q : Issue) (f : FI) (stop : Option Nat) (s : State) : Out := issue q (wordI 0x6B f) stop (planLoadm f) s
def execBcopy (q : Issue) (f : FR) (stop : Option Nat) (s : State) : Out := issue q (wordR 0x6C f) stop (planBcopy f) s
def execBcmp (q : Issue) (f : FR) (stop : Option Nat) (s : State) : Out := issue q (wordR 0x6D f) stop (planBcmp f) s
def execHash (q : Issue) (f : FR) (stop : Option Nat) (s : State) : Out := issue q (wordR 0x6E f) stop (planHash f) s
def execBigstep (q : Issue) (f : FR) (stop : Option Nat) (s : State) : Out := issue q (wordR 0x6F f) stop (planBigstep f) s
def execYield (q : Issue) (f : FR) (s : State) : Out := issue q (wordR 0x70 f) none (planYield f) s
def execWait (q : Issue) (f : FI) (s : State) : Out := issue q (wordI 0x71 f) none (planWait f) s
def execSend (q : Issue) (f : FR) (s : State) : Out := issue q (wordR 0x72 f) none (planSend f) s
def execRecv (q : Issue) (f : FR) (s : State) : Out := issue q (wordR 0x73 f) none (planRecv f) s
def execXr (q : Issue) (f : FI) (s : State) : Out := issue q (wordI 0x74 f) none (planXr f) s
def execXw (q : Issue) (f : FI) (s : State) : Out := issue q (wordI 0x75 f) none (planXw f) s
def execTimer (q : Issue) (f : FR) (s : State) : Out := issue q (wordR 0x7B f) none (planTimer f) s
def execSteady (q : Issue) (f : FI) (s : State) : Out := issue q (wordI 0x7A f) none (planSteady f) s
def execLbar (q : Issue) (f : FZ) (s : State) : Out := issue q (wordZ 0x78 0 f) none (planLbar f) s
def execSbar (q : Issue) (f : FZ) (s : State) : Out := issue q (wordZ 0x78 1 f) none (planSbar f) s
def execFbar (q : Issue) (f : FZ) (s : State) : Out := issue q (wordZ 0x78 2 f) none (planFbar f) s
def execXinvPage (q : Issue) (f : FZ) (s : State) : Out := issue q (wordZ 0x79 0 f) none (planXinvPage f) s
def execXinvWard (q : Issue) (f : FZ) (s : State) : Out := issue q (wordZ 0x79 1 f) none (planXinvWard f) s
def execXinvAll (q : Issue) (f : FZ) (s : State) : Out := issue q (wordZ 0x79 2 f) none (planXinvAll f) s

end Sys2Proof.Machine
end

