-- ==== Sys2Proof/Machine/Boundary.lean ====
section
/-! DEFINITION. What acts at a stroke boundary on a ward's behalf (R460, R471, R494 to R499): link events, operations that
ended, requests, WARD_RESET, FENCE, attestation, and the staged fields of the Rubric, ports, nibs, patch and rings. -/

namespace Sys2Proof.Machine

/-! ### Operations (R496 to R499) -/

/-- RESULT of COLLECT. -/
def State.collectResult (s : State) (w : Nat) : BitVec 64 :=
  let k := s.collOf w
  BitVec.ofNat 64 (k.cycle % 2 ^ 32 + k.releasedSheets % 16384 * 2 ^ 32)

/-- What an operation has done, as its RESULT counts it when it ends early (R499). -/
def State.opResult (s : State) (w : Nat) (o : Op) : BitVec 64 :=
  match descOp o.desc with
  | 1 => imageResult o 0
  | 4 => moveResult o
  | 5 => exportResult o
  | 6 => moveResult o
  | 7 => s.collectResult w
  | 8 => verifyResult o
  | 9 => scrubResult o
  | _ => 0

/-- An operation leaves its slot with a final record; what it has asked a host for is its own, and is not taken by another. -/
def State.closeOp (s : State) (w : Nat) (o : Op) (st : BitVec 8) (res : BitVec 64) : State :=
  let mine (h : HostRead) : Bool := match h.why with
    | .op v k _ => v == w && k == o.slot
    | _ => false
  ({ s with hostReads := s.hostReads.filter fun h => !mine h }.modWard w fun k => { k with ops := k.ops.filter fun x => x.slot != o.slot }).finish
    w o.desc o.idx st res

/-- Operations whose work has ended complete, in the order in which they started (R498). An attestation report leaves with its
record. -/
def State.closeEnded (s : State) (w : Nat) : State :=
  (s.ward w).ops.foldl (fun s o => match o.fin with
    | none => s
    | some f =>
      let s := match (if descOp o.desc = 0xC then o.got0 else none) with
        | some rep => { s with staging := s.staging ++ [Staged.data (s.cmdPort w) (byteField o.desc 8 8) rep false] }
        | none => s
      s.closeOp w o f.1 f.2) s

/-- COLLECT operations of a ward whose cycle has ended: the report, and SUCCESS (R398). -/
def State.endCollects (s : State) (w : Nat) : State :=
  let k := s.collOf w
  if k.phase != .idle || k.start.isSome then s
  else (s.ward w).ops.foldl (fun s o =>
    if descOp o.desc ≠ 7 ∨ o.fin.isSome then s
    else
      let a := byteField o.desc 16 8
      let s := if a = 0 then s
        else { s with staging := s.staging ++ [Staged.data (s.cmdPort w) a (leBytes 8 k.copied ++ leBytes 8 k.live) false] }
      s.endOp w o.slot okSuccess (s.collectResult w)) s

/-! ### Link events (R460) -/

/-- A command moves data through its port: a COLLECT or a HEAP_VERIFY only where it names a report or a list. -/
def movesData (d : List Byte) : Bool :=
  match descOp d with
  | 1 => true
  | 4 => true
  | 5 => true
  | 6 => true
  | 7 => byteField d 16 8 != 0
  | 8 => byteField d 8 8 != 0
  | 0xC => true
  | _ => false

/-- The boundary after a link event of a port. -/
def State.linkBoundary (s : State) (p : Nat) : State :=
  if !(s.port p).linkEv then s
  else
    let s := s.modPort p fun k => { k with linkEv := false }
    match s.bound p with
    | none => s
    | some w =>
      let mine := s.cmdPort w == p
      let s := if mine then (s.ward w).ops.foldl (fun s o =>
          if movesData o.desc then s.endOp w o.slot okHostFault (s.opResult w o) else s) s else s
      let s := if mine then (s.ward w).policyWait.foldl (fun s e => s.finish w e.1 e.2 okHostFault 0)
          (s.modWard w fun k => { k with policyWait := [] }) else s
      let s := (upFrom 0 64).foldl (fun s r =>
        if (s.ring w r).en ∧ (s.ring w r).port = p then (s.disableRing w r 5).ringError w r 3 0x10 else s) s
      { s with hostReads := s.hostReads.filter fun h => h.port != p || h.why == HostPurpose.patch }.wardEvent w 0x10

/-! ### Requests (R494, R498, R499, R558) -/

/-- Range of envelope field i (Table 14-8): offset, length, least and greatest value. -/
def envFields (env : List Byte) : List (Nat × Nat × Nat × Nat) :=
  [(0, 2, 1, 1), (2, 2, 0, 8191), (4, 1, 1, 100), (5, 1, 0, 16), (6, 1, byteField env 5 1, 16), (7, 1, 0, 1), (8, 2, 1, 4096),
   (10, 2, 25, 250), (12, 2, byteField env 10 2, 250), (14, 2, 0, 512), (16, 1, 0, 1), (17, 1, 0, 31), (18, 46, 0, 0)]

/-- The first field out of range, from field i on. -/
def firstBad (env : List Byte) : Nat → List (Nat × Nat × Nat × Nat) → Option Nat
  | _, [] => none
  | i, f :: fs =>
    let v := byteField env f.1 f.2.1
    if v < f.2.2.1 ∨ f.2.2.2 < v then some i else firstBad env (i + 1) fs

def envBad (env : List Byte) : Option Nat := firstBad env 0 (envFields env)

/-- An entry of the decision journal is written, not logged (Table 14-9, R559, R560). -/
def State.journalEntry (s : State) (d : Decision) (outcome : Nat) : State :=
  let i := s.steward.jhead
  let w1 : BitVec 64 := BitVec.ofNat 64 (d.kind.toNat * 2 ^ 56 + d.ward.toNat * 2 ^ 48 + outcome * 2 ^ 40 + i % 2 ^ 32)
  let ws : List (BitVec 64) := [BitVec.ofNat 64 s.stroke.num, w1, d.old, d.new, d.in0, d.in1, d.in2]
  let s := s.writeFixed .steward (journalAddr i) ((ws ++ [ws.foldl (fun a b => a ^^^ b) 0]).map Word.rawOf)
  { s with steward := { s.steward with jhead := i + 1 } }.traceRec 4 4 w1

/-- A ward's collector stops or goes on for a COLLECT operation; a cycle that the Steward started (mode 3) is not the
operation's to stop (R399). -/
def State.collRequest (s : State) (w : Nat) (f : State → State) : State := if (s.collOf w).mode = 3 then s else f s

/-- One request at its turn; COLLECT operations whose cycle a CANCEL ends complete with it (R398, R399). An accepted envelope is journalled
with OLD and NEW 0 (DESIGN CHOICE, log 83). -/
def State.request (s : State) (w : Nat) (q : Request) : State :=
  let fin (s : State) (st : BitVec 8) (v : BitVec 64) : State := s.finish w q.desc q.idx st v
  match q.kind with
  | .policy env =>
    match envBad env with
    | some i => fin s okInvalidField (BitVec.ofNat 64 i)
    | none =>
      let s := s.modWard w fun k => { k with env := env }
      fin (s.journalEntry { kind := 9, ward := BitVec.ofNat 8 w, old := 0, new := 0 } 0) okSuccess 0
  | k =>
    match (s.ward w).ops.find? fun o => o.num == q.num with
    | none => fin s okNotFound 0
    | some o =>
      let c := descOp o.desc
      let idle := decide (c = 7 ∧ (s.collOf w).phase = .idle)
      match k with
      | .resume =>
        let s := if c = 7 then s.collRequest w fun s => s.modColl w fun k => { k with susp := false } else s
        fin (s.modOp w o.slot fun o => { o with susp := false }) okSuccess 0
      | .suspend =>
        if c = 0x11 then fin s okState 0
        else if idle then fin s okSuccess 0
        else
          let s := if c = 7 then s.collRequest w fun s => s.modColl w fun k => { k with susp := true } else s
          fin (s.modOp w o.slot fun o => { o with susp := true }) okSuccess 0
      | _ =>
        if c = 0x11 then fin s okState 0
        else if idle then fin s okSuccess 0
        else
          let s := if c = 7 then s.collRequest w fun s => s.cancelCycle w else s
          let s := s.closeOp w o okCancelled (s.opResult w o)
          fin ((if c = 7 then s.endCollects w else s).closeEnded w) okSuccess 0

/-- The requests of a boundary, which State.ask keeps in the order in which they were fetched (R498). -/
def State.requests (s : State) (w : Nat) : State :=
  let qs := (s.ward w).reqs
  qs.foldl (fun s q => s.request w q) (s.modWard w fun k => { k with reqs := [] })

/-- FENCEs whose earlier descriptors all have their final records released with this commit. -/
def State.endFences (s : State) (w : Nat) : State :=
  let done (s : State) (i : Nat) : Bool := s.staging.any fun x => match x with
    | .record r => r.ward == w && r.idx == some i
    | .data _ _ _ _ => false
  (s.ward w).fences.foldl (fun s e =>
    if (s.ward w).openIdx.any fun i => decide (i < e.2) && !done s i then s
    else (s.modWard w fun k => { k with fences := k.fences.filter fun f => f.2 != e.2 }).finish w e.1 e.2 okSuccess 0) s

/-! ### Clearing contexts and nibs (R128) -/

/-- A context as R128 leaves it. -/
def Context.cleared (x : Context) : Context :=
  { ({} : Context) with dirty := 0x3FFFF, stateDirty := 0xFFF, xinvs := x.xinvs }

def State.clearCtxs (s : State) (n : Nat) : State := (upFrom 1 31).foldl (fun s c => s.modCtx n c Context.cleared) s

/-- A nib's caches, blotter and TLB are emptied. -/
def Nib.emptied (b : Nib) : Nib := { b with l1 := [], blotter := [], icache := [], tlb := [], verdicts := [] }

/-! ### WARD_RESET (R495) -/

/-- The ward's translation returns to its initial map: the entries are written, and the nibs' roots with their TLBs. -/
def State.resetMap (s : State) (w : Nat) : State :=
  let s := (Config.initialTables w).foldl (fun s e =>
    if inSys e.1 then s.asExec .writeT e.1 fun s => s.writeAs (e.1 - e.1 % 8) (.word (Word.mk0 Ty.xlate e.2) .exact) else s) s
  (s.wardNibs w).foldl (fun s n =>
    ((s.setReg (nibPage n) (BitVec.ofNat 32 (Config.wardRoot w) &&& 0xFFFFFE00)).setReg (nibPage n + 4)
      (BitVec.ofNat 32 (Config.wardRoot w / 2 ^ 32 % 256))).modNib n Nib.emptied) s

/-- WARD_RESET acts on its target; o is the operation itself, in ward w. -/
def State.resetWard (s : State) (w t : Nat) (o : Op) : State :=
  let s := (s.wardNibs t).foldl (fun s n => s.clearCtxs n) s
  let s := s.modWard t fun k => { k with wcns := [] }
  let s := (s.ward t).ops.foldl (fun s x =>
    if t = w ∧ x.slot = o.slot then s else s.closeOp t x okReset (s.opResult t x)) s
  let s := (upFrom 1 63).foldl (fun s r => if (s.ring t r).en then s.disableRing t r 6 else s) s
  let s := s.modColl t fun k =>
    { k with phase := .idle, consv := true, frozen := false, susp := false, start := none, restart := false, grey := [], roots := [],
             scans := [], parsing := [] }
  let s := (s.sheetsOf t).foldl (fun s h => s.setDesc h 0 (setBits (s.desc h 0) 60 4 shReleasing &&& ~~~(4#64))) s
  let s := (s.copyRecs.filter fun r => r.ward == t).foldl (fun s r => s.dropRec t r.src) s
  let s := { s with chunks := s.chunks.filter fun c => s.sheetWard (sheetOf c.2.1) != some t }
  let s := (s.setCondemned t fun _ => []).resetMap t
  { s with walkCache := s.walkCache.map fun (e : Nat × List WalkEnt) => (e.1, e.2.filter fun x => x.ward != t) }

/-- WARD_RESET operations of a ward that have not acted act (R495). -/
def State.wardResets (s : State) (w : Nat) : State :=
  (s.ward w).ops.foldl (fun s o =>
    if descOp o.desc ≠ 0x11 ∨ o.fin.isSome ∨ o.aux ≠ 0 then s
    else (s.resetWard w (byteField o.desc 8 1) o).modOp w o.slot fun x => { x with aux := 1 }) s

/-- WARD_RESET operations that acted end once every sheet of the target is FREE. -/
def State.wardResetsDone (s : State) (w : Nat) : State :=
  (s.ward w).ops.foldl (fun s o =>
    if descOp o.desc ≠ 0x11 ∨ o.fin.isSome ∨ o.aux = 0 then s
    else
      let t := byteField o.desc 8 1
      let free := (s.sheetsIn t shFree).length
      let s := s.modOp w o.slot fun x => { x with done := free }
      if (s.sheetsOf t).length = free then s.endOp w o.slot okSuccess 0 else s) s

/-! ### Operation slots (Table 12-13) -/

/-- OPS registers of one slot. -/
def State.publishSlot (s : State) (w i : Nat) : State :=
  let b := window w + 0x3000 + 16 * i
  match (s.ward w).ops.find? fun o => o.slot == i with
  | none => (((s.setReg b 0).setReg (b + 4) 0).setReg (b + 8) 0).setReg (b + 12) 0
  | some o =>
    let c := descOp o.desc
    let k := s.collOf w
    let ph := match k.phase with
      | .idle => 0
      | .mark => 1
      | .evacuate => 2
      | .finish => 3
    let dt : Nat × Nat := if c = 7 then (ph, k.cycle)
      else if c = 0xC then (0, 1)
      else if c ≤ 6 then ((o.done + o.dropped) / 8192, o.total / 8192)
      else (o.done, o.total)
    (((s.setReg b (BitVec.ofNat 32 o.num)).setReg (b + 4)
      (BitVec.ofNat 32 ((if o.susp then 2 else 1) * 2 ^ 28 + c * 65536 + descTag o.desc % 65536))).setReg (b + 8)
        (BitVec.ofNat 32 dt.1)).setReg (b + 12) (BitVec.ofNat 32 dt.2)

def State.publishOps (s : State) (w : Nat) : State := (upFrom 0 16).foldl (fun s i => s.publishSlot w i) s

/-! ### Staged fields of the device (R280, R350 to R353, R467, R549, R550) -/

/-- Every page verdict goes (R337). -/
def State.dropVerdicts (s : State) : State :=
  { s with nibs := s.nibs.map fun (e : Nat × Nib) =>
      (e.1, { e.2 with verdicts := [], tlb := e.2.tlb.map fun (t : TlbEnt) => { t with fall := none, noFall := none } }) }

/-- Word pair of a Rubric entry in the encoding of Table 15-5. -/
def RubEnt.words (e : RubEnt) : List (BitVec 64) :=
  [BitVec.ofNat 64 (e.start.toNat + 2 ^ 32 * e.last.toNat), e.attr.setWidth 64]

/-- The table copy in the system region (R353). -/
def State.rubCopy (s : State) : State :=
  (upFrom 0 128).foldl (fun s k =>
    s.writeFixed .rubric (0x4480000000 + 64 * k) ((upFrom (4 * k) 4).flatMap fun i => (mget rubDefault s.rubActive i).words.map Word.rawOf)) s

/-- The outcome of the check made in the close acts. -/
def State.applyRubric (s : State) : State :=
  match s.stroke.rubOk with
  | none => s
  | some v =>
    let s := (s.setReg (pgRUB + 0x30) v)
    if bits v 28 4 = 1 then { s with rubActive := s.stroke.rubTable }.rubCopy.dropVerdicts
    else s.setFlags (pgRUB + 0x34) 1

/-- VALID of every micro-save slot and MPEND of every ST and SV.ST clear (R280). -/
def Context.noMicro (x : Context) : Context :=
  let off (m : MicroSlot) : MicroSlot := { m with valid := false, routine := none }
  let np (v : SaveSet) : SaveSet := { v with st := setBit v.st 7 false }
  let y := { x with slotU := off x.slotU, slotS := off x.slotS, slotD := off x.slotD, slotM := off x.slotM, st := setBit x.st 7 false,
                    saveS := np x.saveS, saveD := np x.saveD, saveM := np x.saveM }
  if y = x then x else [0, 2, 3, 4, 5, 6].foldl Context.touch y

/-- Match registers: the verified image's when the patch becomes active, disabled when it ends (R275, R280). -/
def State.writeMatches (s : State) (on : Bool) : State :=
  (upFrom 0 64).foldl (fun s i =>
    let a := pgPAT + 0x100 + 4 * i
    s.setReg a (if on then BitVec.ofNat 32 (byteField s.patch.verified (10304 + 4 * i) 4) else s.reg32 a &&& 0x7FFFFFFF)) s

/-- Every match register of a nib is disabled (R280). -/
def PatchStore.disabled (p : PatchStore) : PatchStore := { p with regs := p.regs.map fun r => storedMatch (setBit (r.setWidth 32) 31 false) }

/-- The hub writes a nib's patch RAMs and match registers from the verified image (R280, R282). -/
def State.fillStore (s : State) (b : Nib) : Nib :=
  if s.patch.active then { b with patched := true, store := patchStore s.patch.verified }
  else { b with patched := false, store := b.store.disabled }

/-- PAT.ENABLE acts on every active nib. -/
def State.applyPatch (s : State) (v : BitVec 32) : State :=
  let on := v.getLsbD 0
  let p := s.patch
  if on = p.active ∨ (on ∧ p.state ≠ 3) then s
  else
    let s := { s with patch := { p with active := on, version := if on then BitVec.ofNat 16 (byteField p.verified 8 2) else 0 },
                      ctxs := s.ctxs.map fun (e : Nat × Context) => (e.1, e.2.noMicro) }
    ({ s with nibs := s.nibs.map fun (e : Nat × Nib) => (e.1, if e.2.active then s.fillStore e.2 else e.2) }.setReg (pgPAT + 0x10) v).writeMatches on

/-- The ward that a PRT.BIND value names. -/
def bindWard (v : BitVec 32) : Option Nat := if v.getLsbD 31 then some (bits v 0 3) else none

/-- The ward of a port when staged bindings have acted. -/
def State.boundAfter (s : State) (bs : List (Nat × BitVec 32)) (q : Nat) : Option Nat :=
  match bs.find? fun e => e.1 == q with
  | some e => bindWard e.2
  | none => s.bound q

/-- An enabled ring of the port's ward names it, or it is the steward port: its binding stays (R467). -/
def State.bindStays (s : State) (p : Nat) : Bool :=
  s.boot.steward == p || (match s.bound p with
    | some w => (upFrom 0 64).any fun r => (s.ring w r).en && (s.ring w r).port == p
    | none => false)

/-- The binding to refuse where a ward would have more than two ports: the highest-numbered port that comes to it (DESIGN CHOICE, log 82). -/
def State.thirdPort (s : State) (bs : List (Nat × BitVec 32)) : Option Nat :=
  ((upFrom 0 8).filter fun p =>
    let new := s.boundAfter bs p
    new != s.bound p && new.isSome && decide (2 < ((upFrom 0 8).filter fun q => s.boundAfter bs q == new).length)).getLast?

/-- Bindings are left out until no ward has a third port. -/
def State.twoPorts (s : State) : Nat → List (Nat × BitVec 32) → List (Nat × BitVec 32)
  | 0, bs => bs
  | k + 1, bs =>
    match s.thirdPort bs with
    | none => bs
    | some p => s.twoPorts k (bs.filter fun e => e.1 != p)

/-- The staged bindings that are not refused: judged on the ports as they stand when all of one APPLY have acted (R453, R467). -/
def State.goodBinds (s : State) (bs : List (Nat × BitVec 32)) : List (Nat × BitVec 32) :=
  s.twoPorts 8 (bs.filter fun e => s.bound e.1 == bindWard e.2 || !s.bindStays e.1)

/-- The staged PRT.BIND values of the ports act together. -/
def State.applyBinds (s : State) (bs : List (Nat × BitVec 32)) : State :=
  let good := s.goodBinds bs
  bs.foldl (fun s e =>
    if good.contains e then
      { s with bindRefused := setBit s.bindRefused e.1 false, binds := mput (fun _ => none) s.binds e.1 (bindWard e.2) }.setReg (pgPRT + 0x40 * e.1) e.2
    else { s with bindRefused := setBit s.bindRefused e.1 true }) s

/-- WAS.STATUS of an apply: the first refusal stands. -/
def State.wasResult (s : State) (n reason : Nat) : State :=
  if bits (s.reg32 (pgWAS + 8)) 28 4 = 2 then s
  else s.setReg (pgWAS + 8) (BitVec.ofNat 32 (2 * 2 ^ 28 + n * 65536 + reason))

/-- A nib passes to a ward, or to none: contexts and caches are cleared, XL.ROOT and XL.WARD are written (R128, R325). -/
def State.giveNib (s : State) (n : Nat) (w : Option Nat) : State :=
  let root := match w with
    | some w => s.rootOf w
    | none => 0
  let s := ((s.clearCtxs n).setReg (nibPage n) (BitVec.ofNat 32 root &&& 0xFFFFFE00)).setReg (nibPage n + 4) (BitVec.ofNat 32 (root / 2 ^ 32 % 256))
  let s := s.setReg (nibPage n + 8) (match w with
    | some w => BitVec.ofNat 32 (2 ^ 31 + w)
    | none => 0)
  let vs := match w with
    | some w => (s.sheetsIn w shCondemned).map s.sheetV
    | none => []
  { s with assign := mput (fun _ => none) s.assign n w }.modNib n fun b =>
    { b.emptied with condemned := vs, parkedBy := setBit b.parkedBy 2 w.isNone }

/-- One staged assignment (R549, R550). -/
def State.applyAssign (s : State) (v : BitVec 32) : State :=
  let n := bits v 16 10
  let new := if v.getLsbD 31 then some (bits v 0 3) else none
  if 544 ≤ n ∨ !(s.nib n).active then s.wasResult n 1
  else if s.assigned n = new then s
  else if !((upFrom 1 31).all fun c => (s.ctx n c).state == stIdle) then s.wasResult n 2
  else s.giveNib n new

/-- Every captured device field acts; the Rubric first (R351, R352, R424, R451). -/
def State.applyDevice (s : State) (vals : Map (BitVec 32)) : State :=
  let s := s.applyRubric
  let was := vals.filter fun e => pgWAS + 2 ^ 41 ≤ e.1
  let s := if was.isEmpty then s else s.setReg (pgWAS + 8) 0x10000000
  let isBind (a : Nat) : Bool := decide (pgPRT ≤ a) && decide (a < pgPRT + 0x200)
  let s := s.applyBinds ((vals.filter fun e => isBind e.1).map fun e => ((e.1 - pgPRT) / 0x40, e.2))
  (vals.filter fun e => !isBind e.1).foldl (fun s e =>
    let a := e.1
    if pgWAS + 2 ^ 41 ≤ a then s.applyAssign e.2
    else if a = pgPAT + 0x10 then s.applyPatch e.2
    else s.setReg a e.2) s

/-- Every captured APPLY acts, the device's first; staged entries that act, and assignments, are staged no longer (R450, R451,
R550). -/
def State.applyAll (s : State) : State :=
  (8 :: upFrom 0 8).foldl (fun s k =>
    let p := s.apply' k
    if !p.captured then s
    else
      let s := if k = 8 then s.applyDevice p.vals else (upFrom 0 64).foldl (fun s r => s.applyRing p.vals k r) s
      { s with staged := s.staged.filter fun e => !(p.vals.contains e && (s.reg32 e.1 == e.2 || decide (pgWAS ≤ e.1 ∧ applyOf e.1 = 8 ∧ (e.1 - pgWAS) % 2 ^ 41 = 0))),
               applies := mset s.applies k { s.apply' k with captured := false, vals := [] } }) s

end Sys2Proof.Machine
end

