-- ==== Sys2Proof/Machine/Steward.lean ====
section
/-! DEFINITION. The Steward (R551 to R562) and the shed level at a commit (R534, R537, R538): what it decides from a snapshot,
what each decision does one commit later, and the migration of contexts (R123, R124). -/

namespace Sys2Proof.Machine

/-! ### Migration (R123, R124) -/

/-- Lines of a context's shadow image. -/
def imageLines : List Nat := upFrom 0 30

/-- A context as its destination takes it: every group unfetched; one that ran is READY, and is chosen anew (R123, R124). -/
def Context.moved (x : Context) : Context :=
  let x := if x.state = stRunning then x.setState stReady else x
  { x with unfetched := 0x3FFFF, dirty := 0, stateDirty := 0 }

/-- WCNs bound to a place follow it (R123, R446). -/
def State.remapWcn (s : State) (a b : Nat) : State :=
  { s with wards := s.wards.map fun (e : Nat × Ward) =>
      (e.1, { e.2 with wcns := e.2.wcns.map fun (v : Nat × Nat) => if v.2 = a then (v.1, b) else v }) }

/-- The groups of a context that MARK has still to scan are those of its new place (R371). -/
def State.moveRoots (s : State) (a b : Nat) : State :=
  { s with coll := s.coll.map fun (e : Nat × Coll) =>
      (e.1, { e.2 with roots := e.2.roots.map fun r => if r.1 = a then (b, r.2) else r }) }

/-- Context c of nib n becomes context d of nib m; the destination's image lines are to be written. -/
def State.moveCtx (s : State) (n c m d : Nat) : State :=
  let s := (s.setCtx m d (s.ctx n c).moved).setCtx n c (Context.cleared {})
  { s with imagePending := s.imagePending ++ imageLines.map fun k => (m, d, k) }.remapWcn (key n c) (key m d)
    |>.moveRoots (key n c) (key m d)

/-! ### Counts that decisions use -/

def State.freeCount (s : State) (w : Nat) : Nat := (s.freeSheetsOf w).length
def State.readyCount (s : State) (n : Nat) : Nat := ((upFrom 1 31).filter fun c => (s.ctx n c).state == stReady).length
def State.allIdle (s : State) (n : Nat) : Bool := (upFrom 1 31).all fun c => (s.ctx n c).state == stIdle
/-- Nib and parked bit of the Steward. -/
def State.stewardParked (s : State) (n : Nat) : Bool := (s.nib n).parkedBy.getLsbD 1
def wardByte (w : Nat) : BitVec 8 := BitVec.ofNat 8 w
def n64 (n : Nat) : BitVec 64 := BitVec.ofNat 64 n

/-- A ward for which engines have work: a cycle, sheets to fill, or a HEAP_VERIFY or SCRUB (R397, R487, R495). -/
def State.collecting (s : State) (w : Nat) : Bool :=
  ((s.ward w).ops.any fun o => descOp o.desc == 8 || descOp o.desc == 9) || (s.collOf w).phase != .idle || (s.collOf w).start.isSome || !(s.sheetsIn w shReleasing).isEmpty

/-! ### What the Steward decides (R553 to R556) -/

/-- Cycle starts. -/
def State.decideCycles (s : State) : List Decision :=
  (upFrom 0 8).filterMap fun w =>
    let k := s.collOf w
    let free := s.freeCount w
    let min_ := (s.ward w).envField 2 2
    if !(s.sheetsOf w).isEmpty && decide (free < min_) && k.phase == .idle && k.start.isNone then
      some { kind := 1, ward := wardByte w, old := n64 k.cycle, new := n64 (k.cycle + 1), in0 := n64 free, in1 := n64 min_ }
    else none

/-- Engines in service. -/
def State.engineCount (s : State) : Nat := ((upFrom 0 16).filter fun e => s.domain (52 + e / 4)).length

/-- Step 1 of R553: ENG_MIN each while engines last. -/
def engStep1 : Nat → List (Nat × Nat × Nat) → List (Nat × Nat × Nat)
  | _, [] => []
  | k, (w, lo, hi) :: r => (w, min lo k, hi) :: engStep1 (k - min lo k) r

/-- One round of step 2: one engine to each ward below its maximum. -/
def engRound : Nat → List (Nat × Nat × Nat) → Nat × List (Nat × Nat × Nat)
  | k, [] => (k, [])
  | k, (w, n, hi) :: r =>
    let give := decide (0 < k) && decide (n < hi)
    let q := engRound (k - b2n give) r
    (q.1, (w, n + b2n give, hi) :: q.2)

def engRounds : Nat → Nat → List (Nat × Nat × Nat) → List (Nat × Nat × Nat)
  | 0, _, l => l
  | f + 1, k, l => engRounds f (engRound k l).1 (engRound k l).2

/-- Wards in the order of R553: fewest FREE sheets first, ties by rising number. -/
def State.byFree (s : State) (ws : List Nat) : List Nat :=
  ws.foldl (fun l w => insertSheet (fun a b => decide (s.freeCount a < s.freeCount b) || (s.freeCount a == s.freeCount b && decide (a < b))) w l) []

/-- The engines of each ward. -/
def State.engineShares (s : State) (ws : List Nat) : List (Nat × Nat × Nat) :=
  let l := (s.byFree ws).map fun w => (w, (s.ward w).envField 5 1, (s.ward w).envField 6 1)
  let a := engStep1 s.engineCount l
  engRounds 16 (s.engineCount - a.foldl (fun t e => t + e.2.1) 0) a

def State.decideEngines (s : State) (starts : List Nat) : List Decision :=
  let shares := s.engineShares ((upFrom 0 8).filter fun w => s.collecting w || starts.contains w)
  (upFrom 0 8).filterMap fun w =>
    let new := ((shares.find? fun e => e.1 == w).map fun e => e.2.1).getD 0
    let old := (s.collOf w).engines
    if new = old then none
    else some { kind := 2, ward := wardByte w, old := n64 old, new := n64 new, arg := new, in0 := n64 (s.freeCount w) }

/-- The period that R554 calls for. -/
def State.decidePeriod (s : State) : List Decision :=
  let cur := (s.reg32 pgSTK).toNat
  let lo := (upFrom 0 8).foldl (fun m w => max m ((s.ward w).envField 10 2)) 25
  let hi := (upFrom 0 8).foldl (fun m w => min m ((s.ward w).envField 12 2)) 250
  let want := if s.stroke.short then cur * 9 / 10 else if 8 ≤ s.steward.quiet then cur + 10 else cur
  let new := min hi (max lo want)
  if hi < lo ∨ new = cur then []
  else [{ kind := 3, ward := 0xFF, old := n64 cur, new := n64 new, arg := new, in1 := n64 s.stroke.used }]

/-- A nib to park in each ward that may have one more parked (log 33). -/
def State.decideParks (s : State) : List Decision :=
  (upFrom 0 8).filterMap fun w =>
    let ns := s.nibsOf w
    let parked := (ns.filter s.stewardParked).length
    if parked < (s.ward w).envField 14 2 then
      (ns.find? fun n => (s.nib n).active && s.allIdle n && !s.stewardParked n).map fun n =>
        { kind := 4, ward := wardByte w, old := n64 n, new := n64 n, arg := n, in2 := n64 (s.readyCount n) }
    else none

def State.decideUnparks (s : State) : List Decision :=
  (s.listedNibs.filter fun n => s.stewardParked n && !s.allIdle n).map fun n =>
    { kind := 5, ward := wardByte ((s.assigned n).getD 255), old := n64 n, new := n64 n, arg := n, in2 := n64 (s.readyCount n) }

/-- The wards that a column serves. -/
def State.columnWards (s : State) (col : Nat) : List Nat :=
  (upFrom 0 8).filter fun w => (upFrom (17 * col) 17).any fun n => s.assigned n == some w

/-- Column clocks in GHz: Table 14-9 gives OLD and NEW of this KIND no unit (DESIGN CHOICE, log 83). -/
def State.decideClocks (s : State) : List Decision :=
  (upFrom 0 32).filterMap fun col =>
    let ws := s.columnWards col
    let want := !ws.isEmpty && (ws.all fun w => (s.ward w).envField 16 1 == 1) && decide (s.steward.sincePower < 16)
    let is := (s.nib (17 * col)).slow
    if want = is then none
    else some { kind := 6, ward := 0xFF, old := if is then 2 else 3, new := if want then 2 else 3, arg := col,
                in0 := n64 s.power.vLevel, in1 := n64 s.power.tLevel, in2 := n64 s.power.pLevel }

/-- READY contexts of a nib over the last 16 snapshots (R556). -/
def State.readyOver (s : State) (n : Nat) : Nat := s.steward.readyHist.foldl (fun t m => t + mget (fun _ => 0) m n) 0

/-- A migration of context c of nib n to nib m. -/
def State.migration (s : State) (w n c m : Nat) : Decision :=
  { kind := 7, ward := wardByte w, old := n64 n, new := n64 m, arg := key n c * 1024 + m, in0 := n64 (s.ctx n c).wcn,
    in1 := n64 (s.readyCount n), in2 := n64 (s.readyCount m) }

/-- Contexts of a ward that move: those on parked nibs first, then one from the busiest nib (log 33). -/
def State.decideMoves (s : State) : List Decision :=
  (upFrom 0 8).flatMap fun w =>
    let k := s.ward w
    if k.envField 7 1 = 0 then []
    else
      let ns := s.wardNibs w
      let open_ := ns.filter fun n => (s.nib n).parkedBy == 0 && (upFrom 1 31).any fun c => (s.ctx n c).state == stIdle
      match open_ with
      | [] => []
      | a :: rest =>
        let least := rest.foldl (fun m n => if s.readyOver n < s.readyOver m then n else m) a
        let ready (n : Nat) : List (Nat × Nat) := ((upFrom 1 31).filter fun c => (s.ctx n c).state == stReady).map fun c => (n, c)
        let parked := (ns.filter fun n => (s.nib n).parkedBy != 0).flatMap ready
        let run := ns.filter fun n => (s.nib n).parkedBy == 0
        let most := run.foldl (fun m n => if s.readyOver m < s.readyOver n then n else m) a
        let one := if s.readyOver least < s.readyOver most then (ready most).take 1 else []
        ((parked ++ one).take (k.envField 17 1)).map fun p => s.migration w p.1 p.2 least

/-- The Steward's decisions, each under its bit of SWD.CTRL (R552, R561). -/
def State.stewardDecides (s : State) : List Decision :=
  let v := s.reg32 pgSWD
  let on (b : Nat) (l : List Decision) : List Decision := if v.getLsbD b then l else []
  let cycles := on 4 s.decideCycles
  cycles ++ on 4 (s.decideEngines (cycles.map fun d => d.ward.toNat)) ++ on 0 s.decidePeriod ++ on 1 (s.decideParks ++ s.decideUnparks)
    ++ on 2 s.decideClocks ++ on 3 s.decideMoves

/-! ### What a decision does (R552, R559) -/

/-- Engines are laid out over the wards in turn, those whose group is switched off left out. -/
def State.layEngines (s : State) : State :=
  let want := (upFrom 0 8).flatMap fun w => List.replicate (s.collOf w).engines (w + 1)
  let es := (upFrom 0 16).filter fun e => s.domain (52 + e / 4)
  let pairs := es.zip (want ++ List.replicate 16 0)
  { s with engines := pairs.foldl (fun m p => mput (fun _ => 0) m p.1 p.2) [] }

/-- A decision acts: the state after it, and its OUTCOME; none when what it names is no longer so. -/
def State.act (s : State) (d : Decision) (byHost : Bool) : State × Option Nat :=
  let w := d.ward.toNat
  match d.kind.toNat with
  | 1 => if (s.collOf w).phase = .idle ∧ (s.collOf w).start.isNone then (s.modColl w fun k => { k with start := some 3 }, some 0)
    else (s, none)
  | 2 => if 2 ≤ s.power.level then (s, some 2) else ((s.modColl w fun k => { k with engines := d.arg }).layEngines, some 0)
  | 3 => if byHost then (s, some 1) else (s.setReg pgSTK (BitVec.ofNat 32 d.arg), some 0)
  | 4 => if s.allIdle d.arg ∧ s.assigned d.arg = some w then
      (s.modNib d.arg fun b => { b with parkedBy := setBit b.parkedBy 1 true }, some 0) else (s, none)
  | 5 =>
    if !s.stewardParked d.arg then (s, none)
    else if (s.nib d.arg).parkedBy.getLsbD 0 then (s, some 2)
    else (s.modNib d.arg fun b => { b with parkedBy := setBit b.parkedBy 1 false }, some 0)
  | 6 =>
    if d.new = 3 ∧ 3 ≤ s.power.level then (s, some 2)
    else ((upFrom (17 * d.arg) 17).foldl (fun s n => s.modNib n fun b => { b with slow := d.new == 2 }) s, some 0)
  | 7 =>
    let m := d.arg % 1024
    let n := d.arg / 1024 / 32
    let c := d.arg / 1024 % 32
    if (s.ctx n c).state ≠ stReady ∨ !((s.wardNibs w).contains n && (s.wardNibs w).contains m) then (s, none)
    else if (s.nib m).parkedBy.getLsbD 0 then (s, some 2)
    else match (upFrom 1 31).find? fun c => (s.ctx m c).state == stIdle with
      | none => (s, none)
      | some e => (s.moveCtx n c m e, some 0)
  | _ => (s, none)

/-- Every pending decision acts or is discarded, and is journalled. -/
def State.actAll (s : State) (byHost : Bool) : State :=
  let ds := s.steward.pend
  ds.foldl (fun s d =>
    let r := s.act d byHost
    match r.2 with
    | some o => r.1.journalEntry d o
    | none => r.1) { s with steward := { s.steward with pend := [] } }

/-- Counters that decisions rest on move on with a commit (R554 to R556). -/
def State.stewardCounts (s : State) : State :=
  let k := s.steward
  let quiet := if 4 * s.stroke.used < s.budget then (if 8 ≤ k.quiet then 1 else k.quiet + 1) else 0
  let since := if s.power.pLevel = 0 then min 16 (k.sincePower + 1) else 0
  let ready := s.listedNibs.foldl (fun m n => mput (fun _ => 0) m n (s.readyCount n)) []
  { s with steward := { k with quiet := quiet, sincePower := since, readyHist := (ready :: k.readyHist).take 16 } }

/-! ### The shed level (R534, R537, R538) -/

/-- The highest level confirmed by a trigger. -/
def Power.confirmed (p : Power) : Nat := max p.vLevel (max p.tLevel p.pLevel)

/-- The level that a commit leaves in effect; level 6 is entered as R542 gives. -/
def Power.nextLevel (p : Power) : Nat :=
  let t := min p.confirmed 5
  if p.level ≤ t then t else p.level - 1

/-- The actions of Table 14-4 as a level leaves them: trace domain, engines, parking, port width. -/
def State.shedActions (s : State) (old new : Nat) : State :=
  let d63 := decide (new = 0) && !s.power.lost.getLsbD 63
  let s := { s with power := { s.power with level := new, domains := setBit s.power.domains 63 d63 } }
  let s := (upFrom 0 8).foldl (fun s w => s.modColl w fun k => { k with shedSusp := decide (2 ≤ new) }) s
  if (4 ≤ old) = (4 ≤ new) then s
  else
    let s := (upFrom 0 544).foldl (fun s n =>
      if 8 ≤ posOf n ∧ posOf n < 16 then s.modNib n fun b => { b with parkedBy := setBit b.parkedBy 0 (decide (4 ≤ new)) } else s) s
    (upFrom 0 8).foldl (fun s p => if (s.port p).up then s.modPort p fun k => { k with changing := true } else s) s

/-- ALARM_N and SMBALERT_N as the level in effect changes (R596, R597). -/
def State.levelPins (s : State) (old new : Nat) : State :=
  let rest := s.boot.stopped || s.stroke.phase == .failed || s.power.offBegun
  { s with pins := { s.pins with alarmLow := decide (new = 6) || rest,
                                 alertLow := s.pins.alertLow || (decide (5 ≤ new) && decide (old < new)) } }

/-- A change of the level in effect: its actions, its pins, PWR.EVENT.LEVEL, the journal (R559, R560). -/
def State.setLevel (s : State) (new : Nat) : State :=
  let p := s.power
  if new = p.level then s
  else
    let s := ((s.shedActions p.level new).levelPins p.level new).setFlags (pgPWR + 0x24) 1
    s.journalEntry { kind := 8, ward := 0xFF, old := n64 p.level, new := n64 new, in0 := n64 p.vLevel, in1 := n64 p.tLevel,
                     in2 := n64 p.pLevel } 0

end Sys2Proof.Machine
end

