-- ==== Sys2Proof/Machine/Attest.lean ====
section
/-! DEFINITION. Measurements and attestation reports (R575 to R578). -/

namespace Sys2Proof.Machine

/-- Bytes padded or cut to a length. -/
def fitBytes (n : Nat) (bs : List Byte) : List Byte := (bs ++ List.replicate n 0).take n

/-- A digest of 32 bytes. -/
def digest (bs : List Byte) : List Byte := fitBytes 32 (Config.sha256 bs)

/-- The encoding of a Rubric entry in Table 15-5. -/
def RubEnt.bytes (e : RubEnt) : List Byte :=
  leBytes 4 e.start.toNat ++ leBytes 4 e.last.toNat ++ leBytes 4 e.attr.toNat ++ leBytes 4 0

def rubBytes (t : Map RubEnt) : List Byte := (upFrom 0 512).flatMap fun i => (mget rubDefault t i).bytes

/-- Bytes [a, a + n) of a string. -/
def slice (bs : List Byte) (a n : Nat) : List Byte := (bs.drop a).take n

/-- Section entries of a firmware image: KIND, OFFSET, LENGTH (Table 15-4). -/
def imageSections (img : List Byte) : List (Nat × Nat × Nat) :=
  (upFrom 0 (byteField img 16 2)).map fun i =>
    (byteField img (64 + 16 * i) 2, byteField img (68 + 16 * i) 4, byteField img (72 + 16 * i) 4)

/-- The content of a section, if the image has it. -/
def imageSection (img : List Byte) (kind : Nat) : Option (List Byte) :=
  ((imageSections img).find? fun e => e.1 == kind).map fun e => slice img e.2.1 e.2.2

/-- The Rubric table that a section gives. -/
def sectionRubric (bs : List Byte) : Map RubEnt :=
  (upFrom 0 512).foldl (fun m i => mput rubDefault m i
    { start := BitVec.ofNat 32 (byteField bs (16 * i) 4), last := BitVec.ofNat 32 (byteField bs (16 * i + 4) 4),
      attr := BitVec.ofNat 32 (byteField bs (16 * i + 8) 4) }) []

/-- The envelope that an image's section gives a ward. -/
def sectionEnv (img : List Byte) (w : Nat) : List Byte :=
  match imageSection img 4 with
  | some bs => fitBytes 64 (bs.drop (64 * w))
  | none => envReset

/-- Byte of PRT.STATUS bit 31 and bits [2:0]. -/
def State.portByte (s : State) (p : Nat) : Byte :=
  BitVec.ofNat 8 (b2n (s.boot.done && s.boot.steward == p) * 128 + (s.bound p).getD 0)

/-- Measurements M0 to M4 (Table 15-9); before stroke 1, M2 and M3 are the verified image's (R579). -/
def State.measure (s : State) : List Byte :=
  let img := s.boot.image
  let m1 := if s.patch.active then digest (s.patch.verified.take 10608) else List.replicate 32 0
  let rub := if s.boot.done then rubBytes s.rubActive else rubBytes (sectionRubric ((imageSection img 3).getD []))
  let env := (upFrom 0 8).flatMap fun w => if s.boot.done then fitBytes 64 (s.ward w).env else sectionEnv img w
  let m4 := [BitVec.ofNat 8 s.boot.life.toNat] ++ (upFrom 0 8).map s.portByte ++ [s.dbg.scopeAt.setWidth 8] ++ List.replicate 6 0
  digest (img.take (img.length - 16224)) ++ m1 ++ digest rub ++ digest env ++ digest m4

/-- The report of Table 15-10 for a nonce and the number of the stroke it describes. -/
def State.reportBytes (s : State) (nonce : List Byte) (num : Nat) : List Byte :=
  let body := [0x47, 0x41, 0x54, 0x52] ++ leBytes 2 1 ++ leBytes 2 0x9640 ++ leBytes 1 s.boot.life.toNat
    ++ leBytes 1 s.boot.variant.toNat ++ leBytes 2 s.boot.version.toNat ++ leBytes 2 (if s.patch.active then s.patch.version.toNat else 0)
    ++ leBytes 2 romRev ++ leBytes 8 Config.serial.toNat ++ leBytes 8 num ++ fitBytes 32 nonce
    ++ fitBytes 32 (Config.identityKey Config.identitySeed) ++ s.measure
  body ++ fitBytes 17088 (Config.signs body)

/-- The identity key exists until the first boot in RETURN destroys its seed (R573). -/
def State.hasIdentity (s : State) : Bool := s.boot.life != 4 && !s.boot.seedGone

/-- ATTEST operations that started in the stroke are measured at its commit; their records follow at the next (R573, R578). -/
def State.attestAll (s : State) (w num : Nat) : State :=
  (s.ward w).ops.foldl (fun s o =>
    if descOp o.desc ≠ 0xC ∨ o.fin.isSome ∨ o.susp then s
    else if s.hasIdentity then
      (s.modOp w o.slot fun x => { x with got0 := some (s.reportBytes (slice o.desc 24 32) num) }).endOp w o.slot okSuccess 17344
    else s.endOp w o.slot okDenied 0) s

end Sys2Proof.Machine
end

