-- ==== Sys2Proof/Machine/HostReads.lean ====
section
/-! DEFINITION. The data of the device's reads of host memory (R414, R444, R486, R491, R494, R279): each answer is journalled and goes
to what asked for it, and a read that fails ends it with HOST_FAULT. -/

namespace Sys2Proof.Machine

/-- A POLICY's image arrives: its request acts at the boundary; a read that failed ends the command. -/
def State.takeEnvelope (s : State) (w addr : Nat) (data : Option (List Byte)) : State :=
  match takeFirst (fun e => byteField e.1 8 8 == addr) (s.ward w).policyWait with
  | none => s
  | some (e, rest) =>
    let s := s.modWard w fun k => { k with policyWait := rest }
    match data with
    | some bs => s.ask w (.policy bs) e.1 e.2
    | none => s.finish w e.1 e.2 okHostFault 0

/-- The bytes an operation asked for arrive. -/
def State.takeOpData (s : State) (w slot k : Nat) (data : Option (List Byte)) : State :=
  match data with
  | some bs => s.modOp w slot fun o => if k = 0 then { o with got0 := some bs } else { o with got1 := some bs }
  | none => match (s.ward w).ops.find? fun o => o.slot == slot with
    | some o => s.endOp w slot okHostFault (s.opResult w o)
    | none => s

/-- A patch image arrives, and is to be verified; a fetch that failed refuses it with ERR 0x02. -/
def State.takePatch (s : State) (data : Option (List Byte)) : State :=
  match data with
  | some bs => { s with patch := { s.patch with state := 2, err := 0, image := bs } }
  | none => { s with patch := { s.patch with state := 4, err := 2, loading := false } }

/-- An answer goes to what asked for it. -/
def State.takeRead (s : State) (h : HostRead) (data : Option (List Byte)) : State :=
  match h.why with
  | .desc w r _ => match data with
    | some bs => s.takeDesc w r bs
    | none => (s.disableRing w r 5).ringError w r 3 8
  | .op w slot k => s.takeOpData w slot k data
  | .envelope w => s.takeEnvelope w h.addr data
  | .patch => s.takePatch data

/-- A ring's descriptors arrive in order; the executive holds at most 64 commands (R481, R486). -/
def State.readInTurn (s : State) (h : HostRead) : Bool :=
  match h.why with
  | .desc w r i => (s.ring w r).head == i && !(r == 0 && decide (64 ≤ (s.ward w).cmds.length))
  | _ => true

/-- The journal takes an answer; a descriptor's is taken with the descriptor. -/
def State.noteRead (s : State) (h : HostRead) (data : Option (List Byte)) : State :=
  match h.why, data with
  | .desc _ _ _, some _ => s
  | _, some bs => s.noteInput h.port (.data h.addr bs)
  | _, none => s.noteInput h.port (.fail h.addr h.len)

/-- A read's answer is delivered into the attempt; one that the journal holds is used in its place. -/
def State.arrive (s : State) (h : HostRead) (rest : List HostRead) (data : Option (List Byte)) : State :=
  let r := ({ s with hostReads := rest }).answerOf h.port h.addr h.len data
  ((r.1.noteRead h r.2).takeRead h r.2).freeSnoops h.port

/-- What came at or after the tick is delivered as a stroke opens (R414). -/
def State.deliverLate (s : State) : Nat → State
  | 0 => s
  | k + 1 => match takeFirst (fun h => h.late.isSome && s.readInTurn h) s.hostReads with
    | none => s
    | some (h, rest) => (s.arrive h rest (h.late.getD none)).deliverLate k

/-- HOST_READ_DATA_ARRIVAL: outstanding read k is answered, or fails. -/
def execHostReadDataArrival (k : Nat) (data : Option (List Byte)) (s : State) : Out :=
  match takeAt s.hostReads k with
  | none => .next s
  | some (h, rest) =>
    let data := h.late.getD data
    let fits := match data with
      | some bs => bs.length == h.len
      | none => true
    if !fits then .next s
    else if !s.takesInput then .next (s.defer h data)
    else if s.readInTurn h then .next (s.arrive h rest data)
    else .next s

end Sys2Proof.Machine
end

