-- ==== Sys2Proof/Machine/Commit.lean ====
section
/-! DEFINITION. The commit of a stroke (R422 to R428, R432, R434, R453, R454, R485, R500, R501, R537, R539, R598): the record, the boundary's
work in order, the committed state kept for a rollback, the next open, and the shadow writer. -/

namespace Sys2Proof.Machine

/-! ### The commit record (Table 11-5) -/

/-- Entries that the ports journalled in the attempt. -/
def State.journalCount (s : State) : Nat := (upFrom 0 8).foldl (fun t p => t + (s.journalOf p).length) 0

/-- Records in staging that this commit releases. -/
def State.releasedRecords (s : State) : Nat :=
  (s.staging.filter fun x => match x with
    | .record r => !r.released
    | .data _ _ _ _ => false).length

/-- Lines copied by the nibs' closes. -/
def State.shadowCount (s : State) : Nat :=
  (s.stroke.reports.filter fun e => e.1 < 544).foldl (fun n e => n + bits e.2 0 24) 0

/-- Units that the root's combined report counts (R420). -/
def State.unitsReported (s : State) : Nat := match s.rootNode with
  | some r => r.units
  | none => 0

/-- Words 0 to 6 of the record; `logged` lines and the bytes they took are those of the attempt. -/
def State.recordWords (s : State) (logged : Nat) (applied : Bool) : List (BitVec 64) :=
  let k := s.stroke
  let w1 := k.attempt % 256 * 2 ^ 56 + b2n k.retiredNib * 2 ^ 51 + b2n (decide (1 < k.attempt)) * 2 ^ 50 + b2n applied * 2 ^ 49
    + b2n k.short * 2 ^ 48 + b2n k.early * 2 ^ 47 + (k.tickAt - k.openAt) % 2 ^ 32
  [n64 k.num, n64 w1, n64 s.hub, n64 (logged * 2 ^ 32 + k.num % 8), n64 (k.jfirst % 2 ^ 32 * 2 ^ 32 + s.journalCount),
   n64 (s.releasedRecords * 2 ^ 32 + s.shadowCount), n64 (s.unitsReported * 2 ^ 32 + (s.hub - k.tickAt) % 2 ^ 32)]

/-- The record is written to its line of the ring on lane 21, which the default map alone decides there (R348), not logged; the
trace takes word 6. -/
def State.writeCommit (s : State) (logged : Nat) (applied : Bool) : State :=
  let ws := s.recordWords logged applied
  let s := s.writeRaw (0x4440000000 + 64 * (s.stroke.num % 1048576)) (ws ++ [ws.foldl (fun a b => a ^^^ b) 0])
  s.traceRec 1 1 ((ws[6]?).getD 0)

/-! ### Writes that the budget held (R432) -/

/-- A held write is made at the commit, as it would have been; a nib's store is acknowledged (log 30). -/
def State.landOneHeld (s : State) : HeldWrite → State
  | .store n e => s.inkApply n e
  | .device pa k => s.writeAs pa k
  | .locked pa u => s.locked pa u
  | .repair pa o v => s.repair pa o v
  | .repairPair pa o0 o1 n0 n1 => s.repairPair pa o0 o1 n0 n1
  | .card pa => s.noteItem pa

def State.landHeld (s : State) : State := s.heldWrites.foldl State.landOneHeld { s with heldWrites := [] }

/-! ### The collector's boundary (R370 to R380, R401) -/

/-- Wards whose EVACUATE or FINISH ends at this boundary; sheets filled become FREE first. -/
def State.collEnds (s : State) : State × List Nat :=
  (upFrom 0 8).foldl (fun r w =>
    let s := r.1.freeSheets w
    let k := s.collOf w
    if s.evacDone w && !(k.susp || k.shedSusp) then (s.endEvac w, r.2 ++ [w]) else (s, r.2)) (s, [])

/-- The other phase changes; a ward whose cycle has just ended starts none. -/
def State.collGoes (s : State) (ended : List Nat) : State :=
  (upFrom 0 8).foldl (fun s w => if ended.contains w then s else s.collBoundary w) s

/-- The Rubric's sheet-owner map follows the descriptors. -/
def State.syncOwners (s : State) : State :=
  let m := (upFrom 0 8192).foldl (fun m h => mput (fun _ => 15) m h ((s.sheetWard h).getD 15)) []
  if m = s.sheetOwner then s else { s with sheetOwner := m }.dropVerdicts

/-! ### Shadows (R426, R428) -/

/-- The selectors flip: the lines that the closes copied, and what the executive's work at the boundary has changed in the contexts
since, are to be written to the image (DEDUCED, log 79). A gated nib's shadow writer writes none (R446). -/
def State.flipShadows (s : State) : State :=
  let ls := s.shadowDue ++ s.ctxs.flatMap fun (e : Nat × Context) => e.2.dirtyLines.map fun k => (e.1 / 32, e.1 % 32, k)
  { s with imagePending := s.imagePending ++ (ls.eraseDups.filter fun l => (s.nib l.1).active && !s.imagePending.contains l),
           shadowDue := [], ctxs := s.ctxs.map fun (e : Nat × Context) => (e.1, e.2.clean) }

/-- What a rollback restores (R440). -/
def State.takeCkpt (s : State) : State :=
  { s with ckpt := { ctxs := s.ctxs, wards := s.wards, rings := s.rings, coll := s.coll, copyRecs := s.copyRecs, chunks := s.chunks,
                     engines := s.engines, heldTraps := s.nibs.map fun (e : Nat × Nib) => (e.1, e.2.heldTraps),
                     heldChecks := s.nibs.map fun (e : Nat × Nib) => (e.1, e.2.heldChecks), hostReads := s.hostReads,
                     errNext := s.errNext, doorEvents := s.doorEvents } }

/-! ### Release (R416, R485, R500, R501) -/

/-- Final records of ring 0 that this commit releases leave the ward's list of open descriptors. -/
def State.closeIdx (s : State) : State :=
  s.staging.foldl (fun s x => match x with
    | .record r => match r.idx with
      | some i => if r.released then s else s.modWard r.ward fun k => { k with openIdx := k.openIdx.erase i }
      | none => s
    | .data _ _ _ _ => s) s

/-- Vector 0 goes to the ports of wards with new events. -/
def State.signalWards (s : State) : State :=
  let ws := s.wardNews
  let s := { s with wardNews := [] }
  ws.foldl (fun s w => (s.portsOf w).foldl (fun s p => if (s.port p).up && (s.port p).msix then s.portSend p (.msix p 0) else s) s) s

/-- The ports collect the records that service contexts posted, before a ring's configuration changes (R472, R485). -/
def State.collectAll (s : State) : State := s.rings.foldl (fun s e => s.collectRing (e.1 / 64) (e.1 % 64)) s

/-- Everything staged leaves, and wards are signalled. -/
def State.releaseAll (s : State) : State := s.closeIdx.releaseStaging.signalWards

/-! ### Opening an attempt (R405, R424, R444, R539) -/

/-- The doorbells in a list of inputs are delivered. -/
def State.deliverBells (s : State) (js : List JInput) : State :=
  js.foldl (fun s j => match j with
    | .doorbell w r t => s.deliverBell w r t
    | _ => s) s

def isBell : JInput → Bool
  | .doorbell _ _ _ => true
  | _ => false

/-- The doorbells of the journal that is run again, and with `next` those that waited for this stroke, port by port. -/
def State.deliverInputs (s : State) (next : Bool) : State :=
  (upFrom 0 8).foldl (fun s p =>
    let old := mget (fun _ => []) s.replay p
    let s := { s with replay := mput (fun _ => []) s.replay p (old.filter fun j => !isBell j) }
    let s := s.deliverBells old
    if next then
      let js := mget (fun _ => []) s.nextInputs p
      { s with nextInputs := mput (fun _ => []) s.nextInputs p [] }.deliverBells js
    else s) s

/-- An attempt opens: nibs go on, inputs are delivered, RELEASED words are written. -/
def State.openAttempt (s : State) (next : Bool) : State :=
  let s := { s with stroke := { s.stroke with phase := .opened, openAt := s.hub, short := false, early := false, reports := [],
                                              rubOk := none, rubTable := [], misfits := [] },
                    nibs := s.nibs.map fun (e : Nat × Nib) => (e.1, { e.2 with closed := false }),
                    journal := [] }
  let s := s.deliverInputs next
  (if next then s.deliverLate s.hostReads.length else s).writeReleased

/-- EVF.STROKE sets in every context 1–31 that is not IDLE (Table 03-9). -/
def State.strokeEvents (s : State) : State :=
  s.ctxs.foldl (fun s e => if e.1 % 32 = 0 ∨ e.2.state = stIdle then s else s.flagCtx (e.1 / 32) (e.1 % 32) 8) s

/-! ### Level 5 and an ordered turn-off (R539, R548) -/

/-- SHADOW_IMAGE_WRITE: the writer of nib n writes its pending lines; comparators that disagree withhold the first (R21). -/
def execShadowImageWrite : Compared (Fin 544) → State → Out
  | ⟨n, agree⟩, s =>
  match s.imagePending.filter fun e => e.1 == n.val with
  | [] => .next s
  | e :: es =>
    if agree then .next ((e :: es).foldl (fun s e => s.writeImage e) s)
    else .next (s.withheld (.shadow n.val) (imageLine e.1 e.2.1 e.2.2))

/-- After the last commit: the shadow writers finish, every inkwell in service writes back and is disabled, every stack enters
self-refresh. -/
def State.quiesce (s : State) : State :=
  let s := s.imagePending.foldl (fun s e => s.writeImage e) s
  let ks := (upFrom 0 8).filter fun k => mget (fun _ => 0) s.inkState k != 2
  let auto := ks.filter fun k => mget (fun _ => 0) s.inkState k == 0
  let s := ks.foldl (fun s k => (s.inkVisit k 16384).setInk k 2) s
  { s with inkAuto := auto, power := { s.power with refresh := 0xFF, l5done := true } }

/-- The stacks leave self-refresh and the inkwells that level 5 disabled are enabled; a stroke opens with level 4, unless the device has
failed (R445, R539). The change of level is journalled with the number of the stroke that opens (DESIGN CHOICE, log 29). -/
def State.leaveHeld (s : State) : State :=
  let s := s.inkAuto.foldl (fun s k => s.setInk k 0) s
  let s := { s with inkAuto := [], power := { s.power with refresh := 0, l5 := false, l5done := false } }
  let s := s.setLevel 4
  if s.stroke.phase == .failed then s else s.openAttempt true

/-! ### The commit instant -/

/-- Ring 0's work at the boundary, in the order of R498: link events, operations that ended, requests, resets, FENCEs. -/
def State.wardBoundaries (s : State) (ended : List Nat) : State :=
  let ws := upFrom 0 8
  let s := ws.foldl (fun s p => s.linkBoundary p) s
  let s := ended.foldl (fun s w => s.endCollects w) s
  let s := ws.foldl (fun s w => (s.wardResetsDone w).closeEnded w) s
  let s := ws.foldl (fun s w => s.requests w) s
  let s := ws.foldl (fun s w => s.wardResets w) s
  ws.foldl (fun s w => s.endFences w) s

/-- Field changes: what APPLY captured, the Steward's decisions, the shed level, collector phases (R424, R453, R537). -/
def State.fieldsAct (s : State) (ended : List Nat) : State :=
  let host := (s.apply' 8).captured && (s.apply' 8).vals.any fun e => e.1 == pgSTK
  let s := s.applyAll
  let s := s.actAll host
  let s := s.setLevel s.power.nextLevel
  (s.collGoes ended).syncOwners

/-- The stroke is committed. -/
def State.commit (s : State) : State :=
  let k := s.stroke
  let logged := s.log.length
  let applied := (upFrom 0 9).any fun i => (s.apply' i).captured
  let s := { s.cancelGuards with log := [], stroke := { k with phase := .rolling, lastClose := s.hub - k.tickAt, peak := max k.peak k.used } }
  let s := s.landHeld.collectAll
  let e := s.collEnds
  let s := (e.1.wardBoundaries e.2).writeCommit logged applied
  let s := s.fieldsAct e.2
  let s := { s with snap := { s.capture with inkState := s.inkState, inkSets := s.inkSets }, dbg := { s.dbg with scopeAt := s.dbg.scope } }.stewardCounts
  let s := s.releaseAll
  let s := (upFrom 0 8).foldl (fun s w => ((s.attestAll w k.num).publishOps w).publishColl w) s
  let s := { s with steward := { s.steward with pend := s.steward.pend ++ s.stewardDecides },
                    power := { s.power with throttle := false },
                    stroke := { s.stroke with num := k.num + 1, attempt := 1, used := 0, jfirst := k.jfirst + s.journalCount, retiredNib := false,
                                              voted := false },
                    pins := { s.pins with strokeOut := true } }
  let s := { s with replay := [] }.strokeEvents.flipShadows.takeCkpt
  if s.power.l5 || s.power.turnOff then
    { s with stroke := { s.stroke with phase := .held, reports := [] }, journal := [] }.quiesce
  else s.openAttempt true

/-- COMMIT_INSTANT: both colophon copies formed their record, and the inkwell acknowledged it; when they differ the attempt is
voided (R422). -/
def execCommitInstant (agree : Bool) (s : State) : Out :=
  if s.stroke.phase ≠ .closing ∨ s.stroke.voided ∨ s.rootNode.isNone then .next s
  else if !agree then .next (s.detect 604 .colophon)
  else .next s.commit

/-- STROKE_OUT_FALL (R598). -/
def execStrokeOutFall (s : State) : Out := .next { s with pins := { s.pins with strokeOut := false } }

end Sys2Proof.Machine
end

