-- ==== Sys2Proof/Machine/Void.lean ====
section
/-! DEFINITION. The void of an attempt (R440 to R447, R18, R226, R282, R357, R533, R600): the log is undone, committed state
returns, repairs are made, machine checks are taken, and a new attempt opens; and the checks of hub units that void one. -/

namespace Sys2Proof.Machine

/-! ### Step 1: everything stops -/

/-- A nib stops: its buffers, caches and translations are emptied. -/
def Nib.halted (b : Nib) : Nib := { b.emptied with storeBuf := [], tracker := [], shade := [], running := none }

def isReleased : Staged → Bool
  | .record r => r.released
  | .data _ _ _ _ => false

/-- Step 1. Released records are of a commit, and stay; host writes, committed on arrival, have no copy left to wait for (R436). -/
def State.stopAll (s : State) : State :=
  let s := s.cancelGuards
  let hs := s.hostWrites
  let s := { s with
             stroke := { s.stroke with phase := .rolling, misfits := [] },
             nibs := s.nibs.map fun (e : Nat × Nib) => (e.1, e.2.halted),
             walkCache := [], reads := [], fills := [], invals := [], acks := [], writes := [], storeAcks := [], sends := [], answers := [],
             heldWrites := [], shadowDue := [], hostWrites := [], staging := s.staging.filter isReleased,
             ink := s.ink.map fun (e : Nat × InkEnt) => (e.1, { e.2 with holders := .none }) }
  hs.foldl State.landHost s

/-! ### Step 2: the log is undone -/

/-- A logged copy returns to its line, on lane 22; a line that the Rubric denies it stays as it is (R349, R354; log 68). -/
def State.undoLine (s : State) (e : LogLine) : State :=
  if s.rubAllows palAsker .writeT e.line then ((s.putLine e.line 0 e.words).changed e.line none).count (588 + stackOf e.line) 7
  else s.deny 22 e.line

def State.undoLog (s : State) : State :=
  let s := s.log.foldl (fun s e => s.undoLine e) s
  { s with log := [], stroke := { s.stroke with used := 0 } }

/-! ### Step 3: committed state returns -/

/-- A ring as committed; its completion ring's place and the host's head are not rolled back. -/
def Ring.restored (old now : Ring) : Ring := { old with cqTail := now.cqTail, cqHead := now.cqHead, phase := now.phase }

/-- The context that a nib runs is the one whose restored state is RUNNING. -/
def State.findRunning (s : State) : State :=
  { s with nibs := s.nibs.map fun (e : Nat × Nib) =>
      (e.1, { e.2 with running := (upFrom 0 32).find? fun c => (s.ctx e.1 c).state == stRunning }) }

/-- An APPLY that a voided attempt captured is pending again (R452). -/
def Apply.again (a : Apply) : Apply := { pend := a.pend || a.captured, captured := false, vals := [] }

/-- What has come for a read since the tick stays with it: it is an input of the next stroke (R414). -/
def State.lateOf (s : State) (h : HostRead) : HostRead :=
  match s.hostReads.find? fun g => g.port == h.port && g.addr == h.addr && g.len == h.len && g.why == h.why with
  | some g => { h with late := g.late }
  | none => h

/-- The pumice engines are paused or not as the shed level in effect has it, which no rollback changes (R400, R537). -/
def State.keepShed (s old : State) : State :=
  (upFrom 0 8).foldl (fun s w => s.modColl w fun k => { k with shedSusp := (old.collOf w).shedSusp }) s

/-- Step 3; inputs that the voided attempt took are to be taken again (R444). -/
def State.restore (s : State) : State :=
  let k := s.ckpt
  { s with ctxs := k.ctxs.map fun (e : Nat × Context) => (e.1, e.2.clean), wards := k.wards, coll := k.coll, copyRecs := k.copyRecs, chunks := k.chunks, engines := k.engines,
           errNext := k.errNext, doorEvents := k.doorEvents,
           rings := k.rings.map fun (e : Nat × Ring) => (e.1, e.2.restored (mget (fun _ => {}) s.rings e.1)),
           nibs := s.nibs.map fun (e : Nat × Nib) =>
             (e.1, { e.2 with heldTraps := mget (fun _ => []) k.heldTraps e.1, heldChecks := mget (fun _ => []) k.heldChecks e.1 }),
           hostReads := (k.hostReads.filter fun h => h.why != HostPurpose.patch).map s.lateOf ++ s.hostReads.filter (fun h => h.why == HostPurpose.patch),
           applies := s.applies.map fun (e : Nat × Apply) => (e.1, e.2.again),
           replay := (upFrom 0 8).foldl (fun m p =>
             mput (fun _ => []) m p (s.journalOf p ++ (mget (fun _ => []) s.replay p).filter fun j => !isBell j)) [],
           journal := [] }

/-! ### Step 4: repairs -/

/-- The device stops opening strokes (R445). -/
def State.fail (s : State) : State :=
  if s.stroke.phase == .failed then s
  else ({ s with stroke := { s.stroke with phase := .failed } }.setFlags (pgSTK + 0x1C) 16).raiseAlarm

/-- Attempts counted since power-on, so that consecutive attempts have consecutive numbers (R446). -/
def State.serial (s : State) : Nat := s.stroke.num + s.stroke.voids

/-- STK.SPARE of the column of nib n (R448). -/
def spareReg (n : Nat) : Nat := pgSTK + 0x100 + 4 * (n / 17)
def spareOf (n : Nat) : Nat := 17 * (n / 17) + 16
def State.spareUsed (s : State) (n : Nat) : Bool := (s.reg32 (spareReg n)).getLsbD 15
def State.spareLost (s : State) (n : Nat) : Bool := (s.reg32 (spareReg n)).getLsbD 14

/-- The spare of the column takes the contexts, the ward and the place of nib n; the hub writes its patch RAMs (R280, R446). -/
def State.useSpare (s : State) (n : Nat) : State :=
  let sp := spareOf n
  let s := (s.imagePending.filter fun e => e.1 == n).foldl (fun s e => s.writeImage e) s
  let s := (upFrom 0 32).foldl (fun s c => s.moveCtx n c sp c) s
  let s := [0, 4, 8].foldl (fun s o => s.setReg (nibPage sp + o) (s.reg32 (nibPage n + o))) s
  let s := { s with assign := mput (fun _ => none) (mput (fun _ => none) s.assign sp (s.assigned n)) n none }
  let old := s.nib n
  let s := s.count sp 2 (2 ^ 64 - s.noIssue sp % 2 ^ 64)
  let s := s.modNib sp fun b =>
    s.fillStore { b with serves := some n, parkedBy := setBit old.parkedBy 0 false, slow := old.slow,
                         condemned := old.condemned, heldTraps := old.heldTraps, heldChecks := old.heldChecks }
  s.setReg (spareReg n) (setBits (s.reg32 (spareReg n) ||| 0x8000) 0 5 (posOf n))

/-- A context that finds no place stays FROZEN, and the ward is told (R447). -/
def State.leaveFrozen (s : State) (w n c : Nat) : State :=
  let a := window w + 0x1014
  let s := s.modCtx n c fun x => ({ x with steady := 0, steadyLim := false }.setSt 8 1 0).setState stFrozen
  (s.setReg a (s.reg32 a + 1)).wardEvent w 4

/-- A ward context of a nib that is lost moves to an IDLE context of another nib of its ward (R447). -/
def State.rehome (s : State) (n c : Nat) : State :=
  if (s.ctx n c).state = stIdle then s
  else match s.assigned n with
    | none => s
    | some w =>
      let ms := (s.wardNibs w).filter fun m => m != n
      match ms.findSome? fun m => ((upFrom 1 31).find? fun d => (s.ctx m d).state == stIdle).map fun d => (m, d) with
      | some (m, d) => s.moveCtx n c m d
      | none => s.leaveFrozen w n c

/-- A nib of a column whose spare serves already is lost. -/
def State.loseNib (s : State) (n : Nat) : State :=
  let s := (s.imagePending.filter fun e => e.1 == n).foldl (fun s e => s.writeImage e) s
  let s := s.modNib n fun b => { b with retired := true }
  let s := (upFrom 1 31).foldl (fun s c => s.rehome n c) s
  if s.spareLost n then s
  else s.setReg (spareReg n) (setBits (s.reg32 (spareReg n) ||| 0x4000) 5 5 (posOf n))

/-- Nib n is retired (R446, R447). -/
def State.retire (s : State) (n : Nat) : State :=
  let s := ({ s with stroke := { s.stroke with retiredNib := true } }.setFlags (pgSTK + 0x1C) 8).count n 2 (s.noIssue n)
  if s.spareUsed n then s.loseNib n
  else (s.useSpare n).modNib n fun b =>
    { b with retired := true, parkedBy := setBit b.parkedBy 2 true, heldTraps := [], heldChecks := [] }

/-- Causes that count toward a nib's retirement. -/
def causeRetires : McCause → Bool
  | .checker => true
  | .ustore _ => true
  | .array _ => true
  | _ => false

/-- A parity error of a patch word or a match register: the hub rewrites that nib's patch RAMs and match registers (R282). -/
def State.repairStores (s : State) (fs : List FaultRep) : State :=
  fs.foldl (fun s f => match f.cause with
    | .ustore k => if k = 3 ∧ (s.nib f.unit).active then s.modNib f.unit s.fillStore else s
    | _ => s) s

/-- A nib that reported in this attempt and in the one before it is retired. -/
def State.retirements (s : State) (fs : List FaultRep) : State :=
  let ns := ((fs.filter fun f => f.unit < 544 && causeRetires f.cause).map FaultRep.unit).eraseDups
  ns.foldl (fun s n =>
    if (s.nib n).lastFault = some (s.serial - 1) ∧ (s.nib n).active then s.retire n
    else s.modNib n fun b => { b with lastFault := some s.serial }) s

/-- The Rubric's replicas take the table copy of the system region (R353, R357). -/
def State.reloadRubric (s : State) : State :=
  let m := (upFrom 0 512).foldl (fun m i =>
    let a := (s.word (0x4480000000 + 16 * i)).pay
    let b := (s.word (0x4480000008 + 16 * i)).pay
    mput rubDefault m i { start := a.setWidth 32, last := a.extractLsb' 32 32, attr := b.setWidth 32 }) []
  { s with rubActive := m }.dropVerdicts

/-- A disagreement of the replicas: the tables are reloaded, and one that disagrees again is switched off. Which replica it is, is
a free value (R357). -/
def State.repairVote (s : State) (fs : List FaultRep) : State :=
  let vote (f : FaultRep) : Bool := match f.cause with
    | .vote l _ => l != 0xFE
    | _ => false
  if !fs.any vote ∨ popcount s.rubOn < 3 then s
  else if s.stroke.voted then
    let i := s.draw.toNat % 3
    let p := s.power
    { s.drawn with rubOn := setBit s.rubOn i false,
                   power := { p with domains := setBit p.domains (58 + i) false, lost := setBit p.lost (58 + i) true } }
  else { s.reloadRubric with stroke := { s.reloadRubric.stroke with voted := true } }

/-- Links that failed are used no more; a leaf without a link ends service (R18). -/
def State.repairLinks (s : State) (fs : List FaultRep) : State :=
  let s := fs.foldl (fun s f => match f.cause with
    | .link k => if k.toNat < 8 then { s with linksFailed := setBit s.linksFailed k.toNat true } else s
    | _ => s) s
  if (upFrom 0 4).any fun l => s.linksFailed.getLsbD (2 * l) && s.linksFailed.getLsbD (2 * l + 1) then s.fail else s

/-- A PLL that the monitor found at fault is taken out of service (R600). -/
def State.repairClock (s : State) (fs : List FaultRep) : State :=
  let s := fs.foldl (fun s f => match f.cause with
    | .clock k =>
      if k = 1 then { s with power := { s.power with pllA := false, serving := true } }
      else if k = 2 then { s with power := { s.power with pllB := false, serving := false } }
      else s
    | _ => s) s
  if !s.power.pllA && !s.power.pllB then s.fail else s

/-- A domain that its regulator lost (Table 14-2). -/
def State.takeLoss (s : State) (d : Nat) : State :=
  let p := s.power
  let s := { s with power := { p with lost := setBit p.lost d true } }
  if d < 32 then
    let s := (upFrom (17 * d) 17).foldl (fun s n =>
      (if (s.nib n).active then s.loseNib n else s).modNib n fun b => { b with switchedOff := true }) s
    s.setReg (spareReg (17 * d)) (s.reg32 (spareReg (17 * d)) ||| 0xC000)
  else if 52 ≤ d ∧ d < 56 then { s with engines := s.engines.filter fun e => e.1 / 4 != d - 52 }
  else if 44 ≤ d ∧ d < 52 then s.losePort (d - 44) .down
  else if 58 ≤ d ∧ d < 61 then { s with rubOn := setBit s.rubOn (d - 58) false }
  else if d = 63 then s
  else s.fail

def State.repairDomains (s : State) : State :=
  ((upFrom 0 63).filter fun d => !s.domain d && !s.power.lost.getLsbD d).foldl (fun s d => s.takeLoss d) s

def State.repairs (s : State) (fs : List FaultRep) : State :=
  (((((s.repairStores fs).repairVote fs).retirements fs).repairLinks fs).repairClock fs).repairDomains

/-! ### Step 5: the machine checks (R226) -/

/-- The nib whose context 0 takes a nib's check: itself, or the spare that took its contexts. -/
def State.checkNib (s : State) (n : Nat) : Option Nat :=
  if (s.nib n).active then some n else if (s.nib (spareOf n)).serves = some n then some (spareOf n) else none

/-- A check is held while context 0's M handler runs; no rollback loses it. -/
def State.holdCheck (s : State) (n : Nat) (h : HeldCheck) : State :=
  let k := s.ckpt
  { s.modNib n fun b => { b with heldChecks := b.heldChecks ++ [h] } with
    ckpt := { k with heldChecks := mset k.heldChecks n (mget (fun _ => []) k.heldChecks n ++ [h]) } }

/-- Each check of a nib enters at M or is held, and context 0 receives an M report of it; one of the hub is the management
processor's. -/
def State.enterChecks (s : State) (fs : List (FaultRep × BitVec 64)) : State :=
  fs.foldl (fun s f =>
    let h : HeldCheck := ⟨mcCode f.1.cause, f.2⟩
    if 544 ≤ f.1.unit then s
    else match s.checkNib f.1.unit with
      | none => s
      | some n =>
        let s := if (s.ctx n 0).saveM.live then s.holdCheck n h
          else (s.enterCheck n h (mcCause f.1.cause)).modCtx n 0 fun x => if x.state = stRunning then x else x.setState stReady
        s.postRecord n 0 h.code) s

/-! ### The whole void -/

/-- The counts and events of a void, and its trace records. -/
def State.noteVoid (s : State) (fs : List (FaultRep × BitVec 64)) : State :=
  let s := s.setFlags (pgSTK + 0x1C) 4
  let s := s.traceRec 2 2 (BitVec.ofNat 64 (s.stroke.voidUnit * 4096 + s.stroke.voidCode.toNat))
  fs.foldl (fun s f => s.traceRec 3 3 f.2) s

/-- Step 6: a new attempt opens, unless four were voided, the device has failed, or level 5 keeps it from opening; the device is then held with
LEVEL as it was, since no commit has come (DESIGN CHOICE, log 26). -/
def State.nextAttempt (s : State) : State :=
  let k := s.stroke
  let s := { s with stroke := { k with attempt := k.attempt + 1, voids := k.voids + 1, voided := false, faults := [], reports := [] } }
  if s.stroke.phase == .failed then s
  else if 4 ≤ k.attempt then s.fail
  else if s.power.l5 then { s with stroke := { s.stroke with phase := .held } }.quiesce
  else s.openAttempt false

/-- The void of the attempt. -/
def State.voidAttempt (s : State) : State :=
  let fs := s.stroke.faults.map fun f => (f, mcInfo f.cause s f.unit)
  let s := ((s.noteVoid fs).stopAll.undoLog.restore).keepShed s
  let s := (s.repairs s.stroke.faults).flipShadows.takeCkpt
  (s.findRunning.enterChecks fs).nextAttempt

/-- VOID: the attempt that a fault report called off is voided (R425, R438). -/
def execVoid (s : State) : Out :=
  let p := s.stroke.phase
  if s.stroke.voided && (p == .opened || p == .closing || p == .held) then .next s.voidAttempt else .next s

/-! ### Checks of hub units -/

/-- A hub unit can find a fault: strokes run, and the hub is on. -/
def State.watching (s : State) : Bool :=
  !s.power.off && !s.power.hold && (s.stroke.phase == .opened || s.stroke.phase == .closing || s.stroke.phase == .held)

/-- RUBRIC_BACKGROUND_COMPARE (R356). -/
def execRubricBackgroundCompare (differ : Bool) (s : State) : Out :=
  .next (if differ && s.watching then s.detect 601 (.vote 0xFF 0) else s)

/-- MC_LOCKSTEP: the management processor's pair disagrees. -/
def execMcLockstep (s : State) : Out := .next (if s.watching then s.detect 599 .lockstep else s)

/-- CLOCK_LOSS: the monitor finds PLL A (1), PLL B (2) or neither (3) at fault (R600). -/
def execClockLoss (sub : BitVec 8) (s : State) : Out :=
  .next (if s.watching && decide (1 ≤ sub.toNat ∧ sub.toNat ≤ 3) then s.detect 599 (.clock sub) else s)

end Sys2Proof.Machine
end

