-- ==== Sys2Proof/Machine/Power.lean ====
section
/-! DEFINITION. Power management (R529 to R548, R563, R603): samples and what they confirm, the fast guard, hold and warm
resume, loss of regulators, turn-off. -/

namespace Sys2Proof.Machine

/-! ### Confirmation (R535, R536, R545, R546) -/

/-- Entry and exit thresholds of levels 1 to 6 in mV, before VOFS, which leaves level 6 alone (Table 14-3). -/
def vEntry (ofs : Nat) : List Nat := [42000 + ofs, 41000 + ofs, 40000 + ofs, 39000 + ofs, 37000 + ofs, 34000]
def vExit (ofs : Nat) : List Nat := [43000 + ofs, 42000 + ofs, 41000 + ofs, 40000 + ofs, 38000 + ofs, 40000]
/-- Table 14-5, before TOFS. -/
def tEntry : List Nat := [95, 97, 99, 101, 103, 105]
def tExit : List Nat := [93, 95, 97, 99, 101, 93]
/-- Entry points of the power trigger, in percent of CAP; each exit lies 2 % below. -/
def pEntry : List Nat := [92, 94, 96, 98]

/-- Counts of consecutive samples on the far side of each threshold. -/
def runs (far : List Bool) (cs : List Nat) : List Nat := (far.zip cs).map fun e => if e.1 then min (e.2 + 1) 1000 else 0

/-- The highest level whose entry is confirmed. -/
def entered (need cs : List Nat) : Nat :=
  ((cs.zip need).zip (upFrom 1 6)).foldl (fun m e => if e.1.2 ≤ e.1.1 then max m e.2 else m) 0

/-- The level that remains: each level from k down is left when its exit is confirmed. -/
def remains (need cs : List Nat) : Nat → Nat
  | 0 => 0
  | k + 1 => if (need[k]?).getD 0 ≤ (cs[k]?).getD 0 then remains need cs k else k + 1

def confirms (inNeed outNeed ins outs : List Nat) (old : Nat) : Nat := max (entered inNeed ins) (remains outNeed outs old)

def four : List Nat := [4, 4, 4, 4, 4, 4]
def fourHold : List Nat := [4, 4, 4, 4, 4, 1000]

/-- PWR.SHED fields in effect: CAP in µW, TOFS, VOFS in mV. -/
def State.capMicro (s : State) : Nat := bits (s.reg32 (pgPWR + 0x10)) 16 7 * 10000000
def State.tofs (s : State) : Nat := bits (s.reg32 (pgPWR + 0x10)) 8 4
def State.vofs (s : State) : Nat := bits (s.reg32 (pgPWR + 0x10)) 0 3 * 1000

/-- The voltage trigger takes a sample. -/
def State.sampleV (s : State) (mv : Nat) : State :=
  let p := s.power
  let ins := runs ((vEntry s.vofs).map fun t => decide (mv < t)) p.vIn
  let outs := runs ((vExit s.vofs).map fun t => decide (t ≤ mv)) p.vOut
  { s with power := { p with mv := mv, vIn := ins, vOut := outs,
                             vLevel := confirms [4, 4, 4, 4, 4, 50] fourHold ins outs p.vLevel } }

/-- The thermal trigger takes the hottest junction. -/
def State.sampleT (s : State) (die temp : Nat) : State :=
  let p := s.power
  let ins := runs (tEntry.map fun t => decide (t - s.tofs ≤ temp)) p.tIn
  let outs := runs (tExit.map fun t => decide (temp < t - s.tofs)) p.tOut
  { s with power := { p with die := die, temp := temp, tIn := ins, tOut := outs, tLevel := confirms four fourHold ins outs p.tLevel } }

/-- The power trigger takes an average of 10 µs. -/
def State.averageP (s : State) (avg : Nat) : State :=
  let p := s.power
  let ins := runs (pEntry.map fun k => decide (k * s.capMicro ≤ 100 * avg)) p.pIn
  let outs := runs (pEntry.map fun k => decide (100 * avg < (k - 2) * s.capMicro)) p.pOut
  { s with power := { p with pin := avg / 100000, pIn := ins, pOut := outs,
                             pLevel := confirms (four.take 4) (four.take 4) ins outs p.pLevel } }

/-- A sample of input power: every tenth completes an average, and the fast guard counts samples above CAP. -/
def State.sampleP (s : State) (ma : Nat) : State :=
  let p := s.power
  let w := p.mv * ma
  let c := if s.capMicro < w then min (p.capCnt + 1) 4 else 0
  let rs := p.recent ++ [w]
  let s := { s with power := { p with ma := ma, capCnt := c, recent := if rs.length < 10 then rs else [],
                                      throttle := p.throttle || (decide (4 ≤ c) && s.attemptOn) } }
  if rs.length < 10 then s else s.averageP (rs.foldl (· + ·) 0 / 10)

/-! ### Turn-off (R544, R548, R603) -/

/-- The management domain alone. -/
def mgmtOnly : BitVec 64 := 0x2000000000000000

/-- The device turns off without an order: memory is lost, and the boot status area keeps saying so. -/
def State.crash (s : State) : State :=
  if s.power.off then s
  else
    let s := { s with mem := [], log := [], power := { s.power with off := true, offBegun := true, unclean := true, domains := mgmtOnly,
                                                                    goodCnt := 0, hold := false, l5 := false, l5done := false },
                      hostWrites := [], stroke := { s.stroke with phase := .boot } }.raiseAlarm
    (upFrom 0 8).foldl (fun s p => if (s.port p).up then s.losePort p .down else s) s

/-- Consecutive samples that turn the device off, report the input too high, or let a power-on reset begin; management, and VIO_OUT
with it, goes off below 26 V (R544, R595). -/
def State.sampleLimits (s : State) (mv : Nat) : State :=
  let p := s.power
  let low := if mv < 30000 then min (p.low + 1) 4 else 0
  let high := if 60000 < mv then min (p.overCnt + 1) 5 else 0
  let good := if 40000 ≤ mv then min (p.goodCnt + 1) 1000 else 0
  let s := { s with power := { p with low := low, overCnt := high, goodCnt := good, mgmtOff := p.off && decide (mv < 26000) },
                    pins := { s.pins with vioOut := s.pins.vioOut && !(p.off && decide (mv < 26000)) } }
  let s := if high = 4 ∧ !p.off then s.setFlags (pgPWR + 0x24) 4 else s
  if low = 4 then s.crash else s

/-! ### Level 5, hold and warm resume (R539 to R543) -/

/-- Every domain but the lost ones and, above level 0, trace. -/
def State.allDomains (s : State) : BitVec 64 := 0x7FFFFFFFFFFFFFFF &&& ~~~s.power.lost

/-- Warm resume after a hold. -/
def State.warmResume (s : State) : State :=
  let s := { s with power := { s.power with hold := false, domains := s.allDomains } }.reloadRubric
  let s := { s with ctxs := s.ctxs.map (fun (e : Nat × Context) => (e.1, e.2.moved)),
                    nibs := s.nibs.map (fun (e : Nat × Nib) => (e.1, e.2.halted)),
                    walkCache := [], ink := s.ink.map fun (e : Nat × InkEnt) => (e.1, { e.2 with holders := .none }) }
  (s.findRunning.takeCkpt.setFlags (pgPWR + 0x24) 2).leaveHeld

/-- What the confirmed levels call for: an early close, the end of level 5, the end of a hold. -/
def State.actOnLevels (s : State) : State :=
  let c := max s.power.vLevel s.power.tLevel
  if s.power.hold then (if c < 6 then s.warmResume else s)
  else if s.attemptOn then (if 5 ≤ c then { s with power := { s.power with l5 := true } } else s)
  else if s.stroke.phase == .held && s.power.l5 && s.power.l5done && !s.power.turnOff && decide (c < 5) then s.leaveHeld
  else s

/-- POWER_SAMPLE: input voltage in mV, input current in mA, the hottest junction and its die. -/
def execPowerSample (mv ma : Nat) (die : Fin 5) (temp : Nat) (s : State) : Out :=
  let s := (((s.sampleV mv).sampleT die.val temp).sampleP ma).sampleLimits mv
  .next (if s.power.off then s else s.actOnLevels)

/-- POWER_FAIL_HOLD: level 6 is confirmed, and level 5's actions are complete. -/
def execPowerFailHold (s : State) : Out :=
  let p := s.power
  if p.off || p.hold || !p.l5done || p.turnOff || decide (max p.vLevel p.tLevel < 6) then .next s
  else
    let s := s.setLevel 6
    let s := { s with power := { s.power with hold := true, domains := mgmtOnly } }
    .next ((upFrom 0 8).foldl (fun s p => if (s.port p).up then s.losePort p .down else s) s)

/-- THERMAL_TRIP: a junction reached 110 °C. -/
def execThermalTrip (die : Fin 5) (s : State) : Out :=
  if s.power.off then .next s else .next { s.crash with power := { s.crash.power with die := die.val } }

/-- SELF_REFRESH_RETURN: a stack that served an access returns to self-refresh (R540). -/
def execSelfRefreshReturn (k : Fin 8) (s : State) : Out :=
  if s.stroke.phase == .held && s.power.l5done && !s.power.hold then
    .next { s with power := { s.power with refresh := setBit s.power.refresh k.val true } }
  else .next s

/-! ### Regulators (R530, R531, R533) -/

/-- REGULATOR_FAULT. -/
def execRegulatorFault (f : RegFault) (s : State) : Out :=
  let p := s.power
  if p.off then .next s
  else match f with
    | .converter n =>
      if p.stage.getLsbD n.val then .next s
      else .next ({ s with power := { p with stage := setBit p.stage n.val true, phaseCnt := p.phaseCnt + 1 } }.setFlags (pgPWR + 0x24) 8)
    | .phase d =>
      let first := decide (p.phaseCnt = popcount p.stage)
      .next ({ s with power := { p with phaseCnt := p.phaseCnt + 1, phaseDom := if first then d.val else p.phaseDom } }.setFlags
        (pgPWR + 0x24) 8)
    | .domain d =>
      if !p.domains.getLsbD d.val then .next s
      else
        let lost := if d.val = 63 then setBit p.lost 63 true else p.lost
        .next ({ s with power := { p with domains := setBit p.domains d.val false, lost := lost } }.setFlags (pgPWR + 0x24) 16)

/-! ### Ordered turn-off (R548) -/

/-- ORDERED_TURN_OFF: level 5's actions are complete; the boot status area records a clean turn-off. -/
def execOrderedTurnOff (s : State) : Out :=
  let p := s.power
  if p.turnOff && p.l5done && !p.off then
    let s := { s with boot := { s.boot with status0 := 0x47535442, status1 := 1 },
                      power := { p with off := true, mgmtOff := true, domains := 0, goodCnt := 0, hold := false },
                      stroke := { s.stroke with phase := .boot }, pins := { s.pins with vioOut := false } }
    .next ((upFrom 0 8).foldl (fun s p => if (s.port p).up then s.losePort p .down else s) s)
  else .next s

end Sys2Proof.Machine
end

