-- ==== Sys2Proof/Machine/Boot.lean ====
section
/-! DEFINITION. Power-on reset and boot (R563 to R573), the checks of firmware and patch images (R279, R570, R571), and the
lifecycle burn (R572). -/

namespace Sys2Proof.Machine

/-! ### Keys (R570) -/

/-- The hash that a public key must have: the fused root key's, or in BLANK the manufacturing key's. -/
def State.keyHash (s : State) : List Byte := if s.blank then Config.mfgKeyHash else Config.rootKeyHash
def State.keyOk (s : State) (k : List Byte) : Bool := digest k == fitBytes 32 s.keyHash

/-! ### Patch images (Table 07-10, Table 07-11) -/

/-- A patch microword: [31:29] zero, and NANO[10:8] zero when NSEL is set (Table 07-2). -/
def microOk (v : Nat) : Bool := decide (v < 2 ^ 29) && !(v / 2 ^ 28 % 2 == 1 && v / 2 ^ 25 % 8 != 0)
/-- A patch nanoword: [191:168] and RSV zero. -/
def nanoOk (v : Nat) : Bool := decide (v < 2 ^ 168) && v % 2 ^ 28 == 0
/-- A match entry: reserved bits zero, and MATCH[13:10] zero for an index. -/
def matchOk (v : Nat) : Bool := v / 1024 % 64 == 0 && !(v / 2 ^ 30 % 2 == 1 && v / 2 ^ 26 % 16 != 0)

def patchShapeOk (img : List Byte) : Bool :=
  let m := byteField img 12 2
  let n := byteField img 14 2
  let k := byteField img 16 2
  let ms := fieldsAt img 64 4 1024
  let ns := fieldsAt img 4160 24 256
  let ks := fieldsAt img 10304 4 64
  decide (m ≤ 1024) && decide (n ≤ 256) && decide (k ≤ 64) && byteField img 18 46 == 0
    && (ms.take m).all microOk && (ms.drop m).all (· == 0) && (ns.take n).all nanoOk && (ns.drop n).all (· == 0)
    && (ks.take k).all matchOk && (ks.drop k).all (· == 0)

/-- Check 0x09, over the enabled entries. -/
def patchMatchesOk (img : List Byte) : Bool :=
  let ks := (fieldsAt img 10304 4 64).filter fun v => v / 2 ^ 31 % 2 == 1
  let names := ks.map fun v => v / 65536 % 32768
  names.eraseDups.length == names.length
    && ks.all fun v => (v / 2 ^ 30 % 2 == 0 || romIndices.contains (v / 65536 % 1024)) && decide (v % 1024 < byteField img 12 2)

/-- Checks 0x03 to 0x09 of Table 07-11 in order; 0 when an image passes. -/
def State.patchErr (s : State) (img : List Byte) : Nat :=
  if img.take 4 ≠ [0x47, 0x50, 0x41, 0x54] ∨ byteField img 4 2 ≠ 1 ∨ byteField img 6 2 ≠ 0x9640 then 3
  else if !s.keyOk (slice img 10560 48) then 4
  else if !Config.verifies (slice img 10560 48) (img.take 10608) (slice img 10608 16224) then 5
  else if byteField img 8 2 < s.boot.minver.toNat then 6
  else if byteField img 10 2 ≠ romRev then 7
  else if !patchShapeOk img then 8
  else if !patchMatchesOk img then 9
  else 0

/-- PATCH_VERIFY_DONE: the image of the load under way has been fetched and checked (R279). -/
def execPatchVerifyDone (s : State) : Out :=
  let p := s.patch
  if !p.loading || p.image.length != patchLen then .next s
  else
    let e := s.patchErr p.image
    let q := { p with loading := false, image := [], err := BitVec.ofNat 8 e }
    .next { s with patch := if e = 0 then { q with state := 3, verified := p.image } else { q with state := 4 } }

/-! ### Firmware images (Table 15-4 to Table 15-6) -/

/-- Length of an image, by its header. -/
def imageLen (img : List Byte) : Nat := byteField img 12 4

/-- Lengths that Table 15-5 gives a section. -/
def sectionLenOk (kind len : Nat) : Bool :=
  match kind with
  | 1 => decide (len ≤ 0x1000000)
  | 2 => len == patchLen
  | 3 => len == 8192
  | 4 => len == 512
  | 5 => len == 16
  | _ => true

/-- No two sections share a byte. -/
def apartAll : List (Nat × Nat × Nat) → Bool
  | [] => true
  | e :: es => (es.all fun f => decide (e.2.1 + e.2.2 ≤ f.2.1) || decide (f.2.1 + f.2.2 ≤ e.2.1)) && apartAll es

def imageShapeOk (img : List Byte) : Bool :=
  let l := imageLen img
  let n := byteField img 16 2
  let es := imageSections img
  decide (l ≤ img.length) && decide (l ≤ 0x1000000) && decide (64 + 16 * n + 16272 ≤ l) && decide (2 ≤ n) && decide (n ≤ 16)
    && (es.all fun e => decide (1 ≤ e.1) && decide (e.1 ≤ 7) && e.2.1 % 64 == 0 && decide (64 + 16 * n ≤ e.2.1)
          && decide (e.2.1 + e.2.2 ≤ l - 16272) && sectionLenOk e.1 e.2.2)
    && apartAll es && [1, 3, 5, 6, 7].all fun k => es.any fun e => e.1 == k

/-- The ports section: the steward port, and each port's ward. A port's byte holds bit 31 of PRT.BIND in bit 7 and bits [2:0] in [2:0], with
[6:3] zero (DESIGN CHOICE, log 84). -/
def sectionBinds (bs : List Byte) : Map (Option Nat) :=
  (upFrom 0 8).foldl (fun m p =>
    let b := byteField bs (1 + p) 1
    mput (fun _ => none) m p (if 128 ≤ b then some (b % 8) else none)) []

def portsOk (bs : List Byte) : Bool :=
  let m := sectionBinds bs
  let port := byteField bs 0 1
  decide (port < 8) && (mget (fun _ => none) m port).isSome && byteField bs 9 7 == 0
    && ((upFrom 0 8).all fun p => byteField bs (1 + p) 1 / 8 % 16 == 0)
    && (upFrom 0 8).all fun w => decide ((m.filter fun e => e.2 == some w).length ≤ 2)

/-- The checks of Table 15-6 in order; 0 when an image passes. -/
def State.imageErr (s : State) (img : List Byte) : Nat :=
  let l := imageLen img
  let img' := img.take l
  if img.length < 64 ∨ img.take 4 ≠ [0x47, 0x46, 0x57, 0x49] ∨ byteField img 4 2 ≠ 1 ∨ byteField img 6 2 ≠ 0x9640 then 1
  else if !imageShapeOk img then 2
  else if !s.keyOk (slice img (l - 16272) 48) then 3
  else if !Config.verifies (slice img (l - 16272) 48) (img.take (l - 16224)) (slice img (l - 16224) 16224) then 4
  else if byteField img 8 2 < s.boot.fwmin.toNat then 5
  else if byteField img 10 2 ≠ 0xFFFF ∧ byteField img 10 2 ≠ romRev then 6
  else if (match imageSection img' 2 with
      | some p => decide (s.patchErr p ≠ 0)
      | none => false) then 7
  else
    let ports := (imageSection img' 5).getD []
    let t := { s with binds := sectionBinds ports, rubActive := [], boot := { s.boot with steward := byteField ports 0 1 } }
    if bits (t.rubCheck (sectionRubric ((imageSection img' 3).getD []))) 28 4 ≠ 1 then 8
    else if !portsOk ports then 9
    else 0

/-- The slots in the order in which the ROM tries them: falling VERSION, slot 0 first when equal; one with no readable header is
tried last. -/
def slotOrder (a b : List Byte) : List (Bool × List Byte) :=
  let v (x : List Byte) : Nat := if x.length < 64 then 0 else byteField x 8 2 + 1
  if v a < v b then [(true, b), (false, a)] else [(false, a), (true, b)]

/-- The first image that passes, with the reason of the slot refused before it; none when both are refused. -/
def State.chooseImage (s : State) (a b : List Byte) : Option (Bool × List Byte) × Nat :=
  match slotOrder a b with
  | [x, y] =>
    let e := s.imageErr x.2
    if e = 0 then (some x, 0) else if s.imageErr y.2 = 0 then (some y, e) else (none, e)
  | _ => (none, 0)

/-! ### Power-on reset and boot (Table 15-2) -/

/-- Steps 1 and 2: everything at its reset values; fuses, the boot status area, what power management measures and the links
that train are kept, and VIO_OUT comes into regulation (R595). The first boot in RETURN burns the identity seed (R573). -/
def State.powerOn (s : State) : State :=
  let b := s.boot
  let p := s.power
  let clean := b.status0 == 0x47535442 && b.status1 == 1
  { State.reset with
    pending := s.pending, hostOut := s.hostOut, tick := s.tick,
    ports := s.ports.map fun (e : Nat × Port) => (e.1, { up := e.2.up, wide := e.2.wide, speed := e.2.speed : Port }),
    power := { ({} : Power) with mv := p.mv, ma := p.ma, temp := p.temp, die := p.die, pin := p.pin, recent := p.recent,
                                 vIn := p.vIn, vOut := p.vOut, tIn := p.tIn, tOut := p.tOut, pIn := p.pIn, pOut := p.pOut,
                                 goodCnt := p.goodCnt, unclean := !clean },
    pins := { vioOut := true },
    boot := { ({} : Boot) with life := b.next, next := b.next, fwmin := b.fwmin, minver := b.minver, variant := b.variant,
                               seedGone := b.seedGone || b.next == 4, status0 := b.status0, status1 := 2 } }

/-- Step 6: sections are placed. -/
def State.placeSections (s : State) (img : List Byte) : State :=
  let ports := (imageSection img 5).getD []
  let s := (Config.placedWords img).foldl (fun s e => if inSys e.1 then s.putWord e.1 (plainWord e.2) else s) s
  let s := { s with binds := sectionBinds ports, boot := { s.boot with steward := byteField ports 0 1 } }
  let s := (upFrom 0 8).foldl (fun s p => s.setReg (pgPRT + 0x40 * p) (match s.bound p with
    | some w => BitVec.ofNat 32 (2 ^ 31 + w)
    | none => 0)) s
  let s := (upFrom 0 8).foldl (fun s w => s.modWard w fun k => { k with env := sectionEnv img w }) s
  let s := match imageSection img 2 with
    | some p =>
      let s := { s with patch := { s.patch with state := 3, verified := p, active := true, version := BitVec.ofNat 16 (byteField p 8 2) } }
      (s.setReg (pgPAT + 0x10) 1).writeMatches true
    | none => s
  let t := sectionRubric ((imageSection img 3).getD [])
  { s with rubActive := t, rubStaged := t }.rubCopy

/-- Step 7: the executive starts in context 0 of every active nib; no nib is assigned to a ward yet (Table 14-7). -/
def State.startExecutive (s : State) (img : List Byte) : State :=
  let ns := (upFrom 0 544).filter fun n => n % 17 != 16
  let nib (n : Nat) : Nib := { nibDefault n with parkedBy := 4 }
  { s with ctxs := ns.map fun n =>
      (key n 0, ({ ctxDefault (key n 0) with pc := Config.executiveStart img }.setState stReady)),
           nibs := (upFrom 0 544).map fun n => (n, if n % 17 = 16 then nib n else s.fillStore (nib n)) }

/-- Boot ends and stroke 1 opens; LCS.BOOT.TIME is a free value, since this model counts no milliseconds. -/
def State.bootWith (s : State) (slot : Bool) (img : List Byte) (reason : Nat) : State :=
  let img := img.take (imageLen img)
  let s := { s with boot := { s.boot with slot := slot, reason := BitVec.ofNat 8 reason, version := BitVec.ofNat 16 (byteField img 8 2),
                                          image := img, done := true },
                    power := { s.power with domains := 0xFFFFFFFFFFFFFFFF } }
  let s := (s.placeSections img).startExecutive img
  let s := (s.setReg (pgLCS + 0xC) (s.draw.setWidth 32 &&& 0xFFFF)).drawn
  s.takeCkpt.openAttempt true

/-- POWER_ON_RESET, with the contents of the two image slots: it begins when the input has been at 40 V or more for 1,000 samples,
on a device that is off or has not booted. -/
def execPowerOnReset (slot0 slot1 : List Byte) (s : State) : Out :=
  if s.power.goodCnt < 1000 ∨ !(s.power.off || (!s.boot.done && !s.boot.stopped)) then .next s
  else
    let s := s.powerOn
    match s.chooseImage slot0 slot1 with
    | (some x, r) => .next (s.bootWith x.1 x.2 r)
    | (none, r) => .next { s with boot := { s.boot with stopped := true, reason := BitVec.ofNat 8 r } }.raiseAlarm

/-! ### Lifecycle (R572) -/

/-- LIFECYCLE_BURN_DONE: the fuses of a transition are burned; the state follows at the next power-on reset. -/
def execLifecycleBurnDone (s : State) : Out :=
  match s.boot.burning with
  | none => .next s
  | some t => .next ({ s with boot := { s.boot with burning := none, next := t } }.setFlags (pgLCS + 0x10) 1)

end Sys2Proof.Machine
end

