-- ==== Sys2Proof/Machine/Debug.lean ====
section
/-! DEFINITION. The debug port (R580 to R585): TAP instructions, authenticated unlock, and accesses of the debug master. -/

namespace Sys2Proof.Machine

/-! ### The TAP (R580, Table 15-12) -/

/-- The low n bits of a number, first bit out first. -/
def numBits : Nat → Nat → List Bool
  | 0, _ => []
  | n + 1, v => (v % 2 == 1) :: numBits n (v / 2)

/-- An instruction is shifted in, and its data register out; above shed level 0 the port does not answer. -/
def State.tap (s : State) (ir : BitVec 8) (dr : List Bool) (f : State → State) : Out :=
  if s.debugOn then .next (f ({ s with dbg := { s.dbg with ir := ir } }.emit (.tdo dr))) else .next s

/-- IDCODE: SILICON[3:0] is 0 (Table 13-5). -/
def idCode : Nat := 0x9640 * 2 ^ 12 + 0x2B5 * 2 + 1

def execIdcode (s : State) : Out := s.tap 0x01 (numBits 32 idCode) id

/-- SAMPLE/PRELOAD and EXTEST act in BLANK or under scope RUN, else as BYPASS. -/
def State.scanReg (s : State) : List Bool :=
  if s.blank || s.dbg.scope.getLsbD 2 then Config.boundaryScan s.tick else [false]

def execSamplePreload (s : State) : Out := s.tap 0x02 s.scanReg State.drawn

def execExtest (s : State) : Out := s.tap 0x03 s.scanReg State.drawn

/-- BYPASS, and every code that Table 15-12 does not list. -/
def execBypass (code : BitVec 8) (s : State) : Out := s.tap code [false] id

/-- TRST_N: the instruction after a TAP reset is IDCODE (IEEE 1149.1). -/
def execTapReset (s : State) : Out :=
  if s.debugOn then .next { s with dbg := { s.dbg with ir := 0x01 } } else .next s

/-! ### Unlock (R583 to R585) -/

/-- The random bytes of the next challenge. -/
def State.nonce (s : State) : List Byte := fitBytes 32 (Config.freeRandom s.tick)

def State.challengeBytes (s : State) : List Byte :=
  leBytes 8 Config.serial.toNat ++ leBytes 1 s.boot.life.toNat ++ List.replicate 23 0 ++ s.nonce

def byteBits (bs : List Byte) : List Bool := bs.flatMap fun b => numBits 8 b.toNat

def execNvsChallenge (s : State) : Out :=
  let n := s.nonce
  s.tap 0x20 (byteBits s.challengeBytes) fun t => { t.drawn with dbg := { t.dbg with challenge := some n } }

/-- NVS.UNLOCK: the token is to be checked against the challenge, which ends. -/
def execNvsUnlock (token : List Byte) (s : State) : Out :=
  s.tap 0x21 [] fun t => { t with dbg := { t.dbg with checking := some (fitBytes 16336 token, t.dbg.challenge), challenge := none } }

def execNvsRelock (bit : Bool) (s : State) : Out :=
  s.tap 0x22 [false] fun t => if bit then { t with dbg := { t.dbg with scope := 0 } } else t

def execNvsStatus (s : State) : Out :=
  s.tap 0x23 (numBits 32 (s.dbg.scope.toNat * 65536 + s.dbg.last.toNat * 256)) id

/-- The checks of R584 in order: the result code. -/
def State.unlockResult (s : State) (t : List Byte) (ch : Option (List Byte)) : Nat :=
  let scope := byteField t 48 2
  if t.take 4 ≠ [0x47, 0x44, 0x42, 0x54] ∨ byteField t 4 2 ≠ 1 ∨ byteField t 6 2 ≠ 0x9640 then 1
  else if byteField t 8 8 ≠ Config.serial.toNat then 2
  else if ch ≠ some (slice t 16 32) then 3
  else if !s.keyOk (slice t 64 48) then 4
  else if !Config.verifies (slice t 64 48) (t.take 112) (slice t 112 16224) then 5
  else if scope = 0 ∨ 32 ≤ scope then 6
  else 0x80

/-- UNLOCK_CHECK_DONE. -/
def execUnlockCheckDone (s : State) : Out :=
  match s.dbg.checking with
  | none => .next s
  | some (t, ch) =>
    let r := s.unlockResult t ch
    let d := { s.dbg with checking := none, last := BitVec.ofNat 8 r }
    if r = 0x80 then
      .next ({ s with dbg := { d with scope := d.scope ||| BitVec.ofNat 16 (byteField t 48 2) } }.setFlags (pgDBG + 0x10) 1)
    else .next ({ s with dbg := d }.setFlags (pgDBG + 0x10) 2)

/-! ### NVS.ACCESS (R358, R359, R581, R582) -/

/-- The access register as Capture-DR takes it: the previous access. -/
def State.accessBits (s : State) : List Bool :=
  let d := s.dbg
  numBits 64 d.accPay.toNat ++ numBits 10 d.accTag.toNat ++ numBits 13 d.accStatus.toNat ++ numBits 40 d.accAddr.toNat ++ [false]
    ++ numBits 8 d.accOp.toNat

/-- The access passes Table 09-10, then the scope, then the Rubric; `go` performs it. -/
def State.access (s : State) (op : BitVec 8) (pa : BitVec 40) (k : Acc) (there : Bool) (go : State → State) : Out :=
  s.tap 0x24 s.accessBits fun s =>
    let a := pa.toNat
    if s.lockedFrom a then s.lockAccess op pa
    else if !s.dbgScopeOk a then s.refuseAccess op pa
    else if !s.rubAllows dbgAsker k a then (s.laneDenied 23 a (k != .read)).setAccess op pa 2 Word.rawZero
    else if there then go s
    else s.setAccess op pa 3 Word.rawZero

/-- A word that is there: aligned, in memory, its stack's domain on. -/
def State.wordThere (s : State) (a : Nat) : Bool := a % 8 == 0 && inMem a && s.domain (36 + stackOf a)

/-- A register that is there. -/
def State.regThere (s : State) (a : Nat) : Bool :=
  a % 4 == 0 && (match blockAt a with
    | some b => s.answers' b
    | none => false)

/-- Replicas that disagree over a debug access deny it, with no effect but the machine check (R355). -/
def State.debugVote (s : State) (m : Meets) (pa : BitVec 40) (go : State → State) : State :=
  if m.agree then go s else s.vote 23 pa.toNat

/-- DEBUG_WORD_READ: the current value, through the owning inkwell; a line that is lost outside the heap gives none (R69). -/
def execDebugWordRead : Routed (BitVec 40) → State → Out
  | ⟨pa, m⟩, s =>
  let l := lineOf pa.toNat
  s.access 1 pa .read (s.wordThere pa.toNat) fun s => s.debugVote m pa fun s =>
    let r := s.meet (fun k => k == l) m.errs
    let s := ((r.1.flushImage l).leaveRefresh l).inkRead l
    if r.2 then s.setAccess 1 pa 1 (s.word pa.toNat) else s.setAccess 1 pa 3 Word.rawZero

/-- The word a debug write stores: RAW, but in BLANK the tag shifted in. -/
def State.debugWord (s : State) (tag : BitVec 10) (v : BitVec 64) : Word := if s.blank then Word.ofTag tag v else Word.rawOf v

/-- DEBUG_WORD_WRITE. -/
def execDebugWordWrite (pa : BitVec 40) (tag : BitVec 10) : Routed (BitVec 64) → State → Out
  | ⟨v, m⟩, s =>
  let w := s.debugWord tag v
  s.access 2 pa (if w.typ == Ty.raw then .write else .writeT) (s.wordThere pa.toNat) fun s => s.debugVote m pa fun s =>
    let s := (s.meet (fun k => k == lineOf pa.toNat) m.errs).1
    ((s.leaveRefresh (lineOf pa.toNat)).putDevice pa.toNat w).setAccess 2 pa 1 w

/-- DEBUG_REG_READ. -/
def execDebugRegRead : Routed (BitVec 40) → State → Out
  | ⟨pa, m⟩, s => s.access 3 pa .read (s.regThere pa.toNat) fun s => s.debugVote m pa fun s => (s.laneRead 23 pa.toNat).1

/-- DEBUG_REG_WRITE. -/
def execDebugRegWrite (pa : BitVec 40) : Routed (BitVec 32) → State → Out
  | ⟨v, m⟩, s => s.access 4 pa .write (s.regThere pa.toNat) fun s => s.debugVote m pa fun s => s.laneWrite 23 pa.toNat v

end Sys2Proof.Machine
end

