-- ==== Sys2Proof/Machine/Mctp.lean ====
section
/-! DEFINITION. The MCTP endpoint over SMBus (R579, Table 15-11) and the alert response (R597). -/

namespace Sys2Proof.Machine

/-- The management processor answers at every shed level, in hold and before stroke 1, while the device is not turned off. -/
def State.answersMctp (s : State) (bs : List Byte) : Out := if s.power.off then .next s else .next (s.emit (.mctp bs))

/-- GET_REPORT: measured as of the last commit instant; in RETURN status 0x02 and no report. -/
def execGetReport (nonce : List Byte) (s : State) : Out :=
  s.answersMctp (if s.hasIdentity then s.reportBytes nonce (s.stroke.num - 1) else [0x02])

/-- GET_STATUS: seven registers. -/
def State.statusBytes (s : State) : List Byte :=
  [s.pwrStatus, s.pwrVin, s.pwrPin, s.pwrTj, s.stkStatus, s.lcsState, s.lcsBoot].flatMap fun v => leBytes 4 v.toNat

def execGetStatus (s : State) : Out := s.answersMctp s.statusBytes

/-- GET_CERT: bytes of the identity area. -/
def execGetCert (off len : Nat) (s : State) : Out :=
  s.answersMctp (if len ≤ 1024 ∧ off + len ≤ 65536 then slice (fitBytes 65536 Config.identityArea) off len
    else Config.mctpRefusal off len)

/-- MCTP_CONTROL: answered as DSP0236 gives. -/
def execMctpControl (msg : List Byte) (s : State) : Out := s.answersMctp (Config.mctpControl msg)

/-- ALERT_RESPONSE: the device answers with its address while SMBALERT_N is low, and releases it (R597). -/
def execAlertResponse (s : State) : Out :=
  if s.pins.alertLow && !s.power.mgmtOff then .next ({ s with pins := { s.pins with alertLow := false } }.emit (.smbus 0x4C)) else .next s

end Sys2Proof.Machine
end

