-- ==== Sys2Proof/Machine/Registers.lean ====
section
/-! DEFINITION. The set-up register commands (ch 13): each write goes through the requester's lane, the page's guard and the
register's own rule (State.laneWrite). -/

namespace Sys2Proof.Machine

/-- A write of a requester to a set-up register (R503). -/
def execSetupRegisterWrite (lane : Fin 24) (pa : BitVec 40) (v : BitVec 32) (s : State) : Out :=
  .next (s.laneWrite lane.val pa.toNat v)

/-- First half of a paired write of RUB.START (R345, R511). -/
def execRubStart (lane : Fin 24) (v : BitVec 32) (s : State) : Out :=
  .next (s.laneWrite lane.val (pgRUB + 0x10) v)

/-- First half of a paired write of RUB.END. -/
def execRubEnd (lane : Fin 24) (v : BitVec 32) (s : State) : Out :=
  .next (s.laneWrite lane.val (pgRUB + 0x18) v)

/-- First half of a paired write of RUB.ATTR. -/
def execRubAttr (lane : Fin 24) (v : BitVec 32) (s : State) : Out :=
  .next (s.laneWrite lane.val (pgRUB + 0x20) v)

/-- First half of a paired write of STK.PERIOD (R410). -/
def execStkPeriod (lane : Fin 24) (v : BitVec 32) (s : State) : Out :=
  .next (s.laneWrite lane.val pgSTK v)

/-- First half of a paired write of PAT.ENABLE (R280). -/
def execPatEnable (lane : Fin 24) (v : BitVec 32) (s : State) : Out :=
  .next (s.laneWrite lane.val (pgPAT + 0x10) v)

/-- First half of a paired write of a PRT.BIND (R466). -/
def execPrtBind (lane : Fin 24) (p : Fin 8) (v : BitVec 32) (s : State) : Out :=
  .next (s.laneWrite lane.val (pgPRT + 0x40 * p.val) v)

/-- First half of a paired write of WAS.ASSIGN (R549). -/
def execWasAssign (lane : Fin 24) (v : BitVec 32) (s : State) : Out :=
  .next (s.laneWrite lane.val pgWAS v)

/-- First half of a paired write of PWR.SHED (R547). -/
def execPwrShed (lane : Fin 24) (v : BitVec 32) (s : State) : Out :=
  .next (s.laneWrite lane.val (pgPWR + 0x10) v)

/-- First half of a paired write of LCS.REQ (R572). -/
def execLcsReq (lane : Fin 24) (v : BitVec 32) (s : State) : Out :=
  .next (s.laneWrite lane.val pgLCS v)

/-- The second half of a paired write (R512 to R514). -/
def execComplementWrite (lane : Fin 24) (pa : BitVec 40) (v : BitVec 32) (s : State) : Out :=
  .next (s.laneWrite lane.val pa.toNat v)

/-- A write of a sequence-clear register (R510). -/
def execWscClear (lane : Fin 24) (pa : BitVec 40) (v : BitVec 32) (s : State) : Out :=
  .next (s.laneWrite lane.val pa.toNat v)

/-- A masked write of WIN.FLAGS (R508). -/
def execWinFlags (lane : Fin 24) (w : Fin 8) (v : BitVec 32) (s : State) : Out :=
  .next (s.laneWrite lane.val (window w.val + 4) v)

/-- STK.APPLY (R450, R451). -/
def execStkApply (lane : Fin 24) (v : BitVec 32) (s : State) : Out :=
  .next (s.laneWrite lane.val (pgSTK + 8) v)

/-- WIN.APPLY (R518). -/
def execWinApply (lane : Fin 24) (w : Fin 8) (v : BitVec 32) (s : State) : Out :=
  .next (s.laneWrite lane.val (window w.val) v)

/-- RUB.CTRL 0b01 (R345). -/
def execRubCopyActive (lane : Fin 24) (s : State) : Out :=
  .next (s.laneWrite lane.val (pgRUB + 4) 1)

/-- RUB.CTRL 0b10 (R345). -/
def execRubClearStaged (lane : Fin 24) (s : State) : Out :=
  .next (s.laneWrite lane.val (pgRUB + 4) 2)

/-- PAT.CMD 0b01 (R279). -/
def execPatchLoad (lane : Fin 24) (s : State) : Out :=
  .next (s.laneWrite lane.val pgPAT 1)

/-- PAT.CMD 0b10 (R280). -/
def execPatchDiscard (lane : Fin 24) (s : State) : Out :=
  .next (s.laneWrite lane.val pgPAT 2)

/-- INK.CTRL.EN written 0 (R307). -/
def execInkwellDisable (lane : Fin 24) (k : Fin 8) (s : State) : Out :=
  .next (s.laneWrite lane.val (pgINK k.val) 0)

/-- INK.CTRL.EN written 1 (R308). -/
def execInkwellEnable (lane : Fin 24) (k : Fin 8) (s : State) : Out :=
  .next (s.laneWrite lane.val (pgINK k.val) 1)

/-- TAL.LATCH written 1 (R456). -/
def execTallyHold (lane : Fin 24) (view : Fin 9) (s : State) : Out :=
  .next (s.laneWrite lane.val (talBase view.val) 1)

/-- TAL.LATCH written 0 (R456). -/
def execTallyRelease (lane : Fin 24) (view : Fin 9) (s : State) : Out :=
  .next (s.laneWrite lane.val (talBase view.val) 0)

/-- XL.ROOTLO or XL.ROOTHI (R325, R526). -/
def execXlRootWrite (lane : Fin 24) (n : Fin 544) (hi : Bool) (v : BitVec 32) (s : State) : Out :=
  .next (s.laneWrite lane.val (nibPage n.val + if hi then 4 else 0) v)

/-- XL.WARD (R325, R526). -/
def execXlWardWrite (lane : Fin 24) (n : Fin 544) (v : BitVec 32) (s : State) : Out :=
  .next (s.laneWrite lane.val (nibPage n.val + 8) v)

/-- CTX.CMD read (R527). -/
def execCtxRead (lane : Fin 24) : Routed (Fin 544) → State → Out
  | ⟨n, m⟩, s => .next (s.ctxMeets lane.val n.val m fun s => s.laneWrite lane.val (ctxPage n.val + 4) 1)

/-- CTX.CMD write (R528). -/
def execCtxWrite (lane : Fin 24) : Routed (Fin 544) → State → Out
  | ⟨n, m⟩, s => .next (s.ctxMeets lane.val n.val m fun s => s.laneWrite lane.val (ctxPage n.val + 4) 2)

/-- CTX.CMD start (R527). -/
def execCtxStart (lane : Fin 24) (n : Fin 544) (s : State) : Out :=
  .next (s.laneWrite lane.val (ctxPage n.val + 4) 3)

/-- CTX.CMD stop (R604). -/
def execCtxStop (lane : Fin 24) (n : Fin 544) (s : State) : Out :=
  .next (s.laneWrite lane.val (ctxPage n.val + 4) 4)

/-- CTX.CMD resume (R224). -/
def execCtxResume (lane : Fin 24) (n : Fin 544) (s : State) : Out :=
  .next (s.laneWrite lane.val (ctxPage n.val + 4) 5)

/-- CTX.CMD freeze (R604). -/
def execCtxFreeze (lane : Fin 24) (n : Fin 544) (s : State) : Out :=
  .next (s.laneWrite lane.val (ctxPage n.val + 4) 6)

/-- An armed guard has been left for 256 hub cycles (R513). -/
def execGuardTimeout (page : BitVec 40) (s : State) : Out :=
  match blockAt page.toNat with
  | some b => .next (s.guardEnd b 3)
  | none => .next s

/-- A read of TAL.DATALO captures the selected counter; the value goes to the requester (R456). -/
def execTalDataloRead (lane : Fin 24) (view : Fin 9) (s : State) : Out :=
  let r := s.laneRead lane.val (talBase view.val + 0x10)
  .next (r.1.emit (.regData lane.val r.2))

/-- The write-back visits its last set (R307). -/
def execInkwellWritebackDone (k : Fin 8) (s : State) : Out :=
  if mget (fun _ => 0) s.inkState k.val = 1 then .next ((s.inkVisit k.val 16384).setInk k.val 2) else .next s

/-- A stop or freeze meets its context (R604). -/
def execStopRequestAct (n : Fin 544) (c : Fin 32) (s : State) : Out := .next (s.stopAct n.val c.val)

end Sys2Proof.Machine
end

