-- ==== Sys2Proof/Machine/Dispatch.lean ====
section
/-! DEFINITION. The dispatch: one arm per constructor of Instr, each a direct call of its meaning. -/

namespace Sys2Proof.Machine

def exec (i : Instr) (s : State) : Host.Outcome State Fault Refusal :=
  match i with
  | .nop q w => Sys2Proof.Machine.execNop q w s
  | .mov q f => Sys2Proof.Machine.execMov q f s
  | .movi q f => Sys2Proof.Machine.execMovi q f s
  | .lui q f => Sys2Proof.Machine.execLui q f s
  | .typeof q f => Sys2Proof.Machine.execTypeof q f s
  | .retag q f => Sys2Proof.Machine.execRetag q f s
  | .ttest q f => Sys2Proof.Machine.execTtest q f s
  | .pretag q f => Sys2Proof.Machine.execPretag q f s
  | .str q f => Sys2Proof.Machine.execStr q f s
  | .stw q f => Sys2Proof.Machine.execStw q f s
  | .svr q f => Sys2Proof.Machine.execSvr q f s
  | .svw q f => Sys2Proof.Machine.execSvw q f s
  | .iadd q f => Sys2Proof.Machine.execIadd q f s
  | .isub q f => Sys2Proof.Machine.execIsub q f s
  | .and q f => Sys2Proof.Machine.execAnd q f s
  | .or q f => Sys2Proof.Machine.execOr q f s
  | .xor q f => Sys2Proof.Machine.execXor q f s
  | .shift q f => Sys2Proof.Machine.execShift q f s
  | .iaddi q f => Sys2Proof.Machine.execIaddi q f s
  | .andi q f => Sys2Proof.Machine.execAndi q f s
  | .ori q f => Sys2Proof.Machine.execOri q f s
  | .xori q f => Sys2Proof.Machine.execXori q f s
  | .shifti q f => Sys2Proof.Machine.execShifti q f s
  | .icmp q f => Sys2Proof.Machine.execIcmp q f s
  | .eq q f => Sys2Proof.Machine.execEq q f s
  | .imul q f => Sys2Proof.Machine.execImul q f s
  | .mulh q f => Sys2Proof.Machine.execMulh q f s
  | .idiv q f => Sys2Proof.Machine.execIdiv q f s
  | .add q f => Sys2Proof.Machine.execAdd q f s
  | .sub q f => Sys2Proof.Machine.execSub q f s
  | .mul q f => Sys2Proof.Machine.execMul q f s
  | .addi q f => Sys2Proof.Machine.execAddi q f s
  | .eql q f => Sys2Proof.Machine.execEql q f s
  | .less q f => Sys2Proof.Machine.execLess q f s
  | .div q f => Sys2Proof.Machine.execDiv q f s
  | .rem q f => Sys2Proof.Machine.execRem q f s
  | .fadd q f => Sys2Proof.Machine.execFadd q f s
  | .fsub q f => Sys2Proof.Machine.execFsub q f s
  | .fmul q f => Sys2Proof.Machine.execFmul q f s
  | .fma q f => Sys2Proof.Machine.execFma q f s
  | .fnma q f => Sys2Proof.Machine.execFnma q f s
  | .fcmp q f => Sys2Proof.Machine.execFcmp q f s
  | .fcvt q f => Sys2Proof.Machine.execFcvt q f s
  | .fmisc q f => Sys2Proof.Machine.execFmisc q f s
  | .beq q f => Sys2Proof.Machine.execBeq q f s
  | .bne q f => Sys2Proof.Machine.execBne q f s
  | .blt q f => Sys2Proof.Machine.execBlt q f s
  | .bge q f => Sys2Proof.Machine.execBge q f s
  | .bltu q f => Sys2Proof.Machine.execBltu q f s
  | .bgeu q f => Sys2Proof.Machine.execBgeu q f s
  | .btype q f => Sys2Proof.Machine.execBtype q f s
  | .bntype q f => Sys2Proof.Machine.execBntype q f s
  | .bnil q f => Sys2Proof.Machine.execBnil q f s
  | .bnnil q f => Sys2Proof.Machine.execBnnil q f s
  | .br q disp => Sys2Proof.Machine.execBr q disp s
  | .jmpr q f => Sys2Proof.Machine.execJmpr q f s
  | .call q disp => Sys2Proof.Machine.execCall q disp s
  | .callr q f => Sys2Proof.Machine.execCallr q f s
  | .ret q f => Sys2Proof.Machine.execRet q f s
  | .gate q f => Sys2Proof.Machine.execGate q f s
  | .gret q f => Sys2Proof.Machine.execGret q f s
  | .ldx q f => Sys2Proof.Machine.execLdx q f s
  | .ldi q f => Sys2Proof.Machine.execLdi q f s
  | .stx q f => Sys2Proof.Machine.execStx q f s
  | .sti q f => Sys2Proof.Machine.execSti q f s
  | .ldbx q f => Sys2Proof.Machine.execLdbx q f s
  | .stbx q f => Sys2Proof.Machine.execStbx q f s
  | .ldv q f => Sys2Proof.Machine.execLdv q f s
  | .stv q f => Sys2Proof.Machine.execStv q f s
  | .hdrq q f => Sys2Proof.Machine.execHdrq q f s
  | .freeze q f => Sys2Proof.Machine.execFreeze q f s
  | .cld q f => Sys2Proof.Machine.execCld q f s
  | .cst q f => Sys2Proof.Machine.execCst q f s
  | .cldc q f => Sys2Proof.Machine.execCldc q f s
  | .cstc q f => Sys2Proof.Machine.execCstc q f s
  | .cldx q f => Sys2Proof.Machine.execCldx q f s
  | .cstx q f => Sys2Proof.Machine.execCstx q f s
  | .car q f => Sys2Proof.Machine.execCar q f s
  | .cdr q f => Sys2Proof.Machine.execCdr q f s
  | .rplaca q f => Sys2Proof.Machine.execRplaca q f s
  | .rplacd q f => Sys2Proof.Machine.execRplacd q f s
  | .cons q f => Sys2Proof.Machine.execCons q f s
  | .consn q f stop => Sys2Proof.Machine.execConsn q f stop s
  | .alloc q f => Sys2Proof.Machine.execAlloc q f s
  | .alloci q f => Sys2Proof.Machine.execAlloci q f s
  | .cbound q f => Sys2Proof.Machine.execCbound q f s
  | .cperm q f => Sys2Proof.Machine.execCperm q f s
  | .cinc q f => Sys2Proof.Machine.execCinc q f s
  | .cget q f => Sys2Proof.Machine.execCget q f s
  | .cseal q f => Sys2Proof.Machine.execCseal q f s
  | .cunseal q f => Sys2Proof.Machine.execCunseal q f s
  | .savem q f stop => Sys2Proof.Machine.execSavem q f stop s
  | .loadm q f stop => Sys2Proof.Machine.execLoadm q f stop s
  | .bcopy q f stop => Sys2Proof.Machine.execBcopy q f stop s
  | .bcmp q f stop => Sys2Proof.Machine.execBcmp q f stop s
  | .hash q f stop => Sys2Proof.Machine.execHash q f stop s
  | .bigstep q f stop => Sys2Proof.Machine.execBigstep q f stop s
  | .yield q f => Sys2Proof.Machine.execYield q f s
  | .wait q f => Sys2Proof.Machine.execWait q f s
  | .send q f => Sys2Proof.Machine.execSend q f s
  | .recv q f => Sys2Proof.Machine.execRecv q f s
  | .xr q f => Sys2Proof.Machine.execXr q f s
  | .xw q f => Sys2Proof.Machine.execXw q f s
  | .timer q f => Sys2Proof.Machine.execTimer q f s
  | .steady q f => Sys2Proof.Machine.execSteady q f s
  | .lbar q f => Sys2Proof.Machine.execLbar q f s
  | .sbar q f => Sys2Proof.Machine.execSbar q f s
  | .fbar q f => Sys2Proof.Machine.execFbar q f s
  | .xinvPage q f => Sys2Proof.Machine.execXinvPage q f s
  | .xinvWard q f => Sys2Proof.Machine.execXinvWard q f s
  | .xinvAll q f => Sys2Proof.Machine.execXinvAll q f s
  | .walkComplete n c => Sys2Proof.Machine.execWalkComplete n c s
  | .rubricAnswer n c agree => Sys2Proof.Machine.execRubricAnswer n c agree s
  | .lineFill n c => Sys2Proof.Machine.execLineFill n c s
  | .storeBufferSend n => Sys2Proof.Machine.execStoreBufferSend n s
  | .storeAck n => Sys2Proof.Machine.execStoreAck n s
  | .storeDropTimeout n k => Sys2Proof.Machine.execStoreDropTimeout n k s
  | .deviceLoadTimeout n c => Sys2Proof.Machine.execDeviceLoadTimeout n c s
  | .barrierComplete n c => Sys2Proof.Machine.execBarrierComplete n c s
  | .invalidation n => Sys2Proof.Machine.execInvalidation n s
  | .invalidationAck k => Sys2Proof.Machine.execInvalidationAck k s
  | .storeArrival n k => Sys2Proof.Machine.execStoreArrival n k s
  | .inkwellRead k errs agree => Sys2Proof.Machine.execInkwellRead k errs agree s
  | .shadeBufferDrain n => Sys2Proof.Machine.execShadeBufferDrain n s
  | .copyRecordRetry n c => Sys2Proof.Machine.execCopyRecordRetry n c s
  | .microTrap n c => Sys2Proof.Machine.execMicroTrap n c s
  | .spillWriteComplete n c => Sys2Proof.Machine.execSpillWriteComplete n c s
  | .spillRetry n c => Sys2Proof.Machine.execSpillRetry n c s
  | .trapEntry n c => Sys2Proof.Machine.execTrapEntry n c s
  | .heldCheckEntry n => Sys2Proof.Machine.execHeldCheckEntry n s
  | .schedulingDecision n => Sys2Proof.Machine.execSchedulingDecision n s
  | .timeSliceExpiry n => Sys2Proof.Machine.execTimeSliceExpiry n s
  | .timerExpiry n c => Sys2Proof.Machine.execTimerExpiry n c s
  | .steadyLimitExpiry n c => Sys2Proof.Machine.execSteadyLimitExpiry n c s
  | .sendDelivery k => Sys2Proof.Machine.execSendDelivery k s
  | .sendAnswer n c => Sys2Proof.Machine.execSendAnswer n c s
  | .doorbell p ring v => Sys2Proof.Machine.execDoorbell p ring v s
  | .doorbellEvent k => Sys2Proof.Machine.execDoorbellEvent k s
  | .completionHead p ring v => Sys2Proof.Machine.execCompletionHead p ring v s
  | .descriptorArrival w ring bytes => Sys2Proof.Machine.execDescriptorArrival w ring bytes s
  | .consumedReread w ring => Sys2Proof.Machine.execConsumedReread w ring s
  | .hostMemRead p sp off len => Sys2Proof.Machine.execHostMemRead p sp off len s
  | .hostMemWrite p off bytes => Sys2Proof.Machine.execHostMemWrite p off bytes s
  | .tagApertureWrite p off bytes => Sys2Proof.Machine.execTagApertureWrite p off bytes s
  | .snoop p line => Sys2Proof.Machine.execSnoop p line s
  | .configRequest p r => Sys2Proof.Machine.execConfigRequest p r s
  | .hdmDecoderCommit p dec base ways => Sys2Proof.Machine.execHdmDecoderCommit p dec base ways s
  | .hostLinkEvent p e => Sys2Proof.Machine.execHostLinkEvent p e s
  | .linkBlock leaf link fate => Sys2Proof.Machine.execLinkBlock leaf link fate s
  | .strokeTick cause => Sys2Proof.Machine.execStrokeTick cause s
  | .closeReport u => Sys2Proof.Machine.execCloseReport u s
  | .faultReport u c => Sys2Proof.Machine.execFaultReport u c s
  | .closeTimeout => Sys2Proof.Machine.execCloseTimeout s
  | .commitInstant agree => Sys2Proof.Machine.execCommitInstant agree s
  | .engineScan e => Sys2Proof.Machine.execEngineScan e s
  | .wholeSheetScan e => Sys2Proof.Machine.execWholeSheetScan e s
  | .engineCopy e => Sys2Proof.Machine.execEngineCopy e s
  | .zeroFill e => Sys2Proof.Machine.execZeroFill e s
  | .shadowImageWrite n => Sys2Proof.Machine.execShadowImageWrite n s
  | .void => Sys2Proof.Machine.execVoid s
  | .rubricBackgroundCompare differ => Sys2Proof.Machine.execRubricBackgroundCompare differ s
  | .mcLockstep => Sys2Proof.Machine.execMcLockstep s
  | .clockLoss sub => Sys2Proof.Machine.execClockLoss sub s
  | .powerSample mv ma die temp => Sys2Proof.Machine.execPowerSample mv ma die temp s
  | .powerFailHold => Sys2Proof.Machine.execPowerFailHold s
  | .thermalTrip die => Sys2Proof.Machine.execThermalTrip die s
  | .regulatorFault f => Sys2Proof.Machine.execRegulatorFault f s
  | .powerOnReset slot0 slot1 => Sys2Proof.Machine.execPowerOnReset slot0 slot1 s
  | .orderedTurnOff => Sys2Proof.Machine.execOrderedTurnOff s
  | .setupRegisterWrite lane pa v => Sys2Proof.Machine.execSetupRegisterWrite lane pa v s
  | .rubStart lane v => Sys2Proof.Machine.execRubStart lane v s
  | .rubEnd lane v => Sys2Proof.Machine.execRubEnd lane v s
  | .rubAttr lane v => Sys2Proof.Machine.execRubAttr lane v s
  | .stkPeriod lane v => Sys2Proof.Machine.execStkPeriod lane v s
  | .patEnable lane v => Sys2Proof.Machine.execPatEnable lane v s
  | .prtBind lane p v => Sys2Proof.Machine.execPrtBind lane p v s
  | .wasAssign lane v => Sys2Proof.Machine.execWasAssign lane v s
  | .pwrShed lane v => Sys2Proof.Machine.execPwrShed lane v s
  | .lcsReq lane v => Sys2Proof.Machine.execLcsReq lane v s
  | .complementWrite lane pa v => Sys2Proof.Machine.execComplementWrite lane pa v s
  | .guardTimeout page => Sys2Proof.Machine.execGuardTimeout page s
  | .wscClear lane pa v => Sys2Proof.Machine.execWscClear lane pa v s
  | .winFlags lane w v => Sys2Proof.Machine.execWinFlags lane w v s
  | .stkApply lane v => Sys2Proof.Machine.execStkApply lane v s
  | .winApply lane w v => Sys2Proof.Machine.execWinApply lane w v s
  | .rubCopyActive lane => Sys2Proof.Machine.execRubCopyActive lane s
  | .rubClearStaged lane => Sys2Proof.Machine.execRubClearStaged lane s
  | .patchLoad lane => Sys2Proof.Machine.execPatchLoad lane s
  | .patchVerifyDone => Sys2Proof.Machine.execPatchVerifyDone s
  | .patchDiscard lane => Sys2Proof.Machine.execPatchDiscard lane s
  | .inkwellDisable lane k => Sys2Proof.Machine.execInkwellDisable lane k s
  | .inkwellEnable lane k => Sys2Proof.Machine.execInkwellEnable lane k s
  | .inkwellWritebackDone k => Sys2Proof.Machine.execInkwellWritebackDone k s
  | .tallyHold lane view => Sys2Proof.Machine.execTallyHold lane view s
  | .tallyRelease lane view => Sys2Proof.Machine.execTallyRelease lane view s
  | .talDataloRead lane view => Sys2Proof.Machine.execTalDataloRead lane view s
  | .xlRootWrite lane n hi v => Sys2Proof.Machine.execXlRootWrite lane n hi v s
  | .xlWardWrite lane n v => Sys2Proof.Machine.execXlWardWrite lane n v s
  | .ctxRead lane n => Sys2Proof.Machine.execCtxRead lane n s
  | .ctxWrite lane n => Sys2Proof.Machine.execCtxWrite lane n s
  | .ctxStart lane n => Sys2Proof.Machine.execCtxStart lane n s
  | .ctxStop lane n => Sys2Proof.Machine.execCtxStop lane n s
  | .ctxResume lane n => Sys2Proof.Machine.execCtxResume lane n s
  | .ctxFreeze lane n => Sys2Proof.Machine.execCtxFreeze lane n s
  | .stopRequestAct n c => Sys2Proof.Machine.execStopRequestAct n c s
  | .nopCommand w => Sys2Proof.Machine.execNopCommand w s
  | .imageLoad w => Sys2Proof.Machine.execImageLoad w s
  | .spawn w => Sys2Proof.Machine.execSpawn w s
  | .post w ring rec0 rec1 => Sys2Proof.Machine.execPost w ring rec0 rec1 s
  | .importCmd w => Sys2Proof.Machine.execImportCmd w s
  | .exportCmd w => Sys2Proof.Machine.execExportCmd w s
  | .copyCmd w => Sys2Proof.Machine.execCopyCmd w s
  | .collect w => Sys2Proof.Machine.execCollect w s
  | .heapVerify w => Sys2Proof.Machine.execHeapVerify w s
  | .scrub w => Sys2Proof.Machine.execScrub w s
  | .query w => Sys2Proof.Machine.execQuery w s
  | .policy w => Sys2Proof.Machine.execPolicy w s
  | .attest w => Sys2Proof.Machine.execAttest w s
  | .fence w => Sys2Proof.Machine.execFence w s
  | .suspend w => Sys2Proof.Machine.execSuspend w s
  | .resume w => Sys2Proof.Machine.execResume w s
  | .cancel w => Sys2Proof.Machine.execCancel w s
  | .wardReset w => Sys2Proof.Machine.execWardReset w s
  | .idcode => Sys2Proof.Machine.execIdcode s
  | .samplePreload => Sys2Proof.Machine.execSamplePreload s
  | .extest => Sys2Proof.Machine.execExtest s
  | .bypass code => Sys2Proof.Machine.execBypass code s
  | .nvsChallenge => Sys2Proof.Machine.execNvsChallenge s
  | .nvsUnlock token => Sys2Proof.Machine.execNvsUnlock token s
  | .nvsRelock bit => Sys2Proof.Machine.execNvsRelock bit s
  | .nvsStatus => Sys2Proof.Machine.execNvsStatus s
  | .debugWordRead pa => Sys2Proof.Machine.execDebugWordRead pa s
  | .debugWordWrite pa tag v => Sys2Proof.Machine.execDebugWordWrite pa tag v s
  | .debugRegRead pa => Sys2Proof.Machine.execDebugRegRead pa s
  | .debugRegWrite pa v => Sys2Proof.Machine.execDebugRegWrite pa v s
  | .tapReset => Sys2Proof.Machine.execTapReset s
  | .getReport nonce => Sys2Proof.Machine.execGetReport nonce s
  | .getStatus => Sys2Proof.Machine.execGetStatus s
  | .getCert off len => Sys2Proof.Machine.execGetCert off len s
  | .mctpControl msg => Sys2Proof.Machine.execMctpControl msg s
  | .alertResponse => Sys2Proof.Machine.execAlertResponse s
  | .hostReadDataArrival k data => Sys2Proof.Machine.execHostReadDataArrival k data s
  | .hostLinkTrained p wide speed => Sys2Proof.Machine.execHostLinkTrained p wide speed s
  | .portWidthChangeDone p => Sys2Proof.Machine.execPortWidthChangeDone p s
  | .selfRefreshReturn k => Sys2Proof.Machine.execSelfRefreshReturn k s
  | .strokeOutFall => Sys2Proof.Machine.execStrokeOutFall s
  | .lifecycleBurnDone => Sys2Proof.Machine.execLifecycleBurnDone s
  | .unlockCheckDone => Sys2Proof.Machine.execUnlockCheckDone s

end Sys2Proof.Machine
end

