-- ==== Sys2Proof/Machine/Step.lean ====
section
/-! DEFINITION. One step of the block: the command at the front of the queue, or a hub cycle when none waits (log 7). -/

namespace Sys2Proof.Machine

/-- The command at the front runs with the queue's rest; on an empty queue one hub cycle passes (R5, log 7). -/
def step (s : State) : Host.Outcome State Fault Refusal :=
  match s.pending with
  | [] => .next s.idleCycle
  | c :: rest => exec c { s with pending := rest }

/-- s with the command that a word spells at the front of its queue. The table gives no row bits, so no word spells one
(log 2). -/
def State.withFetchWord (s : State) (nbits w : Nat) : State :=
  match decodeTableWord nbits w with
  | some c => { s with pending := c :: s.pending }
  | none => s

end Sys2Proof.Machine
end

