-- ==== Sys2Proof/Safety.lean ====
section
/-! DEFINITION. What counts as a sound state of the block, and the terms that statements use: a context ready to issue, the
operands its pair sees, the state its pair leaves, what a nib can read and store. -/

namespace Sys2Proof.Machine

/-! ### Sound states -/

/-- Memory is in its canonical form: addresses rise strictly, and no entry is the RAW zero word of an unlisted address. -/
def memOk (s : State) : Bool := mwf memDefault s.mem

/-- Set-up registers are in their canonical form: no listed register is at its reset value. -/
def regsOk (s : State) : Bool := mwf regReset s.regs

/-- The registers of a context, and those kept to be put back, are in their canonical form. -/
def filesOk (x : Context) : Bool :=
  let kept (u : Option Undo) : Bool := match u with
    | some u => mwf regDefault u.regs
    | none => true
  mwf regDefault x.regs && kept x.undo && kept x.redo

/-- Every context of the block, and every context a rollback would restore, has its registers in canonical form. -/
def allFilesOk (s : State) : Bool := (s.ctxs.all fun e => filesOk e.2) && (s.ckpt.ctxs.all fun e => filesOk e.2)

/-- The palimpsest log holds each line once, whole, by its own address. -/
def logOk (s : State) : Bool :=
  decide (s.log.map LogLine.line).Nodup && s.log.all fun e => e.line % 64 == 0 && e.words.length == 8

/-- The shadow lines still to be written, and those that the closes have copied, are lines of an image (Table 11-6). -/
def imagesOk (s : State) : Bool := (s.imagePending ++ s.shadowDue).all fun e => decide (e.2.1 < 32) && decide (e.2.2 < 30)

/-- The outcome of a command is a next state. -/
def answers (o : Out) : Bool :=
  match o with
  | .next _ => true
  | _ => false

/-! ### A pair that issues -/

/-- The word that an instruction row spells: its fields in its format, under its opcode (Table 03-5, Table 03-10); 0 for a row that is no
instruction. -/
def instrWord : Instr → BitVec 32
  | .nop _ w => w
  | .mov _ f => wordR 0x01 f
  | .movi _ f => wordI 0x02 f
  | .lui _ f => wordU 0x03 f
  | .typeof _ f => wordR 0x04 f
  | .retag _ f => wordR 0x05 f
  | .ttest _ f => wordR 0x06 f
  | .pretag _ f => wordR 0x7C f
  | .str _ f => wordR 0x76 f
  | .stw _ f => wordR 0x77 f
  | .svr _ f => wordI 0x7D f
  | .svw _ f => wordI 0x7E f
  | .iadd _ f => wordR 0x10 f
  | .isub _ f => wordR 0x11 f
  | .and _ f => wordR 0x14 f
  | .or _ f => wordR 0x15 f
  | .xor _ f => wordR 0x16 f
  | .shift _ f => wordR 0x17 f
  | .iaddi _ f => wordI 0x18 f
  | .andi _ f => wordI 0x19 f
  | .ori _ f => wordI 0x1A f
  | .xori _ f => wordI 0x1B f
  | .shifti _ f => wordI 0x1C f
  | .icmp _ f => wordR 0x1D f
  | .eq _ f => wordR 0x1E f
  | .imul _ f => wordR 0x12 f
  | .mulh _ f => wordR 0x13 f
  | .idiv _ f => wordR 0x1F f
  | .add _ f => wordR 0x08 f
  | .sub _ f => wordR 0x09 f
  | .mul _ f => wordR 0x0A f
  | .addi _ f => wordI 0x0D f
  | .eql _ f => wordR 0x0E f
  | .less _ f => wordR 0x0F f
  | .div _ f => wordR 0x0B f
  | .rem _ f => wordR 0x0C f
  | .fadd _ f => wordR 0x20 f
  | .fsub _ f => wordR 0x21 f
  | .fmul _ f => wordR 0x22 f
  | .fma _ f => wordR 0x23 f
  | .fnma _ f => wordR 0x24 f
  | .fcmp _ f => wordR 0x25 f
  | .fcvt _ f => wordR 0x26 f
  | .fmisc _ f => wordR 0x27 f
  | .beq _ f => wordB 0x30 f
  | .bne _ f => wordB 0x31 f
  | .blt _ f => wordB 0x32 f
  | .bge _ f => wordB 0x33 f
  | .bltu _ f => wordB 0x34 f
  | .bgeu _ f => wordB 0x35 f
  | .btype _ f => wordB 0x36 f
  | .bntype _ f => wordB 0x37 f
  | .bnil _ f => wordB 0x3D f
  | .bnnil _ f => wordB 0x3E f
  | .br _ disp => wordJ 0x38 disp
  | .jmpr _ f => wordR 0x3B f
  | .call _ disp => wordJ 0x39 disp
  | .callr _ f => wordR 0x3A f
  | .ret _ f => wordR 0x3C f
  | .gate _ f => wordR 0x68 f
  | .gret _ f => wordR 0x69 f
  | .ldx _ f => wordR 0x40 f
  | .ldi _ f => wordI 0x41 f
  | .stx _ f => wordR 0x42 f
  | .sti _ f => wordI 0x43 f
  | .ldbx _ f => wordR 0x44 f
  | .stbx _ f => wordR 0x45 f
  | .ldv _ f => wordI 0x46 f
  | .stv _ f => wordI 0x47 f
  | .hdrq _ f => wordR 0x07 f
  | .freeze _ f => wordR 0x5A f
  | .cld _ f => wordI 0x48 f
  | .cst _ f => wordI 0x49 f
  | .cldc _ f => wordI 0x4A f
  | .cstc _ f => wordI 0x4B f
  | .cldx _ f => wordR 0x4C f
  | .cstx _ f => wordR 0x4D f
  | .car _ f => wordR 0x50 f
  | .cdr _ f => wordR 0x51 f
  | .rplaca _ f => wordR 0x54 f
  | .rplacd _ f => wordR 0x55 f
  | .cons _ f => wordR 0x52 f
  | .consn _ f _ => wordR 0x53 f
  | .alloc _ f => wordR 0x58 f
  | .alloci _ f => wordI 0x59 f
  | .cbound _ f => wordR 0x60 f
  | .cperm _ f => wordR 0x61 f
  | .cinc _ f => wordI 0x64 f
  | .cget _ f => wordR 0x65 f
  | .cseal _ f => wordR 0x62 f
  | .cunseal _ f => wordR 0x63 f
  | .savem _ f _ => wordI 0x6A f
  | .loadm _ f _ => wordI 0x6B f
  | .bcopy _ f _ => wordR 0x6C f
  | .bcmp _ f _ => wordR 0x6D f
  | .hash _ f _ => wordR 0x6E f
  | .bigstep _ f _ => wordR 0x6F f
  | .yield _ f => wordR 0x70 f
  | .wait _ f => wordI 0x71 f
  | .send _ f => wordR 0x72 f
  | .recv _ f => wordR 0x73 f
  | .xr _ f => wordI 0x74 f
  | .xw _ f => wordI 0x75 f
  | .timer _ f => wordR 0x7B f
  | .steady _ f => wordI 0x7A f
  | .lbar _ f => wordZ 0x78 0 f
  | .sbar _ f => wordZ 0x78 1 f
  | .fbar _ f => wordZ 0x78 2 f
  | .xinvPage _ f => wordZ 0x79 0 f
  | .xinvWard _ f => wordZ 0x79 1 f
  | .xinvAll _ f => wordZ 0x79 2 f
  | _ => 0

/-- The state a new pair of the context sees: results due have landed, a level change has bound (R102, R236). -/
def State.atPair (s : State) (q : Issue) : State := s.front q.nib.val q.ctx.val

/-- What a slot of that pair sees. -/
def operands (s : State) (q : Issue) : Env := (s.atPair q).pairEnv q.nib.val q.ctx.val q.slot

/-- A new pair of the context may issue: its nib and stroke let it, no routine is under way or to be resumed, and the windows have room
for its own; e is what the slot sees. -/
def Ready (s : State) (q : Issue) (e : Env) : Prop :=
  s.canIssue q.nib.val q.ctx.val = true ∧ (s.ctx q.nib.val q.ctx.val).routine = none
    ∧ ((s.atPair q).ctx q.nib.val q.ctx.val).spillUnfetched = none ∧ ((s.atPair q).ctx q.nib.val q.ctx.val).mpend = false
    ∧ e = operands s q

/-- The CODE word of the pair is there and holds word w in the slot (R97, log 5). -/
def Holds (s : State) (q : Issue) (w : BitVec 32) (code : Word) : Prop :=
  ((s.atPair q).pairEnv q.nib.val q.ctx.val false).fetch = .ok code ∧ half code q.slot = w

/-- The instruction of the other slot passes its checks, with effects `other`, and does not conflict with w; neither transfers control
from a delay pair (R100, R101); no patch replaces the routine of w (R276). -/
def Beside (s : State) (q : Issue) (w : BitVec 32) (other : List Effect) : Prop :=
  ∃ code, Holds s q w code ∧
    let v := half code (!q.slot)
    slotOf ((s.atPair q).pairEnv q.nib.val q.ctx.val (!q.slot)) v (planOf v) = .go other
      ∧ conflict (opClass (opOf w)) (opClass (opOf v)) = false
      ∧ ((operands s q).x.dly = true → opTransfer (opOf w) = false ∧ opTransfer (opOf v) = false)
      ∧ ((s.atPair q).nib q.nib.val).patchedAt w = none

/-- Both slots have taken effect, and the routine that one of them names has begun. -/
def beginning (s : State) (q : Issue) (other es : List Effect) : State :=
  (s.atPair q).beginPair q.nib.val q.ctx.val (if q.slot then other else es) (if q.slot then es else other)

/-- The state after the pair, with the effects of its slots; a routine has run up to the check point `stop`, if any. -/
def afterPair (s : State) (q : Issue) (other es : List Effect) (stop : Option Nat := none) : State :=
  (beginning s q other es).goRoutine q.nib.val q.ctx.val stop

/-- The instruction completes: its pair issues, and its slot has these effects. -/
def completes (s : State) (q : Issue) (i : Instr) (es : List Effect) (stop : Option Nat := none) : Prop :=
  ∀ other, Beside s q (instrWord i) other → exec i s = .next (afterPair s q other es stop)

/-- The instruction completes with word w on its way to register d, to land dist nib cycles after the issue. -/
def lands (s : State) (q : Issue) (e : Env) (i : Instr) (d : BitVec 5) (dist : Nat) (w : Word) : Prop :=
  completes s q i [.land dist (.reg (e.x.phys d)) w]

/-- The instruction completes with a capability's words on their way to registers d and d + 1. -/
def landsPair (s : State) (q : Issue) (e : Env) (i : Instr) (d : BitVec 5) (dist : Nat) (lo hi : Word) : Prop :=
  completes s q i [.land dist (.reg (e.x.phys d)) lo, .land dist (.reg (e.x.phys (d + 1))) hi]

/-- The instruction's routine ends with its first step: its pair issues, the routine r begins, and its one step has these effects when
what it sees meets a condition (R261, R264). -/
def finishes (s : State) (q : Issue) (i : Instr) (r : Routine) (cond : Env → Prop) (es : Env → List Effect) :
    Prop :=
  ∀ other, Beside s q (instrWord i) other →
    let t := (beginning s q other [.run r]).settled q.nib.val q.ctx.val
    t.stroke.faults.any (·.unit == q.nib.val) = false → cond (t.routineEnv q.nib.val q.ctx.val r) →
    exec i s = .next ((t.stepDone q.nib.val q.ctx.val r { es := es (t.routineEnv q.nib.val q.ctx.val r) }).settled q.nib.val q.ctx.val)

/-- The context's next boundary takes this fault of the slot (R221), and nothing of the pair has happened. -/
def faults (s : State) (q : Issue) (i : Instr) (k : Cause) (v : BitVec 64) : Prop :=
  ∀ other, Beside s q (instrWord i) other →
    let t : TrapReq := { cause := k, info := v, slot := q.slot }
    exec i s = .next ((s.atPair q).raise q.nib.val q.ctx.val t)
      ∧ (((s.atPair q).raise q.nib.val q.ctx.val t).ctx q.nib.val q.ctx.val).faultDue = some t

/-! ### Operands -/

/-- The registers named belong to fetched groups (R124). -/
def Env.present (e : Env) (rs : List (BitVec 5)) : Prop := ∀ r ∈ rs, e.x.unfetched.getLsbD (e.x.phys r / 8) = false

/-- No register named holds POISON. -/
def Env.unpoisoned (e : Env) (rs : List (BitVec 5)) : Prop := ∀ r ∈ rs, (e.r r).typ ≠ Ty.poison

def isI64 (w : Word) : Prop := w.typ = Ty.fixnum ∨ w.typ = Ty.raw

/-- The TYPE of an I64 result (R135): RAW when either operand is RAW. -/
def resultType (a b : Word) : BitVec 6 := if a.typ = Ty.raw ∨ b.typ = Ty.raw then Ty.raw else Ty.fixnum

/-- A register number that names a capability pair (R81). -/
def namesPair (r : BitVec 5) : Prop := r ≠ 0 ∧ r.getLsbD 0 = false

/-- Registers a and a + 1 hold an unsealed, well-formed capability. -/
def Env.holdsCap (e : Env) (a : BitVec 5) (k : CapV) : Prop :=
  namesPair a ∧ e.present [a, a + 1] ∧ e.unpoisoned [a, a + 1] ∧ k = e.pair a ∧ k.ok = true ∧ k.sealed = false

/-! ### What a nib reads and stores -/

/-- A load of the word at a virtual address finds v in the nib: translation, rights and Rubric allow it, and it hits. -/
def Env.reads (e : Env) (a : BitVec 64) (v : Word) (sup : Bool := false) : Prop := ∃ w, inDev w.pa = false ∧ e.read a sup = .ok (v, w, [])

/-- Below level D the routine at a fixed entry point follows this FORWARD word to address a; no patch replaces it (R42, R56, R276). -/
def Env.follows (e : Env) (entry : Nat) (g : Word) (a : BitVec 64) : Prop :=
  g.typ = Ty.forward ∧ reservedWord g = false ∧ e.x.level.toNat < 2 ∧ (e.s.nib e.n).matchAt false entry = none
    ∧ a = g.pay &&& 0xFFFFFFFFFFF8

/-- The HEADER h of the object that reference r names stands at address a: at r's own address, or at the address that a FORWARD there
gives (R56, R146). -/
def Env.object (e : Env) (r : Word) (a : BitVec 64) (h : Word) : Prop :=
  okRtype r.typ = true ∧ h.typ = Ty.header ∧ hdrRtype h = r.typ ∧ e.reads a h
    ∧ (a = waddr r ∨ ∃ g, e.reads (waddr r) g ∧ e.follows 0x0008 g a)

/-- The car word x of the cell that a CONS reference names stands at address a: at the reference's own, or, where the item has moved, at
the address that a FORWARD there gives to the routine at this entry point. -/
def Env.cellAt (e : Env) (entry : Nat) (moved : Bool) (r : Word) (a : BitVec 64) (x : Word) : Prop :=
  r.typ = Ty.cons ∧ e.reads a x
    ∧ (if moved then ∃ g, e.reads (waddr r) g ∧ e.follows entry g a else a = waddr r ∧ (x.typ = Ty.forward → 2 ≤ e.x.level.toNat))

/-- The HEADER h that a locked update of reference r's object finds stands at address a, at device physical address w.pa: at r's own
address, or at the address that a FORWARD there gives (R53, R56, R146). -/
def Env.lockedObject (e : Env) (r : Word) (a : BitVec 64) (w : Where) (h : Word) : Prop :=
  let finds (a : BitVec 64) (w : Where) (h : Word) : Prop :=
    e.access a .writeT = .ok w ∧ inDev w.pa = false ∧ e.lockedWord w.pa = .ok h
  okRtype r.typ = true ∧ h.typ = Ty.header ∧ hdrRtype h = r.typ ∧ finds a w h
    ∧ (a = waddr r ∨ ∃ w0 g, finds (waddr r) w0 g ∧ e.follows 0x0008 g a)

/-- A loaded word is delivered as it is: no reserved encoding, of a TYPE the level may load, its target not condemned
(Table 02-6a, R385). -/
def Env.delivers (e : Env) (v : Word) : Prop :=
  reservedWord v = false
    ∧ (e.x.level.toNat < 2 → v.typ ≠ Ty.header ∧ v.typ ≠ Ty.forward
      ∧ (e.x.level = lvU → v.typ ≠ Ty.xlate ∧ v.typ ≠ Ty.spill)
      ∧ (isRefType v.typ = true → e.condemned (waddr v).toNat = false))

/-- A loaded word as one register takes it: a capability word as RAW, CDR 0 (R51, R180). -/
def loaded (v : Word) : Word := { (if isCapType v.typ then Word.rawOf v.pay else v) with cdr := 0 }

/-- A store at a virtual address goes to memory at w: allowed, room in the store buffer, nothing to shade. -/
def Env.storesTo (e : Env) (a : BitVec 64) (kind : StoreKind) (k : Acc) (sup : Bool) (w : Where) : Prop :=
  e.access a k sup = .ok w ∧ inDev w.pa = false ∧ (e.s.nib e.n).storeBuf.length < 15 ∧ e.shades w kind = []

/-- The store buffer entry of that store. -/
def Env.storeOf (e : Env) (a : BitVec 64) (w : Where) (k : StoreKind) (guarded : Bool := false) : Effect :=
  .store { ctx := e.c, pa := w.pa, va := a, kind := k, guarded := guarded, ordered := e.x.ord, unc := !w.cached }

/-- The access a store of words makes: rights W, and T too unless all are RAW (Table 09-7). -/
def storeAcc (ws : List Word) : Acc := if ws.all fun w => w.typ == Ty.raw then .write else .writeT

/-- A routine's read of a word of memory finds v in the nib: translation, rights and Rubric allow it, and it hits. -/
def Env.readsMem (e : Env) (a : Nat) (v : Word) (sup : Bool := false) : Prop :=
  ∃ w, e.readMem (BitVec.ofNat 64 a) sup = .ok (v, w, [])

/-- A word that a routine reads hits and is delivered as it is, no capability word among them. -/
def Env.copies (e : Env) (a : Nat) (v : Word) : Prop :=
  ∃ w, inDev w.pa = false ∧ e.readMem (BitVec.ofNat 64 a) = .ok (v, w, []) ∧ e.delivers v ∧ isCapType v.typ = false

/-- The routines that BCOPY and BCMP, HASH, SAVEM and LOADM begin, with their operands as read at issue. -/
def Env.blockRoutine (e : Env) (op : RoutineOp) (f : FR) : Routine :=
  { op := op, d := f.d, a := f.a, b := f.b, sub := f.sub, slot := e.slot, count := countOf (e.r f.d),
    w0 := e.r f.a, w1 := e.r (f.a + 1), w2 := e.r f.b, w3 := e.r (f.b + 1) }

def Env.hashRoutine (e : Env) (f : FR) : Routine :=
  { op := .hash, d := f.d, a := f.a, b := f.b, slot := e.slot, count := countOf (e.r f.b),
    w0 := e.r f.a, w1 := e.r (f.a + 1), w2 := e.r f.d }

def Env.areaRoutine (e : Env) (op : RoutineOp) (f : FI) : Routine :=
  { op := op, d := f.d, a := f.a, imm := f.imm, slot := e.slot, base := (saveRem (e.r f.d) f.imm).setWidth 64,
    area := (e.pair f.a).cursor, sl := (e.pair f.a).has pSL }

/-- The routines that CSEAL and CUNSEAL, GATE and GRET begin. -/
def Env.sealRoutine (e : Env) (op : RoutineOp) (f : FR) : Routine :=
  { op := op, d := f.d, a := f.a, b := f.b, slot := e.slot, w0 := e.r f.a, w1 := e.r (f.a + 1), w2 := e.r f.b, w3 := e.r (f.b + 1) }

def Env.gateRoutine (e : Env) (a : BitVec 5) : Routine := { op := .gate, slot := e.slot, a := a, w0 := e.r a, w1 := e.r (a + 1) }

def Env.gretRoutine (e : Env) : Routine := { op := .gret, slot := e.slot, w0 := e.r 22, w1 := e.r 23 }

/-- The access of a capability instruction: aligned, and inside the bounds, with rights held (R149). -/
def capAllows (k : CapV) (a : Int) (size : Nat) (rights : BitVec 16) : Prop :=
  a % (size : Int) = 0 ∧ (k.base : Int) ≤ a ∧ a + (size : Int) ≤ (k.top : Int) ∧ k.has rights = true

/-- What a request meets: the Rubric's replicas agree on its first block, and the memory code delivers every line that p names, which
leaves u (R66, R355). -/
def State.meets (s : State) (p : Nat → Bool) (x : Meets) (u : State) : Prop := x.agree = true ∧ s.meet p x.errs = (u, true)

/-- The replicas disagree over a block of a lane: a machine check, and nothing else (R337, R355). -/
def State.votes (s t : State) (lane a : Nat) : Prop :=
  t.stroke.faults = s.stroke.faults ++ [⟨601, .vote (BitVec.ofNat 8 lane) (BitVec.ofNat 40 (lineOf a)), s.hub⟩] ∧ t.stroke.voided = true
    ∧ t.mem = s.mem

/-- An address outside the grey queues (Table 10-3) and the slots of the palimpsest log (R431). -/
def outsideGrey (b : Nat) : Prop := (b < 0x4470000000 ∨ 0x4480000000 ≤ b) ∧ (b < 0x4000000000 ∨ 0x4400000000 ≤ b)

/-- An address outside the slots of the palimpsest log (R431). -/
def outsideLog (b : Nat) : Prop := b < 0x4000000000 ∨ 0x4400000000 ≤ b

/-! ### Set-up registers -/

/-- A lane's write of a register reaches it: the lane reaches it, no LOCK stops it, the Rubric allows the write, the address is aligned,
and a block answers there (R503, Table 01-2, Table 09-10). -/
def State.laneMay (s : State) (lane : Fin 24) (a : Nat) (b : Blk) : Prop := s.laneWay lane.val a .write = .go b

/-- The state after a lane's write of a register has been performed: the debug master's access register has its outcome (R581). -/
def State.wroteBy (s : State) (lane : Fin 24) (a : Nat) (v : BitVec 32) : State :=
  s.laneDone lane.val 4 a 1 (Word.rawOf (v.setWidth 64))

/-- A register's offset is neither that of a paired register nor that of its complement. -/
def unpaired (b : Blk) (o : Nat) : Prop := (rwpOffsets b).contains o = false ∧ (4 ≤ o → (rwpOffsets b).contains (o - 4) = false)

/-- The fields of GRD.STATUS after a failure: GUARD_ERR, REASON and LANE (Table 13-2). -/
def State.guardErr (s : State) (b : Blk) (reason lane : Nat) : Prop :=
  (s.reg32 (b.base + 0x3F0)).getLsbD 0 = true ∧ bits (s.reg32 (b.base + 0x3F0)) 20 4 = reason
    ∧ bits (s.reg32 (b.base + 0x3F0)) 13 5 = lane

/-! ### Ring commands -/

/-- The ward's next command is this one, with every reserved byte zero (R477, R486). -/
def State.commandDue (s : State) (w : Fin 8) (d : List Byte) (code : Nat) : Prop :=
  s.nextCmd w.val = some d ∧ descOp d = code ∧ descClean d = true ∧ definedOp (descOp d) = true

/-- The command has started, and ends at once with this STATUS and RESULT. -/
def State.answered (s : State) (w : Fin 8) (d : List Byte) (st : BitVec 8) (res : BitVec 64) : State :=
  (s.takeCmd w.val).finish w.val d (s.ward w.val).started st res

/-- The command has started as an operation with this much to do (R496). -/
def State.begun (s : State) (w : Fin 8) (d : List Byte) (total : Nat) : State :=
  (s.takeCmd w.val).beginOp w.val d (s.ward w.val).started total 0

/-- The command's oldest operation that runs is this one, and no other command is due. -/
def State.works (s : State) (w : Fin 8) (code : Nat) (o : Op) : Prop :=
  s.takesInput = true ∧ s.nextCmd w.val = none ∧ s.running w.val code = some o

end Sys2Proof.Machine
end

