-- ==== Sys2Proof/Certificates/Slice0/Obligations.lean ====
section
/-! DEFINITION. The statements about the block: what each command leaves, where it faults, the frames, and what every step
keeps. Each docstring names the rules of spec/ that the statement rests on. -/

section Slice0Statements

open Sys2Proof Sys2Proof.Machine

/-! ### The step -/

/-- The command at the front of the queue runs with the queue's rest; on an empty queue a hub cycle passes (log 7). -/
def Obligations.StepRunsFrontCommand : Prop :=
  (∀ (s : State) (c : Instr) (rest : List Instr), step { s with pending := c :: rest } = exec c { s with pending := rest })
    ∧ ∀ s : State, step { s with pending := [] } = .next ({ s with pending := [] } : State).idleCycle

/-! ### Moves, constants and tags -/

/-- R141, Table 04-2: NOP, MOV, MOVI and LUI complete, and land these words one nib cycle later. R141, R57: TYPEOF and TTEST
read a word's TYPE, RETAG and PRETAG give it another. R93, R141, R220: STR and SVR read the status and the save registers; STW and SVW send their operand to them, to land two
nib cycles later. -/
def Obligations.MovesTagsAndStatusLand : Prop :=
  (∀ (s : State) (q : Issue) (e : Env), Ready s q e →
    completes s q (.nop q 0) []
    ∧ (∀ d a : BitVec 5, e.present [a, d] → e.unpoisoned [a] →
        lands s q e (.mov q ⟨d, a, 0, 0, 0⟩) d 1 (if (e.r a).typ = Ty.capLo ∨ (e.r a).typ = Ty.capHi then Word.rawOf (e.r a).pay else e.r a))
    ∧ (∀ d a : BitVec 5, namesPair d → namesPair a → e.present [a, a + 1, d, d + 1] → e.unpoisoned [a, a + 1] →
        landsPair s q e (.mov q ⟨d, a, 0, 1, 0⟩) d 1 (e.r a) (e.r (a + 1)))
    ∧ (∀ (d : BitVec 5) (imm : BitVec 15), e.present [d] →
        lands s q e (.movi q ⟨d, 0, imm⟩) d 1 (Word.fx (imm.signExtend 64)))
    ∧ (∀ (d : BitVec 5) (imm : BitVec 20), e.present [d] → isI64 (e.r d) →
        lands s q e (.lui q ⟨d, imm⟩) d 1 (Word.mk0 (e.r d).typ (((e.r d).pay <<< 20) ||| imm.setWidth 64))))
  ∧ (∀ (s : State) (q : Issue) (e : Env) (d a : BitVec 5), Ready s q e → e.present [a, d] → e.unpoisoned [a] →
    lands s q e (.typeof q ⟨d, a, 0, 0, 0⟩) d 1 (Word.fx (BitVec.ofNat 64 (e.r a).typ.toNat))
    ∧ lands s q e (.typeof q ⟨d, a, 0, 1, 0⟩) d 1 (Word.fx (BitVec.ofNat 64 ((e.r a).typ.toNat * 16 + (e.r a).col.toNat * 4)))
    ∧ (∀ t : BitVec 6, t ≤ 4 → reservedWord (Word.mk0 t (e.r a).pay) = false →
        lands s q e (.retag q ⟨d, a, 0, 0, t.setWidth 7⟩) d 1 (Word.mk0 t (e.r a).pay))
    ∧ (∀ t : BitVec 6, lands s q e (.ttest q ⟨d, a, 0, 0, t.setWidth 7⟩) d 1 (Word.fx (if (e.r a).typ = t then 1 else 0)))
    ∧ (∀ k : BitVec 2, lands s q e (.ttest q ⟨d, a, 0, 1, k.setWidth 7⟩) d 1 (Word.fx (if inClass (e.r a) k.toNat then 1 else 0)))
    ∧ (∀ t : BitVec 6, 2 ≤ e.x.level.toNat → t ≠ Ty.forward → t ≠ Ty.spill → reservedWord (Word.mk0 t (e.r a).pay) = false →
        badHeader (Word.mk0 t (e.r a).pay) = false →
        lands s q e (.pretag q ⟨d, a, 0, 0, t.setWidth 7⟩) d 1 (Word.mk0 t (e.r a).pay)))
  ∧ (∀ (s : State) (q : Issue) (e : Env), Ready s q e →
    (∀ d : BitVec 5, e.present [d] → lands s q e (.str q ⟨d, 0, 0, 0, 0⟩) d 1 (Word.rawOf (e.x.st.setWidth 64)))
    ∧ (∀ a : BitVec 5, e.present [a] → isI64 (e.r a) →
        ((e.r a).pay.setWidth 32 ^^^ e.x.st) &&& ~~~(if e.x.level = lvU then 0x60#32 else 0xEC#32) = 0 →
        (q.ctx = 0 ∨ bits (e.r a).pay 2 2 ≠ 3) →
        completes s q (.stw q ⟨0, a, 0, 0, 0⟩) [.land 2 .st (e.r a)])
    ∧ (∀ (d : BitVec 5) (item : BitVec 3) (l : BitVec 2), e.present [d] → item.toNat ≤ 4 → l ≠ 0 → e.x.level ≠ lvU →
        l.toNat ≤ e.x.level.toNat →
        lands s q e (.svr q ⟨d, 0, (l ++ item).setWidth 15⟩) d 1 (Word.rawOf ((e.x.save l).item item.toNat))
        ∧ (isI64 (e.r d) → completes s q (.svw q ⟨d, 0, (l ++ item).setWidth 15⟩) [.land 2 (.save l.toNat item.toNat) (e.r d)])))

/-! ### What the landing of a result is -/

/-- R97, R102, R104: the frame of every pair whose effects are landings. PC goes to the next word, or to DTGT from a delay
pair; the results of slot 0, then those of slot 1, join those in flight; memory, every other context, every other nib, the status, the
save sets, the events, the queue, the timer and the store buffer stay. R80, R102: a landing at its nib cycle writes its register and no
other; of two results due in one cycle the one issued later stays; register z0 stays FIXNUM 0; before its cycle a result writes nothing.
R93, R220: what a landing leaves in ST and in a save set. STW and SVW of SV.ST change only the fields of the level; SV.PC keeps [2:0]
zero, SV.CAUSE its upper bits zero. -/
def Obligations.LandingsAndTheirFrame : Prop :=
  (∀ (s : State) (q : Issue) (e : Env) (other own : List (Nat × Target × Word)), Ready s q e →
    let n := q.nib.val
    let now := (s.atPair q).now n
    let effects (ls : List (Nat × Target × Word)) : List Effect := ls.map fun l => .land l.1 l.2.1 l.2.2
    let launched (slot : Bool) (x : Context) : Context :=
      (if slot = q.slot then own else other).foldl (fun z l => z.launch (now + l.1) (issueNo now slot) l.2.1 l.2.2) x
    let t := afterPair s q (effects other) (effects own)
    let y := t.ctx n q.ctx.val
    y.pc = (if e.x.dly then e.x.dtgt else e.x.pc + 8)
    ∧ y.inflight = (launched true (launched false e.x)).inflight
    ∧ y.regs = e.x.regs ∧ y.st = e.x.st ∧ y.evf = e.x.evf ∧ y.queue = e.x.queue ∧ y.timer = e.x.timer
    ∧ y.saveS = e.x.saveS ∧ y.saveD = e.x.saveD ∧ y.saveM = e.x.saveM ∧ y.faultDue = e.x.faultDue ∧ y.parked = e.x.parked
    ∧ t.mem = s.mem ∧ t.log = s.log ∧ t.pending = s.pending
    ∧ (t.nib n).storeBuf = ((s.atPair q).nib n).storeBuf
    ∧ (∀ m, m ≠ n → t.nib m = s.nib m)
    ∧ ∀ m d, d < 32 → (m ≠ n ∨ d ≠ q.ctx.val) → t.ctx m d = s.ctx m d)
  ∧ (∀ (zero : Bool) (x : Context) (due iss : Nat) (k : Nat) (w : Word), mwf regDefault x.regs = true →
    (x.inflight.Pairwise fun a b => a.due < b.due ∨ (a.due = b.due ∧ a.iss ≤ b.iss)) →
    (∀ l ∈ x.inflight, l.tgt = .reg k → l.due < due ∨ (l.due = due ∧ l.iss ≤ iss)) →
    (∀ m, due ≤ m → ((x.launch due iss (.reg k) w).settle zero m).reg k = if k = 0 then Word.fx 0 else { w with cdr := 0 })
    ∧ (∀ m j, j ≠ k → ((x.launch due iss (.reg k) w).settle zero m).reg j = (x.settle zero m).reg j)
    ∧ (∀ m, m < due → ((x.launch due iss (.reg k) w).settle zero m).regs = (x.settle zero m).regs))
  ∧ (∀ (zero : Bool) (x : Context) (due iss : Nat) (w : Word),
    x.reg 0 = Word.fx 0 ∧ (x.reg 0).tag = 0 ∧ x.phys 0 = 0 ∧ Context.landOne zero x ⟨due, iss, .reg 0, w⟩ = x
    ∧ (Context.landOne zero x ⟨due, iss, .st, w⟩).st = (x.st &&& 0xFFFFFF13) ||| (w.pay.setWidth 32 &&& 0xEC)
    ∧ (Context.landOne zero x ⟨due, iss, .st, w⟩).regs = x.regs
    ∧ (Context.landOne zero x ⟨due, iss, .st, w⟩).level = x.level
    ∧ ∀ l : BitVec 2, l ≠ 0 →
        ((Context.landOne zero x ⟨due, iss, .save l.toNat 0, w⟩).save l) = { x.save l with pc := w.pay &&& 0xFFFFFFFFFFFFFFF8 }
        ∧ ((Context.landOne zero x ⟨due, iss, .save l.toNat 2, w⟩).save l) = { x.save l with cause := w.pay &&& 0x1FFF }
        ∧ ((Context.landOne zero x ⟨due, iss, .save l.toNat 3, w⟩).save l) = { x.save l with info := w.pay }
        ∧ ∀ item : Nat, (Context.landOne zero x ⟨due, iss, .save l.toNat item, w⟩).st = x.st
            ∧ (Context.landOne zero x ⟨due, iss, .save l.toNat item, w⟩).regs = x.regs)

/-- R97: both slots of a pair read their operands before either writes: an IADD in slot 1 does not see the MOVI of slot 0, and the command
of either slot issues the pair (log 5). R100: two slots of one pair whose classes conflict fault FLT_OPCODE with sub-cause 5, and
nothing of the pair happens. R101: a transfer in a delay pair faults FLT_OPCODE with sub-cause 6, in its slot. -/
def Obligations.PairsReadBeforeTheyWrite : Prop :=
  (∀ (s : State) (q : Issue) (e : Env) (code : Word) (d a b d0 : BitVec 5) (imm : BitVec 15), Ready s q e →
    e.present [a, b, d, d0] → isI64 (e.r a) → isI64 (e.r b) →
    Holds s { q with slot := false } (wordI 0x02 ⟨d0, 0, imm⟩) code → Holds s { q with slot := true } (wordR 0x10 ⟨d, a, b, 0, 0⟩) code →
    let t := afterPair s { q with slot := true } [.land 1 (.reg (e.x.phys d0)) (Word.fx (imm.signExtend 64))]
      [.land 1 (.reg (e.x.phys d)) (Word.mk0 (resultType (e.r a) (e.r b)) ((e.r a).pay + (e.r b).pay))]
    exec (.movi { q with slot := false } ⟨d0, 0, imm⟩) s = .next t
      ∧ exec (.iadd { q with slot := true } ⟨d, a, b, 0, 0⟩) s = .next t)
  ∧ (∀ (s : State) (q : Issue) (e : Env) (code : Word) (a b d0 d1 : BitVec 5), Ready s q e → e.present [a, b, d0, d1] → isI64 (e.r a) →
    isI64 (e.r b) → Holds s { q with slot := false } (wordR 0x12 ⟨d0, a, b, 0, 0⟩) code →
    Holds s { q with slot := true } (wordR 0x12 ⟨d1, a, b, 0, 0⟩) code →
    ∃ t, exec (.imul { q with slot := false } ⟨d0, a, b, 0, 0⟩) s = .next t
      ∧ exec (.imul { q with slot := true } ⟨d1, a, b, 0, 0⟩) s = .next t
      ∧ (t.ctx q.nib.val q.ctx.val).faultDue = some { cause := .opcode, info := 5, slot := false }
      ∧ t.mem = s.mem)
  ∧ (∀ (s : State) (q : Issue) (e : Env) (code : Word) (far : BitVec 25) (es : List Effect), Ready s q e → e.x.dly = true →
    Holds s q (wordJ 0x38 far) code →
    let v := half code (!q.slot)
    slotOf ((s.atPair q).pairEnv q.nib.val q.ctx.val (!q.slot)) v (planOf v) = .go es →
    opTransfer (opOf v) = false → conflict .B (opClass (opOf v)) = false →
    ∃ t, exec (.br q far) s = .next t
      ∧ (t.ctx q.nib.val q.ctx.val).faultDue = some { cause := .opcode, info := if q.slot then 262 else 6, slot := q.slot }
      ∧ t.mem = s.mem)

/-! ### Raw integer arithmetic -/

/-- R135, R142: the additions, the logical operations and the multiplications of two I64 operands, wrapping at 64 bits, and
their immediate forms, which keep A's TYPE. R142, R44: shifts and rotations by the low six bits, comparisons to FIXNUM 1 or
0, and EQ by TYPE and payload. -/
def Obligations.RawArithmeticAndComparisonsLand : Prop :=
  (∀ (s : State) (q : Issue) (e : Env) (d a b : BitVec 5) (imm : BitVec 15), Ready s q e → e.present [a, b, d] →
    isI64 (e.r a) → isI64 (e.r b) →
    let x := (e.r a).pay
    let y := (e.r b).pay
    let k := resultType (e.r a) (e.r b)
    let j := imm.signExtend 64
    lands s q e (.iadd q ⟨d, a, b, 0, 0⟩) d 1 (Word.mk0 k (x + y))
    ∧ lands s q e (.isub q ⟨d, a, b, 0, 0⟩) d 1 (Word.mk0 k (x - y))
    ∧ lands s q e (.and q ⟨d, a, b, 0, 0⟩) d 1 (Word.mk0 k (x &&& y))
    ∧ lands s q e (.or q ⟨d, a, b, 0, 0⟩) d 1 (Word.mk0 k (x ||| y))
    ∧ lands s q e (.xor q ⟨d, a, b, 0, 0⟩) d 1 (Word.mk0 k (x ^^^ y))
    ∧ lands s q e (.imul q ⟨d, a, b, 0, 0⟩) d 4 (Word.mk0 k (BitVec.ofInt 64 (x.toInt * y.toInt)))
    ∧ lands s q e (.mulh q ⟨d, a, b, 0, 0⟩) d 4 (Word.mk0 k (BitVec.ofInt 64 (x.toInt * y.toInt / 2 ^ 64)))
    ∧ lands s q e (.mulh q ⟨d, a, b, 1, 0⟩) d 4 (Word.mk0 k (BitVec.ofNat 64 (x.toNat * y.toNat / 2 ^ 64)))
    ∧ lands s q e (.iaddi q ⟨d, a, imm⟩) d 1 (Word.mk0 (e.r a).typ (x + j))
    ∧ lands s q e (.andi q ⟨d, a, imm⟩) d 1 (Word.mk0 (e.r a).typ (x &&& j))
    ∧ lands s q e (.ori q ⟨d, a, imm⟩) d 1 (Word.mk0 (e.r a).typ (x ||| j))
    ∧ lands s q e (.xori q ⟨d, a, imm⟩) d 1 (Word.mk0 (e.r a).typ (x ^^^ j)))
  ∧ (∀ (s : State) (q : Issue) (e : Env) (d a b : BitVec 5), Ready s q e → e.present [a, b, d] →
    (isI64 (e.r a) → isI64 (e.r b) →
      let x := (e.r a).pay
      let y := (e.r b).pay
      let n := y.toNat % 64
      lands s q e (.shift q ⟨d, a, b, 0, 0⟩) d 1 (Word.mk0 (e.r a).typ (x <<< n))
      ∧ lands s q e (.shift q ⟨d, a, b, 1, 0⟩) d 1 (Word.mk0 (e.r a).typ (x >>> n))
      ∧ lands s q e (.shift q ⟨d, a, b, 2, 0⟩) d 1 (Word.mk0 (e.r a).typ (x.sshiftRight n))
      ∧ lands s q e (.shift q ⟨d, a, b, 3, 0⟩) d 1 (Word.mk0 (e.r a).typ (x.rotateLeft n))
      ∧ (∀ (k : BitVec 2) (m : BitVec 6), lands s q e (.shifti q ⟨d, a, (k ++ m).setWidth 15⟩) d 1 (Word.mk0 (e.r a).typ (match k with
            | 0 => x <<< m.toNat
            | 1 => x >>> m.toNat
            | 2 => x.sshiftRight m.toNat
            | 3 => x.rotateLeft m.toNat)))
      ∧ lands s q e (.icmp q ⟨d, a, b, 0, 0⟩) d 1 (Word.fx (if x.toInt < y.toInt then 1 else 0))
      ∧ lands s q e (.icmp q ⟨d, a, b, 1, 0⟩) d 1 (Word.fx (if x.toNat < y.toNat then 1 else 0))
      ∧ lands s q e (.icmp q ⟨d, a, b, 2, 0⟩) d 1 (Word.fx (if x.toInt ≤ y.toInt then 1 else 0))
      ∧ lands s q e (.icmp q ⟨d, a, b, 3, 0⟩) d 1 (Word.fx (if x.toNat ≤ y.toNat then 1 else 0)))
    ∧ (e.unpoisoned [a, b] → lands s q e (.eq q ⟨d, a, b, 0, 0⟩) d 1 (Word.fx (if (e.r a).typ = (e.r b).typ ∧ (e.r a).pay = (e.r b).pay then 1 else 0))))

/-- R142, R143, R232: the divisions of integers. A divisor other than zero gives quotient or remainder; a zero divisor lands
FIXNUM 0 and records a FLT_ARITH report with SUB 4, or, with EXACT set, faults in place. -/
def Obligations.IntegerDivisionLands : Prop :=
  ∀ (s : State) (q : Issue) (e : Env) (d a b : BitVec 5), Ready s q e → e.present [a, b, d] →
    let x := (e.r a).pay
    let y := (e.r b).pay
    let k := resultType (e.r a) (e.r b)
    let r := e.x.phys d
    (isI64 (e.r a) → isI64 (e.r b) →
      (y ≠ 0 →
        completes s q (.idiv q ⟨d, a, b, 0, 0⟩) [.land 38 (.reg r) (Word.mk0 k (BitVec.ofInt 64 (x.toInt.tdiv y.toInt))), .took 38]
        ∧ completes s q (.idiv q ⟨d, a, b, 1, 0⟩) [.land 38 (.reg r) (Word.mk0 k (BitVec.ofNat 64 (x.toNat / y.toNat))), .took 38]
        ∧ completes s q (.idiv q ⟨d, a, b, 2, 0⟩) [.land 38 (.reg r) (Word.mk0 k (BitVec.ofInt 64 (x.toInt.tmod y.toInt))), .took 38]
        ∧ completes s q (.idiv q ⟨d, a, b, 3, 0⟩) [.land 38 (.reg r) (Word.mk0 k (BitVec.ofNat 64 (x.toNat % y.toNat))), .took 38])
      ∧ (y = 0 → ∀ m : BitVec 3, m.toNat ≤ 3 →
        (e.x.exact = false → completes s q (.idiv q ⟨d, a, b, m, 0⟩) [.land 24 (.reg r) (Word.fx 0), .arith 4, .took 24])
        ∧ (e.x.exact = true → faults s q (.idiv q ⟨d, a, b, m, 0⟩) .arith (info 4 0 (e.x.pc.toNat % 2 ^ 48)))))
    ∧ ((e.r a).typ = Ty.fixnum → (e.r b).typ = Ty.fixnum →
      (y ≠ 0 → ¬ (x = 0x8000000000000000 ∧ y = 0xFFFFFFFFFFFFFFFF) →
        completes s q (.div q ⟨d, a, b, 0, 0⟩) [.land 40 (.reg r) (Word.fx (BitVec.ofInt 64 (x.toInt.tdiv y.toInt))), .took 40])
      ∧ (x = 0x8000000000000000 → y = 0xFFFFFFFFFFFFFFFF → faults s q (.div q ⟨d, a, b, 0, 0⟩) .promote 0)
      ∧ (y ≠ 0 →
        completes s q (.rem q ⟨d, a, b, 0, 0⟩) [.land 42 (.reg r) (Word.fx (BitVec.ofInt 64 (x.toInt.tmod y.toInt))), .took 42]
        ∧ completes s q (.rem q ⟨d, a, b, 1, 0⟩) [.land 42 (.reg r) (Word.fx (BitVec.ofInt 64 (x.toInt.fmod y.toInt))), .took 42])
      ∧ (y = 0 → e.x.exact = false →
        completes s q (.div q ⟨d, a, b, 0, 0⟩) [.land 24 (.reg r) (Word.fx 0), .arith 4, .took 24]
        ∧ completes s q (.rem q ⟨d, a, b, 0, 0⟩) [.land 24 (.reg r) (Word.fx 0), .arith 4, .took 24]))

/-! ### Generic arithmetic and floating point -/

/-- R143: ADD, SUB, MUL and ADDI of two FIXNUMs land the exact sum, difference or product while it is a FIXNUM, and fault
FLT_PROMOTE when it is not. R143: EQL and LESS compare the exact values of two FIXNUMs; EQL of words that are not two
numbers compares TYPE and payload; LESS of them faults FLT_GENERIC. -/
def Obligations.GenericArithmeticCompletes : Prop :=
  (∀ (s : State) (q : Issue) (e : Env) (d a b : BitVec 5) (imm : BitVec 15), Ready s q e → e.present [a, b, d] →
    (e.r a).typ = Ty.fixnum → (e.r b).typ = Ty.fixnum →
    let x := (e.r a).pay.toInt
    let y := (e.r b).pay.toInt
    let outcome (v : Int) (i : Instr) : Prop :=
      if -(2 ^ 63) ≤ v ∧ v < 2 ^ 63 then
        completes s q i (.land 4 (.reg (e.x.phys d)) (Word.fx (BitVec.ofInt 64 v)) :: if e.x.exact then [.took 3] else [])
      else faults s q i .promote 0
    outcome (x + y) (.add q ⟨d, a, b, 0, 0⟩) ∧ outcome (x - y) (.sub q ⟨d, a, b, 0, 0⟩)
      ∧ outcome (x * y) (.mul q ⟨d, a, b, 0, 0⟩) ∧ outcome (x + imm.toInt) (.addi q ⟨d, a, imm⟩))
  ∧ (∀ (s : State) (q : Issue) (e : Env) (d a b : BitVec 5), Ready s q e → e.present [a, b, d] → e.unpoisoned [a, b] →
    let v := e.r a
    let w := e.r b
    let x := v.pay.toInt
    let y := w.pay.toInt
    (v.typ = Ty.fixnum → w.typ = Ty.fixnum →
      lands s q e (.eql q ⟨d, a, b, 0, 0⟩) d 4 (if x = y then Word.tru else Word.fls)
      ∧ lands s q e (.less q ⟨d, a, b, 0, 0⟩) d 4 (if x < y then Word.tru else Word.fls)
      ∧ lands s q e (.less q ⟨d, a, b, 1, 0⟩) d 4 (if x ≤ y then Word.tru else Word.fls))
    ∧ (isNum v = false ∨ isNum w = false →
      lands s q e (.eql q ⟨d, a, b, 0, 0⟩) d 4 (if v.typ = w.typ ∧ v.pay = w.pay then Word.tru else Word.fls)
      ∧ faults s q (.less q ⟨d, a, b, 0, 0⟩) .generic 0))

/-- R144, R232, R233: a floating-point result lands with the exception it raises recorded; with EXACT set an exception
faults in place instead. The results are those of the binary64 operations of Machine/Flags.lean. R143, R144: the
comparisons, the sign operations, the class, the conversions from FIXNUM and RAW, the microcoded quotient and square root,
and ADD of two numbers that are not both FIXNUM. -/
def Obligations.FloatingPointCompletes : Prop :=
  (∀ (s : State) (q : Issue) (e : Env) (d a b : BitVec 5) (m : BitVec 2), Ready s q e → e.present [a, b, d] →
    (e.r a).typ = Ty.flonum → (e.r b).typ = Ty.flonum →
    let x := (e.r a).pay
    let y := (e.r b).pay
    let r := e.x.phys d
    let outcome (dist : Nat) (es : List Effect) (w : Word) (sub : BitVec 8) (i : Instr) : Prop :=
      (sub = 0 → completes s q i (es ++ .land dist (.reg r) w :: if e.x.exact then [.took (dist - 1)] else []))
        ∧ (sub ≠ 0 → e.x.exact = false → completes s q i (es ++ [.land dist (.reg r) w, .arith sub]))
        ∧ (sub ≠ 0 → e.x.exact = true → faults s q i .arith (info sub.toNat 0 (e.x.pc.toNat % 2 ^ 48)))
    outcome 4 [] (Word.mk0 Ty.flonum (fpAdd m.toNat x y).val) (fpAdd m.toNat x y).sub (.fadd q ⟨d, a, b, 0, m.setWidth 7⟩)
    ∧ outcome 4 [] (Word.mk0 Ty.flonum (fpSub m.toNat x y).val) (fpSub m.toNat x y).sub (.fsub q ⟨d, a, b, 0, m.setWidth 7⟩)
    ∧ outcome 4 [] (Word.mk0 Ty.flonum (fpMul m.toNat x y).val) (fpMul m.toNat x y).sub (.fmul q ⟨d, a, b, 0, m.setWidth 7⟩)
    ∧ ((e.r d).typ = Ty.flonum →
      let free := e.s.draw.getLsbD 0
      let p := fpFma m.toNat false x y (e.r d).pay free
      let n := fpFma m.toNat true x y (e.r d).pay free
      outcome 5 [.drew] (Word.mk0 Ty.flonum p.val) p.sub (.fma q ⟨d, a, b, 0, m.setWidth 7⟩)
      ∧ outcome 5 [.drew] (Word.mk0 Ty.flonum n.val) n.sub (.fnma q ⟨d, a, b, 0, m.setWidth 7⟩))
    ∧ outcome 4 [] (Word.fx (flToFix m.toNat x).val) (flToFix m.toNat x).sub (.fcvt q ⟨d, a, 0, 1, m.setWidth 7⟩)
    ∧ outcome 4 [] (Word.rawOf x) 0 (.fcvt q ⟨d, a, 0, 3, 0⟩))
  ∧ (∀ (s : State) (q : Issue) (e : Env) (d a b : BitVec 5) (m : BitVec 2), Ready s q e → e.present [a, b, d] →
    let v := e.r a
    let w := e.r b
    let r := e.x.phys d
    let took (n : Nat) : List Effect := if e.x.exact then [.took n] else []
    (v.typ = Ty.flonum → w.typ = Ty.flonum →
      (fpNaN v.pay = false → fpNaN w.pay = false →
        lands s q e (.fcmp q ⟨d, a, b, 0, 0⟩) d 4 (Word.fx (if numCmp v w = 0 then 1 else 0))
        ∧ lands s q e (.fcmp q ⟨d, a, b, 1, 0⟩) d 4 (Word.fx (if numCmp v w < 0 then 1 else 0))
        ∧ lands s q e (.fcmp q ⟨d, a, b, 2, 0⟩) d 4 (Word.fx (if numCmp v w ≤ 0 then 1 else 0))
        ∧ lands s q e (.fcmp q ⟨d, a, b, 3, 0⟩) d 4 (Word.fx 0))
      ∧ (fpNaN v.pay = true ∨ fpNaN w.pay = true →
        (∀ k : BitVec 3, k.toNat ≤ 2 → lands s q e (.fcmp q ⟨d, a, b, k, 0⟩) d 4 (Word.fx 0))
        ∧ lands s q e (.fcmp q ⟨d, a, b, 3, 0⟩) d 4 (Word.fx 1))
      ∧ lands s q e (.fmisc q ⟨d, a, 0, 0, 0⟩) d 4 (Word.mk0 Ty.flonum (v.pay &&& 0x7FFFFFFFFFFFFFFF))
      ∧ lands s q e (.fmisc q ⟨d, a, 0, 1, 0⟩) d 4 (Word.mk0 Ty.flonum (v.pay ^^^ 0x8000000000000000))
      ∧ lands s q e (.fmisc q ⟨d, a, b, 2, 0⟩) d 4 (Word.mk0 Ty.flonum (fpMinMax false v.pay w.pay))
      ∧ lands s q e (.fmisc q ⟨d, a, b, 3, 0⟩) d 4 (Word.mk0 Ty.flonum (fpMinMax true v.pay w.pay))
      ∧ lands s q e (.fmisc q ⟨d, a, 0, 4, 0⟩) d 4 (Word.fx (BitVec.ofNat 64 (fpClass v.pay)))
      ∧ lands s q e (.fmisc q ⟨d, a, b, 5, 0⟩) d 4 (Word.mk0 Ty.flonum ((v.pay &&& 0x7FFFFFFFFFFFFFFF) ||| (w.pay &&& 0x8000000000000000)))
      ∧ ((fpDiv m.toNat v.pay w.pay).sub = 0 → completes s q (.div q ⟨d, a, b, 1, m.setWidth 7⟩) [.land 30 (.reg r) (Word.mk0 Ty.flonum (fpDiv m.toNat v.pay w.pay).val), .took 30])
      ∧ ((fpSqrt m.toNat v.pay).sub = 0 → completes s q (.div q ⟨d, a, 0, 2, m.setWidth 7⟩) [.land 32 (.reg r) (Word.mk0 Ty.flonum (fpSqrt m.toNat v.pay).val), .took 32]))
    ∧ (v.typ = Ty.fixnum → completes s q (.fcvt q ⟨d, a, 0, 0, m.setWidth 7⟩) (.land 4 (.reg r) (Word.mk0 Ty.flonum (fixToFl m.toNat v.pay)) :: took 3))
    ∧ (v.typ = Ty.raw → completes s q (.fcvt q ⟨d, a, 0, 2, 0⟩) (.land 4 (.reg r) (Word.mk0 Ty.flonum v.pay) :: took 3))
    ∧ (isNum v = true → isNum w = true → ¬ (v.typ = Ty.fixnum ∧ w.typ = Ty.fixnum) → (fpAdd 0 (toFl v) (toFl w)).sub = 0 →
        completes s q (.add q ⟨d, a, b, 0, 0⟩) (.land 4 (.reg r) (Word.mk0 Ty.flonum (fpAdd 0 (toFl v) (toFl w)).val) :: took 3)))

/-- R144: a FIXNUM of at most 53 significant bits converts to binary64 exactly, whatever the rounding mode, and back. R144:
a NaN operand of a floating-point addition or multiplication gives the first NaN, quieted, and a signalling one raises
invalid; an operation on no NaN raises invalid exactly for a difference of infinities or zero times infinity. -/
def Obligations.BinaryOperationsKeepTheirRules : Prop :=
  (∀ (m k : Nat) (v : BitVec 64), -(2 ^ 53) ≤ v.toInt → v.toInt ≤ 2 ^ 53 → m ≤ 3 → k ≤ 3 →
    flToFix k (fixToFl m v) = ⟨v, 0⟩)
  ∧ (∀ (m : Nat) (a b : BitVec 64),
    (fpNaN a = true → (fpAdd m a b).val = a ||| 0x8000000000000 ∧ (fpMul m a b).val = a ||| 0x8000000000000)
    ∧ (fpNaN a = false → fpNaN b = true → (fpAdd m a b).val = b ||| 0x8000000000000 ∧ (fpMul m a b).val = b ||| 0x8000000000000)
    ∧ (fpNaN a = true ∨ fpNaN b = true →
        ((fpAdd m a b).sub = 1 ↔ (fpSNaN a = true ∨ fpSNaN b = true)) ∧ ((fpMul m a b).sub = 1 ↔ (fpSNaN a = true ∨ fpSNaN b = true)))
    ∧ (fpNaN a = false → fpNaN b = false →
        ((fpAdd m a b).sub = 1 ↔ (fpInf a = true ∧ fpInf b = true ∧ fpSign a ≠ fpSign b))
        ∧ ((fpMul m a b).sub = 1 ↔ ((fpInf a = true ∧ fpZero b = true) ∨ (fpZero a = true ∧ fpInf b = true)))))

/-! ### Operand faults -/

/-- R134, R136, R50, Table 03-11: the faults that operands of a raw addition raise: a field that must be zero, then POISON, A
before B, then a TYPE that is not I64. STW, SVR and PRETAG below their level fault FLT_PERM. -/
def Obligations.OperandFaultsInOrder : Prop :=
  ∀ (s : State) (q : Issue) (e : Env) (f : FR), Ready s q e →
    ((f.sub ≠ 0 ∨ f.md ≠ 0) → faults s q (.iadd q f) .opcode (if q.slot then 259 else 3))
    ∧ (f.sub = 0 → f.md = 0 → e.present [f.a, f.b, f.d] →
        ((e.r f.a).typ = Ty.poison → faults s q (.iadd q f) .poison (info 0 f.a.toNat 0))
        ∧ ((e.r f.a).typ ≠ Ty.poison → (e.r f.b).typ = Ty.poison → faults s q (.iadd q f) .poison (info 0 f.b.toNat 0))
        ∧ (e.unpoisoned [f.a, f.b] → ¬ isI64 (e.r f.a) → faults s q (.iadd q f) .tag (info 1 f.a.toNat 0))
        ∧ (e.unpoisoned [f.a, f.b] → isI64 (e.r f.a) → ¬ isI64 (e.r f.b) → faults s q (.iadd q f) .tag (info 1 f.b.toNat 0)))
    ∧ (∀ d a : BitVec 5, e.x.level.toNat < 2 → e.present [a, d] → faults s q (.pretag q ⟨d, a, 0, 0, 0⟩) .perm 0)
    ∧ (∀ d : BitVec 5, e.x.level = lvU → e.present [d] → faults s q (.svr q ⟨d, 0, 8⟩) .perm 0)
    ∧ (∀ a : BitVec 5, e.present [a] → isI64 (e.r a) → e.x.level = lvU →
        ((e.r a).pay.setWidth 32 ^^^ e.x.st) &&& 0x9F ≠ 0 → faults s q (.stw q ⟨0, a, 0, 0, 0⟩) .perm 0)

/-! ### Branches, calls and returns -/

/-- R96, R145: a branch or jump outside a delay pair completes, and transfers when its condition holds: to PC + 8 ×
displacement, or to the address in a register. R95, R104: a taken transfer sets DLY, DKIND and DTGT; the pair after it, the delay pair, then goes to
DTGT and clears DLY. -/
def Obligations.BranchesHaveOneDelayPair : Prop :=
  (∀ (s : State) (q : Issue) (e : Env) (a b : BitVec 5) (disp : BitVec 15), Ready s q e → e.x.dly = false →
    let outcome (i : Instr) (taken : Bool) : Prop := completes s q i (if taken then [.transfer 0 (e.x.pc + (disp.signExtend 64 <<< 3))] else [])
    let x := e.r a
    let y := e.r b
    (e.present [a, b] → e.unpoisoned [a, b] →
      outcome (.beq q ⟨a, b, disp⟩) (decide (x.typ = y.typ ∧ x.pay = y.pay))
      ∧ outcome (.bne q ⟨a, b, disp⟩) (decide ¬ (x.typ = y.typ ∧ x.pay = y.pay))
      ∧ (isI64 x → isI64 y →
        outcome (.blt q ⟨a, b, disp⟩) (decide (x.pay.toInt < y.pay.toInt))
        ∧ outcome (.bge q ⟨a, b, disp⟩) (decide (y.pay.toInt ≤ x.pay.toInt))
        ∧ outcome (.bltu q ⟨a, b, disp⟩) (decide (x.pay.toNat < y.pay.toNat))
        ∧ outcome (.bgeu q ⟨a, b, disp⟩) (decide (y.pay.toNat ≤ x.pay.toNat))))
    ∧ (e.present [a] → e.unpoisoned [a] →
      outcome (.btype q ⟨a, b, disp⟩) (decide (x.typ.toNat = b.toNat))
      ∧ outcome (.bntype q ⟨a, b, disp⟩) (decide (x.typ.toNat ≠ b.toNat))
      ∧ outcome (.bnil q ⟨a, 0, disp⟩) (decide (x.typ = Ty.immed ∧ x.pay = 0))
      ∧ outcome (.bnnil q ⟨a, 0, disp⟩) (decide ¬ (x.typ = Ty.immed ∧ x.pay = 0)))
    ∧ (∀ far : BitVec 25, completes s q (.br q far) [.transfer 0 (e.x.pc + (far.signExtend 64 <<< 3))])
    ∧ (e.present [a] → isI64 x → x.pay.toNat % 8 = 0 →
      completes s q (.jmpr q ⟨0, a, 0, 0, 0⟩) [.transfer 0 x.pay]))
  ∧ (∀ (s : State) (q : Issue) (e : Env) (k : Nat) (a : BitVec 64), Ready s q e → e.x.dly = false → k < 3 →
    let y := (afterPair s q [] [.transfer k a]).ctx q.nib.val q.ctx.val
    y.pc = e.x.pc + 8 ∧ y.dly = true ∧ y.dkind = k ∧ y.dtgt = BitVec.ofNat 64 (a.toNat / 8 % 2 ^ 45 * 8)
      ∧ y.nextPc.pc = y.dtgt ∧ y.nextPc.dly = false ∧ y.nextPc.dkind = k
      ∧ y.cwp = e.x.cwp ∧ y.res = e.x.res ∧ y.regs = e.x.regs ∧ y.st = e.x.st)

/-- R86, R88, R90, R91, R155, R238, R243: CALL and CALLR put the return address PC + 16 in n7 and transfer; RET transfers to the address in a
register, and in the trap window it is the trap return. The frame that no longer fits the windows is reserved in the spill area; a
return to a frame that is held nowhere takes it back from the spill engine, or from memory. A CALL's target pair sees the next window,
and its caller's n registers as its h registers; a RET's target pair sees the caller's window again; RES counts the frames held. -/
def Obligations.CallsAndReturnsComplete : Prop :=
  (∀ (s : State) (q : Issue) (e : Env) (a : BitVec 5) (far : BitVec 25), Ready s q e → e.x.dly = false →
    let link : Effect := .land 1 (.reg (e.x.phys 31)) (Word.fx (e.x.pc + 16))
    let k : CapV := ⟨e.x.spillLo, e.x.spillHi⟩
    let x := e.r a
    let v := e.x.backWindow
    (∀ es, (e.x.res < 6 ∧ es = [])
        ∨ (e.x.res = 6 ∧ es = [Effect.reserve] ∧ (∀ g ∈ e.x.spillGroups, e.x.unfetched.getLsbD g = false)
          ∧ e.x.spillHeld = false ∧ k.ok = true ∧ k.sealed = false ∧ k.has spillPerms = true ∧ k.cursor % 16 = 0
          ∧ k.cursor + 144 ≤ k.top ∧ e.x.frames.length < 2) →
      (e.present [31] → completes s q (.call q far) (es ++ [link, .transfer 1 (e.x.pc + (far.signExtend 64 <<< 3))]))
      ∧ (e.present [a, 31] → x.typ = Ty.function →
        completes s q (.callr q ⟨0, a, 0, 0, 0⟩) (es ++ [link, .transfer 1 (waddr x + 16)]))
      ∧ (e.present [a, 31] → isI64 x → x.pay.toNat % 8 = 0 →
        completes s q (.callr q ⟨0, a, 0, 0, 0⟩) (es ++ [link, .transfer 1 x.pay])))
    ∧ (e.present [a] → isI64 x → x.pay.toNat % 8 = 0 → e.x.tw = false →
      (1 < e.x.res → completes s q (.ret q ⟨0, a, 0, 0, 0⟩) [.transfer 2 x.pay])
      ∧ (e.x.res ≤ 1 → e.x.frames ≠ [] →
        (∀ f, e.x.frames.getLast? = some f → e.barrierWords f.words = .ok (f.words, [])) →
        completes s q (.ret q ⟨0, a, 0, 0, 0⟩) [.transfer 2 x.pay, .takeBack (hBase v) (mBase v)])
      ∧ (∀ es, e.x.res ≤ 1 → e.x.frames = [] → k.ok = true → k.sealed = false → k.has (pR ||| pLC) = true → k.cursor % 16 = 0 →
        k.base + 144 ≤ k.cursor → e.runMem (.refill (k.cursor - 144) v (hBase v) (mBase v)) 3 = .ok es →
        completes s q (.ret q ⟨0, a, 0, 0, 0⟩) (.transfer 2 x.pay :: es)))
    ∧ (e.x.tw = true → completes s q (.ret q ⟨0, 0, 0, 0, 0⟩) [.level (.trapRet e.x.level) (e.x.save e.x.level).pc]))
  ∧ (∀ x : Context, x.cwp < 7 → x.tw = false → (∀ w, w < 7 → x.hb w = false) →
    (x.res < 6 → x.advance.cwp = (x.cwp + 1) % 7 ∧ x.advance.res = x.res + 1 ∧ x.advance.regs = x.regs
      ∧ x.advance.frames = x.frames
      ∧ (∀ r : BitVec 5, 8 ≤ r.toNat → r.toNat < 16 → x.advance.phys r = x.phys (r + 16))
      ∧ (∀ r : BitVec 5, r.toNat < 8 → x.advance.phys r = x.phys r))
    ∧ (x.res = 6 → x.advance.cwp = (x.cwp + 1) % 7 ∧ x.advance.res = 6 ∧ x.advance.frames.length = x.frames.length + 1)
    ∧ (1 < x.res → x.retreat.cwp = (x.cwp + 6) % 7 ∧ x.retreat.res = x.res - 1 ∧ x.retreat.regs = x.regs
      ∧ (∀ r : BitVec 5, 24 ≤ r.toNat → x.retreat.phys r = x.phys (r - 16)))
    ∧ (x.res < 6 → 0 < x.res → x.advance.retreat.cwp = x.cwp ∧ x.advance.retreat.res = x.res
      ∧ ∀ r : BitVec 5, x.advance.retreat.phys r = x.phys r))

/-- R201 to R206, R250: a GATE whose gate object, descriptor, stack and arguments pass every check begins the level change
to the level its descriptor names, with the gate frame and the callee's stack capability. R252: a GRET whose frame and
status pass every check begins the return to the level and address its frame names. -/
def Obligations.GatesBeginTheirLevelChange : Prop :=
  (∀ (s : State) (q : Issue) (e : Env) (a : BitVec 5) (hd desc entry : Word) (stk : CapV) (w : Where), Ready s q e →
    namesPair a → e.present [a, a + 1] → e.unpoisoned [a, a + 1] →
    let g := e.pair a
    let h := g.base
    let lvl := bits desc.pay 56 2
    g.ok = true → g.sealed = true → g.has (pGATE ||| pX) = true → h % 16 = 0 → h + 40 ≤ g.top →
    hd.typ = Ty.header → hdrGate hd = true → hdrFrozen hd = true → 4 ≤ hdrLen hd →
    badDesc desc = false → lvl ≤ 1 → (∀ v ∈ [hd, stk.lo, stk.hi], reservedWord v = false) →
    entry.typ = Ty.fixnum → entry.pay.toNat % 8 = 0 → entry.pay.toNat < 2 ^ 48 → entry.cdr ≠ 3 → desc.cdr ≠ 3 → stackOk stk = true →
    finishes s q (.gate q ⟨0, a, 0, 0, 0⟩) (e.gateRoutine a)
      (fun v => v.readsMem h hd true ∧ v.readsMem (h + 8) desc true ∧ v.readsMem (h + 16) stk.lo true ∧ v.readsMem (h + 24) stk.hi true
        ∧ v.readsMem (h + 32) entry true ∧ v.x.level.toNat ≤ lvl ∧ v.forwardPair stk.lo stk.hi = .ok (stk.lo, stk.hi, [])
        ∧ (∀ i, i < gateNarg desc.pay → v.present (gateRegs (gateArg desc.pay i)) ∧ v.meets (gateArg desc.pay i) = true)
        ∧ ({ v with x := v.x.setSt 0 2 lvl } : Env).access (BitVec.ofNat 64 stk.cursor) .write = .ok w
        ∧ v.x.res < 6 ∧ v.x.unfetched.getLsbD (mBase ((v.x.cwp + 1) % 7) / 8) = false ∧ (v.s.nib v.n).storeBuf.length < 16)
      fun v => [.level (.gate (BitVec.ofNat 2 lvl) (gateFrame v.x).1 (gateFrame v.x).2 w.pa (!w.cached) (BitVec.ofNat 64 stk.cursor)
        (stk.setCursor (stk.cursor + 16)).lo (stk.setCursor (stk.cursor + 16)).hi) entry.pay, .took 11])
  ∧ (∀ (s : State) (q : Issue) (e : Env) (w0 w1 : Word), Ready s q e → e.present [22, 23] →
    let k := e.pair 22
    let a := k.cursor - 16
    let cl : BitVec 2 := w0.pay.extractLsb' 0 2
    let cst : BitVec 32 := w1.pay.setWidth 32
    k.ok = true → k.sealed = false → k.has pR = true → k.base + 16 ≤ k.cursor → a % 16 = 0 →
    reservedWord w0 = false → reservedWord w1 = false → w0.typ = Ty.raw → w1.typ = Ty.raw →
    bits w0.pay 48 16 = 0 → w0.pay.getLsbD 2 = false → bits w1.pay 32 32 = 0 →
    finishes s q (.gret q ⟨0, 0, 0, 0, 0⟩) e.gretRoutine
      (fun v => v.x.tw = false ∧ v.readsMem a w0 ∧ v.readsMem (a + 8) w1 ∧ cl.toNat ≤ v.x.level.toNat
        ∧ badStatus (v.c == 0) v.x cl cst = false ∧ 1 < v.x.res)
      fun _ => [.level (.gret cl cst) (w0.pay &&& 0xFFFFFFFFFFF8), .took 9])

/-- R235, R236, R251, R252: a level change binds when its target pair comes to the front, and not before its delay pair has
issued: GATE sets the level, advances the window and stores the gate frame; GRET sets level and status and retreats; the trap
return restores PC, status and window from the level's save set, which is then not live; a saved level of the other group than the context's
leaves the level (log 77). -/
def Obligations.LevelChangesBindAtTheTargetPair : Prop :=
  ∀ (s : State) (n c : Nat), c < 32 →
    let x := s.ctx n c
    let y := (s.bind n c).ctx n c
    (x.dly = true → s.bind n c = s)
    ∧ (∀ lvl f0 f1 pa unc va lo hi, x.dly = false → x.xfer = some (.gate lvl f0 f1 pa unc va lo hi) →
        y.level = lvl ∧ y.mpend = false ∧ y.cwp = (x.cwp + 1) % 7 ∧ y.xfer = none
        ∧ ((s.bind n c).nib n).storeBuf.length = (s.nib n).storeBuf.length + 1
        ∧ ∃ k, ((s.bind n c).nib n).storeBuf.getLast? = some k ∧ k.ctx = c ∧ k.pa = pa ∧ k.va = va ∧ k.unc = unc ∧ k.kind = .pair f0 f1 .keep)
    ∧ (∀ lvl cst, x.dly = false → x.xfer = some (.gret lvl cst) →
        y.level = lvl ∧ y.xfer = none ∧ y.st &&& 0xEC = cst &&& 0xEC ∧ y.st &&& 0xFFFFFF10 = x.st &&& 0xFFFFFF10)
    ∧ (∀ l, x.dly = false → x.xfer = some (.trapRet l) → x.level ≠ lvU →
        let v := x.save x.level
        y.pc = v.pc ∧ y.xfer = none ∧ y.st &&& 0xEC = v.st.setWidth 32 &&& 0xEC ∧ y.stdy = false
        ∧ y.level = (if c = 0 ↔ 2 ≤ bits v.st 0 2 then v.st.extractLsb' 0 2 else x.level)
        ∧ y.cwp = bits v.win 0 3 ∧ y.tw = false ∧ (y.save x.level).live = false ∧ y.regs = x.regs)

/-! ### Access through references -/

/-- R146 to R148: LDX, LDI, LDBX, LDV and HDRQ, when their reads hit, land the body word at the object's address + 8 × (1 +
index), the byte of a STRING, the word at a virtual address, or a field of the HEADER, three nib cycles after issue. R107,
R108, R305: a load whose line the nib lacks completes its pair all the same: its context parks with the operation, is out of
issue, and a read goes to the line's inkwell. -/
def Obligations.ReferenceLoadsLandOrPark : Prop :=
  (∀ (s : State) (q : Issue) (e : Env) (d a b : BitVec 5) (imm : BitVec 15) (at_ : BitVec 64) (h v c : Word), Ready s q e →
    e.present [a, b, d] →
    let r := e.r a
    let i := (e.r b).pay.toInt
    (e.object r at_ h → (e.r b).typ = Ty.fixnum → 0 ≤ i → i < (hdrLen h : Int) →
      e.reads (at_ + BitVec.ofInt 64 (8 * (1 + i))) v → e.delivers v →
      lands s q e (.ldx q ⟨d, a, b, 0, 0⟩) d 3 (loaded v))
    ∧ (e.object r at_ h → 0 ≤ imm.toInt → imm.toInt < (hdrLen h : Int) →
      e.reads (at_ + BitVec.ofInt 64 (8 * (1 + imm.toInt))) v → e.delivers v →
      lands s q e (.ldi q ⟨d, a, imm⟩) d 3 (loaded v))
    ∧ (e.object r at_ h → r.typ = Ty.string → (e.r b).typ = Ty.fixnum → hdrLen h ≠ 0 →
      e.reads (at_ + 8) c → reservedWord c = false → c.typ = Ty.fixnum → 0 ≤ i → i < c.pay.toInt → 1 + i / 8 < (hdrLen h : Int) →
      e.reads (at_ + BitVec.ofInt 64 (8 * (2 + i / 8))) v → reservedWord v = false → v.typ = Ty.raw →
      lands s q e (.ldbx q ⟨d, a, b, 0, 0⟩) d 3 (Word.fx (BitVec.ofNat 64 (v.pay.toNat / 2 ^ (8 * (i % 8).toNat) % 256))))
    ∧ (isI64 r → e.x.level ≠ lvU → (r.pay + (imm.signExtend 64 <<< 3)).toNat % 8 = 0 →
      e.reads (r.pay + (imm.signExtend 64 <<< 3)) v true → e.delivers v →
      lands s q e (.ldv q ⟨d, a, imm⟩) d 3 (loaded v))
    ∧ (e.object r at_ h →
      lands s q e (.hdrq q ⟨d, a, 0, 0, 0⟩) d 3 (Word.fx (BitVec.ofNat 64 (hdrLen h)))
      ∧ lands s q e (.hdrq q ⟨d, a, 0, 1, 0⟩) d 3 (Word.fx (BitVec.ofNat 64 (hdrRtype h).toNat))
      ∧ lands s q e (.hdrq q ⟨d, a, 0, 2, 0⟩) d 3 (Word.fx (BitVec.ofNat 64 (hdrOtype h)))
      ∧ lands s q e (.hdrq q ⟨d, a, 0, 3, 0⟩) d 3 (Word.fx (BitVec.ofNat 64
          ((if hdrFrozen h then 1 else 0) + (if hdrGate h then 2 else 0) + (if hdrKey h then 4 else 0))))
      ∧ lands s q e (.hdrq q ⟨d, a, 0, 4, 0⟩) d 3 (Word.fx (BitVec.ofNat 64 h.col.toNat))))
  ∧ (∀ (s : State) (q : Issue) (e : Env) (d a : BitVec 5) (l : Nat) (k : Bool), Ready s q e → e.present [a, d] → e.unpoisoned [a] →
    okRtype (e.r a).typ = true → e.read (waddr (e.r a)) = .error (.wait (.line l k)) →
    completes s q (.hdrq q ⟨d, a, 0, 0, 0⟩) [.park { why := .line l k, op := some (.hdr (e.r a) 0 (e.x.phys d)), slot := q.slot }])
  ∧ (∀ (s : State) (q : Issue) (e : Env) (p : Parked) (l : Nat) (k : Bool), Ready s q e → p.why = .line l k →
    let t := afterPair s q [] [.park p]
    let y := t.ctx q.nib.val q.ctx.val
    y.state = stParked ∧ y.parked = some { p with iss := issueNo ((s.atPair q).now q.nib.val) q.slot }
      ∧ y.pc = (if e.x.dly then e.x.dtgt else e.x.pc + 8) ∧ y.regs = e.x.regs
      ∧ (t.nib q.nib.val).running = none
      ∧ t.reads = s.reads ++ [{ nib := q.nib.val, ctx := q.ctx.val, line := l, cached := k, fetch := false }]
      ∧ t.mem = s.mem)

/-- R146 to R148, R53: STX, STI, STBX and STV put one entry into the store buffer, for the address the rules give; FREEZE sets
the FROZEN bit of the HEADER as a locked update. -/
def Obligations.ReferenceStoresEnterTheBuffer : Prop :=
  ∀ (s : State) (q : Issue) (e : Env) (d a b : BitVec 5) (imm : BitVec 15) (at_ : BitVec 64) (h g c : Word) (w : Where),
    Ready s q e → e.present [a, b, d] →
    let r := e.r a
    let x := e.r d
    let i := (e.r b).pay.toInt
    (isCapType x.typ = false → x.typ ≠ Ty.poison → hdrFrozen h = false → e.object r at_ h →
      ((e.r b).typ = Ty.fixnum → 0 ≤ i → i < (hdrLen h : Int) →
        e.storesTo (at_ + BitVec.ofInt 64 (8 * (1 + i))) (.word x .keep) (storeAcc [x]) false w →
        completes s q (.stx q ⟨d, a, b, 0, 0⟩) [e.storeOf (at_ + BitVec.ofInt 64 (8 * (1 + i))) w (.word x .keep)])
      ∧ (0 ≤ imm.toInt → imm.toInt < (hdrLen h : Int) →
        e.storesTo (at_ + BitVec.ofInt 64 (8 * (1 + imm.toInt))) (.word x .keep) (storeAcc [x]) false w →
        completes s q (.sti q ⟨d, a, imm⟩) [e.storeOf (at_ + BitVec.ofInt 64 (8 * (1 + imm.toInt))) w (.word x .keep)]))
    ∧ (e.object r at_ h → r.typ = Ty.string → hdrFrozen h = false → (e.r b).typ = Ty.fixnum → x.typ = Ty.fixnum → x.pay.toNat ≤ 255 →
      hdrLen h ≠ 0 → e.reads (at_ + 8) c → reservedWord c = false → c.typ = Ty.fixnum → 0 ≤ i → i < c.pay.toInt →
      1 + i / 8 < (hdrLen h : Int) → e.reads (at_ + BitVec.ofInt 64 (8 * (2 + i / 8))) g → reservedWord g = false → g.typ = Ty.raw →
      e.storesTo (at_ + BitVec.ofInt 64 (8 * (2 + i / 8))) (.byte (i % 8).toNat (x.pay.setWidth 8)) .write false w →
      completes s q (.stbx q ⟨d, a, b, 0, 0⟩) [e.storeOf (at_ + BitVec.ofInt 64 (8 * (2 + i / 8))) w (.byte (i % 8).toNat (x.pay.setWidth 8))])
    ∧ (isI64 r → e.x.level ≠ lvU → isCapType x.typ = false → x.typ ≠ Ty.poison →
      (r.pay + (imm.signExtend 64 <<< 3)).toNat % 8 = 0 →
      e.reads (r.pay + (imm.signExtend 64 <<< 3)) g true → g.typ ≠ Ty.header → g.typ ≠ Ty.forward →
      e.storesTo (r.pay + (imm.signExtend 64 <<< 3)) (.word x .keep) (storeAcc [x]) true w →
      completes s q (.stv q ⟨d, a, imm⟩) [e.storeOf (r.pay + (imm.signExtend 64 <<< 3)) w (.word x .keep) true])
    ∧ (e.lockedObject r at_ w h → e.s.held (lineOf w.pa) = false →
      completes s q (.freeze q ⟨0, a, 0, 0, 0⟩) [.locked w.pa .freeze])

/-- R146, R148: an index outside the object faults FLT_BOUNDS, a store to a FROZEN object FLT_PERM, LDV below level S
FLT_PERM, and a reference whose target is not a HEADER of its TYPE FLT_TAG at that address. R149, R173: an access through a
capability outside its bounds faults FLT_BOUNDS, through a sealed one FLT_SEALED, without the right FLT_PERM, misaligned
FLT_ALIGN; so no load or store reaches an address its capability does not grant. -/
def Obligations.AccessFaultsBySource : Prop :=
  (∀ (s : State) (q : Issue) (e : Env) (d a b : BitVec 5) (at_ : BitVec 64) (h : Word), Ready s q e → e.present [a, b, d] →
    let i := (e.r b).pay.toInt
    let va := at_ + BitVec.ofInt 64 (8 * (1 + i))
    (e.object (e.r a) at_ h → (e.r b).typ = Ty.fixnum → (i < 0 ∨ (hdrLen h : Int) ≤ i) →
      faults s q (.ldx q ⟨d, a, b, 0, 0⟩) .bounds (info 0 0 (va.toNat % 2 ^ 48)))
    ∧ (e.object (e.r a) at_ h → (e.r b).typ = Ty.fixnum → 0 ≤ i → i < (hdrLen h : Int) → hdrFrozen h = true →
      isCapType (e.r d).typ = false → (e.r d).typ ≠ Ty.poison →
      faults s q (.stx q ⟨d, a, b, 0, 0⟩) .perm (info 0 0 va.toNat))
    ∧ (okRtype (e.r a).typ = true → (e.r b).typ = Ty.fixnum → e.reads (waddr (e.r a)) h → h.typ ≠ Ty.forward →
      (h.typ ≠ Ty.header ∨ hdrRtype h ≠ (e.r a).typ) →
      faults s q (.ldx q ⟨d, a, b, 0, 0⟩) .tag (info 2 0 (waddr (e.r a)).toNat)))
  ∧ (∀ (s : State) (q : Issue) (e : Env) (d a : BitVec 5) (imm : BitVec 15), Ready s q e → namesPair a → e.present [a, a + 1, d] →
    let k := e.pair a
    let n : Int := (k.cursor : Int) + 8 * imm.toInt
    let av := (n % 2 ^ 48).toNat
    (n % 8 ≠ 0 → faults s q (.cld q ⟨d, a, imm⟩) .align (info 0 0 av))
    ∧ (n % 8 = 0 → e.unpoisoned [a, a + 1] →
      (k.ok = false → faults s q (.cld q ⟨d, a, imm⟩) .tag (info 1 a.toNat 0))
      ∧ (k.ok = true → k.sealed = true → faults s q (.cld q ⟨d, a, imm⟩) .sealed 0)
      ∧ (k.ok = true → k.sealed = false → k.has pR = false → faults s q (.cld q ⟨d, a, imm⟩) .perm (info 0 0 av))
      ∧ (k.ok = true → k.sealed = false → k.has pR = true → (n < (k.base : Int) ∨ (k.top : Int) < n + 8) →
        faults s q (.cld q ⟨d, a, imm⟩) .bounds (info 0 0 av))))

/-! ### Access through capabilities, lists and allocation -/

/-- R149, R179, R180: the loads and stores through a capability access the address cursor + offset, aligned and inside its
bounds, with R, W, LC or SC held. -/
def Obligations.CapabilityAccessCompletes : Prop :=
  ∀ (s : State) (q : Issue) (e : Env) (d a b : BitVec 5) (imm : BitVec 15) (k : CapV) (v v2 : Word) (w : Where), Ready s q e →
    e.holdsCap a k → e.present [b, d, d + 1] →
    let near : Int := (k.cursor : Int) + 8 * imm.toInt
    let far : Int := (k.cursor : Int) + 8 * (e.r b).pay.toInt
    let va (n : Int) : BitVec 64 := BitVec.ofNat 64 n.toNat
    let x := e.r d
    (capAllows k near 8 pR → e.reads (va near) v → e.delivers v →
      lands s q e (.cld q ⟨d, a, imm⟩) d 3 (loaded v))
    ∧ ((e.r b).typ = Ty.fixnum → capAllows k far 8 pR → e.reads (va far) v → e.delivers v →
      lands s q e (.cldx q ⟨d, a, b, 0, 0⟩) d 3 (loaded v))
    ∧ (namesPair d → capAllows k near 16 (pR ||| pLC) → e.reads (va near) v → e.reads (va near + 8) v2 → e.delivers v → e.delivers v2 →
      (2 ≤ e.x.level.toNat ∨ e.forwardPair v v2 = .ok (v, v2, [])) →
      landsPair s q e (.cldc q ⟨d, a, imm⟩) d 3 { v with cdr := 0 } { v2 with cdr := 0 })
    ∧ (isCapType x.typ = false → x.typ ≠ Ty.poison →
      (capAllows k near 8 pW → e.storesTo (va near) (.word x .keep) (storeAcc [x]) false w →
        completes s q (.cst q ⟨d, a, imm⟩) [e.storeOf (va near) w (.word x .keep)])
      ∧ ((e.r b).typ = Ty.fixnum → capAllows k far 8 pW → e.storesTo (va far) (.word x .keep) (storeAcc [x]) false w →
        completes s q (.cstx q ⟨d, a, b, 0, 0⟩) [e.storeOf (va far) w (.word x .keep)]))
    ∧ (namesPair d → e.unpoisoned [d, d + 1] → (e.pair d).ok = true → (e.pair d).has pGLOBAL = true →
      capAllows k near 16 (pW ||| pSC) → e.storesTo (va near) (.pair x (e.r (d + 1)) .keep) .writeT false w →
      completes s q (.cstc q ⟨d, a, imm⟩) [e.storeOf (va near) w (.pair x (e.r (d + 1)) .keep)])

/-- R150, R151: CAR and CDR land the car word and the rest of a cell by its cdr-code, and with SUB 1 nil of nil; RPLACA and RPLACD
store to the car word, to the cdr word, or end a compact list, or find it so already. A cell that has moved is reached through its
FORWARD word (R56, R389). -/
def Obligations.ListInstructionsComplete : Prop :=
  ∀ (s : State) (q : Issue) (e : Env) (d a : BitVec 5) (m : BitVec 3) (moved : Bool) (at_ : BitVec 64) (x v : Word) (w : Where), Ready s q e →
    e.present [a, d] → m.toNat ≤ 1 →
    let y := e.r d
    let chased (i : Instr) (w : Word) : Prop := completes s q i ((if moved then [.took 6] else []) ++ [.land 3 (.reg (e.x.phys d)) w])
    ((e.r a).typ = Ty.immed → (e.r a).pay = 0 →
      lands s q e (.car q ⟨d, a, 0, 1, 0⟩) d 3 Word.nil ∧ lands s q e (.cdr q ⟨d, a, 0, 1, 0⟩) d 3 Word.nil)
    ∧ (e.cellAt 0x0020 moved (e.r a) at_ x →
      (e.delivers x → chased (.car q ⟨d, a, 0, m, 0⟩) (loaded x))
      ∧ (reservedWord x = false →
        (x.cdr = 0 → e.reads (at_ + 8) v → e.delivers v → chased (.cdr q ⟨d, a, 0, m, 0⟩) (loaded v))
        ∧ (x.cdr = 1 → chased (.cdr q ⟨d, a, 0, m, 0⟩) (Word.mk0 Ty.cons (at_ + 8)))
        ∧ (x.cdr = 2 → chased (.cdr q ⟨d, a, 0, m, 0⟩) Word.nil)))
    ∧ (e.cellAt 0x0008 moved (e.r a) at_ x →
      (isCapType y.typ = false → y.typ ≠ Ty.poison →
        (e.storesTo at_ (.word y .keep) (storeAcc [y]) false w →
          completes s q (.rplaca q ⟨d, a, 0, 0, 0⟩) [e.storeOf at_ w (.word y .keep)])
        ∧ (reservedWord x = false →
          (x.cdr = 0 → e.storesTo (at_ + 8) (.word y .keep) (storeAcc [y]) false w →
            completes s q (.rplacd q ⟨d, a, 0, 0, 0⟩) [e.storeOf (at_ + 8) w (.word y .keep)])
          ∧ (x.cdr = 1 → y.typ = Ty.cons → y.pay = at_ + 8 → completes s q (.rplacd q ⟨d, a, 0, 0, 0⟩) [])
          ∧ (x.cdr ≠ 0 → y.typ = Ty.immed → y.pay = 0 → e.storesTo at_ (.word { x with cdr := 2 } .list) (storeAcc [x]) false w →
            completes s q (.rplacd q ⟨d, a, 0, 0, 0⟩) [e.storeOf at_ w (.word { x with cdr := 2 } .list)]))))

/-- R150, R152, R153, R365: CONS and ALLOC take words from the arena that z6 and z7 name, and move its cursor past them; CONS stores the
two words, marks the card of the cell and puts the CONS reference in D; ALLOC and ALLOCI store the HEADER, mark its card and land the
reference. CONSN of no element lands nil; of more it begins its routine. -/
def Obligations.AllocationCompletes : Prop :=
  ∀ (s : State) (q : Issue) (e : Env) (d a b : BitVec 5) (imm : BitVec 15) (w w1 : Where) (old : Word) (t : BitVec 6), Ready s q e →
    e.present [a, b, d, 6] →
    let k := e.pair 6
    let va := BitVec.ofNat 64 k.cursor
    let cons (x y : Word) : Routine :=
      { op := .cons, d := d, a := a, b := b, slot := q.slot, base := va, w0 := x, w1 := y, w2 := (k.setCursor (k.cursor + 16)).lo }
    let header (n : Nat) : Word := Word.mk0 Ty.header (BitVec.ofNat 64 (t.toNat * 2 ^ 42 + n))
    let made (n : Nat) (i : Instr) : Prop :=
      e.storesTo va (.word (header n) .colour) .writeT false w → e.lookup w = .ok (old, []) → e.cardOk w.pa = .ok () →
      completes s q i [e.storeOf va w (.word (header n) .colour), .card w.pa,
        .land 3 (.reg (e.x.phys d)) (Word.mk0 t va), .land 3 (.reg 6) (k.setCursor (k.cursor + 8 * (1 + n))).lo]
    (e.holdsCap 6 k → k.cursor % 8 = 0 → k.has (pR ||| pW) = true →
      (isCapType (e.r a).typ = false → isCapType (e.r b).typ = false → e.unpoisoned [a, b] → k.cursor + 16 ≤ k.top →
        completes s q (.cons q ⟨d, a, b, 0, 0⟩) [.run (cons (e.r a) (e.r b))]
        ∧ finishes s q (.cons q ⟨d, a, b, 0, 0⟩) (cons (e.r a) (e.r b))
          (fun v => v.present [d, 6] ∧ v.storesTo va (.word (e.r a) .exact) (storeAcc [e.r a]) false w
            ∧ v.storesTo (va + 8) (.word (e.r b) .exact) (storeAcc [e.r b]) false w1 ∧ v.cardOk w.pa = .ok ())
          fun v => [v.storeOf va w (.word (e.r a) .exact), v.storeOf (va + 8) w1 (.word (e.r b) .exact), .card w.pa,
            .land 7 (.reg (v.x.phys d)) (Word.mk0 Ty.cons va), .land 7 (.reg (v.x.phys 6)) (k.setCursor (k.cursor + 16)).lo, .took 7])
      ∧ (okRtype t = true →
        ((e.r a).typ = Ty.fixnum → 0 ≤ (e.r a).pay.toInt → (e.r a).pay.toNat < 2 ^ 36 →
          k.cursor + 8 * (1 + (e.r a).pay.toNat) ≤ k.top → made (e.r a).pay.toNat (.alloc q ⟨d, a, 0, 0, t.setWidth 7⟩))
        ∧ (t = imm.setWidth 6 → k.cursor + 8 * (1 + bits imm 6 9) ≤ k.top → made (bits imm 6 9) (.alloci q ⟨d, 0, imm⟩))))
    ∧ ((e.r a).typ = Ty.vector → (e.r b).typ = Ty.fixnum →
      ((e.r b).pay = 0 → completes s q (.consn q ⟨d, a, b, 0, 0⟩ none) [.land 8 (.reg (e.x.phys d)) Word.nil, .took 8])
      ∧ (0 < (e.r b).pay.toInt → k.cursor % 8 = 0 → e.unpoisoned [6, 7] → ∀ stop : Option Nat,
        completes s q (.consn q ⟨d, a, b, 0, 0⟩ stop)
          [.run { op := .consn, d := d, a := a, b := b, slot := q.slot, count := (e.r b).pay.toNat, w0 := e.r a, w2 := e.r 6, w3 := e.r 7 }] stop))

/-! ### Capability operations -/

/-- R154, R192, R193, R199 to R201: CBOUND, CPERM, CINC and CGET of an unsealed capability complete; with DERIVE held where
it is needed they land the narrowed, reduced or moved capability, or the field asked for. R154, R197, R198: CSEAL sets
SEALED in a capability whose target HEADER has, or takes as a locked update, the key's OTYPE; CUNSEAL clears SEALED when the
key's OTYPE is the target's. -/
def Obligations.CapabilityAndSealingOperationsLand : Prop :=
  (∀ (s : State) (q : Issue) (e : Env) (d a b : BitVec 5) (imm : BitVec 15) (k : CapV), Ready s q e → e.holdsCap a k →
    e.present [b, d, d + 1] →
    let bound (x m : Nat) : CapV := { k with hi := { k.hi with pay := BitVec.ofNat 64 (k.cursor * 65536 + x * 4096 + m) } }
    (namesPair d → k.has pDERIVE = true → (e.r b).typ = Ty.fixnum → 0 ≤ (e.r b).pay.toInt → ∀ x m : Nat,
      (reprExact (e.r b).pay.toNat = some (x, m) → k.cursor + m * 8 ^ x ≤ k.top →
        landsPair s q e (.cbound q ⟨d, a, b, 0, 0⟩) d 2 (bound x m).lo (bound x m).hi)
      ∧ (reprUp (e.r b).pay.toNat = some (x, m) → k.cursor + m * 8 ^ x ≤ k.top →
        landsPair s q e (.cbound q ⟨d, a, b, 1, 0⟩) d 2 (bound x m).lo (bound x m).hi)
      ∧ (reprExact (e.r b).pay.toNat = none → faults s q (.cbound q ⟨d, a, b, 0, 0⟩) .bounds 0))
    ∧ (namesPair d → k.has pDERIVE = true → isI64 (e.r b) →
      landsPair s q e (.cperm q ⟨d, a, b, 0, 0⟩) d 2 { k.lo with pay := k.lo.pay &&& (0xFFFFFFFFFFFF0000 ||| (e.r b).pay) } k.hi)
    ∧ (namesPair d → (k.base : Int) ≤ (k.cursor : Int) + imm.toInt → (k.cursor : Int) + imm.toInt ≤ (k.top : Int) →
      landsPair s q e (.cinc q ⟨d, a, imm⟩) d 2 (k.setCursor ((k.cursor : Int) + imm.toInt).toNat).lo k.hi)
    ∧ lands s q e (.cget q ⟨d, a, 0, 0, 0⟩) d 1 (Word.fx (BitVec.ofNat 64 k.cursor))
    ∧ lands s q e (.cget q ⟨d, a, 0, 1, 0⟩) d 1 (Word.fx (BitVec.ofNat 64 k.base))
    ∧ lands s q e (.cget q ⟨d, a, 0, 2, 0⟩) d 1 (Word.fx (BitVec.ofNat 64 k.len))
    ∧ lands s q e (.cget q ⟨d, a, 0, 3, 0⟩) d 1 (Word.fx (BitVec.ofNat 64 (k.lo.pay.toNat % 2 ^ 16)))
    ∧ lands s q e (.cget q ⟨d, a, 0, 4, 0⟩) d 1 (Word.fx (BitVec.ofNat 64 (k.cursor - k.base))))
  ∧ (∀ (s : State) (q : Issue) (e : Env) (d a b : BitVec 5) (h hk : Word) (w : Where), Ready s q e → namesPair d → namesPair a →
    namesPair b → e.present [a, a + 1, b, b + 1, d, d + 1] → e.unpoisoned [a, a + 1, b, b + 1] →
    let c := e.pair a
    let k := e.pair b
    let pair (v : Env) (k : Nat) (lo : Word) : List Effect := [.land k (.reg (v.x.phys d)) lo, .land k (.reg (v.x.phys (d + 1))) c.hi]
    c.ok = true → k.ok = true → k.sealed = false → c.base % 8 = 0 → k.base % 8 = 0 → 8 ≤ k.len →
    h.typ = Ty.header → hk.typ = Ty.header → hdrKey hk = true → hdrOtype hk ≠ 0 →
    (k.has pSEAL = true → c.sealed = false → hdrKey h = false → (hdrOtype h = 0 ∨ hdrOtype h = hdrOtype hk) →
      finishes s q (.cseal q ⟨d, a, b, 0, 0⟩) (e.sealRoutine .cseal ⟨d, a, b, 0, 0⟩)
        (fun v => v.present [d, d + 1] ∧ v.access (BitVec.ofNat 64 c.base) .locked = .ok w ∧ inDev w.pa = false ∧ v.lockedWord w.pa = .ok h
          ∧ v.readsMem k.base hk ∧ (hdrOtype h = 0 → v.s.held (lineOf w.pa) = false))
        fun v => (if hdrOtype h = 0 then [.locked w.pa (.seal (hdrOtype hk))] else [])
          ++ pair v 15 { c.lo with pay := c.lo.pay ||| 0x8000 } ++ [.took 15])
    ∧ (k.has pUNSEAL = true → hdrOtype h = hdrOtype hk →
      finishes s q (.cunseal q ⟨d, a, b, 0, 0⟩) (e.sealRoutine .cunseal ⟨d, a, b, 0, 0⟩)
        (fun v => v.present [d, d + 1] ∧ v.readsMem c.base h ∧ v.readsMem k.base hk)
        fun v => pair v 12 { c.lo with pay := c.lo.pay &&& 0xFFFFFFFFFFFF7FFF } ++ [.took 12]))
  ∧ (∀ (s : State) (pa k : Nat), memOk s = true → pa % 8 = 0 → s.held (lineOf pa) = false → (s.word pa).typ = Ty.header → reservedWord (s.word pa) = false →
    (∀ a, a / 16 = pa / 16 → isCapType (s.word a).typ = false) →
    let h := s.word pa
    let t := s.locked pa (.seal k)
    t.word pa = { h with pay := setBits h.pay 48 16 k } ∧ (s.locked pa .freeze).word pa = { h with pay := setBit h.pay 40 true }
      ∧ ∀ b, b / 16 ≠ pa / 16 → outsideGrey b → t.word b = s.word b)

/-- R173, R192 to R201: no capability operation widens a capability. CBOUND, CPERM and CINC either fault or wait, or land a
capability that is well formed, unsealed, within the bounds of its source, and has no permission its source lacks. (A source
whose end is 2^48 is left out: no CURSOR can name that end, log 35.) R175, R176: a length has at most one rounding up, the
least length no shorter that M × 8^E spells with M at most 4095 and E at most 12; an exact length is spelled without
rounding. -/
def Obligations.CapabilitiesStayWithinTheirSource : Prop :=
  (∀ (s : State) (q : Issue) (e : Env) (d a b : BitVec 5) (imm : BitVec 15) (m : BitVec 3), Ready s q e → (e.pair a).top < 2 ^ 48 →
    let k := e.pair a
    let narrows (i : Instr) : Prop :=
      (∀ other, Beside s q (instrWord i) other → ∃ t, exec i s = .next t
        ∧ ((t.ctx q.nib.val q.ctx.val).faultDue.isSome = true ∨ (t.ctx q.nib.val q.ctx.val).parked.isSome = true))
      ∨ ∃ j : CapV, landsPair s q e i d 2 j.lo j.hi ∧ k.ok = true ∧ k.sealed = false ∧ j.ok = true ∧ j.sealed = false
          ∧ k.base ≤ j.base ∧ j.top ≤ k.top ∧ ∀ i, j.perms.getLsbD i = true → k.perms.getLsbD i = true
    narrows (.cbound q ⟨d, a, b, m, 0⟩) ∧ narrows (.cperm q ⟨d, a, b, m, 0⟩) ∧ narrows (.cinc q ⟨d, a, imm⟩))
  ∧ (∀ l x m : Nat,
    (reprExact l = some (x, m) → l = m * 8 ^ x ∧ m ≤ 4095 ∧ x ≤ 12)
    ∧ (reprUp l = some (x, m) → l ≤ m * 8 ^ x ∧ m ≤ 4095 ∧ x ≤ 12 ∧ m * 8 ^ x < l + 8 ^ x
        ∧ ∀ y n : Nat, n ≤ 4095 → y ≤ 12 → l ≤ n * 8 ^ y → m * 8 ^ x ≤ n * 8 ^ y)
    ∧ ((∃ y n : Nat, n ≤ 4095 ∧ y ≤ 12 ∧ l = n * 8 ^ y) → reprExact l ≠ none))

/-! ### Long instructions -/

/-- R158 to R163: SAVEM, LOADM, BCOPY, BCMP, HASH and BIGSTEP complete whatever the check point at which a condition meets them: their
pair issues and their routine runs from the operands read at issue. R160 to R162: BCOPY, BCMP and HASH of no words end with their
first step, and write no register and no word. R163: BIGSTEP leaves the low limb of its exact result in d and the carry, borrow or high
limb in d + 1. R247, R268: at its check point with a condition due, a routine stops. R262: an instruction command goes on with the live
routine of its context. -/
def Obligations.LongInstructionsComplete : Prop :=
  (∀ (s : State) (q : Issue) (e : Env) (f : FR) (g : FI) (stop : Option Nat), Ready s q e →
    (namesPair f.a → namesPair f.b → f.md = 0 → e.present [f.a, f.a + 1, f.b, f.b + 1, f.d] →
      e.unpoisoned [f.a, f.a + 1, f.b, f.b + 1, f.d] → (e.pair f.a).ok = true → (e.pair f.b).ok = true →
      (e.pair f.a).cursor % 8 = 0 → (e.pair f.b).cursor % 8 = 0 → (e.r f.d).typ = Ty.fixnum →
      (f.sub.toNat ≤ 1 →
        completes s q (.bcopy q f stop) [.run (e.blockRoutine .bcopy f)] stop
        ∧ (countOf (e.r f.d) = 0 → finishes s q (.bcopy q f stop) (e.blockRoutine .bcopy f) (fun v => v.present [f.d, f.a, f.b]) fun _ => [.took 5]))
      ∧ (f.sub = 0 →
        completes s q (.bcmp q f stop) [.run (e.blockRoutine .bcmp f)] stop
        ∧ (countOf (e.r f.d) = 0 → finishes s q (.bcmp q f stop) (e.blockRoutine .bcmp f) (fun v => v.present [f.d, f.a, f.b]) fun _ => [.took 6])))
    ∧ (namesPair f.a → f.sub = 0 → f.md = 0 → e.present [f.a, f.a + 1, f.b, f.d] → e.unpoisoned [f.a, f.a + 1] →
      (e.pair f.a).ok = true → (e.pair f.a).cursor % 8 = 0 → (e.r f.b).typ = Ty.fixnum → isI64 (e.r f.d) →
      completes s q (.hash q f stop) [.run (e.hashRoutine f)] stop
      ∧ (countOf (e.r f.b) = 0 → finishes s q (.hash q f stop) (e.hashRoutine f) (fun v => v.present [f.d, f.a, f.b]) fun _ => [.took 5]))
    ∧ (e.holdsCap g.a (e.pair g.a) → g.imm.toNat / 256 % 32 = 0 → e.present [g.d] → (e.r g.d).typ ≠ Ty.poison →
      (e.pair g.a).cursor % 16 = 0 → (e.pair g.a).cursor + 80 ≤ (e.pair g.a).top →
      ((e.pair g.a).has (pW ||| pSC) = true → g.d ∉ maskRegs g.imm →
        completes s q (.savem q g stop) [.run (e.areaRoutine .savem g)] stop)
      ∧ ((e.pair g.a).has (pR ||| pLC) = true → g.d ∉ maskRegs g.imm → g.a ∉ maskRegs g.imm → g.a + 1 ∉ maskRegs g.imm →
        0 ∉ maskRegs g.imm → completes s q (.loadm q g stop) [.run (e.areaRoutine .loadm g)] stop)))
  ∧ (∀ (s : State) (q : Issue) (e : Env) (d a b : BitVec 5) (m : BitVec 3), Ready s q e → mwf regDefault e.x.regs = true →
    m.toNat ≤ 2 → namesPair d → e.present [a, b, d, d + 1] → isI64 (e.r a) → isI64 (e.r b) → isI64 (e.r d) → isI64 (e.r (d + 1)) →
    (∀ l ∈ e.x.inflight, l.tgt ≠ .reg (e.x.phys d) ∧ l.tgt ≠ .reg (e.x.phys (d + 1))) →
    let i (stop : Option Nat) : Instr := .bigstep q ⟨d, a, b, m, 0⟩ stop
    Beside s q (instrWord (i none)) [] →
    let x := (e.r a).pay.toNat
    let y := (e.r b).pay.toNat
    let z := (e.r d).pay.toNat
    let w := (e.r (d + 1)).pay.toNat
    let after (t : State) (r : BitVec 5) : Word := (t.ctx q.nib.val q.ctx.val).reg (e.x.phys r)
    (∃ t, exec (i none) s = .next t ∧ t.mem = s.mem ∧ (t.ctx q.nib.val q.ctx.val).routine = none
      ∧ after t d = Word.rawOf (BitVec.ofNat 64 (match m.toNat with
        | 0 => x + y + w
        | 1 => x + 2 ^ 65 - y - w
        | _ => x * y + z + w))
      ∧ after t (d + 1) = Word.rawOf (BitVec.ofNat 64 (match m.toNat with
        | 0 => (x + y + w) / 2 ^ 64
        | 1 => (y + w + (2 ^ 64 - 1) - x) / 2 ^ 64
        | _ => (x * y + z + w) / 2 ^ 64)))
    ∧ (e.x.stdy = false → (s.ctx q.nib.val q.ctx.val).xfer = none →
      ∃ t, exec (i (some 0)) s = .next t ∧ t.mem = s.mem ∧ after t d = e.r d
        ∧ ∃ r, (t.ctx q.nib.val q.ctx.val).routine = some r ∧ r.op = .bigstep ∧ r.stopped = true))
  ∧ (∀ (s : State) (q : Issue) (r : Routine) (f : FR) (stop : Option Nat), s.canIssue q.nib.val q.ctx.val = true →
    (s.ctx q.nib.val q.ctx.val).routine = some r →
    exec (.nop q 0) s = .next (s.goRoutine q.nib.val q.ctx.val none)
      ∧ exec (.bcopy q f stop) s = .next (s.goRoutine q.nib.val q.ctx.val stop))

/-- R158, R159, R183: one step of SAVEM stores the lowest register left, or both of an even pair, at its place in the area, and one of LOADM
loads it; D keeps the mask of those left, and takes 0 at the end. R160, R190: one step of BCOPY of a word that is no capability writes it
at the destination with the destination's CDR kept, and moves both cursors. R161: BCMP ends at the first pair of words that differ. R162:
one step of HASH mixes the word's TYPE and, unless it is a pointer, its payload into the accumulator. -/
def Obligations.RoutinesStepAsTheirTablesSay : Prop :=
  ∀ (e : Env) (r : Routine),
    let m : BitVec 8 := r.base.setWidth 8
    let reg (j : Nat) : BitVec 5 := BitVec.ofNat 5 (8 * bits r.imm 13 2 + j)
    let at_ (j : Nat) : Nat := r.area + 16 + 8 * j
    let left (l : BitVec 8) : Effect := .landNow (e.x.phys r.d) (Word.fx (0x10000 + l.setWidth 64))
    (r.begun = true → e.present [r.d] →
      (m = 0 → savemTurn e r = .ok { es := [.landNow (e.x.phys r.d) (Word.fx 0), .took 1] }
        ∧ loadmTurn e r = .ok { es := [.landNow (e.x.phys r.d) (Word.fx 0), .took 1] })
      ∧ ∀ (j : Nat) (w : Word) (p : Where), j < 8 → m.getLsbD j = true → (∀ i, i < j → m.getLsbD i = false) →
        (j % 2 = 1 ∨ m.getLsbD (j + 1) = false) → e.present [reg j] →
        let l := m &&& ~~~(1#8 <<< j)
        let next : Routine := { r with base := l.setWidth 64, vis := true }
        let kind : StoreKind := .word (e.r (reg j)) .keep
        (e.storesTo (BitVec.ofNat 64 (at_ j)) kind (storeAcc [e.r (reg j)]) false p →
          savemTurn e r = .ok { es := [e.storeOf (BitVec.ofNat 64 (at_ j)) p kind, left l, .took 1], next := some next, chk := true })
        ∧ (e.copyIn (at_ j) = .ok (w, []) →
          loadmTurn e r = .ok { es := [.landNow (e.x.phys (reg j)) (if isCapType w.typ then Word.rawOf w.pay else w), left l, .took 1],
                                next := some next, chk := true }))
    ∧ (∀ (a b : Nat) (w v : Word) (p : Where), 0 < r.count → e.present [r.d, r.a, r.b] →
      let ka : CapV := ⟨r.w0, r.w1⟩
      let kb : CapV := ⟨r.w2, r.w3⟩
      capCheck ka 0 8 pR = .ok a →
      (e.copies a w → r.sub = 0 → capCheck kb 0 8 pW = .ok b →
        e.storesTo (BitVec.ofNat 64 b) (.word w .colour) (storeAcc [w]) false p →
        ∃ t next, bcopyTurn e r = .ok t ∧ t.next = some next ∧ t.chk = true ∧ next.count = r.count - 1
          ∧ next.w0 = (ka.setCursor (ka.cursor + 8)).lo ∧ next.w2 = (kb.setCursor (kb.cursor + 8)).lo
          ∧ t.es = e.storeOf (BitVec.ofNat 64 b) p (.word w .colour) :: (e.progress next ++ [r.took 5 1]))
      ∧ (e.copies a w → capCheck kb 0 8 pR = .ok b → e.copies b v →
        ∃ t, bcmpTurn e r = .ok t
          ∧ (w.typ = v.typ → w.pay = v.pay → ∃ next, t.next = some next ∧ next.count = r.count - 1 ∧ t.es = e.progress next ++ [r.took 6 1])
          ∧ (w.typ ≠ v.typ ∨ w.pay ≠ v.pay → t.next = none ∧ t.es = [r.took 6 1]))
      ∧ (e.readsMem a w → reservedWord w = false →
        ∃ t next, hashTurn e r = .ok t ∧ t.next = some next ∧ next.count = r.count - 1
          ∧ next.w2 = Word.mk0 r.w2.typ (((r.w2.pay ^^^ ((if isPointerType w.typ then 0 else w.pay) ^^^ (w.typ.setWidth 64 <<< 58))).rotateLeft 23)
              * 0x9E3779B97F4A7C15)
          ∧ t.es = [.landNow (e.x.phys r.d) next.w2, .landNow (e.x.phys r.b) (Word.fx (BitVec.ofNat 64 next.count)),
              .landNow (e.x.phys r.a) next.w0, r.took 6 2]))

/-! ### Contexts, events, barriers -/

/-- R164, R165, R117, R122: YIELD, WAIT, TIMER and STEADY complete: YIELD gives way to a READY context of no lower priority,
WAIT lands the flags that are set and clears them, or leaves the context WAITING, TIMER arms or disarms, STEADY n counts.
R117, R122, R164, R165: what those effects leave of the context. -/
def Obligations.ContextInstructionsAndTheirEffects : Prop :=
  (∀ (s : State) (q : Issue) (e : Env) (d a : BitVec 5) (m : BitVec 4) (n : BitVec 15), Ready s q e →
    completes s q (.yield q ⟨0, 0, 0, 0, 0⟩) [.yield]
    ∧ (m ≠ 0 → e.present [d] → completes s q (.wait q ⟨d, 0, m.setWidth 15⟩) [.wait m (e.x.phys d)])
    ∧ (e.present [a] → (e.r a).typ = Ty.fixnum → completes s q (.timer q ⟨0, a, 0, 0, 0⟩) [.timer (e.r a).pay])
    ∧ (n.toNat ≤ 512 → e.x.level ≠ lvU → completes s q (.steady q ⟨0, 0, n⟩) [.steady n.toNat]))
  ∧ (∀ (s : State) (n c t iss : Nat) (slot : Bool) (pc : BitVec 64) (m : BitVec 4) (dst k : Nat) (v : BitVec 64), c < 32 →
    let x := s.ctx n c
    let y (f : Effect) : Context := (s.effect n c t iss slot pc f).ctx n c
    let hit := x.evf &&& m.setWidth 16
    (hit = 0 → (y (.wait m dst)).state = stWaiting ∧ (y (.wait m dst)).waiting = some (m, dst, iss) ∧ (y (.wait m dst)).evf = x.evf)
    ∧ (hit ≠ 0 → (y (.wait m dst)).state = x.state ∧ (y (.wait m dst)).evf = x.evf &&& ~~~(hit &&& 0xB)
        ∧ (y (.wait m dst)).inflight = (x.launch (t + 1) iss (.reg dst) (Word.fx (hit.setWidth 64))).inflight)
    ∧ (0 < v.toInt → (y (.timer v)).timer = some (min v.toNat (2 ^ 40 - 1)))
    ∧ (v.toInt ≤ 0 → (y (.timer v)).timer = none)
    ∧ (0 < k → k ≤ 512 → x.steadyUsed = false → (y (.steady k)).stdy = true
        ∧ (x.stdy = false → (y (.steady k)).steady = k)
        ∧ (x.stdy = true → t + k ≤ x.steadyFrom + 511 → (y (.steady k)).steady = k))
    ∧ (0 < k → x.steadyUsed = true → y (.steady k) = x)
    ∧ ((y (.steady 0)).stdy = false ∧ (y (.steady 0)).steady = 0)
    ∧ (x.stdy = false → (∃ j, j < 32 ∧ j ≠ c ∧ (s.ctx n j).state = stReady ∧ s.prioOf n c ≤ s.prioOf n j) →
        (y .yield).state = stReady ∧ ((s.effect n c t iss slot pc .yield).nib n).running ≠ some c)
    ∧ (x.stdy = true → s.effect n c t iss slot pc .yield = s))

/-- R118 to R120, R127: SEND to a context of the same nib lands 1 and queues the word, or lands 0 when it does not take it;
RECV lands and removes the oldest word, or lands IMMED empty; XR and XW read and write a register of another context of the
nib. R118 to R120: what the effects of SEND and RECV leave. A SEND to a context of its own nib lands 1 and queues the word
when the target takes it, else lands 0; to another nib the word is on its way and the sender parks; a WCN the ward does not
have answers 0. RECV removes the oldest word, and EVF.MSG clears with the last. -/
def Obligations.MessagesAndTheirEffects : Prop :=
  (∀ (s : State) (q : Issue) (e : Env) (d a b : BitVec 5) (k : BitVec 8), Ready s q e → e.present [a, b, d] → e.unpoisoned [a, b, d] →
    let n := q.nib.val
    ((e.r a).typ = Ty.fixnum → isCapType (e.r b).typ = false →
      completes s q (.send q ⟨d, a, b, 0, 0⟩) [.send (e.r a).pay (e.r b) (e.x.phys d)])
    ∧ (e.x.queue = [] → lands s q e (.recv q ⟨d, 0, 0, 0, 0⟩) d 3 Word.empty)
    ∧ (∀ w rest, e.x.queue = w :: rest → q.ctx ≠ 0 → (isRefType w.typ = true → e.condemned (waddr w).toNat = false) →
      completes s q (.recv q ⟨d, 0, 0, 0, 0⟩) [.land 3 (.reg (e.x.phys d)) (single { w with cdr := 0 }), .popQueue])
    ∧ (k.toNat ≤ 143 → e.x.level ≠ lvU → (e.r a).typ = Ty.fixnum → (e.r a).pay.toNat ≤ 31 → (e.x.level = lvS → (e.r a).pay ≠ 0) →
      (e.r a).pay.toNat ≠ q.ctx.val →
      let y := ((s.atPair q).ctx n (e.r a).pay.toNat).settle ((e.r a).pay.toNat == 0) ((s.atPair q).now n)
      ((y.unfetched.getLsbD (k.toNat / 8) = false →
        (e.x.level.toNat < 2 → isRefType (y.reg k.toNat).typ = true → e.condemned (waddr (y.reg k.toNat)).toNat = false) →
        lands s q e (.xr q ⟨d, a, k.setWidth 15⟩) d 2 (if 2 ≤ e.x.level.toNat then y.reg k.toNat else single (y.reg k.toNat)))
      ∧ (((s.atPair q).ctx n (e.r a).pay.toNat).unfetched.getLsbD (k.toNat / 8) = false →
        completes s q (.xw q ⟨d, a, k.setWidth 15⟩)
          [.xwrite (e.r a).pay.toNat k.toNat (if 2 ≤ e.x.level.toNat then e.r d else single (e.r d))]))))
  ∧ (∀ (s : State) (n c t iss d m : Nat) (slot : Bool) (pc wcn : BitVec 64) (w : Word) (dst : Nat), c < 32 → d < 32 →
    let u := s.effect n c t iss slot pc (.send wcn w dst)
    (s.wcnAt (s.xlWard n) wcn = some (n, d) → d ≠ c → s.accepts n d = true →
      (u.ctx n d).queue = (s.ctx n d).queue ++ [w]
      ∧ (u.ctx n c).inflight = ((s.ctx n c).launch (t + 3) iss (.reg dst) (Word.fx 1)).inflight)
    ∧ (s.wcnAt (s.xlWard n) wcn = some (n, d) → s.accepts n d = false →
      (∀ j, j < 32 → (u.ctx n j).queue = (s.ctx n j).queue)
      ∧ (u.ctx n c).inflight = ((s.ctx n c).launch (t + 3) iss (.reg dst) (Word.fx 0)).inflight)
    ∧ (s.wcnAt (s.xlWard n) wcn = some (m, d) → m ≠ n →
      u.sends = s.sends ++ [SendMsg.mk n c m d w] ∧ (u.ctx n c).state = stParked)
    ∧ (s.wcnAt (s.xlWard n) wcn = none → u.answers = s.answers ++ [(n, c, false)] ∧ (u.ctx n c).state = stParked)
    ∧ (∀ r, ((s.effect n c t iss slot pc (.xwrite d r w)).ctx n d).inflight = ((s.ctx n d).launch (t + 2) iss (.reg r) w).inflight)
    ∧ (c ≠ 0 → ∀ x rest, (s.ctx n c).queue = x :: rest →
      ((s.effect n c t iss slot pc .popQueue).ctx n c).queue = rest
      ∧ ((s.effect n c t iss slot pc .popQueue).ctx n c).evf = if rest = [] then (s.ctx n c).evf &&& 0xFFFB else (s.ctx n c).evf))

/-- R166, R167, R316, R317, R340: LBAR completes at once; SBAR and FBAR complete when the context's stores are acknowledged, and FBAR
when its invalidations are done too, and until then its context waits; a dropped store makes them fault FLT_BARRIER; XINV completes
at its level. -/
def Obligations.BarriersAndInvalidationsComplete : Prop :=
  ∀ (s : State) (q : Issue) (e : Env) (a : BitVec 5), Ready s q e →
    let landed : List Effect := if e.x.inflight.any fun l => decide (e.s.now e.n < l.due) then [.took 2] else []
    completes s q (.lbar q ⟨0, 0, 0, 0⟩) landed
    ∧ (e.x.barFault = true →
        faults s q (.sbar q ⟨0, 0, 0, 0⟩) .barrier (info 0 0 e.x.barAddr.toNat)
        ∧ faults s q (.fbar q ⟨0, 0, 0, 0⟩) .barrier (info 0 0 e.x.barAddr.toNat))
    ∧ (e.x.barFault = false → e.storesOut = false →
        completes s q (.sbar q ⟨0, 0, 0, 0⟩) []
        ∧ (e.x.xinvs.all e.s.xinvDone = true → completes s q (.fbar q ⟨0, 0, 0, 0⟩) landed))
    ∧ (e.x.barFault = false → e.storesOut = true →
        ∀ other, Beside s q (wordZ 0x78 1 ⟨0, 0, 0, 0⟩) other →
          ∃ t, exec (.sbar q ⟨0, 0, 0, 0⟩) s = .next t ∧ (t.ctx q.nib.val q.ctx.val).pc = e.x.pc
            ∧ (t.ctx q.nib.val q.ctx.val).state = stParked
            ∧ (t.ctx q.nib.val q.ctx.val).parked = some { why := .barrier .sbar, slot := q.slot })
    ∧ (e.x.level ≠ lvU →
        completes s q (.xinvWard q ⟨0, 0, 0, 0⟩) [.xinv .ward]
        ∧ (e.present [a] → isI64 (e.r a) → completes s q (.xinvPage q ⟨0, a, 0, 0⟩) [.xinv (.page (e.r a).pay.toNat)]))
    ∧ (2 ≤ e.x.level.toNat → completes s q (.xinvAll q ⟨0, 0, 0, 0⟩) [.xinv .all])

/-! ### Events of a nib's memory path -/

/-- R331, R333 to R336, R355: a finished walk installs its leaf and lets the pair issue again, or leaves its fault due; an answer
of agreeing replicas gives the page its verdict, or a denied block its FLT_RUBRIC; a register that is not there is FLT_BUS; a block of
memory that is allowed is read; replicas that disagree give a machine check. -/
def Obligations.WalksAndRubricAnswersComplete : Prop :=
  ∀ (s : State) (n : Fin 544) (c : Fin 32) (p : Parked), (s.ctx n.val c.val).parked = some p → s.resending n.val = false →
    let after (o : Out) (f : State → Prop) : Prop := ∃ t, o = .next t ∧ f t
    let ready (t : State) : Prop := (t.ctx n.val c.val).parked = none ∧ (t.ctx n.val c.val).state = stReady
    (∀ va x, p.why = .walk va →
      let path (l : Nat) : Bool := (walkReads s n.val va).any fun a => lineOf a == l
      (∀ u r, s.meets path x u → walk u n.val va = .ok r → p.op = none →
        after (exec (.walkComplete n ⟨c, x⟩) s) fun t => ready t ∧ r.1 ∈ (t.nib n.val).tlb ∧ t.mem = u.mem)
      ∧ (∀ u f, s.meets path x u → walk u n.val va = .error f → f.deny = none →
        after (exec (.walkComplete n ⟨c, x⟩) s) fun t =>
          (t.ctx n.val c.val).faultDue = some { f with slot := p.slot } ∧ (t.ctx n.val c.val).parked = none ∧ t.mem = u.mem)
      ∧ (x.agree = false → after (exec (.walkComplete n ⟨c, x⟩) s) fun t => s.votes t (laneOf n.val) ((walkReads s n.val va).headD 0)))
    ∧ (∀ pa fall tlb, p.why = .page pa fall tlb →
      (p.op = none → after (exec (.rubricAnswer n c true) s) fun t => ready t ∧ t.mem = s.mem)
      ∧ after (exec (.rubricAnswer n c false) s) fun t => s.votes t (laneOf n.val) pa)
    ∧ (∀ pa k fall load, p.why = .block pa k fall load →
      let q : Asker := { s.nibAsker n.val c.val (s.ctx n.val c.val).level with fall := fall }
      (s.rubAllows q k pa = false → after (exec (.rubricAnswer n c true) s) fun t =>
          (t.ctx n.val c.val).faultDue = some { cause := .rubric, info := info 0 0 pa, deny := some pa, slot := p.slot }
            ∧ (t.reg32 (pgRUB + 0x34)).getLsbD 1 = true)
      ∧ (s.rubAllows q k pa = true → inMem pa = true → load = false → p.op = none → after (exec (.rubricAnswer n c true) s) fun t =>
          ready t ∧ (t.ctx n.val c.val).blockAns = some (lineOf pa, k))
      ∧ (s.rubAllows q k pa = true → inMem pa = true → load = true → k ≠ .exec → after (exec (.rubricAnswer n c true) s) fun t =>
          t.reads = s.reads ++ [{ nib := n.val, ctx := c.val, line := lineOf pa, cached := false, fetch := false }] ∧ t.mem = s.mem
            ∧ (t.ctx n.val c.val).parked = some { p with why := .line (lineOf pa) false })
      ∧ (s.rubAllows q k pa = true → inMem pa = false → blockAt pa = none → after (exec (.rubricAnswer n c true) s) fun t =>
          (t.ctx n.val c.val).faultDue = some { cause := .bus, info := info 0 0 pa, slot := p.slot }))

/-- R66 to R70, R108, R287, R305: what the memory code makes of a read: a correctable error leaves the line, the same one again on the check
read uses up a spare, and a line it cannot correct becomes POISON of origin 1 in the heap and a machine check in the system region. A
read that reaches its inkwell takes the line's words back with it; the fill that comes to a nib ends the wait for its line, and a cached
data fill puts the line, with the nib's own stores, into L1. -/
def Obligations.ReadsComeBackAsFills : Prop :=
  (∀ (s : State) (l : Nat) (es : Ecc) (a b : List MemErr) (f : MemErr), l % 64 = 0 →
    ((∀ d, f ≠ .die d) → codeFinds [f] = .fixed f) ∧ (∀ d, codeFinds [.die d] = .lost) ∧ codeFinds [] = .good
    ∧ ((∀ e ∈ es, codeFinds e ≠ .lost) → (s.eccRead l es).1.mem = s.mem ∧ (s.eccRead l es).2 = true)
    ∧ (codeFinds a = .fixed f → codeFinds b = .fixed f → 0 < s.sparesOf (stackOf l) → mwf (fun _ => sparesAtReset) s.spares = true →
      (s.eccRead l (a :: b :: es)).1.sparesOf (stackOf l) = s.sparesOf (stackOf l) - 1)
    ∧ (codeFinds a = .lost → inHeap l = true → memOk s = true →
      (s.eccRead l (a :: es)).2 = true ∧ (∀ i, i < 8 → (s.eccRead l (a :: es)).1.word (l + 8 * i) = Word.poisonOf 1)
      ∧ ∀ m, m / 64 ≠ l / 64 → (s.eccRead l (a :: es)).1.word m = s.word m)
    ∧ (codeFinds a = .lost → inHeap l = false →
      (s.eccRead l (a :: es)).2 = false ∧ (s.eccRead l (a :: es)).1.mem = s.mem
      ∧ (s.eccRead l (a :: es)).1.stroke.faults = s.stroke.faults ++ [⟨588 + stackOf l, .uncorrectable (BitVec.ofNat 40 l), s.hub⟩]))
  ∧ (∀ (s : State) (k : Nat) (r : ReadReq) (rest : List ReadReq) (x : Meets), takeAt s.reads k = some (r, rest) →
    s.readWaits r.line = false → s.resending r.nib = false →
    (x.agree = false → ∃ t, exec (.inkwellRead k x.errs x.agree) s = .next t ∧ t.fills = s.fills ∧ s.votes t (laneOf r.nib) r.line)
    ∧ (s.fetchDenied r = false → ∀ u,
      ({ s with reads := rest }.meets (fun l => l == r.line) x u →
        ∃ t, exec (.inkwellRead k x.errs x.agree) s = .next t ∧ t.reads = rest ∧ t.mem = u.mem
          ∧ ∃ m ∈ t.fills, m.nib = r.nib ∧ m.ctx = r.ctx ∧ m.line = r.line ∧ m.fetch = r.fetch ∧ m.ans = .words (u.line r.line))
      ∧ (x.agree = true → { s with reads := rest }.meet (fun l => l == r.line) x.errs = (u, false) →
        exec (.inkwellRead k x.errs x.agree) s = .next u)))
  ∧ (∀ (s : State) (n : Fin 544) (c : Fin 32) (m : FillMsg) (rest : List FillMsg) (ws : Line) (p : Parked) (k : Bool),
    takeFirst (fun m => m.nib == n.val && m.ctx == c.val) s.fills = some (m, rest) → m.ans = .words ws → m.fetch = false →
    s.fillWaits m = false → s.resending n.val = false → (s.ctx n.val c.val).parked = some p → p.why = .line m.line k → p.op = none →
    ∃ t, exec (.lineFill n c) s = .next t ∧ t.fills = rest ∧ t.mem = s.mem
      ∧ (t.ctx n.val c.val).parked = none ∧ (t.ctx n.val c.val).state = stReady
      ∧ (m.cached = true → (s.nib n.val).merge { line := m.line, words := ws } ∈ (t.nib n.val).l1))

/-- R43, R61, R182, R295: what a store leaves of the 16-byte pair it writes. A word store keeps the COLOUR and a compact CDR of the word
it finds, and leaves the other word; a byte store makes the word RAW with one byte changed; a write that is not a whole capability
pair turns every capability word of the pair into RAW; a whole pair goes in as it is. -/
def Obligations.StoresFormTheirPair : Prop :=
  ∀ (pa : Nat) (o0 o1 w v : Word) (b : Byte) (i : Nat), i < 8 → w.typ ≠ Ty.spill → w.typ ≠ Ty.poison → v.typ ≠ Ty.spill → v.typ ≠ Ty.poison →
    let kept (o x : Word) : Word := { x with col := o.col, cdr := if o.cdr = 1 ∨ o.cdr = 2 then o.cdr else 0 }
    let raw (x : Word) : Word := Word.rawOf x.pay
    let plain (x : Word) : Prop := isCapType x.typ = false
    (pa % 16 = 0 → plain o0 → plain o1 → plain w → (StoreKind.word w .keep).apply pa o0 o1 = (kept o0 w, o1))
    ∧ (pa % 16 = 8 → plain o0 → plain o1 → plain w → (StoreKind.word w .keep).apply pa o0 o1 = (o0, kept o1 w))
    ∧ (pa % 16 = 0 → (isCapType o0.typ = true ∨ isCapType o1.typ = true ∨ isCapType w.typ = true) →
      (StoreKind.word w .keep).apply pa o0 o1 = (raw w, raw o1))
    ∧ (pa % 16 = 8 → (isCapType o0.typ = true ∨ isCapType o1.typ = true ∨ isCapType w.typ = true) →
      (StoreKind.word w .keep).apply pa o0 o1 = (raw o0, raw w))
    ∧ (w.typ = Ty.capLo → v.typ = Ty.capHi → (StoreKind.pair w v .keep).apply pa o0 o1 = (kept o0 w, kept o1 v))
    ∧ (plain o0 → plain o1 → pa % 16 = 0 →
      let x := ((StoreKind.byte i b).apply pa o0 o1).1
      ((StoreKind.byte i b).apply pa o0 o1).2 = o1 ∧ x.typ = Ty.raw ∧ x.col = o0.col ∧ x.cdr = o0.cdr
        ∧ x.pay.extractLsb' (8 * i) 8 = b ∧ ∀ j, j < 8 → j ≠ i → x.pay.extractLsb' (8 * j) 8 = o0.pay.extractLsb' (8 * j) 8)

/-- R292 to R294, R302, R312, R337, R504: the way of a store. The oldest entry of the store buffer joins the completion tracker while it
has room; a store to memory that no other nib holds changes the words of its pair and no other word outside the grey queues; a store
to a register page is a write of that register on the nib's lane; one that the lane denies is a machine check and is not performed; the
acknowledgement removes the entry. -/
def Obligations.StoresReachTheirTarget : Prop :=
  ∀ (s : State) (n : Fin 544), (∀ c, c < 32 → (s.ctx n.val c).parked = none) → s.resending n.val = false →
    (∀ e rest, (s.nib n.val).storeBuf = e :: rest → (s.nib n.val).tracker.length < 32 →
      (e.ordered = false ∨ ∀ j ∈ (s.nib n.val).tracker, j.ctx ≠ e.ctx) →
      ∃ t, exec (.storeBufferSend n) s = .next t ∧ (t.nib n.val).storeBuf = rest
        ∧ (t.nib n.val).tracker = (s.nib n.val).tracker ++ [e] ∧ t.mem = s.mem ∧ ∀ m, m ≠ n.val → t.nib m = s.nib m)
    ∧ (∀ (k : Nat) (e : StoreEnt) (x : Meets), (s.nib n.val).tracker[k]? = some e → e.arrived = false → e.done = false →
      (((s.nib n.val).tracker.take k).any fun j => lineOf j.pa == lineOf e.pa && !j.done) = false →
      (s.writes.any fun w => lineOf w.ent.pa == lineOf e.pa) = false →
      (x.agree = false ∨ s.storeDenied n.val e = true → ∃ t, exec (.storeArrival n ⟨k, x⟩) s = .next t ∧ s.votes t (laneOf n.val) e.pa)
      ∧ (∀ u, s.storeDenied n.val e = false → s.meets (fun j => j == lineOf e.pa && !s.logged (lineOf e.pa)) x u →
        isDev e = false → u.held (lineOf e.pa) = false → memOk u = true →
        (u.holderNibs (u.inkEnt (lineOf e.pa)).holders).all (fun m => m == n.val && !e.kind.formed) = true →
        (e.guarded = true → (u.word e.pa).typ ≠ Ty.header ∧ (u.word e.pa).typ ≠ Ty.forward) →
        let a := e.pa - e.pa % 16
        let r := e.kind.apply e.pa (u.word a) (u.word (a + 8))
        ∃ t, exec (.storeArrival n ⟨k, x⟩) s = .next t ∧ t.word a = r.1 ∧ t.word (a + 8) = r.2
          ∧ (∀ b, b / 16 ≠ e.pa / 16 → outsideGrey b → t.word b = u.word b) ∧ t.storeAcks = u.storeAcks ++ [(n.val, e)])
      ∧ (∀ v b, x.agree = true → s.storeDenied n.val e = false → e.kind = .dev v →
        blockAt (e.pa + if v.getLsbD 63 then 4 else 0) = some b → s.answers' b = true →
        exec (.storeArrival n ⟨k, x⟩) s
          = .next ((s.regWrite (laneOf n.val) b (regOff (e.pa + if v.getLsbD 63 then 4 else 0)) (v.setWidth 32)).acknowledge n.val e)))
    ∧ (∀ a rest, takeFirst (fun a => a.1 == n.val) s.storeAcks = some (a, rest) →
      ∃ t, exec (.storeAck n) s = .next t ∧ t.storeAcks = rest ∧ t.mem = s.mem
        ∧ (t.nib n.val).tracker = (s.nib n.val).tracker.filter fun e => e.seq != a.2.seq)

/-- R289, R291, R294, R302: a store to a line that other nibs hold waits at its inkwell until each has dropped its copies and
acknowledged, and so does a host's write; an invalidation whose earlier fills have arrived removes the line from L1, blotter and
instruction cache. -/
def Obligations.HoldersAreInvalidatedFirst : Prop :=
  ∀ (s : State) (n : Fin 544) (k : Nat), (∀ m, s.resending m = false) →
    (∀ p rest, takeFirst (fun p => p.1 == n.val && !s.invalWaits p) s.invals = some (p, rest) →
      ∃ t, exec (.invalidation n) s = .next t ∧ t.invals = rest ∧ t.acks = s.acks ++ [p] ∧ t.mem = s.mem
        ∧ ∀ l ∈ (t.nib n.val).l1 ++ (t.nib n.val).blotter ++ (t.nib n.val).icache, l.line ≠ p.2)
    ∧ (∀ (e : StoreEnt) (x : Meets) (u : State), (s.nib n.val).tracker[k]? = some e → e.arrived = false → e.done = false →
      isDev e = false → (((s.nib n.val).tracker.take k).any fun j => lineOf j.pa == lineOf e.pa && !j.done) = false →
      (s.writes.any fun w => lineOf w.ent.pa == lineOf e.pa) = false → s.storeDenied n.val e = false →
      s.meets (fun j => j == lineOf e.pa && !s.logged (lineOf e.pa)) x u → u.held (lineOf e.pa) = false →
      let hs := (u.holderNibs (u.inkEnt (lineOf e.pa)).holders).filter fun m => m != n.val || e.kind.formed
      hs ≠ [] →
      ∃ t, exec (.storeArrival n ⟨k, x⟩) s = .next t ∧ t.mem = u.mem ∧ t.writes = u.writes ++ [⟨n.val, e, hs⟩]
        ∧ t.invals = u.invals ++ hs.map fun m => (m, lineOf e.pa))
    ∧ (∀ m l rest e, takeAt s.acks k = some ((m, l), rest) → s.writes = [⟨n.val, e, [m]⟩] → s.hostWrites = [] → lineOf e.pa = l →
      s.held l = false → exec (.invalidationAck k) s = .next ({ s with acks := rest, writes := [] }.inkApply n.val e))
    ∧ (∀ m l rest e ws, takeAt s.acks k = some ((m, l), rest) → s.writes = [⟨n.val, e, ws⟩] → s.hostWrites = [] → lineOf e.pa = l →
      ws.erase m ≠ [] → exec (.invalidationAck k) s = .next { s with acks := rest, writes := [⟨n.val, e, ws.erase m⟩] })
    ∧ (∀ m l rest h, takeAt s.acks k = some ((m, l), rest) → s.writes = [] → s.hostWrites = [h] → h.waits = [(m, l)] →
      exec (.invalidationAck k) s = .next ({ s with acks := rest, hostWrites := [] }.landHost { h with waits := [] }))

/-- R166, R298, R299, R317, R382, R387: a store whose register never answers is dropped and counted, with the barrier-fault flag and the
first address dropped; a load that no register answers faults FLT_BUS and is counted; a barrier ends when what it waits for is done; a
shaded word joins its ward's grey queue; a context that waited for a copy record tries again. -/
def Obligations.WaitsEndAsTheirTargetDoes : Prop :=
  ∀ (s : State) (n : Fin 544) (c : Fin 32),
    let ready (t : State) : Prop := (t.ctx n.val c.val).parked = none ∧ (t.ctx n.val c.val).state = stReady
    let counted (t : State) : Prop := t.drops = (s.countDrop n.val).drops
    (∀ k e, (∀ d, d < 32 → (s.ctx n.val d).parked = none) → (s.nib n.val).tracker[k]? = some e → e.done = false → s.deadTarget e = true →
      e.ctx = c.val →
      ∃ t, exec (.storeDropTimeout n k) s = .next t ∧ (t.nib n.val).tracker = (s.nib n.val).tracker.filter (fun j => j.seq != e.seq)
        ∧ counted t ∧ (t.ctx n.val c.val).barFault = true
        ∧ (t.ctx n.val c.val).barAddr = (if (s.ctx n.val c.val).barFault then (s.ctx n.val c.val).barAddr else e.va.setWidth 48))
    ∧ (∀ p, (s.ctx n.val c.val).parked = some p →
      (∀ pa, p.why = .devLoad pa → (s.fills.any fun m => m.nib == n.val && m.ctx == c.val && m.line == pa) = false →
        ∃ t, exec (.deviceLoadTimeout n c) s = .next t ∧ counted t
          ∧ (t.ctx n.val c.val).faultDue = some { cause := .bus, info := info 0 0 pa, slot := p.slot } ∧ ready t)
      ∧ (∀ b, p.why = .barrier b → p.op = none → s.barrierOver n.val c.val b = true →
        ∃ t, exec (.barrierComplete n c) s = .next t ∧ ready t ∧ (t.ctx n.val c.val).pc = (s.ctx n.val c.val).pc)
      ∧ (∀ b, p.why = .barrier b → s.barrierOver n.val c.val b = false → exec (.barrierComplete n c) s = .next s)
      ∧ (∀ a, p.why = .bucket a → p.op = none → ∃ t, exec (.copyRecordRetry n c) s = .next t ∧ ready t))
    ∧ (∀ g rest, (∀ d, d < 32 → (s.ctx n.val d).parked = none) → (s.nib n.val).shade = g :: rest →
      (s.collOf (s.xlWard n.val)).grey.length < greyMax →
      ∃ t, exec (.shadeBufferDrain n) s = .next t ∧ (t.nib n.val).shade = rest
        ∧ (t.collOf (s.xlWard n.val)).grey = (s.collOf (s.xlWard n.val)).grey ++ [.word g.1 g.2])

/-! ### Traps, scheduling, messages, spills -/

/-- R217 to R224, R226 to R229: TRAP_ENTRY takes the fault due in the running context. In a ward context it enters at S, or freezes the
context with its D save set and a record to context 0 when the cause is taken at D or the S save set is live; in context 0 it enters
at D, then at M with ESC, and a third is a machine check. The save set holds PC, ST, cause, info and WS as they were; PC goes to
the handler; no register and no word of memory changes. HELD_CHECK_ENTRY enters at M in context 0. -/
def Obligations.TrapsEnterTheirLevel : Prop :=
  ∀ (s : State) (n : Fin 544) (c : Fin 32) (t : TrapReq), s.serves n.val = true →
    let x := (s.ctx n.val c.val).settle (c.val == 0) (s.now n.val + 64)
    let saved (v : SaveSet) (k : Cause) (i : BitVec 64) (esc impr slot : Bool) : Prop :=
      v.pc = x.pc ∧ v.st = x.st.setWidth 64 ∧ v.info = i ∧ v.win = x.ws
        ∧ v.cause.toNat = k.code.toNat + x.level.toNat * 256 + (if esc then 1024 else 0) + (if impr then 2048 else 0) + (if slot then 4096 else 0)
    let entered (u : State) (l : BitVec 2) (k : Cause) : Prop :=
      let y := u.ctx n.val c.val
      y.level = l ∧ y.pc = (if l = lvS then 0x1000 else 0x4400000000) + k.code.setWidth 64 * 32 ∧ y.tw = true ∧ y.dly = false
        ∧ y.mpend = false ∧ y.stdy = false ∧ y.exact = true ∧ y.regs = x.regs ∧ y.cwp = x.cwp ∧ y.prio = x.prio ∧ u.mem = s.mem
    let frozen (u : State) : Prop :=
      let y := u.ctx n.val c.val
      y.state = stFrozen ∧ y.pc = x.pc ∧ y.level = x.level ∧ y.regs = x.regs ∧ y.ws = x.ws ∧ (u.nib n.val).running = none ∧ u.mem = s.mem
    ((s.nib n.val).running = some c.val → x.routine = none → x.parked = none → x.xfer = none → x.arith = [] → x.spillFault = none →
      x.faultDue = some t → t.impr = false → (s.nib n.val).heldTraps = [] → s.checkDue n.val c.val = false →
      ∃ u, exec (.trapEntry n c) s = .next u
        ∧ (c.val ≠ 0 → t.cause.atD = false → x.saveS.live = false →
            entered u lvS t.cause ∧ saved (u.ctx n.val c.val).saveS t.cause t.info false false t.slot)
        ∧ (c.val ≠ 0 → t.cause.atD = true ∨ x.saveS.live = true →
            frozen u ∧ saved (u.ctx n.val c.val).saveD t.cause t.info (!t.cause.atD) false t.slot
              ∧ ((s.ctx n.val 0).queue.length < 8 → (u.ctx n.val 0).queue = (s.ctx n.val 0).queue
                  ++ [Word.rawOf (BitVec.ofNat 64 (2 ^ 60 + c.val * 256 + t.cause.code.toNat))]))
        ∧ (c.val = 0 → x.saveD.live = false → entered u lvD t.cause ∧ saved (u.ctx n.val c.val).saveD t.cause t.info false false t.slot)
        ∧ (c.val = 0 → x.saveD.live = true → x.saveM.live = false →
            entered u lvM t.cause ∧ saved (u.ctx n.val c.val).saveM t.cause t.info true false t.slot)
        ∧ (c.val = 0 → x.saveD.live = true → x.saveM.live = true →
            (u.ctx n.val 0).state = stFrozen ∧ u.stroke.faults = s.stroke.faults ++ [⟨n.val, .nested 0, s.hub⟩]))
    ∧ (c.val = 0 → ∀ h hs, (s.nib n.val).heldChecks = h :: hs → x.saveM.live = false → (s.ctx n.val 0).saveM.live = false →
      x.xfer = none → x.routine = none → x.parked = none → (s.ctx n.val 0).state = stRunning → (checkCause h.code).code = h.code →
      ∃ u, exec (.heldCheckEntry n) s = .next u ∧ entered u lvM (checkCause h.code)
        ∧ saved (u.ctx n.val 0).saveM (checkCause h.code) h.info false false false ∧ (u.nib n.val).heldChecks = hs)

/-- R111 to R115, R122, R245, R247: a decision picks a READY context of the highest priority, among equals the next in rising number after
the one that last ran at it, wrapping from 31 to 0, and takes the nib from a running context only
for a higher one; a time slice gives the nib to another of the same priority; a timer's expiry sets EVF.TIMER; the limit ends a
STEADY region; a micro-trap stores the routine in the level's slot with MPEND set, and the context gives up the nib. -/
def Obligations.PrioritiesDecideWhoRuns : Prop :=
  ∀ (s : State) (n : Fin 544) (c : Fin 32),
    let x := s.ctx n.val c.val
    let prio (k : Nat) : Nat := s.prioOf n.val k
    let switched (o : Out) (k : Nat) : Prop :=
      ∃ t, o = .next t ∧ (t.nib n.val).running = some k ∧ (t.ctx n.val k).state = stRunning ∧ t.mem = s.mem
    let givesWay (o : Out) : Prop := ∃ t, o = .next t ∧ (t.ctx n.val c.val).state = stReady
    let last (k : Nat) : Nat := ((s.nib n.val).lastRun[prio k]?).getD 0
    (∀ d, d ∈ s.readyOn n.val → d < 32 ∧ (s.ctx n.val d).state = stReady)
    ∧ (∀ cs k, s.choose n.val cs = some k → k ∈ cs ∧ ∀ d ∈ cs, prio d ≤ prio k)
    ∧ (∀ k, s.choose n.val (s.readyOn n.val) = some k → last k < 32 → ∀ d ∈ s.readyOn n.val, prio d = prio k →
      (k + 31 - last k) % 32 ≤ (d + 31 - last k) % 32)
    ∧ (∀ k, s.decides n.val = true → s.choose n.val (s.readyOn n.val) = some k → k < 32 →
      ((s.nib n.val).running = none → switched (exec (.schedulingDecision n) s) k)
      ∧ ((s.nib n.val).running = some c.val → s.keepsNib n.val c.val = false → prio c.val < prio k → k ≠ c.val →
          switched (exec (.schedulingDecision n) s) k ∧ givesWay (exec (.schedulingDecision n) s))
      ∧ ((s.nib n.val).running = some c.val → prio k ≤ prio c.val → exec (.schedulingDecision n) s = .next s))
    ∧ (∀ k, s.decides n.val = true → (s.nib n.val).running = some c.val → s.keepsNib n.val c.val = false → k < 32 → k ≠ c.val →
      s.choose n.val ((s.readyOn n.val).filter fun d => s.prioOf n.val d == prio c.val) = some k →
      switched (exec (.timeSliceExpiry n) s) k ∧ givesWay (exec (.timeSliceExpiry n) s))
    ∧ (x.timer ≠ none → (s.nib n.val).closed = true → exec (.timerExpiry n c) s = .next s)
    ∧ (x.timer ≠ none → (s.nib n.val).closed = false → x.waiting = none →
      ∃ t, exec (.timerExpiry n c) s = .next t ∧ (t.ctx n.val c.val).timer = none ∧ (t.ctx n.val c.val).evf = x.evf ||| 1)
    ∧ (x.timer ≠ none → (s.nib n.val).closed = false → ∀ m dst iss, x.waiting = some (m, dst, iss) → m.getLsbD 0 = true →
      ∃ t, exec (.timerExpiry n c) s = .next t ∧ (t.ctx n.val c.val).state = stReady ∧ (t.ctx n.val c.val).waiting = none
        ∧ (t.ctx n.val c.val).evf.getLsbD 0 = false)
    ∧ (x.stdy = true → ∃ t, exec (.steadyLimitExpiry n c) s = .next t ∧ (t.ctx n.val c.val).stdy = false
        ∧ (t.ctx n.val c.val).steady = 0 ∧ (t.ctx n.val c.val).steadyUsed = (x.steadyUsed || x.steadyLim) ∧ (t.ctx n.val c.val).pc = x.pc)
    ∧ (∀ r, x.routine = some r → r.stopped = true → x.parked = none → x.stdy = false → x.xfer = none →
      ∃ t, exec (.microTrap n c) s = .next t ∧ (t.ctx n.val c.val).mpend = true
        ∧ (t.ctx n.val c.val).routine = none ∧ ((t.ctx n.val c.val).slot x.level).valid = true
        ∧ ((t.ctx n.val c.val).slot x.level).routine = some { r with got := [], stopped := false }
        ∧ (t.nib n.val).running ≠ some c.val ∧ (t.ctx n.val c.val).state = stReady)
    ∧ (x.stdy = true ∨ x.xfer ≠ none → exec (.microTrap n c) s = .next s)

/-- R119, R120, R240 to R244: a word on its way joins its target's queue and the answer 1 starts back, or the answer 0; the answer lands in
the sender's register. The spill engine's oldest frame goes to memory: the marker and the registers at the frame's cursor; a
failed write leaves FLT_SPILL 0x05 due and suspends the engine until its save set is free. -/
def Obligations.MessagesAndSpillsArrive : Prop :=
  ∀ (s : State) (n : Fin 544) (c : Fin 32),
    let x := s.ctx n.val c.val
    (∀ k (m : SendMsg) rest, takeAt s.sends k = some (m, rest) → s.sendWaits m = false → m.tctx < 32 →
      (s.accepts m.tnib m.tctx = true → ∃ t, exec (.sendDelivery k) s = .next t ∧ t.sends = rest
        ∧ t.answers = s.answers ++ [(m.nib, m.ctx, true)] ∧ (t.ctx m.tnib m.tctx).queue = (s.ctx m.tnib m.tctx).queue ++ [m.word])
      ∧ (s.accepts m.tnib m.tctx = false →
        exec (.sendDelivery k) s = .next { s with sends := rest, answers := s.answers ++ [(m.nib, m.ctx, false)] }))
    ∧ (∀ ok rest p dst, takeFirst (fun a => a.1 == n.val && a.2.1 == c.val) s.answers = some ((n.val, c.val, ok), rest) →
      x.parked = some p → p.why = .answer dst →
      ∃ t, exec (.sendAnswer n c) s = .next t ∧ t.answers = rest ∧ (t.ctx n.val c.val).parked = none ∧ (t.ctx n.val c.val).state = stReady
        ∧ (t.ctx n.val c.val).inflight = (x.launch (s.now n.val) p.iss (.reg dst) (Word.fx (if ok then 1 else 0))).inflight)
    ∧ (∀ f rest v u ws (y : Meets), x.frames = f :: rest → x.spillHeld = false → x.parked = none → s.resending n.val = false →
      let ts := s.spillTargets n.val c.val
      (y.agree = false → ts ≠ [] → ∃ t, exec (.spillWriteComplete n ⟨c, y⟩) s = .next t ∧ s.votes t (laneOf n.val) (ts.headD 0))
      ∧ (s.meets (fun j => ts.any (fun a => lineOf a == j) && !s.logged j) y v →
        State.spillPlan n.val c.val v f.cursor.toNat f.pairs = .ok (u, ws) → (ws.any fun w => v.held (lineOf w.1)) = false →
        ∃ t, exec (.spillWriteComplete n ⟨c, y⟩) s = .next t ∧ t.mem = (u.writeFrame .colour ws).mem
          ∧ (t.ctx n.val c.val).frames = rest ∧ (t.ctx n.val c.val).suspended = none))
    ∧ (∀ f rest t a (y : Meets), x.frames = f :: rest → x.spillHeld = false → s.resending n.val = false →
      State.spillPlan n.val c.val s f.cursor.toNat f.pairs = .error (.trap t, a) → t.deny = none →
      ∃ u, exec (.spillWriteComplete n ⟨c, y⟩) s = .next u ∧ u.mem = s.mem
        ∧ (u.ctx n.val c.val).spillFault = some { cause := .spill, info := info 5 t.cause.code.toNat a } ∧ (u.ctx n.val c.val).suspended.isSome = true)
    ∧ (∀ l, x.suspended = some l → l ≠ lvU → (x.save l).live = false →
      ∃ t, exec (.spillRetry n c) s = .next t ∧ (t.ctx n.val c.val).suspended = none ∧ (t.ctx n.val c.val).frames = x.frames)

/-! ### Hosts: rings, memory, links -/

/-- R474 to R476, R481, R486, R500: a doorbell inside its ring moves the tail and asks the host for every descriptor that may be fetched;
one outside the ring changes no tail; a completion head is taken; a read of either register gives the value last accepted; the wake event reaches context 0 and the service context; an
arriving descriptor moves the head and goes to the executive, or to its slot of the exchange area. -/
def Obligations.RingsTakeTheirInputs : Prop :=
  ∀ (s : State) (p : Fin 8) (r : Fin 64) (w : Fin 8) (v : BitVec 32),
    let k := s.ring w.val r.val
    let consumed := if r.val = 0 then 0 else (s.devRead k.port w.val (k.xpa + 0x2008)).2.pay.toNat
    let asked (k : Ring) : List HostRead := (k.fetchable r.val consumed).map fun i =>
      { port := k.port, addr := k.sq + 64 * i, len := 64, why := .desc w.val r.val i }
    (s.bound p.val = some w.val → s.boot.done = true → (s.port p.val).up = true → s.bellDenied p.val w.val = false →
      (k.en = true → v.toNat < k.size → v.toNat < 2 ^ 16 → (s.port p.val).d3 = false → (s.port k.port).d3 = false →
        s.takesInput = true →
        ∃ t, exec (.doorbell p r v) s = .next t ∧ (t.ring w.val r.val).tail = v.toNat
          ∧ t.hostReads = s.hostReads ++ asked { k with tail := v.toNat }
          ∧ (t.journalOf k.port).getLast? = some (.doorbell w.val r.val v.toNat)
          ∧ ((s.port p.val).heldBells = [] → mget (fun _ => []) s.nextInputs p.val = [] → t.bar2Read p.val (8 * r.val) = v)
          ∧ (r.val = 0 → t.mem = s.mem ∧ t.doorEvents = s.doorEvents)
          ∧ (r.val ≠ 0 → t.doorEvents = s.doorEvents ++ [(w.val, r.val, v.toNat)]))
      ∧ (k.en = true → k.size ≤ v.toNat → v.toNat < 2 ^ 16 →
        ∃ t, exec (.doorbell p r v) s = .next t ∧ (t.ring w.val r.val).tail = k.tail ∧ t.hostReads = s.hostReads ∧ t.mem = s.mem)
      ∧ (v.toNat < 2 ^ k.cqlog →
        ∃ t, exec (.completionHead p r v) s = .next t ∧ (t.ring w.val r.val).cqHead = v.toNat ∧ t.mem = s.mem
          ∧ t.bar2Read p.val (0x800 + 8 * r.val) = v))
    ∧ (∀ i tail rest n c, takeAt s.doorEvents i = some ((w.val, r.val, tail), rest) → s.wcnAt w.val (BitVec.ofNat 64 k.wcn) = some (n, c) →
      (s.nib n).active = true → (s.nib n).parkedBy = 0 → s.takesInput = true → s.eventWaits n = false → (s.ctx n 0).queue.length < 8 → c ≠ 0 → c < 32 →
      (s.ctx n c).state ≠ stIdle → (s.ctx n c).waiting = none →
      ∃ t, exec (.doorbellEvent i) s = .next t ∧ t.doorEvents = rest
        ∧ (t.ctx n 0).queue = (s.ctx n 0).queue ++ [Word.rawOf (BitVec.ofNat 64 (3 * 2 ^ 60 + w.val * 2 ^ 56 + r.val * 2 ^ 48 + tail))]
        ∧ (t.ctx n c).evf = (s.ctx n c).evf ||| 2)
    ∧ (∀ h rest bytes, takeFirst (fun h => h.why == .desc w.val r.val k.head) s.hostReads = some (h, rest) → s.takesInput = true →
      bytes.length = 64 → h.late = none → s.replayed h.port h.addr 64 = none → (r.val = 0 → (s.ward w.val).cmds.length < 64) →
      ∃ t, exec (.descriptorArrival w r bytes) s = .next t ∧ t.hostReads = rest ∧ (t.ring w.val r.val).head = (k.head + 1) % k.size
        ∧ (r.val = 0 → (t.ward w.val).cmds = (s.ward w.val).cmds ++ [bytes] ∧ t.mem = s.mem)
        ∧ (r.val ≠ 0 → t.mem = (s.devWrites k.port w.val (k.xpa + 64 * (k.head % 64)) (rawWords 8 bytes)).mem))
    ∧ (k.en = true → (s.port k.port).d3 = false → s.takesInput = true → ∃ t, exec (.consumedReread w r) s = .next t ∧ t.hostReads = s.hostReads ++ asked k ∧ t.mem = s.mem)

/-- R71 to R77, R302, R354, R355, R434 to R436, R459: a host read of a block answers the committed view of its line, or of its tags, or,
where the Rubric denies it, zeros with poison; a host write to a line that no nib holds leaves HEADER, FORWARD, XLATE and SPILL words as
they are, makes every other word it touches RAW, and changes no word outside its line and the grey queues; one to a line that nibs hold
waits for their acknowledgements; a denied one changes no memory; a write of the tag aperture completes and changes no memory; a snoop
is answered invalid, but waits while a transfer of command data holds its line. -/
def Obligations.HostsReadAndWriteMemory : Prop :=
  ∀ (s : State) (p : Fin 8) (w : Nat) (off : BitVec 40) (bytes : List Byte) (len : Nat), s.bound p.val = some w →
    (s.port p.val).changing = false →
    let l := lineOf off.toNat
    let o := off.toNat % 64
    let out (i : Instr) (f : State → Prop) : Prop := ∃ t, exec i s = .next t ∧ f t
    let denied (t : State) : Prop := (t.reg32 (pgRUB + 0x34)).getLsbD 1 = true ∧ t.mem = s.mem
    (s.aperture p.val .payload = true → 1 ≤ len → o + len ≤ 64 → off.toNat + len ≤ heapEnd → ∀ x : Meets,
      (x.agree = false → out (.hostMemRead p .payload off ⟨len, x⟩) fun t => s.votes t (12 + p.val) l)
      ∧ ∀ u, s.meets (fun j => j == l) x u →
        (u.rubAllows (hostAsker p.val w) .read l = true → out (.hostMemRead p .payload off ⟨len, x⟩) fun t => t.mem = u.mem
          ∧ t.hostOut = s.hostOut ++ [.memData p.val (((payBytes (u.committed l)).drop o).take len) (poisoned (u.committed l))])
        ∧ (u.rubAllows (hostAsker p.val w) .read l = false → u.mem = s.mem → out (.hostMemRead p .payload off ⟨len, x⟩) fun t => denied t
          ∧ t.hostOut = s.hostOut ++ [.memData p.val (List.replicate len 0) true]))
    ∧ (s.aperture p.val .tags = true → logOk s = true → o % 16 = 0 → off.toNat + 16 ≤ heapEnd / 4 →
      s.rubAllows (hostAsker p.val w) .read (4 * off.toNat) = true →
      out (.hostMemRead p .tags off ⟨16, {}⟩) fun t => t.mem = s.mem
        ∧ t.hostOut = s.hostOut ++ [.memData p.val (tagBytes (s.committed (4 * off.toNat))) false])
    ∧ (s.aperture p.val .payload = true → 1 ≤ bytes.length → o + bytes.length ≤ 64 → off.toNat + bytes.length ≤ heapEnd → ∀ x : Meets,
      (x.agree = false → out (.hostMemWrite p off ⟨bytes, x⟩) fun t => s.votes t (12 + p.val) l)
      ∧ ∀ u, s.meets (fun j => j == l) x u →
        (u.rubAllows (hostAsker p.val w) .write l = false → u.mem = s.mem → out (.hostMemWrite p off ⟨bytes, x⟩) denied)
        ∧ (u.rubAllows (hostAsker p.val w) .write l = true → u.holderNibs (u.inkEnt l).holders ≠ [] →
          out (.hostMemWrite p off ⟨bytes, x⟩) fun t => t.mem = u.mem ∧ t.hostOut = s.hostOut
            ∧ t.invals = u.invals ++ (u.holderNibs (u.inkEnt l).holders).map fun m => (m, l))
        ∧ (u.rubAllows (hostAsker p.val w) .write l = true → u.holderNibs (u.inkEnt l).holders = [] → memOk u = true →
          (∀ i, i < 8 → isCapType (u.word (l + 8 * i)).typ = false) →
          out (.hostMemWrite p off ⟨bytes, x⟩) fun t => t.hostOut.getLast? = some (.memDone p.val)
            ∧ (∀ a, a / 64 ≠ off.toNat / 64 → outsideGrey a → t.word a = u.word a)
            ∧ (∀ i, i < 8 → hostKeeps (u.word (l + 8 * i)) = true → t.word (l + 8 * i) = u.word (l + 8 * i))
            ∧ (∀ i, i < 8 → (8 * i + 8 ≤ o ∨ o + bytes.length ≤ 8 * i) → t.word (l + 8 * i) = u.word (l + 8 * i))
            ∧ (∀ i, i < 8 → o < 8 * i + 8 → 8 * i < o + bytes.length → hostKeeps (u.word (l + 8 * i)) = false →
                (t.word (l + 8 * i)).typ = Ty.raw ∧ (t.word (l + 8 * i)).col = 0 ∧ (t.word (l + 8 * i)).cdr = 0)
            ∧ (∀ i, i < 8 → o ≤ 8 * i → 8 * i + 8 ≤ o + bytes.length → hostKeeps (u.word (l + 8 * i)) = false →
                t.word (l + 8 * i) = Word.rawOf (BitVec.ofNat 64 (leNat ((bytes.drop (8 * i - o)).take 8))))))
    ∧ (s.aperture p.val .tags = true → off.toNat + bytes.length ≤ heapEnd / 4 →
      ∃ t, exec (.tagApertureWrite p off bytes) s = .next t ∧ t.mem = s.mem ∧ t.log = s.log ∧ t.hostOut = s.hostOut ++ [.memDone p.val])
    ∧ (∀ line, (s.port p.val).up = true →
      ((s.hostReads.any fun h => h.holds p.val line) = false →
        exec (.snoop p line) s = .next { s with hostOut := s.hostOut ++ [.snoopInvalid p.val line] })
      ∧ ((s.hostReads.any fun h => h.holds p.val line) = true →
        ∃ t, exec (.snoop p line) s = .next t ∧ (t.port p.val).snoops = (s.port p.val).snoops ++ [line] ∧ t.hostOut = s.hostOut ∧ t.mem = s.mem))

/-- R17, R18, R460, R461, R463, R538, R566: what a port's link and configuration space do: identity reads, enables, D-states, the one-way HDM
decoder, loss of the host, training, the end of a width change; and a link block that fails for good is a machine check. -/
def Obligations.LinksAndConfigurationAct : Prop :=
  ∀ (s : State) (p : Fin 8),
    let k := s.port p.val
    let port (o : Out) (f : Port → Prop) : Prop := ∃ t, o = .next t ∧ f (t.port p.val) ∧ t.mem = s.mem
    (k.up = true → s.boot.done = true →
      (exec (.configRequest p (.read 0)) s = .next { s with hostOut := s.hostOut ++ [.cfg p.val 0x96401F6C] })
      ∧ (exec (.configRequest p (.read 8)) s = .next { s with hostOut := s.hostOut ++ [.cfg p.val 0x12000020] })
      ∧ (∀ a b c, port (exec (.configRequest p (.enables a b c)) s) fun q => q.cio = a ∧ q.ccache = b ∧ q.cmem = c)
      ∧ port (exec (.configRequest p (.dstate true)) s) (fun q => q.d3 = true)
      ∧ (∀ o v, exec (.configRequest p (.write o v)) s = .next s)
      ∧ (∃ t, exec (.configRequest p (.dstate false)) s = .next t ∧ (t.port p.val).d3 = false ∧ (t.port p.val).heldBells = []
        ∧ (t.port p.val).heldOut = [])
      ∧ (∀ on, port (exec (.configRequest p (.msix on)) s) fun q => q.msix = on)
      ∧ (∀ base, (port (exec (.hdmDecoderCommit p 0 base 1) s) fun q => q.dec0 = some base ∧ q.dec1 = k.dec1 ∧ q.decErr.getLsbD 0 = false)
          ∧ (port (exec (.hdmDecoderCommit p 1 base 1) s) fun q => q.dec1 = some base ∧ q.dec0 = k.dec0)
          ∧ (∀ ways, ways ≠ 1 → port (exec (.hdmDecoderCommit p 0 base ways) s) fun q => q.dec0 = none ∧ q.decErr.getLsbD 0 = true)))
    ∧ (k.up = true → s.boot.done = false → ∀ r, exec (.configRequest p r) s = .next { s with hostOut := s.hostOut ++ [.cfgRetry p.val] })
    ∧ (k.up = true → ∀ e, port (exec (.hostLinkEvent p e) s) fun q => q.cmem = false ∧ q.dec0 = none ∧ q.dec1 = none ∧ q.linkEv = true
        ∧ (e = .flr → q.up = true) ∧ (e ≠ .flr → q.up = false))
    ∧ (k.up = false → s.domain (44 + p.val) = true → s.power.off = false → s.power.hold = false → ∀ wide speed,
        port (exec (.hostLinkTrained p wide speed) s) fun q => q.up = true ∧ q.wide = wide ∧ q.speed = speed)
    ∧ (k.changing = true → port (exec (.portWidthChangeDone p) s) fun q => q.changing = false ∧ q.wide = decide (s.power.level < 4))
    ∧ (∀ (leaf : Fin 4) (link : Fin 2), s.linksFailed.getLsbD (2 * leaf.val + link.val) = false →
        (∀ fate, fate ≠ .dead → ∃ t, exec (.linkBlock leaf link fate) s = .next t ∧ t.linksFailed = s.linksFailed
            ∧ t.stroke.faults = s.stroke.faults ∧ t.mem = s.mem)
        ∧ (∃ t, exec (.linkBlock leaf link .dead) s = .next t ∧ t.linksFailed.getLsbD (2 * leaf.val + link.val) = true
            ∧ t.stroke.faults = s.stroke.faults ++ [⟨572 + 2 * leaf.val + link.val, .link (BitVec.ofNat 8 (2 * leaf.val + link.val)), s.hub⟩]))

/-! ### Strokes -/

/-- R405, R411, R412, R415 to R421, R425, R450: a tick closes an open attempt and captures every pending APPLY; a unit reports once its
close is done, a nib only when its stores are acknowledged and its contexts can stop, and its parked accesses and routines are then
given up and its dirty lines copied; a gated unit reports at once, a link end when its re-send buffer is empty; the report's word
names unit, status, stroke and count; the root reports last; the lowest unit that has not reported is named at a timeout; a fault
report calls the attempt off, and the one that reaches the root first is recorded. -/
def Obligations.StrokesCloseUnitByUnit : Prop :=
  ∀ (s : State),
    (s.stroke.phase = .opened → s.stroke.voided = false → ∀ cause,
      (s.tickDue cause = true → ∃ t, exec (.strokeTick cause) s = .next t ∧ t.stroke.phase = .closing ∧ t.stroke.tickAt = s.hub
        ∧ t.stroke.num = s.stroke.num ∧ t.stroke.attempt = s.stroke.attempt ∧ t.stroke.reports = [] ∧ t.mem = s.mem ∧ t.nibs = s.nibs
        ∧ t.ctxs = s.ctxs
        ∧ ∀ k, k < 9 → (s.apply' k).pend = true → (t.apply' k).captured = true ∧ (t.apply' k).pend = false
            ∧ (t.apply' k).vals = s.staged.filter fun e => applyOf e.1 == k)
      ∧ (s.tickDue cause = false → exec (.strokeTick cause) s = .next s))
    ∧ (s.stroke.phase = .closing → s.stroke.voided = false → memOk s = true → ∀ u : Fin 604, s.reported u.val = false →
      s.silent u.val = false →
      let told (f : State → Prop) : Prop := ∃ t, exec (.closeReport u) s = .next t ∧ t.reported u.val = true
        ∧ (∀ v, v ≠ u.val → t.reported v = s.reported v) ∧ f t
      let word (t : State) (status n : Nat) : Prop := mget (fun _ => 0) t.stroke.reports u.val = s.reportWord u.val status n
      let same (t : State) : Prop := t.mem = s.mem ∧ t.nibs = s.nibs ∧ t.ctxs = s.ctxs
      (s.gatedUnit u.val = true → told fun t => word t 0 0 ∧ same t)
      ∧ (s.gatedUnit u.val = false →
        ((560 ≤ u.val ∧ u.val < 564) ∨ (588 ≤ u.val ∧ u.val ≠ 598) → told fun t => word t 1 0 ∧ same t)
        ∧ (564 ≤ u.val → u.val < 580 → (s.resending u.val = false → told fun t => word t 1 0 ∧ same t)
            ∧ (s.resending u.val = true → exec (.closeReport u) s = .next s))
        ∧ (544 ≤ u.val → u.val < 560 → (∀ w, s.engineWard (u.val - 544) = some w → w < 8) → told fun t =>
            word t 1 (b2n (s.engineWard (u.val - 544)).isSome) ∧ t.ctxs = s.ctxs
            ∧ (s.engineWard (u.val - 544) = none → same t)
            ∧ ∀ b, outsideLog b → (b < 0x4448000000 ∨ 0x4450000000 ≤ b) → t.word b = s.word b)
        ∧ (580 ≤ u.val → u.val < 588 → told fun t => word t 1 (s.journalLines (u.val - 580)) ∧ t.ctxs = s.ctxs
            ∧ (∀ b, (b < 0x4420000000 ∨ 0x4440000000 ≤ b) → t.word b = s.word b)
            ∧ (s.stroke.misfits = [] → ∀ i k, i < s.journalLines (u.val - 580) → s.journalLines (u.val - 580) ≤ 0x100000 → k < 8 →
                (((journalImage (s.journalOf (u.val - 580)))[i]?).getD [])[k]? = some (t.word (inputAddr (u.val - 580) i + 8 * k))))
        ∧ (u.val = 598 → (∀ v, v < 604 → v ≠ 598 → s.reported v = true) → told fun t => word t 1 0 ∧ same t)
        ∧ (u.val = 598 → ∀ v, v < 604 → v ≠ 598 → s.reported v = false → exec (.closeReport u) s = .next s)
        ∧ (u.val < 544 → s.nibQuiet u.val = true → told fun t =>
            word t 1 (t.linesOf u.val) ∧ (t.nib u.val).closed = true ∧ (t.nib u.val).shade = []
              ∧ ((s.nib u.val).shade = [] → t.mem = s.mem ∧ ∀ m, m ≠ u.val → t.nib m = s.nib m)
              ∧ (∀ b, outsideGrey b → t.word b = s.word b)
              ∧ (∀ m c, m ≠ u.val → c < 32 → t.ctx m c = s.ctx m c)
              ∧ ∀ c, c < 32 → (t.ctx u.val c).parked = none ∧ (t.ctx u.val c).waiting = none ∧ (t.ctx u.val c).routine = none
                ∧ (t.ctx u.val c).dirtyLines = []
                ∧ ((s.ctx u.val c).parked ≠ none ∨ (s.ctx u.val c).waiting ≠ none → (t.ctx u.val c).state = stReady))
        ∧ (u.val < 544 → s.nibQuiet u.val = false → exec (.closeReport u) s = .next s)))
    ∧ (s.stroke.phase = .closing → ∀ u, u < 604 → s.reported u = false → (∀ v, v < u → s.reported v = true) →
      ∃ t, exec .closeTimeout s = .next t ∧ t.stroke.faults = s.stroke.faults ++ [⟨u, .colophon, s.hub⟩] ∧ t.stroke.voided = true
        ∧ t.mem = s.mem)
    ∧ (s.stroke.phase ≠ .boot → s.stroke.phase ≠ .failed → s.power.off = false → ∀ (u : Fin 605) (c : McCause),
      let f : FaultRep := ⟨u.val, c, s.hub⟩
      ∃ t, exec (.faultReport u c) s = .next t ∧ t.stroke.faults = s.stroke.faults ++ [f] ∧ t.stroke.voided = true ∧ t.mem = s.mem
        ∧ (s.stroke.voided = false ∨ (∀ g ∈ s.stroke.faults, f.rank < g.rank) →
            t.stroke.voidUnit = u.val ∧ t.stroke.voidCode = mcCode c ∧ t.stroke.voidNum = s.stroke.num)
        ∧ (s.stroke.voided = true → ∀ g ∈ s.stroke.faults, g.rank ≤ f.rank →
            t.stroke.voidUnit = s.stroke.voidUnit ∧ t.stroke.voidCode = s.stroke.voidCode))

/-- R420, R422 to R428, R454, R598: when all 604 units have reported over links that serve, an instant in which both colophons agree
commits: the next stroke has the next number and attempt 1, the snapshot is the close's, STROKE_OUT rises; when they differ the attempt
is called off. The record's eight words stand at their place of the ring and nothing else of memory changes; the lines of nibs in
service that the closes copied, and those still dirty, are then to be written to the shadow image, and the shadow writer writes the
committed registers there. -/
def Obligations.CommitsReplaceTheStroke : Prop :=
  (∀ (s : State), s.stroke.phase = .closing → s.stroke.voided = false → (∀ u, u < 604 → s.reported u = true) →
    (∀ l, l < 4 → s.linksFailed.getLsbD (2 * l) = false ∨ s.linksFailed.getLsbD (2 * l + 1) = false) →
    (∃ t, exec (.commitInstant true) s = .next t ∧ t.stroke.num = s.stroke.num + 1 ∧ t.stroke.attempt = 1
      ∧ t.stroke.phase = (if s.power.l5 || s.power.turnOff then .held else .opened)
      ∧ t.snap.num = s.capture.num ∧ t.snap.counts = s.capture.counts ∧ t.snap.assign = s.capture.assign
      ∧ t.power.throttle = false ∧ t.pins.strokeOut = true)
    ∧ (∃ t, exec (.commitInstant false) s = .next t ∧ t.stroke.faults = s.stroke.faults ++ [⟨604, .colophon, s.hub⟩]
      ∧ t.stroke.voided = true ∧ t.stroke.num = s.stroke.num ∧ t.mem = s.mem))
  ∧ (∀ (s : State) (u : Nat) (b : Bool), u < 604 → s.reported u = false → exec (.commitInstant b) s = .next s)
  ∧ (∀ (s : State) (n : Nat) (b : Bool), memOk s = true →
    let at_ := 0x4440000000 + 64 * (s.stroke.num % 1048576)
    let ws := s.recordWords n b
    let t := s.writeCommit n b
    (∀ i, i < 7 → ∃ w, ws[i]? = some w ∧ t.word (at_ + 8 * i) = Word.rawOf w)
    ∧ t.word (at_ + 56) = Word.rawOf (ws.foldl (fun x y => x ^^^ y) 0)
    ∧ ∀ a, a / 64 ≠ at_ / 64 → t.word a = s.word a)
  ∧ (∀ (s : State), s.flipShadows.shadowDue = []
    ∧ (∀ n c k, (s.nib n).active = true → c < 32 → (k ∈ (s.ctx n c).dirtyLines ∨ (n, c, k) ∈ s.shadowDue) →
        (n, c, k) ∈ s.flipShadows.imagePending)
    ∧ (∀ n c k, (s.nib n).active = false → (n, c, k) ∈ s.flipShadows.imagePending → (n, c, k) ∈ s.imagePending)
    ∧ ∀ n c, c < 32 → (s.flipShadows.ctx n c).dirtyLines = [] ∧ (s.flipShadows.ctx n c).regs = (s.ctx n c).regs)
  ∧ (∀ (s : State) (n : Fin 544), memOk s = true → (∀ e ∈ s.imagePending, e.2.1 < 32 ∧ e.2.2 < 30) →
    (s.stroke.misfits = [] → ∃ t, exec (.shadowImageWrite ⟨n, true⟩) s = .next t ∧ t.ctxs = s.ctxs
      ∧ (t.imagePending = s.imagePending.filter fun e => e.1 != n.val)
      ∧ (∀ c g i, (n.val, c, g) ∈ s.imagePending → g < 18 → i < 8 →
          t.word (imageLine n.val c g + 8 * i) = (mget ctxDefault s.ckpt.ctxs (key n.val c)).reg (8 * g + i))
      ∧ (∀ c i, (n.val, c, 19) ∈ s.imagePending → i < 8 →
          t.word (imageLine n.val c 19 + 8 * i) = (((mget ctxDefault s.ckpt.ctxs (key n.val c)).queue)[i]?).getD Word.empty)
      ∧ ∀ b, (b < 0x4410000000 + n.val * 0x10000 ∨ 0x4410000000 + (n.val + 1) * 0x10000 ≤ b) → t.word b = s.word b)
    ∧ (∀ e rest, (s.imagePending.filter fun e => e.1 == n.val) = e :: rest → ∃ t, exec (.shadowImageWrite ⟨n, false⟩) s = .next t ∧ t.mem = s.mem
      ∧ t.stroke.voided = true ∧ t.imagePending = s.imagePending
      ∧ t.stroke.faults = s.stroke.faults ++ [⟨n.val, .vote 0xFE (BitVec.ofNat 40 (lineOf (imageLine e.1 e.2.1 e.2.2))), s.hub⟩])
    ∧ ∀ b, (s.imagePending.filter fun e => e.1 == n.val) = [] → exec (.shadowImageWrite ⟨n, b⟩) s = .next s)
  ∧ (∀ (s : State), exec .strokeOutFall s = .next { s with pins := { s.pins with strokeOut := false } })

/-- R357, R425, R438 to R446, R600: a void keeps the stroke's number, counts the attempt, and opens another, unless the attempt was the
fourth; with no unit to retire or repair, every context is as committed, with no dirty bit, and so is every line of memory: undoing
the log gives each line its committed view where lane 22 may write it. Checks of hub units call the attempt off. -/
def Obligations.VoidsReturnTheCommittedState : Prop :=
  (∀ (s : State), s.stroke.voided = true → (s.stroke.phase = .opened ∨ s.stroke.phase = .closing ∨ s.stroke.phase = .held) →
    imagesOk s = true →
    let after (f : State → Prop) : Prop := ∃ t, exec .void s = .next t ∧ f t
    (after fun t => t.stroke.num = s.stroke.num ∧ t.stroke.attempt = s.stroke.attempt + 1 ∧ t.stroke.voids = s.stroke.voids + 1
      ∧ t.stroke.voided = false ∧ t.stroke.faults = [])
    ∧ (4 ≤ s.stroke.attempt → after fun t => t.stroke.phase = .failed)
    ∧ ((∀ f ∈ s.stroke.faults, 544 ≤ f.unit ∧ (f.cause = .colophon ∨ f.cause = .lockstep ∨ ∃ a, f.cause = .uncorrectable a)) →
      (∀ d, d < 63 → s.domain d = true ∨ s.power.lost.getLsbD d = true) → (s.power.pllA = true ∨ s.power.pllB = true) →
      s.linksFailed = 0 → s.stroke.attempt < 4 →
      (after fun t => t.ctxs = (s.ckpt.ctxs.map fun e => (e.1, e.2.clean)) ∧ t.stroke.phase = (if s.power.l5 then .held else .opened))
      ∧ (s.ckpt.rings = [] → s.hostWrites = [] → s.power.l5 = false → after fun t => t.mem = s.undoLog.mem)))
  ∧ (∀ (s : State), s.stroke.voided = false → exec .void s = .next s)
  ∧ (∀ (s : State), memOk s = true → (s.log.map LogLine.line).Nodup →
    (∀ e ∈ s.log, e.line % 64 = 0 ∧ e.words.length = 8 ∧ s.rubAllows palAsker .writeT e.line = true) →
    s.undoLog.log = [] ∧ s.undoLog.stroke.used = 0
      ∧ ∀ l i, l % 64 = 0 → i < 8 → (s.committed l)[i]? = some (s.undoLog.word (l + 8 * i)))
  ∧ (∀ (s : State), s.watching = true →
    let noted (o : Out) (u : Nat) (c : McCause) : Prop := ∃ t, o = .next t ∧ t.stroke.faults = s.stroke.faults ++ [⟨u, c, s.hub⟩]
      ∧ t.stroke.voided = true ∧ t.mem = s.mem
    noted (exec (.rubricBackgroundCompare true) s) 601 (.vote 0xFF 0)
    ∧ exec (.rubricBackgroundCompare false) s = .next s
    ∧ noted (exec .mcLockstep s) 599 .lockstep
    ∧ ∀ sub : BitVec 8, 1 ≤ sub.toNat → sub.toNat ≤ 3 → noted (exec (.clockLoss sub) s) 599 (.clock sub))

/-! ### The collector -/

/-- R20, R42, R354, R366, R373, R374, R376, R377, R380, R387, R394, R395: the pumice engines. A scan blackens an item that holds no
pointer, counts it as live and takes it off the grey queue; shading a white item makes it grey and queues it, but a full queue leaves
it white and restarts MARK, and any other item is left alone; a root that has been fetched needs no scan; a whole-sheet scan leaves
SCANNED, and BAD where a block is denied; a copy goes on with the first record; the copy protocol leaves the words at the copy, COLOUR 0 but for the first and POISON for a reserved
encoding, and FORWARD at the source; a sheet that cannot be parsed is BAD; a filled sheet reads RAW zero, and the heap outside it is
as it was. Replicas that disagree over a request are a machine check, and no more. -/
def Obligations.PumiceEnginesDoTheirWork : Prop :=
  (∀ (s u : State) (e : Fin 16) (x : Meets) (w : Nat), memOk s = true → s.engineWard e.val = some w → s.engineOn e.val w = true →
    s.meets (s.heapLine w) x u →
    let k := s.collOf w
    let may (q : Acc) (a : Nat) : Prop := s.mayBy (some e.val) q a = true
    (∀ y hi rest a, k.phase = .mark → k.roots = [] → k.grey = .word y hi :: rest → isRefType y.typ = true →
      u.heapAt w (waddr y).toNat = some a → a % 8 = 0 → inHeap a = true →
      (u.word a).typ ≠ Ty.forward → (u.word a).typ ≠ Ty.poison → (u.word a).typ ≠ Ty.spill → reservedWord (u.word a) = false →
      ((u.word a).cdr = 1 → (u.word a).typ = Ty.header) →
      (∀ b ∈ u.itemPath w a (u.itemWords a), isRefType (u.word b).typ = false ∧ (u.word b).typ ≠ Ty.capLo) →
      may .read (s.greyHead w) → may .read (descAddr (sheetOf a)) → may .read a → may .writeT a →
      s.roomFor (s.greyWords w (.word y hi) + 40) = true →
      ∃ t, exec (.engineScan ⟨e, x⟩) s = .next t ∧ (t.collOf w).grey = rest ∧ (t.collOf w).live = k.live + 8 * u.itemWords a
        ∧ t.word a = { u.word a with col := k.markc } ∧ ∀ b, inHeap b = true → b / 8 ≠ a / 8 → t.word b = u.word b)
    ∧ (∀ n c g rest, k.phase = .mark → k.roots = (key n c, g) :: rest → c < 32 → (s.ctx n c).unfetched.getLsbD g = false →
      s.imagePending.contains (n, c, g) = false → s.roomFor 40 = true →
      ∃ t, exec (.engineScan ⟨e, x⟩) s = .next t ∧ ((t.collOf w).roots = k.roots.filter fun r => r != (key n c, g)) ∧ t.mem = u.mem)
    ∧ (∀ h rest, k.phase = .mark → k.scans = h :: rest → h < 8192 → s.roomFor 524290 = true → may .write (descAddr h) →
      ∃ t, exec (.wholeSheetScan ⟨e, x⟩) s = .next t
        ∧ (t.desc h 0).getLsbD 1 = true
        ∧ (∀ i, i < 524288 → ¬ may .read (h * sheetBytes + 64 * i) → (t.desc h 0).getLsbD 2 = true)
        ∧ ((∀ i, i < 524288 → ¬ may .read (h * sheetBytes + 64 * i)) → (t.collOf w).scans = rest
            ∧ ∀ b, inHeap b = true → t.word b = u.word b))
    ∧ (∀ r, (k.phase = .evacuate ∨ k.phase = .finish) → (s.copyRecs.find? fun r => r.ward == w) = some r →
      exec (.engineCopy ⟨e, x⟩) s = .next (u.engineCopy e.val w r.src).1)
    ∧ (∀ h rest, (k.phase = .evacuate ∨ k.phase = .finish) → (s.copyRecs.find? fun r => r.ward == w) = none → k.parsing = h :: rest →
      h < 8192 → (u.word (h * sheetBytes)).typ = Ty.poison → may .write (descAddr h) →
      ∃ t, exec (.engineCopy ⟨e, x⟩) s = .next t ∧ ((t.collOf w).parsing = k.parsing.filter fun z => z != h) ∧ (t.desc h 0).getLsbD 2 = true)
    ∧ (∀ h rest, s.releasing w = h :: rest → s.roomFor 525400 = true → (∀ l, l ∈ sheetLines h ∨ l ∈ cardLines h → may .write l) →
      ∃ t, exec (.zeroFill ⟨e, x⟩) s = .next t ∧ (t.collOf w).zeroed = k.zeroed ++ [h] ∧ t.desc h 0 = u.desc h 0
        ∧ (∀ b, sheetOf b = h → t.word b = Word.rawZero) ∧ ∀ b, inHeap b = true → sheetOf b ≠ h → t.word b = u.word b))
  ∧ (∀ (s : State) (e : Fin 16) (x : Meets) (w : Nat), s.engineWard e.val = some w → s.engineOn e.val w = true → x.agree = false →
    ∀ r rest, (s.collOf w).phase = .mark → (s.collOf w).roots = r :: rest → s.roomFor 40 = true →
    ∃ t, exec (.engineScan ⟨e, x⟩) s = .next t ∧ s.votes t (8 + e.val / 4) (imageLine (r.1 / 32) (r.1 % 32) r.2))
  ∧ (∀ (s : State) (who : Option Nat) (w va a : Nat) (x hi : Word), memOk s = true → s.heapAt w va = some a → a % 8 = 0 → inHeap a = true →
    s.mayBy who .read (descAddr (sheetOf a)) = true → s.mayBy who .read a = true → s.mayBy who .writeT a = true →
    s.mayBy who .write (greyAddr w (s.collOf w).greyAt) = true →
    (isWhite (s.collOf w) (s.word a) = true → (s.word a).typ ≠ Ty.poison → (s.word a).typ ≠ Ty.spill → reservedWord (s.word a) = false →
      (s.collOf w).grey.length < greyMax →
      (s.shadeItem who w va x hi).word a = { s.word a with col := 3 }
        ∧ ((s.shadeItem who w va x hi).collOf w).grey = (s.collOf w).grey ++ [.word x hi]
        ∧ ∀ b, outsideGrey b → b / 8 ≠ a / 8 → (s.shadeItem who w va x hi).word b = s.word b)
    ∧ (isWhite (s.collOf w) (s.word a) = true → greyMax ≤ (s.collOf w).grey.length →
      (s.shadeItem who w va x hi).mem = s.mem ∧ ((s.shadeItem who w va x hi).collOf w).restart = true)
    ∧ (isWhite (s.collOf w) (s.word a) = false → s.shadeItem who w va x hi = s))
  ∧ (∀ (s t : State) (q m : Asker) (who w a d : Nat), memOk s = true → a % 8 = 0 → d % 16 = a % 16 → (s.word a).typ ≠ Ty.forward →
    let k := s.itemWords a
    ((∃ r, s.copyRec w a = some r ∧ r.dst = d ∧ r.done = 0 ∧ r.len = 8 * k)
      ∨ (s.copyRec w a = none ∧ ∃ p, s.findSpace who w a (8 * k) = some p ∧ p.dst = d)) →
    a + 8 * k ≤ heapEnd → d + 8 * k ≤ heapEnd → (a + 8 * k + 8 ≤ d ∨ d + 8 * k ≤ a) →
    (∀ b, d ≤ b + 24 → b < d + 8 * k + 8 → isCapType (s.word b).typ = false) →
    (∀ i, i < k → isCapType (s.word (a + 8 * i)).typ = true →
      let b := a + 8 * i - (a + 8 * i) % 16
      a < b ∧ b + 16 ≤ a + 8 * k ∧ (s.word b).typ = Ty.capLo ∧ (s.word (b + 8)).typ = Ty.capHi ∧ reservedWord (s.word b) = false
        ∧ reservedWord (s.word (b + 8)) = false) →
    isCapType (s.word (a - a % 16)).typ = false → isCapType (s.word (a - a % 16 + 8)).typ = false →
    s.copyRun q m who w a (s.copySteps a) = (t, .finished) →
    let v (i : Nat) : Word :=
      let x := s.word (a + 8 * i)
      let y := if reservedWord x then Word.poisonOf 3 else x
      if i = 0 then y else { y with col := 0 }
    (∀ i, i < k → t.word (d + 8 * i) = v i)
    ∧ t.word a = { typ := Ty.forward, col := 0, cdr := (s.word a).cdr, pay := BitVec.ofNat 64 (s.virtOf d) }
    ∧ (∀ b, inHeap b = true → b / 8 ≠ a / 8 → (b / 8 + 1 < d / 8 ∨ d / 8 + k ≤ b / 8) → t.word b = s.word b)
    ∧ (t.collOf w).copied = (s.collOf w).copied + 8 * k)

/-! ### Power, reset and boot -/

/-- R531, R533 to R546, R548, R563, R595, R603: a sample is recorded; the fourth consecutive one beyond an entry threshold confirms the level, and one
short of the exit threshold keeps it; the fourth below 30 V turns the device off uncleanly, the fourth above CAP throttles; a
confirmed level 5 calls for an early close; hold, trip, ordered turn-off, self-refresh and regulator losses do what the rules give; VIO_OUT ends with management;
a commit raises the shed level to the highest confirmed (5 at most), or lowers it by one. -/
def Obligations.PowerFollowsItsSamples : Prop :=
  ∀ (s : State),
    let p := s.power
    let next (o : Out) (f : State → Prop) : Prop := ∃ t, o = .next t ∧ f t
    let crashed (t : State) : Prop := t.power.off = true ∧ t.power.unclean = true ∧ t.mem = [] ∧ t.stroke.phase = .boot
      ∧ t.pins.alarmLow = true ∧ ∀ q, q < 8 → (t.port q).up = false
    (∀ mv ma die temp,
      let o := exec (.powerSample mv ma die temp) s
      next o (fun t => t.power.mv = mv ∧ t.power.ma = ma ∧ t.power.die = die.val ∧ t.power.temp = temp)
      ∧ (∀ k c e, k < 5 → p.vIn[k]? = some c → 3 ≤ c → (vEntry s.vofs)[k]? = some e → mv < e → next o fun t => k + 1 ≤ t.power.vLevel)
      ∧ (∀ k e, p.vLevel = k + 1 → (vExit s.vofs)[k]? = some e → mv < e → next o fun t => k + 1 ≤ t.power.vLevel)
      ∧ (∀ k c e, p.tIn[k]? = some c → 3 ≤ c → tEntry[k]? = some e → e ≤ temp + s.tofs → next o fun t => k + 1 ≤ t.power.tLevel)
      ∧ (p.off = false → p.low = 3 → mv < 30000 → next o crashed)
      ∧ (p.off = true → mv < 26000 → next o fun t => t.power.mgmtOff = true ∧ t.pins.vioOut = false)
      ∧ (p.off = false → next o fun t => t.pins.vioOut = s.pins.vioOut)
      ∧ (p.capCnt = 3 → s.capMicro < mv * ma → s.attemptOn = true → next o fun t => t.power.throttle = true)
      ∧ (p.off = false → p.hold = false → 30000 ≤ mv → s.attemptOn = true →
          next o fun t => t.mem = s.mem ∧ (5 ≤ max t.power.vLevel t.power.tLevel → t.power.l5 = true))
      ∧ (p.off = false → p.hold = true → 30000 ≤ mv → s.stroke.phase ≠ .failed →
          next o fun t => max t.power.vLevel t.power.tLevel < 6 → t.power.hold = false ∧ t.stroke.phase = .opened)
      ∧ (p.off = false → p.hold = false → 30000 ≤ mv → s.stroke.phase = .held → p.l5 = true → p.l5done = true → p.turnOff = false →
          next o fun t => max t.power.vLevel t.power.tLevel < 5 → t.power.l5 = false ∧ t.power.level = 4 ∧ t.stroke.phase = .opened))
    ∧ (p.off = false → p.hold = false → p.l5done = true → p.turnOff = false → 6 ≤ max p.vLevel p.tLevel →
      next (exec .powerFailHold s) fun t => t.power.hold = true ∧ t.power.level = 6 ∧ t.power.domains = mgmtOnly
        ∧ ∀ q, q < 8 → (t.port q).up = false)
    ∧ (p.off = false → ∀ die, next (exec (.thermalTrip die) s) fun t => crashed t ∧ t.power.die = die.val)
    ∧ (s.stroke.phase = .held → p.l5done = true → p.hold = false → ∀ k : Fin 8,
      next (exec (.selfRefreshReturn k) s) fun t => t.power.refresh.getLsbD k.val = true ∧ t.mem = s.mem)
    ∧ (p.off = false →
      (∀ n : Fin 4, p.stage.getLsbD n.val = false → next (exec (.regulatorFault (.converter n)) s) fun t =>
          t.power.stage.getLsbD n.val = true ∧ t.power.phaseCnt = p.phaseCnt + 1 ∧ t.power.domains = p.domains ∧ t.mem = s.mem)
      ∧ (∀ d, next (exec (.regulatorFault (.phase d)) s) fun t => t.power.phaseCnt = p.phaseCnt + 1 ∧ t.power.domains = p.domains
          ∧ t.mem = s.mem)
      ∧ (∀ d : Fin 64, s.domain d.val = true → next (exec (.regulatorFault (.domain d)) s) fun t =>
          t.domain d.val = false ∧ (∀ j, j ≠ d.val → t.domain j = s.domain j) ∧ t.mem = s.mem))
    ∧ (p.turnOff = true → p.l5done = true → p.off = false → next (exec .orderedTurnOff s) fun t =>
      t.power.off = true ∧ t.power.domains = 0 ∧ t.boot.status0 = 0x47535442 ∧ t.boot.status1 = 1 ∧ t.pins.vioOut = false
        ∧ t.mem = s.mem)
    ∧ (s.stroke.phase = .closing → s.stroke.voided = false → (∀ u, u < 604 → s.reported u = true) →
      (∀ l, l < 4 → s.linksFailed.getLsbD (2 * l) = false ∨ s.linksFailed.getLsbD (2 * l + 1) = false) →
      next (exec (.commitInstant true) s) fun t =>
        (p.level ≤ min p.confirmed 5 → t.power.level = min p.confirmed 5) ∧ (min p.confirmed 5 < p.level → t.power.level = p.level - 1))

/-- R94, R446, R563 to R573: power-on reset. The newest image that passes the checks is booted: the executive is READY in context 0 of
every nib that is no spare, at level D and priority 3, every other context as at reset, stroke 1 open. With no image that passes,
the device stops and says why. An image that passes has the key of the lifecycle state, a signature that verifies, and a version
not below the fuses'. A turn-off that was not ordered shows as UNCLEAN; a burned transition acts at the next reset. -/
def Obligations.PowerOnBootsWhatPasses : Prop :=
  (∀ (s : State) (a b : List Byte), 1000 ≤ s.power.goodCnt → (s.power.off = true ∨ (s.boot.done = false ∧ s.boot.stopped = false)) →
    let o := exec (.powerOnReset a b) s
    let r := s.powerOn.chooseImage a b
    (r.1 = none → ∃ t, o = .next t ∧ t.boot.stopped = true ∧ t.boot.reason = BitVec.ofNat 8 r.2 ∧ t.pins.alarmLow = true ∧ t.pins.vioOut = true
      ∧ t.stroke.phase = .boot ∧ t.mem = [] ∧ t.ctxs = [])
    ∧ (∀ slot img, r.1 = some (slot, img) → ∃ t, o = .next t ∧ t.boot.done = true ∧ t.boot.slot = slot ∧ t.pins.vioOut = true
      ∧ t.boot.life = s.boot.next ∧ t.stroke.phase = .opened ∧ t.stroke.num = 1 ∧ t.stroke.attempt = 1
      ∧ (∀ n, n < 544 → n % 17 ≠ 16 →
          (t.ctx n 0).state = stReady ∧ (t.ctx n 0).level = lvD ∧ (t.ctx n 0).prio = 3 ∧ (t.nib n).active = true
            ∧ ∀ c, 1 ≤ c → c < 32 → t.ctx n c = {})))
  ∧ (∀ (s : State) (a b : List Byte),
    (s.imageErr a ≠ 0 → s.imageErr b ≠ 0 → (s.chooseImage a b).1 = none)
    ∧ (s.imageErr a ≠ 0 → s.imageErr b = 0 → (s.chooseImage a b).1 = some (true, b))
    ∧ (s.imageErr a = 0 → s.imageErr b ≠ 0 → (s.chooseImage a b).1 = some (false, a))
    ∧ (s.imageErr a = 0 → s.imageErr b = 0 → byteField b 8 2 ≤ byteField a 8 2 → (s.chooseImage a b).1 = some (false, a))
    ∧ (s.imageErr a = 0 → s.imageErr b = 0 → byteField a 8 2 < byteField b 8 2 → (s.chooseImage a b).1 = some (true, b)))
  ∧ (∀ (s : State) (img : List Byte), s.imageErr img = 0 →
    let l := imageLen img
    s.boot.fwmin.toNat ≤ byteField img 8 2 ∧ digest (slice img (l - 16272) 48) = fitBytes 32 s.keyHash
      ∧ Config.verifies (slice img (l - 16272) 48) (img.take (l - 16224)) (slice img (l - 16224) 16224) = true
      ∧ (byteField img 10 2 = 0xFFFF ∨ byteField img 10 2 = romRev))
  ∧ (∀ (s : State), s.powerOn.boot.life = s.boot.next ∧ s.powerOn.boot.status1 = 2
    ∧ (s.powerOn.power.unclean = false ↔ s.boot.status0 = 0x47535442 ∧ s.boot.status1 = 1)
    ∧ (s.boot.next = 4 → s.powerOn.hasIdentity = false))
  ∧ (∀ (s : State) (v : BitVec 4), s.boot.burning = some v →
    ∃ t, exec .lifecycleBurnDone s = .next t ∧ t.boot.next = v ∧ t.boot.burning = none ∧ t.boot.life = s.boot.life)

/-! ### Set-up registers -/

/-- R349, R358, R359, R503, R508 to R510: a write of a plain register changes the bits of its mask and nothing else; a clearing write clears
the flags it names when its SEQ is the register's, else nothing; a masked write changes the bits that its mask half names; a write that the
Rubric denies changes no register but the denial's record, and one of the debug master that a LOCK region closes is recorded and counted,
and shows success. R511: a write of a register that takes paired writes arms its page's guard with the offset, the value, the lane and the hub cycle,
and changes no register. -/
def Obligations.RegisterWritesAndFirstHalves : Prop :=
  (∀ (s : State) (lane : Fin 24) (pa : BitVec 40) (v : BitVec 32) (b : Blk), regsOk s = true → s.guardOf b = none →
    let o := regOff pa.toNat
    let a := b.base + o
    let wrote (out : Out) (x : BitVec 32) : Prop := ∃ t, out = .next t ∧ t.reg32 a = x ∧ (∀ r, r ≠ a → t.reg32 r = s.reg32 r)
      ∧ t.mem = s.mem ∧ t.staged = s.staged ∧ t.ctxs = s.ctxs
    (s.laneMay lane pa.toNat b → unpaired b o →
      (wscMask b o = 0 → rwMask b o ≠ 0 →
        wrote (exec (.setupRegisterWrite lane pa v) s) (underMask (s.reg32 a) v (rwMask b o)))
      ∧ (wscMask b o ≠ 0 → bits v 24 8 = bits (s.reg32 a) 24 8 →
        wrote (exec (.wscClear lane pa v) s) (s.reg32 a &&& ~~~(v &&& wscMask b o)))
      ∧ (wscMask b o ≠ 0 → bits v 24 8 ≠ bits (s.reg32 a) 24 8 →
        exec (.wscClear lane pa v) s = .next (s.wroteBy lane pa.toNat v)))
    ∧ (∀ w : Fin 8, b = .win w.val → s.laneMay lane (window w.val + 4) b →
      exec (.winFlags lane w v) s
        = .next ((s.setReg (window w.val + 4) (underMask (s.reg32 (window w.val + 4)) v (v >>> 16))).wroteBy lane (window w.val + 4) v))
    ∧ (s.laneWay lane.val pa.toNat .write = .denied →
      ∃ t, exec (.setupRegisterWrite lane pa v) s = .next t ∧ (t.reg32 (pgRUB + 0x34)).getLsbD 1 = true ∧ t.guards = s.guards
        ∧ t.staged = s.staged ∧ t.mem = s.mem ∧ t.ctxs = s.ctxs)
    ∧ (s.laneWay lane.val pa.toNat .write = .locked →
      ∃ t, exec (.setupRegisterWrite lane pa v) s = .next t ∧ (t.reg32 (pgRUB + 0x34)).getLsbD 2 = true ∧ t.guards = s.guards
        ∧ t.staged = s.staged ∧ t.mem = s.mem ∧ t.ctxs = s.ctxs ∧ t.dbg.accStatus = 1 ∧ t.dbg.tally = s.dbg.tally + 1))
  ∧ (∀ (s : State) (lane : Fin 24) (v : BitVec 32),
    let arms (out : Out) (a : Nat) (b : Blk) (o : Nat) : Prop :=
      s.laneMay lane a b → s.guardOf b = none → ∃ t, out = .next t ∧ t.guardOf b = some ⟨o, v, lane.val, s.hub⟩ ∧ t.regs = s.regs
        ∧ t.staged = s.staged ∧ t.rubStaged = s.rubStaged ∧ t.boot = s.boot ∧ t.mem = s.mem
    arms (exec (.rubStart lane v) s) (pgRUB + 0x10) .rub 0x10
    ∧ arms (exec (.rubEnd lane v) s) (pgRUB + 0x18) .rub 0x18
    ∧ arms (exec (.rubAttr lane v) s) (pgRUB + 0x20) .rub 0x20
    ∧ arms (exec (.stkPeriod lane v) s) pgSTK .stk 0
    ∧ arms (exec (.patEnable lane v) s) (pgPAT + 0x10) .pat 0x10
    ∧ (∀ p : Fin 8, arms (exec (.prtBind lane p v) s) (pgPRT + 0x40 * p.val) .prt (0x40 * p.val))
    ∧ arms (exec (.wasAssign lane v) s) pgWAS .was 0
    ∧ arms (exec (.pwrShed lane v) s) (pgPWR + 0x10) .pwr 0x10
    ∧ arms (exec (.lcsReq lane v) s) pgLCS .lcs 0)

/-- R345, R410, R466, R512 to R516, R547, R549, R572: the complement from the arming lane within 256 hub cycles completes the paired write,
and the register or its staged value takes the value, unless its block refuses the range; any other value, a timeout, or no matching
guard sets GUARD_ERR with its REASON and changes no staged value. -/
def Obligations.ComplementsCompletePairedWrites : Prop :=
  (∀ (s : State) (lane : Fin 24) (pa : BitVec 40) (v : BitVec 32) (b : Blk) (g : Guard), regsOk s = true → s.laneMay lane pa.toNat b →
    s.guardOf b = some g → s.hub ≤ g.at_ + 256 → (rwpOffsets b).contains g.off = true → regOff pa.toNat = g.off + 4 → g.lane = lane.val →
    let o := exec (.complementWrite lane pa v) s
    (v = ~~~g.val → o = .next (((s.setGuard b none).pairedTake b g.off g.val).wroteBy lane pa.toNat v))
    ∧ (v ≠ ~~~g.val → ∃ t, o = .next t ∧ t.guardOf b = none ∧ t.staged = s.staged ∧ t.rubStaged = s.rubStaged ∧ t.boot = s.boot
        ∧ ((s.reg32 (b.base + 0x3F0)).getLsbD 0 = false → t.guardErr b 1 lane.val)))
  ∧ (∀ (s : State) (lane : Fin 24) (pa : BitVec 40) (v : BitVec 32) (b : Blk), regsOk s = true → s.laneMay lane pa.toNat b →
    s.guardOf b = none → 4 ≤ regOff pa.toNat → (rwpOffsets b).contains (regOff pa.toNat) = false →
    (rwpOffsets b).contains (regOff pa.toNat - 4) = true →
    ∃ t, exec (.complementWrite lane pa v) s = .next t ∧ t.staged = s.staged ∧ t.rubStaged = s.rubStaged ∧ t.boot = s.boot
      ∧ ((s.reg32 (b.base + 0x3F0)).getLsbD 0 = false → t.guardErr b 5 lane.val))
  ∧ (∀ (s : State) (page : BitVec 40) (b : Blk) (g : Guard), regsOk s = true → blockAt page.toNat = some b → s.guardOf b = some g →
    g.lane < 24 → g.off < 1024 →
    ∃ t, exec (.guardTimeout page) s = .next t ∧ t.guardOf b = none ∧ t.staged = s.staged ∧ t.rubStaged = s.rubStaged
      ∧ ((s.reg32 (b.base + 0x3F0)).getLsbD 0 = false → t.guardErr b 3 g.lane))
  ∧ (∀ (s : State) (v : BitVec 32),
    let i := s.rubSel.1
    (s.rubSel.2 = false →
      mget rubDefault (s.pairedTake .rub 0x10 v).rubStaged i = { mget rubDefault s.rubStaged i with start := v }
      ∧ mget rubDefault (s.pairedTake .rub 0x18 v).rubStaged i = { mget rubDefault s.rubStaged i with last := v }
      ∧ mget rubDefault (s.pairedTake .rub 0x20 v).rubStaged i = { mget rubDefault s.rubStaged i with attr := v })
    ∧ (s.rubSel.2 = true → ∀ off, s.pairedTake .rub off v = s)
    ∧ (25 ≤ bits v 0 8 → bits v 0 8 ≤ 250 → mget regReset (s.pairedTake .stk 0 v).staged pgSTK = v &&& 0xFF)
    ∧ ((bits v 0 8 < 25 ∨ 250 < bits v 0 8) → (s.pairedTake .stk 0 v).staged = s.staged
        ∧ ((s.pairedTake .stk 0 v).reg32 (pgSTK + 0x1C)).getLsbD 0 = true)
    ∧ (mget regReset (s.pairedTake .pat 0x10 v).staged (pgPAT + 0x10) = v &&& 1)
    ∧ (∀ p, p < 8 → mget regReset (s.pairedTake .prt (0x40 * p) v).staged (pgPRT + 0x40 * p) = v &&& 0x80000007)
    ∧ (mget regReset (s.pairedTake .was 0 v).staged (wasKey (bits v 16 10)) = v &&& 0x83FF0007)
    ∧ (40 ≤ bits v 16 7 → bits v 16 7 ≤ 95 → bits v 8 4 ≤ 10 → bits v 0 3 ≤ 4 →
        mget regReset (s.pairedTake .pwr 0x10 v).staged (pgPWR + 0x10) = v &&& 0x7F0F07)
    ∧ ((bits v 16 7 < 40 ∨ 95 < bits v 16 7 ∨ 10 < bits v 8 4 ∨ 4 < bits v 0 3) → (s.pairedTake .pwr 0x10 v).staged = s.staged
        ∧ ((s.pairedTake .pwr 0x10 v).reg32 (pgPWR + 0x24)).getLsbD 5 = true)
    ∧ (bits v 0 3 = 3 → s.boot.life = 2 → s.boot.burning = none → (s.pairedTake .lcs 0 v).boot.burning = some 3)
    ∧ (bits v 0 3 = 4 → s.boot.life = 3 → s.boot.burning = none → (s.pairedTake .lcs 0 v).boot.burning
        = if s.dbg.scope.getLsbD 4 then some 4 else none))

/-- R279, R280, R307, R308, R345, R450, R451, R456: what the registers that give commands do. APPLY becomes pending for its own staged fields;
RUB.CTRL copies or clears the staged table; a patch load asks the steward's host for the image, or is refused with its reason, its
verification passes or refuses it, a discard drops it; an inkwell writes back and is disabled, or is enabled; a tally view holds,
releases, captures. -/
def Obligations.RegisterCommandsAct : Prop :=
  ∀ (s : State) (lane : Fin 24),
    let next (o : Out) (f : State → Prop) : Prop := ∃ t, o = .next t ∧ t.mem = s.mem ∧ t.ctxs = s.ctxs ∧ f t
    let may (a : Nat) (b : Blk) : Prop := s.laneMay lane a b ∧ s.guardOf b = none
    let ink (t : State) (k : Nat) : BitVec 4 := mget (fun _ => 0) t.inkState k
    (∀ v : BitVec 32, v.getLsbD 0 = true →
      (may (pgSTK + 8) .stk → next (exec (.stkApply lane v) s) fun t => (t.apply' 8).pend = true ∧ (∀ k, k ≠ 8 → t.apply' k = s.apply' k)
        ∧ t.regs = s.regs ∧ t.staged = s.staged)
      ∧ ∀ w : Fin 8, may (window w.val) (.win w.val) → next (exec (.winApply lane w v) s) fun t => (t.apply' w.val).pend = true
        ∧ (∀ k, k ≠ w.val → t.apply' k = s.apply' k) ∧ t.regs = s.regs ∧ t.staged = s.staged)
    ∧ (may (pgRUB + 4) .rub →
      (next (exec (.rubCopyActive lane) s) fun t => t.rubStaged = s.rubActive ∧ t.rubActive = s.rubActive)
      ∧ (next (exec (.rubClearStaged lane) s) fun t => t.rubActive = s.rubActive
        ∧ ∀ i, (mget rubDefault t.rubStaged i).valid = false
            ∧ (mget rubDefault t.rubStaged i).start = (mget rubDefault s.rubStaged i).start
            ∧ (mget rubDefault t.rubStaged i).last = (mget rubDefault s.rubStaged i).last))
    ∧ (may pgPAT .pat →
      (s.patch.active = false → s.patch.loading = false → (s.reg32 (pgPAT + 4)).toNat = 26832 →
        next (exec (.patchLoad lane) s) fun t => t.patch.state = 1 ∧ t.hostReads = s.hostReads
          ++ [{ port := s.boot.steward, addr := (s.reg32 (pgPAT + 8)).toNat + 2 ^ 32 * (s.reg32 (pgPAT + 0xC)).toNat, len := 26832,
                why := .patch }])
      ∧ (s.patch.active = false → s.patch.loading = false → (s.reg32 (pgPAT + 4)).toNat ≠ 26832 →
        next (exec (.patchLoad lane) s) fun t => t.patch.state = 4 ∧ t.patch.err = 2 ∧ t.hostReads = s.hostReads)
      ∧ ((s.patch.active = true ∨ s.patch.loading = true) →
        next (exec (.patchLoad lane) s) fun t => t.patch.state = 4 ∧ t.patch.err = 1 ∧ t.hostReads = s.hostReads)
      ∧ (s.patch.active = false → s.patch.state = 3 →
        next (exec (.patchDiscard lane) s) fun t => t.patch.state = 0 ∧ t.patch.verified = [])
      ∧ (s.patch.active = true → exec (.patchDiscard lane) s = .next (s.wroteBy lane pgPAT 2)))
    ∧ (s.patch.loading = true → s.patch.image.length = 26832 →
      (s.patchErr s.patch.image = 0 → next (exec .patchVerifyDone s) fun t => t.patch.state = 3 ∧ t.patch.verified = s.patch.image)
      ∧ (s.patchErr s.patch.image ≠ 0 → next (exec .patchVerifyDone s) fun t => t.patch.state = 4
          ∧ t.patch.err = BitVec.ofNat 8 (s.patchErr s.patch.image) ∧ t.patch.verified = s.patch.verified))
    ∧ (∀ k : Fin 8,
      (may (pgINK k.val) (.ink k.val) →
        (ink s k.val = 0 → next (exec (.inkwellDisable lane k) s) fun t => ink t k.val = 1 ∧ t.ink = s.ink)
        ∧ (ink s k.val ≠ 0 → exec (.inkwellDisable lane k) s = .next (s.wroteBy lane (pgINK k.val) 0))
        ∧ (ink s k.val = 1 → next (exec (.inkwellEnable lane k) s) fun t => ink t k.val = 0)
        ∧ (ink s k.val = 2 → next (exec (.inkwellEnable lane k) s) fun t => ink t k.val = 0 ∧ t.ink = s.ink))
      ∧ (ink s k.val = 1 → next (exec (.inkwellWritebackDone k) s) fun t => ink t k.val = 2
          ∧ ∀ e ∈ t.ink, stackOf e.1 = k.val → e.2.dirty = false ∧ e.2.data = false))
    ∧ (∀ view : Fin 9,
      let b : Blk := if view.val < 8 then .wtal view.val else .tal
      (may (talBase view.val) b → (next (exec (.tallyHold lane view) s) fun t => (t.latch view.val).held = some s.snap)
        ∧ next (exec (.tallyRelease lane view) s) fun t => (t.latch view.val).held = none)
      ∧ (s.laneWay lane.val (talBase view.val + 0x10) .read = .go b →
          next (exec (.talDataloRead lane view) s) fun t =>
            t.hostOut = s.hostOut ++ [.regData lane.val ((s.talCounter view.val).setWidth 32)]
            ∧ ((s.latch view.val).held = none → (t.latch view.val).data = s.talCounter view.val)))

/-- R128, R424, R450, R451, R471, R472, R549, R550: captured fields act. A captured period is in effect, and the APPLY is done; a staged
assignment gives the nib to its ward with contexts 1 to 31 and caches cleared, or is refused while a context is not IDLE; a ring that
becomes enabled meets Table 12-6, and a refused one is not enabled. -/
def Obligations.CapturedFieldsAct : Prop :=
  (∀ (s : State) (v : BitVec 32), regsOk s = true → (s.apply' 8).captured = true →
    (s.apply' 8).vals = [(pgSTK, v)] → (∀ k, k < 8 → (s.apply' k).captured = false) → s.stroke.rubOk = none →
    s.applyAll.reg32 pgSTK = v ∧ (s.applyAll.apply' 8).captured = false ∧ (∀ r, r ≠ pgSTK → s.applyAll.reg32 r = s.reg32 r)
      ∧ s.applyAll.mem = s.mem ∧ s.applyAll.ctxs = s.ctxs)
  ∧ (∀ (s : State) (v : BitVec 32), regsOk s = true →
    let n := bits v 16 10
    let w := bits v 0 3
    let t := s.applyAssign v
    (n < 544 → (s.nib n).active = true → v.getLsbD 31 = true → s.assigned n ≠ some w →
      ((∀ c, 1 ≤ c → c < 32 → (s.ctx n c).state = stIdle) →
        t.assigned n = some w ∧ t.xlValid n = true ∧ t.xlWard n = w ∧ t.mem = s.mem
          ∧ (t.nib n).l1 = [] ∧ (t.nib n).blotter = [] ∧ (t.nib n).icache = [] ∧ (t.nib n).tlb = []
          ∧ (∀ c, 1 ≤ c → c < 32 → (t.ctx n c).regs = [] ∧ (t.ctx n c).state = stIdle ∧ (t.ctx n c).queue = []) ∧ t.ctx n 0 = s.ctx n 0)
      ∧ (∀ c, 1 ≤ c → c < 32 → (s.ctx n c).state ≠ stIdle → t.assign = s.assign ∧ t.ctxs = s.ctxs ∧ t.nibs = s.nibs
          ∧ bits (t.reg32 (pgWAS + 8)) 28 4 = 2))
    ∧ (544 ≤ n → t.assign = s.assign ∧ t.nibs = s.nibs ∧ bits (t.reg32 (pgWAS + 8)) 28 4 = 2))
  ∧ (∀ (s : State) (vals : Map (BitVec 32)) (w r : Nat), (s.ring w r).en = false →
    let k := (s.applyRing vals w r).ring w r
    (k.en = true → 4 ≤ k.sqlog ∧ k.sqlog ≤ 12 ∧ 4 ≤ k.cqlog ∧ k.cqlog ≤ 16 ∧ k.sq % 64 = 0 ∧ k.cq % 16 = 0
      ∧ (1 ≤ k.vec ∧ k.vec ≤ 64 ∨ k.vec = 0x7F) ∧ s.bound k.port = some w ∧ k.result = 1 ∧ k.head = 0 ∧ k.tail = 0
      ∧ (r ≠ 0 → s.wcnAt w (BitVec.ofNat 64 k.wcn) ≠ none ∧ s.areaOk w k.port k.xpa = true
          ∧ ∀ q, 1 ≤ q → q < 64 → q ≠ r → s.stays vals w q = true → (s.ring w q).wcn ≠ k.wcn))
    ∧ (∀ c, (ringOffsets.any fun o => vals.any fun e => e.1 == ringKey w r o) = true → (ringOf s vals w r).en = true →
      s.ringCheck vals w r (ringOf s vals w r) = .error c → k.en = false ∧ k.result = c))

/-- R224, R325, R526 to R528, R604: translation registers of a nib take writes only while its ward contexts are IDLE; context control reads
an item into the data registers, writes one in a context that is IDLE or FROZEN, starts an IDLE context, resumes a FROZEN one from
its D save set, and asks for a stop or freeze, which takes effect at once in a context that does not run and else at its boundary;
what it may not do sets REFUSED and changes no context. -/
def Obligations.ContextControlActs : Prop :=
  ∀ (s : State) (lane : Fin 24) (n : Fin 544), regsOk s = true →
    let next (o : Out) (f : State → Prop) : Prop := ∃ t, o = .next t ∧ t.mem = s.mem ∧ f t
    let may (a : Nat) (b : Blk) : Prop := s.laneMay lane a b ∧ s.guardOf b = none
    let c := (s.ctxSel n.val).1
    let item := (s.ctxSel n.val).2.1
    let idx := (s.ctxSel n.val).2.2
    let x := s.ctx n.val c
    let told (t : State) (b : Bool) : Prop := t.reg32 (ctxPage n.val + 8) = if b then 1 else 0
    let refused (o : Out) : Prop := next o fun t => told t true ∧ t.ctxs = s.ctxs ∧ t.nibs = s.nibs
    let done (o : Out) (f : Context → Prop) : Prop := next o fun t => told t false ∧ f (t.ctx n.val c)
      ∧ ∀ d, d < 32 → d ≠ c → t.ctx n.val d = s.ctx n.val d
    let stops (o : Out) (r : StopReq) : Prop :=
      (c = 0 → refused o)
      ∧ (c ≠ 0 → x.state ≠ stIdle → x.state ≠ stFrozen → done o fun y => y.stopReq = some r ∧ y.state = x.state ∧ y.pc = x.pc)
      ∧ (c ≠ 0 → (x.state = stIdle ∨ x.state = stFrozen) →
          done o fun y => y.state = (if r = .stop then stIdle else stFrozen) ∧ y.parked = none ∧ y.routine = none)
    (∀ (hi : Bool) (v : BitVec 32),
      let a := nibPage n.val + if hi then 4 else 0
      (may a (.nib n.val) →
        ((∀ d, 1 ≤ d → d < 32 → (s.ctx n.val d).state = stIdle) → next (exec (.xlRootWrite lane n hi v) s) fun t =>
          t.reg32 a = (v &&& if hi then 0xFF else 0xFFFFFE00) ∧ (∀ r, r ≠ a → t.reg32 r = s.reg32 r) ∧ t.ctxs = s.ctxs)
        ∧ (∀ d, 1 ≤ d → d < 32 → (s.ctx n.val d).state ≠ stIdle →
            exec (.xlRootWrite lane n hi v) s = .next (s.wroteBy lane a v)))
      ∧ (may (nibPage n.val + 8) (.nib n.val) →
        ((∀ d, 1 ≤ d → d < 32 → (s.ctx n.val d).state = stIdle) → next (exec (.xlWardWrite lane n v) s) fun t =>
          t.reg32 (nibPage n.val + 8) = v &&& 0x80000007 ∧ t.ctxs = s.ctxs)
        ∧ (∀ d, 1 ≤ d → d < 32 → (s.ctx n.val d).state ≠ stIdle →
            exec (.xlWardWrite lane n v) s = .next (s.wroteBy lane (nibPage n.val + 8) v))))
    ∧ (may (ctxPage n.val + 4) (.ctx n.val) →
      (c ≠ 0 → x.state = stIdle → done (exec (.ctxStart lane n) s) fun y => y.state = stReady ∧ y.pc = x.pc ∧ y.regs = x.regs)
      ∧ ((c = 0 ∨ x.state ≠ stIdle) → refused (exec (.ctxStart lane n) s))
      ∧ stops (exec (.ctxStop lane n) s) .stop ∧ stops (exec (.ctxFreeze lane n) s) .freeze
      ∧ (s.changeable n.val c = true → x.state = stFrozen → x.saveD.live = true → done (exec (.ctxResume lane n) s) fun y =>
          y.state = stReady ∧ y.pc = x.saveD.pc ∧ y.saveD.live = false ∧ y.regs = x.regs)
      ∧ (s.changeable n.val c = false → refused (exec (.ctxResume lane n) s)
          ∧ (∀ m : Meets, m.agree = true → m.errs = [] → refused (exec (.ctxWrite lane ⟨n, m⟩) s)))
      ∧ (item = 0 → idx < 144 → x.unfetched.getLsbD (idx / 8) = false → ∀ m : Meets, m.agree = true →
        (next (exec (.ctxRead lane ⟨n, m⟩) s) fun t => told t false ∧ t.ctxData n.val = (x.settle (c == 0) (s.now n.val)).reg idx)
        ∧ (s.changeable n.val c = true → idx ≠ 0 → mwf regDefault x.regs = true → reservedWord (s.ctxData n.val) = false →
          badHeader (s.ctxData n.val) = false → (s.ctxData n.val).typ ≠ Ty.forward → (s.ctxData n.val).typ ≠ Ty.spill →
          done (exec (.ctxWrite lane ⟨n, m⟩) s) fun y => y.reg idx = { unmarked (s.ctxData n.val) with cdr := 0 }
              ∧ ∀ j, j ≠ idx → y.reg j = (x.settle (c == 0) (s.now n.val)).reg j))
      ∧ (10 < item → ∀ m : Meets, m.agree = true → next (exec (.ctxRead lane ⟨n, m⟩) s) fun t =>
          told t true ∧ t.ctxData n.val = s.ctxData n.val)
      ∧ (∀ m : Meets, m.agree = false →
          (∃ t, exec (.ctxRead lane ⟨n, m⟩) s = .next t ∧ s.votes t lane.val (ctxPage n.val + 4))
          ∧ ∃ t, exec (.ctxWrite lane ⟨n, m⟩) s = .next t ∧ s.votes t lane.val (ctxPage n.val + 4)))
    ∧ (∀ d : Fin 32, ∀ r, (s.ctx n.val d.val).stopReq = some r → (s.ctx n.val d.val).stdy = false → (s.ctx n.val d.val).xfer = none →
      (s.ctx n.val d.val).awaits = false → (s.ctx n.val d.val).bare = false → (s.ctx n.val d.val).faultsDue = false →
      s.checkDue n.val d.val = false → ((s.ctx n.val d.val).inRoutine = true → (s.ctx n.val d.val).parked ≠ none) →
      next (exec (.stopRequestAct n d) s) fun t =>
        (t.ctx n.val d.val).state = (if r = .stop then stIdle else stFrozen) ∧ (t.ctx n.val d.val).stopReq = none
          ∧ (t.nib n.val).running ≠ some d.val)

/-! ### Ring commands -/

/-- R477, R486, R493 to R496, R498, R558: the commands that move no heap words. A command due is answered at once, or starts an operation with
its ACCEPT record, or waits for the boundary; one with a bad field ends with INVALID_FIELD, one that ring 0 does not take with
INVALID_OPCODE; and the records carry the command's tag and its place. -/
def Obligations.ShortCommandsAndRequests : Prop :=
  ∀ (s : State) (w : Fin 8) (d : List Byte),
    let i := (s.ward w.val).started
    let bad (r : BitVec 64) : Out := .next (s.answered w d 0x02 r)
    let asked (k : ReqKind) : Out := .next ((s.takeCmd w.val).ask w.val k d i)
    let next (o : Out) (f : State → Prop) : Prop := ∃ t, o = .next t ∧ t.mem = s.mem ∧ f t
    (s.commandDue w d 0 → exec (.nopCommand w) s = .next (s.answered w d 0x00 0))
    ∧ (s.commandDue w d 0xD → next (exec (.fence w) s) fun t => t.staging = s.staging ∧ (t.ward w.val).fences = (s.ward w.val).fences ++ [(d, i)])
    ∧ (s.commandDue w d 0xE → exec (.suspend w) s = asked .suspend)
    ∧ (s.commandDue w d 0xF → exec (.resume w) s = asked .resume)
    ∧ (s.commandDue w d 0x10 → exec (.cancel w) s = asked .cancel)
    ∧ (s.commandDue w d 0xA →
      (byteField d 16 1 ≤ 1 → next (exec (.query w) s) fun t => t.staging = s.staging
        ++ [.data (s.cmdPort w.val) (byteField d 8 8) ((s.takeCmd w.val).queryBlock w.val (byteField d 16 1)) false,
            .record (finalRecord w.val d i 0x00 0)])
      ∧ (1 < byteField d 16 1 → exec (.query w) s = bad 0))
    ∧ (s.commandDue w d 0xB →
      (byteField d 16 4 = 64 → next (exec (.policy w) s) fun t => t.staging = s.staging
        ∧ (t.ward w.val).policyWait = (s.ward w.val).policyWait ++ [(d, i)]
        ∧ t.hostReads = (s.askHost (s.cmdPort w.val) (byteField d 8 8) 64 (.envelope w.val)).hostReads)
      ∧ (byteField d 16 4 ≠ 64 → exec (.policy w) s = bad 0xFF))
    ∧ (s.commandDue w d 0xC →
      (17344 ≤ byteField d 16 4 → exec (.attest w) s = .next (s.begun w d 1))
      ∧ (byteField d 16 4 < 17344 → exec (.attest w) s = bad 0))
    ∧ (s.commandDue w d 7 →
      (byteField d 8 8 ≤ 2 → next (exec (.collect w) s) fun t => (t.ward w.val).ops = ((s.begun w d 0).ward w.val).ops
        ∧ ((s.collOf w.val).phase = .idle → (s.collOf w.val).start = none → (t.collOf w.val).start = some (byteField d 8 8))
        ∧ ((s.collOf w.val).phase ≠ .idle → t.coll = s.coll))
      ∧ (2 < byteField d 8 8 → exec (.collect w) s = bad 0))
    ∧ (s.commandDue w d 0x11 →
      let v := byteField d 8 1
      (v ≤ 7 → (v = w.val ∨ s.stewardWard = some w.val) → exec (.wardReset w) s = .next (s.begun w d (s.sheetsOf v).length))
      ∧ ((7 < v ∨ (v ≠ w.val ∧ s.stewardWard ≠ some w.val)) → exec (.wardReset w) s = bad 0))
    ∧ (s.nextCmd w.val = some d → definedOp (descOp d) = false → exec (.nopCommand w) s = .next (s.answered w d 0x01 0))
    ∧ (s.nextCmd w.val = some d → descOp d = 0 → descClean d = false → exec (.nopCommand w) s = bad 0)
    ∧ (∀ st res, (s.answered w d st res).staging = s.staging ++ [.record (finalRecord w.val d i st res)])
    ∧ (∀ total, ∃ rec, (s.begun w d total).staging = s.staging ++ [.record rec] ∧ rec.status = 0x00 ∧ rec.flags = 2
        ∧ rec.tag = BitVec.ofNat 32 (descTag d)
        ∧ ∃ o, ((s.begun w d total).ward w.val).ops = (s.ward w.val).ops ++ [o] ∧ o.desc = d ∧ o.total = total ∧ o.done = 0
            ∧ o.num = (s.ward w.val).opNext ∧ ((s.ward w.val).ops.length < 16 → o.slot < 16 ∧ ∀ p ∈ (s.ward w.val).ops, p.slot ≠ o.slot))

/-- R487 to R492: the commands that move heap words start. IMAGE_LOAD, IMPORT, EXPORT, COPY, HEAP_VERIFY and SCRUB become operations, or end
with INVALID_FIELD when an operand is out of range; IMAGE_LOAD asks the host for both arrays; SPAWN makes an IDLE context READY with
its pc, level, priority, argument and WCN. -/
def Obligations.DataCommandsStart : Prop :=
  ∀ (s : State) (w : Fin 8) (d : List Byte) (x : Meets),
    let i := (s.ward w.val).started
    let next (o : Out) (f : State → Prop) : Prop := ∃ t, o = .next t ∧ f t
    let bad : Out := .next (s.answered w d 0x02 0)
    let moves (o : Out) (va n : Nat) : Prop :=
      (va % 8 = 0 → n % 8 = 0 → 8 ≤ n → n ≤ 2 ^ 40 → va + n ≤ 2 ^ 48 → o = .next (s.begun w d (n / 8)))
      ∧ ((va % 8 ≠ 0 ∨ n % 8 ≠ 0 ∨ n < 8 ∨ 2 ^ 40 < n ∨ 2 ^ 48 < va + n) → o = bad)
    (s.commandDue w d 4 → moves (exec (.importCmd ⟨w, x⟩) s) (byteField d 16 8) (byteField d 24 8))
    ∧ (s.commandDue w d 5 → moves (exec (.exportCmd ⟨w, x⟩) s) (byteField d 24 8) (byteField d 32 8))
    ∧ (s.commandDue w d 6 →
      let a := byteField d 8 8
      let b := byteField d 16 8
      let n := byteField d 24 8
      (byteField d 32 1 ≤ 7 → a % 8 = 0 → b % 8 = 0 → n ≤ 2 ^ 37 → a + 8 * n ≤ 2 ^ 48 → b + 8 * n ≤ 2 ^ 48 →
        exec (.copyCmd ⟨w, x⟩) s = .next (s.begun w d n))
      ∧ ((7 < byteField d 32 1 ∨ a % 8 ≠ 0 ∨ b % 8 ≠ 0 ∨ 2 ^ 37 < n ∨ 2 ^ 48 < a + 8 * n ∨ 2 ^ 48 < b + 8 * n) →
          exec (.copyCmd ⟨w, x⟩) s = bad))
    ∧ (s.commandDue w d 1 → byteField d 24 8 % 8 = 0 → byteField d 32 4 ≠ 0 →
      s.sheetsOk w.val (byteField d 24 8) (8 * byteField d 32 4) true = true →
      next (exec (.imageLoad ⟨w, x⟩) s) fun t => (t.ward w.val).ops = ((s.begun w d (byteField d 32 4)).ward w.val).ops ∧ t.mem = s.mem
        ∧ ∃ k, t.hostReads = ((s.askHost (s.cmdPort w.val) (byteField d 8 8) (8 * byteField d 32 4) (.op w.val k 0)).askHost
            (s.cmdPort w.val) (byteField d 16 8) (2 * byteField d 32 4) (.op w.val k 1)).hostReads)
    ∧ (s.commandDue w d 8 → exec (.heapVerify ⟨w, x⟩) s = .next (s.begun w d (s.sheetsOf w.val).length))
    ∧ (s.commandDue w d 9 → exec (.scrub ⟨w, x⟩) s = .next (s.begun w d (s.sheetsOf w.val).length))
    ∧ (s.commandDue w d 2 → s.roomFor 80 = true → ∀ n c cs, byteField d 48 1 < 12 → byteField d 48 1 % 4 ≤ 1 → byteField d 49 1 = 0 →
      s.spawnRange w.val (byteField d 16 8) (byteField d 40 4) = true → s.spawnRange w.val (byteField d 24 8) (byteField d 44 4) = true →
      (byteField d 50 2 = 0xFFFF ∨ (s.wardNibs w.val).contains (byteField d 50 2) = true) →
      s.spawnNib w.val (byteField d 50 2) = some n → s.idleCtxs n = c :: cs → (s.nib n).parkedBy = 0 →
      next (exec (.spawn w) s) fun t => t.mem = s.mem ∧ (t.ctx n c).state = stReady
        ∧ (t.ctx n c).pc = BitVec.ofNat 64 (byteField d 8 8) &&& ~~~(7#64) ∧ (t.ctx n c).level.toNat = byteField d 48 1 % 4
        ∧ (t.ctx n c).prio = byteField d 48 1 / 4 ∧ (t.ctx n c).reg 1 = Word.fx (BitVec.ofNat 64 (byteField d 32 8))
        ∧ mget (fun _ => 0) (t.ward w.val).wcns (s.freeWcn w.val) = key n c
        ∧ t.staging = s.staging ++ [.record (finalRecord w.val d i 0x00 (BitVec.ofNat 64 (s.freeWcn w.val + n * 65536)))])

/-- R68, R182, R212, R354, R355, R480 to R484, R489, R491, R492: the operations that move heap words go on line by line: import writes RAW
words where the ward's map and the Rubric let it and keeps HEADER, FORWARD, XLATE and SPILL words; copy keeps immediate words and
makes others RAW; export stages payloads and tags; an image's word that passes its rules is stored with COLOUR 0, and a bad one ends
the load; a scrub goes on to the next sheet; each ends with its STATUS when done. A line over which the Rubric's replicas disagree is a
machine check. POST takes a service ring's next descriptor and posts the record. -/
def Obligations.DataCommandsMoveWords : Prop :=
  (∀ (s u : State) (w : Fin 8) (o : Op) (x : Meets), memOk s = true →
    let p := s.cmdPort w.val
    let k := o.done + o.dropped
    let reads (l : Nat) : Prop := s.meets (fun j => j == l) x u
    let writes (l : Nat) : Prop := s.meets (fun j => j == l && !s.logged l) x u
    let ends (out : Out) (st : BitVec 8) (res : BitVec 64) : Prop := out = .next (s.endOp w.val o.slot st res)
    (s.works w 4 o →
      (o.total ≤ k → ends (exec (.importCmd ⟨w, x⟩) s) 0x00 (moveResult o))
      ∧ (k < o.total → o.got0 = none → (s.hostReads.any fun h => h.why == .op w.val o.slot 0) = false →
        ∃ t, exec (.importCmd ⟨w, x⟩) s = .next t ∧ t.mem = s.mem
          ∧ t.hostReads = (s.askHost p (byteField o.desc 8 8 + 8 * k) (min importChunk (8 * (o.total - k))) (.op w.val o.slot 0)).hostReads)
      ∧ (∀ bs a, k < o.total → o.got0 = some bs → s.cmdBlock p w.val w.val (byteField o.desc 16 8 + 8 * k) .write = .ok a → a % 8 = 0 →
        s.held (lineOf a) = false →
        (writes (lineOf a) → (∀ j, j < 8 → isCapType (u.word (lineOf a + 8 * j)).typ = false) →
          let n := min (toLineEnd a) (bs.length / 8)
          ∃ t, exec (.importCmd ⟨w, x⟩) s = .next t
            ∧ (∀ j, j < n → t.word (a + 8 * j) = if hostKeeps (u.word (a + 8 * j)) then u.word (a + 8 * j)
                else Word.rawOf (BitVec.ofNat 64 (leNat ((bs.drop (8 * j)).take 8))))
            ∧ ∀ b, outsideGrey b → (b / 8 < a / 8 ∨ a / 8 + n ≤ b / 8) → t.word b = u.word b)
        ∧ (x.agree = false → ∃ t, exec (.importCmd ⟨w, x⟩) s = .next t ∧ s.votes t (12 + p) (lineOf a))))
    ∧ (s.works w 5 o →
      (o.total ≤ o.done → ends (exec (.exportCmd ⟨w, x⟩) s) (if o.poison then 0x0C else 0x00) (exportResult o))
      ∧ (∀ a, o.done < o.total → s.stageRoom p 80 = true → s.cmdBlock p w.val w.val (byteField o.desc 24 8 + 8 * o.done) .read = .ok a →
        reads (lineOf a) →
        let n := min (toLineEnd a) (o.total - o.done)
        let part := ((u.line (lineOf a)).drop (a % 64 / 8)).take n
        ∃ t, exec (.exportCmd ⟨w, x⟩) s = .next t ∧ t.mem = u.mem ∧ t.staging = s.staging
          ++ (.data p (byteField o.desc 8 8 + 8 * o.done) (payBytes part) (poisoned (u.line (lineOf a)))
            :: if byteField o.desc 16 8 = 0 then [] else [.data p (byteField o.desc 16 8 + 2 * o.done) (tagBytes part) false])))
    ∧ (s.works w 6 o →
      (o.total ≤ k → ends (exec (.copyCmd ⟨w, x⟩) s) (if o.poison then 0x0C else 0x00) (moveResult o))
      ∧ (∀ a b, k < o.total → s.cmdBlock p w.val (byteField o.desc 32 1) (byteField o.desc 8 8 + 8 * k) .read = .ok a → reads (lineOf a) →
        let n := min (o.total - k) (min (toLineEnd a) (toLineEnd (byteField o.desc 16 8 + 8 * k)))
        let ws := ((((u.line (lineOf a)).drop (a % 64 / 8)).take n).map copyWord)
        u.cmdBlock p w.val w.val (byteField o.desc 16 8 + 8 * k) (accOf ws) = .ok b → b % 8 = 0 → b % 64 = (byteField o.desc 16 8 + 8 * k) % 64 →
        u.held (lineOf b) = false → (∀ j, j < 8 → isCapType (u.word (lineOf b + 8 * j)).typ = false) →
        ∃ t, exec (.copyCmd ⟨w, x⟩) s = .next t
          ∧ (∀ j y, ws[j]? = some y → t.word (b + 8 * j) = if hostKeeps (u.word (b + 8 * j)) then u.word (b + 8 * j) else y)
          ∧ ∀ c, outsideGrey c → (c / 8 < b / 8 ∨ b / 8 + n ≤ c / 8) → t.word c = u.word c))
    ∧ (s.works w 1 o → o.total ≤ o.done → ends (exec (.imageLoad ⟨w, x⟩) s) 0x00 (imageResult o 0))
    ∧ (∀ pay tag, s.works w 1 o → o.done < o.total → o.got0 = some pay → o.got1 = some tag →
      (imageWordOk pay tag (byteField o.desc 24 8) o.total o.done = false → ends (exec (.imageLoad ⟨w, x⟩) s) 0x07 (imageResult o o.done))
      ∧ (∀ a, imageWordOk pay tag (byteField o.desc 24 8) o.total o.done = true →
        s.cmdBlock p w.val w.val (byteField o.desc 24 8 + 8 * o.done) (accOf [{ arrayWord pay tag o.done with col := 0 }]) = .ok a →
        a % 8 = 0 → inHeap a = true → s.held (lineOf a) = false → s.roomFor 2 = true → writes (lineOf a) →
        isCapType (u.word (a - a % 16)).typ = false → isCapType (u.word (a - a % 16 + 8)).typ = false →
        ∃ t, exec (.imageLoad ⟨w, x⟩) s = .next t ∧ t.word a = { arrayWord pay tag o.done with col := 0 }
          ∧ (∃ q ∈ (t.ward w.val).ops, q.slot = o.slot ∧ q.done = o.done + 1)
          ∧ ∀ b, inHeap b = true → b / 8 ≠ a / 8 → t.word b = u.word b))
    ∧ (s.works w 9 o →
      ((s.sheetsOf w.val)[o.done]? = none → ends (exec (.scrub ⟨w, x⟩) s) 0x00 (scrubResult o))
      ∧ (∀ h e, (s.sheetsOf w.val)[o.done]? = some h → s.workEngine w.val = some e → s.meets (fun l => sheetOf l == h) x u →
        (∀ i, i < 524288 → s.mayBy (some e) .read (h * sheetBytes + 64 * i) = true) →
        ∃ t, exec (.scrub ⟨w, x⟩) s = .next t ∧ t.mem = u.mem ∧ ∃ q ∈ (t.ward w.val).ops, q.slot = o.slot ∧ q.done = o.done + 1))
    ∧ (s.works w 8 o → (s.sheetsOf w.val)[o.done]? = none →
      ends (exec (.heapVerify ⟨w, x⟩) s) (if o.aux = 0 then 0x00 else 0x08) (verifyResult o)))
  ∧ (∀ (s : State) (w : Fin 8) (r : Fin 64) (rec0 rec1 : BitVec 64) (n c : Nat), memOk s = true →
    let k := s.ring w.val r.val
    let u := (s.xword k 0x2008).pay.toNat % k.size
    let q := (s.xword k 0x2010).pay.toNat
    let d := (s.word (k.xpa + 64 * (u % 64))).pay
    let slot := 0x1000 + 16 * (q % 256)
    let may (a : Acc) (o : Nat) : Prop := s.rubAllows (s.nibAsker n c (s.ctx n c).level) a (k.xpa + o) = true
    r.val ≠ 0 → k.en = true → s.takesInput = true → s.wcnAt w.val (BitVec.ofNat 64 k.wcn) = some (n, c) → (s.nib n).active = true →
    (s.nib n).parkedBy = 0 → (s.ctx n c).state ≠ stIdle → (s.ctx n c).state ≠ stFrozen → k.xpa % 64 = 0 → q < 2 ^ 32 →
    (k.tail + k.size - u) % k.size ≠ 0 → k.pendSlots.contains u = false → may .read 0x2008 → may .read (64 * (u % 64)) → q - (s.xword k 0x2018).pay.toNat < 256 →
    s.stroke.used + 72 * 8 ≤ s.budget → (∀ a, k.xpa ≤ a → a < k.xpa + 0x4000 → isCapType (s.word a).typ = false) →
    may .write slot → may .write (slot + 8) → may .writeT 0x2008 → may .writeT 0x2010 →
    ∃ t, exec (.post w r rec0 rec1) s = .next t
      ∧ (∀ o v, (o, v) ∈ [(slot, if bits d 0 8 = 3 then rec0 else BitVec.ofNat 64 (bits d 32 32 + 2 ^ 48)),
            (slot + 8, if bits d 0 8 = 3 then rec1 else 0)] →
          (t.word (k.xpa + o)).typ = Ty.raw ∧ (t.word (k.xpa + o)).pay = v)
      ∧ (t.word (k.xpa + 0x2010)).typ = Ty.fixnum ∧ (t.word (k.xpa + 0x2010)).pay = BitVec.ofNat 64 (q + 1)
      ∧ (t.word (k.xpa + 0x2008)).typ = Ty.fixnum ∧ (t.word (k.xpa + 0x2008)).pay = BitVec.ofNat 64 ((u + 1) % k.size)
      ∧ (∀ b, outsideGrey b → (b < k.xpa ∨ k.xpa + 0x4000 ≤ b) → t.word b = s.word b))

/-! ### Debug, management, data from hosts -/

/-- R66, R355, R358, R359, R580 to R585: the debug port below shed level 1: each TAP instruction becomes current and shifts out its register; a challenge
is kept for one token; a token that passes every check adds its scopes, any other adds none, and passing needs this part's serial number,
the last challenge and a signature that verifies; the debug master's accesses are stopped by LOCK regions (POISON), by scope and by the
Rubric, and otherwise read or write; above level 0 the port does not answer. -/
def Obligations.DebugPortAnswers : Prop :=
  (∀ (s : State), s.debugOn = true →
    let shows (o : Out) (ir : BitVec 8) (dr : List Bool) (f : State → Prop) : Prop :=
      ∃ t, o = .next t ∧ t.hostOut = s.hostOut ++ [.tdo dr] ∧ t.dbg.ir = ir ∧ f t
    let still (t : State) : Prop := t.mem = s.mem ∧ t.regs = s.regs ∧ t.dbg.scope = s.dbg.scope
    shows (exec .idcode s) 0x01 (numBits 32 (0x9640 * 2 ^ 12 + 0x2B5 * 2 + 1)) still
    ∧ shows (exec .samplePreload s) 0x02 s.scanReg still ∧ shows (exec .extest s) 0x03 s.scanReg still
    ∧ (s.blank = false → s.dbg.scope.getLsbD 2 = false → s.scanReg = [false])
    ∧ (∀ c, shows (exec (.bypass c) s) c [false] still)
    ∧ (∃ t, exec .tapReset s = .next t ∧ t.dbg.ir = 0x01 ∧ t.hostOut = s.hostOut ∧ t.mem = s.mem)
    ∧ shows (exec .nvsChallenge s) 0x20 (byteBits s.challengeBytes) (fun t => t.dbg.challenge = some s.nonce ∧ t.tick = s.tick + 1)
    ∧ (∀ tok, shows (exec (.nvsUnlock tok) s) 0x21 [] fun t => t.dbg.checking = some (fitBytes 16336 tok, s.dbg.challenge)
        ∧ t.dbg.challenge = none ∧ t.dbg.scope = s.dbg.scope)
    ∧ (∀ b, shows (exec (.nvsRelock b) s) 0x22 [false] fun t => t.dbg.scope = if b then 0 else s.dbg.scope)
    ∧ shows (exec .nvsStatus s) 0x23 (numBits 32 (s.dbg.scope.toNat * 65536 + s.dbg.last.toNat * 256)) still
    ∧ (∀ pa : BitVec 40,
      let access (o : Out) (f : State → Prop) : Prop := shows o 0x24 s.accessBits f
      let a := pa.toNat
      let tapped : State := { s with dbg := { s.dbg with ir := 0x24 } }.emit (.tdo s.accessBits)
      let ops (f : Out → Prop) : Prop := (∀ x, f (exec (.debugWordRead ⟨pa, x⟩) s)) ∧ (∀ g v x, f (exec (.debugWordWrite pa g ⟨v, x⟩) s))
        ∧ (∀ x, f (exec (.debugRegRead ⟨pa, x⟩) s)) ∧ ∀ v x, f (exec (.debugRegWrite pa ⟨v, x⟩) s)
      (s.lockedFrom a = true → ops fun o => access o fun t => t.dbg.accStatus = 1 ∧ t.dbg.accTag = (Word.poisonOf 2).tag
        ∧ t.dbg.accPay = (Word.poisonOf 2).pay ∧ (t.reg32 (pgRUB + 0x34)).getLsbD 2 = true ∧ t.mem = s.mem)
      ∧ (s.lockedFrom a = false → s.dbgScopeOk a = false → ops fun o => access o fun t => t.dbg.accStatus = 2 ∧ t.mem = s.mem
        ∧ t.regs = s.regs)
      ∧ (s.lockedFrom a = false → s.dbgScopeOk a = true →
        (s.rubAllows dbgAsker .read a = true → s.wordThere a = true →
          (∀ x u, s.meets (fun k => k == lineOf a) x u →
            let u' := u.flushImage (lineOf a)
            access (exec (.debugWordRead ⟨pa, x⟩) s) fun t =>
              t.dbg.accStatus = 1 ∧ t.dbg.accTag = (u'.word a).tag ∧ t.dbg.accPay = (u'.word a).pay ∧ t.mem = u'.mem)
          ∧ (∀ x, x.agree = false → ∃ t, exec (.debugWordRead ⟨pa, x⟩) s = .next t ∧ s.votes t 23 a))
        ∧ (s.rubAllows dbgAsker .read a = true → s.wordThere a = false → ∀ x, access (exec (.debugWordRead ⟨pa, x⟩) s) fun t =>
          t.dbg.accStatus = 3 ∧ t.mem = s.mem)
        ∧ (s.rubAllows dbgAsker .read a = false → ∀ x, access (exec (.debugWordRead ⟨pa, x⟩) s) fun t =>
          t.dbg.accStatus = 2 ∧ t.dbg.accPay = 0 ∧ t.mem = s.mem)
        ∧ (∀ g v x u,
          let y := if s.blank then Word.ofTag g v else Word.rawOf v
          s.rubAllows dbgAsker (if y.typ == Ty.raw then .write else .writeT) a = true → s.wordThere a = true → memOk s = true →
          s.meets (fun k => k == lineOf a) x u → u.held (lineOf a) = false → isCapType y.typ = false →
          isCapType (u.word (a - a % 16)).typ = false → isCapType (u.word (a - a % 16 + 8)).typ = false →
          access (exec (.debugWordWrite pa g ⟨v, x⟩) s) fun t => t.dbg.accStatus = 1 ∧ t.word a = unmarked y
            ∧ ∀ b, outsideGrey b → b / 8 ≠ a / 8 → t.word b = u.word b)
        ∧ (∀ b, a % 4 = 0 → blockAt a = some b → s.answers' b = true → s.leafWaits a = false → ∀ x : Meets,
          (s.rubAllows dbgAsker .read a = true →
            (x.agree = true → access (exec (.debugRegRead ⟨pa, x⟩) s) fun t =>
              t.dbg.accStatus = 1 ∧ t.dbg.accPay = (tapped.regRead b (regOff a)).setWidth 64)
            ∧ (x.agree = false → ∃ t, exec (.debugRegRead ⟨pa, x⟩) s = .next t ∧ s.votes t 23 a))
          ∧ (s.rubAllows dbgAsker .write a = true → ∀ v,
            (x.agree = true → access (exec (.debugRegWrite pa ⟨v, x⟩) s) fun t =>
              t.dbg.accStatus = 1 ∧ t.regs = (tapped.regWrite 23 b (regOff a) v).regs)
            ∧ (x.agree = false → ∃ t, exec (.debugRegWrite pa ⟨v, x⟩) s = .next t ∧ s.votes t 23 a ∧ t.regs = s.regs))))))
  ∧ (∀ (s : State), s.debugOn = false → exec .idcode s = .next s ∧ exec .samplePreload s = .next s ∧ exec .extest s = .next s
    ∧ exec .nvsChallenge s = .next s ∧ exec .nvsStatus s = .next s ∧ exec .tapReset s = .next s
    ∧ (∀ c, exec (.bypass c) s = .next s) ∧ (∀ t, exec (.nvsUnlock t) s = .next s) ∧ (∀ b, exec (.nvsRelock b) s = .next s)
    ∧ ∀ pa x, exec (.debugWordRead ⟨pa, x⟩) s = .next s ∧ exec (.debugRegRead ⟨pa, x⟩) s = .next s
      ∧ (∀ g v, exec (.debugWordWrite pa g ⟨v, x⟩) s = .next s) ∧ ∀ v, exec (.debugRegWrite pa ⟨v, x⟩) s = .next s)
  ∧ (∀ (s : State) (tok : List Byte) (ch : Option (List Byte)), s.dbg.checking = some (tok, ch) →
    (s.unlockResult tok ch = 0x80 → ∃ t, exec .unlockCheckDone s = .next t ∧ t.dbg.last = 0x80
      ∧ t.dbg.scope = s.dbg.scope ||| BitVec.ofNat 16 (byteField tok 48 2))
    ∧ (s.unlockResult tok ch ≠ 0x80 → ∃ t, exec .unlockCheckDone s = .next t ∧ t.dbg.scope = s.dbg.scope
      ∧ t.dbg.last = BitVec.ofNat 8 (s.unlockResult tok ch))
    ∧ (s.unlockResult tok ch = 0x80 → byteField tok 8 8 = Config.serial.toNat ∧ ch = some (slice tok 16 32)
      ∧ Config.verifies (slice tok 64 48) (tok.take 112) (slice tok 112 16224) = true ∧ byteField tok 48 2 < 32))

/-- R575, R577 to R579, R597: the management processor answers while the device is on: a report of 17,344 bytes that carries the nonce and the
number of the last committed stroke, or a refusal once the identity is destroyed; seven status registers; bytes of the identity area;
its SMBus address while SMBALERT_N is low, which that releases. -/
def Obligations.ManagementAnswers : Prop :=
  ∀ (s : State),
    let tells (o : Out) (bs : List Byte) : Prop := o = .next (s.emit (.mctp bs))
    (s.power.off = false → ∀ nonce off len msg,
      (s.hasIdentity = true → ∃ bs, tells (exec (.getReport nonce) s) bs ∧ bs.length = 17344 ∧ slice bs 32 32 = fitBytes 32 nonce
        ∧ byteField bs 24 8 = (s.stroke.num - 1) % 2 ^ 64 ∧ byteField bs 0 4 = 0x52544147)
      ∧ (s.hasIdentity = false → tells (exec (.getReport nonce) s) [0x02])
      ∧ (∃ bs, tells (exec .getStatus s) bs ∧ bs.length = 28 ∧ byteField bs 16 4 = s.stkStatus.toNat ∧ byteField bs 20 4 = s.lcsState.toNat)
      ∧ (len ≤ 1024 → off + len ≤ 65536 → ∃ bs, tells (exec (.getCert off len) s) bs ∧ bs.length = len)
      ∧ answers (exec (.getCert off len) s) = true
      ∧ tells (exec (.mctpControl msg) s) (Config.mctpControl msg))
    ∧ (s.power.off = true → exec .getStatus s = .next s ∧ ∀ nonce, exec (.getReport nonce) s = .next s)
    ∧ (s.pins.alertLow = true → s.power.mgmtOff = false → ∃ t, exec .alertResponse s = .next t ∧ t.pins.alertLow = false
      ∧ t.hostOut = s.hostOut ++ [.smbus 0x4C] ∧ t.pins.alarmLow = s.pins.alarmLow)
    ∧ (s.pins.alertLow = false → exec .alertResponse s = .next s)

/-- R279, R414, R444, R460, R491, R494: data that a host returns, while the attempt is open, goes to what asked for it, and into the port's
journal; what comes at or after the tick waits with its read for the next stroke; an answer that a voided attempt journalled is used in its place; a read that failed ends its operation or command with
HOST_FAULT, or refuses the patch. -/
def Obligations.HostDataReachesItsReader : Prop :=
  ∀ (s : State) (k : Nat) (h : HostRead) (rest : List HostRead) (bs : List Byte), takeAt s.hostReads k = some (h, rest) →
    (s.stroke.phase = .opened → h.late = none → bs.length = h.len →
      let ok (f : State → Prop) : Prop := ∃ t, exec (.hostReadDataArrival k (some bs)) s = .next t ∧ t.hostReads = rest ∧ t.mem = s.mem
        ∧ (t.journalOf h.port).getLast? = some (.data h.addr bs) ∧ f t
      let failed (f : State → Prop) : Prop := ∃ t, exec (.hostReadDataArrival k none) s = .next t ∧ t.hostReads = rest ∧ t.mem = s.mem ∧ f t
      (s.replayed h.port h.addr h.len = none →
        (∀ w slot j, h.why = .op w slot j → ok fun t => ∀ o ∈ (t.ward w).ops, o.slot = slot →
            (j = 0 → o.got0 = some bs) ∧ (j ≠ 0 → o.got1 = some bs))
        ∧ (h.why = .patch → (ok fun t => t.patch.state = 2 ∧ t.patch.image = bs) ∧ failed fun t => t.patch.state = 4 ∧ t.patch.err = 2)
        ∧ (∀ w e es, h.why = .envelope w → takeFirst (fun e => byteField e.1 8 8 == h.addr) (s.ward w).policyWait = some (e, es) →
          (ok fun t => (t.ward w).policyWait = es
            ∧ (t.ward w).reqs = insertReq { kind := .policy bs, num := byteField e.1 8 4, desc := e.1, idx := e.2 } (s.ward w).reqs)
          ∧ failed fun t => t.staging = s.staging ++ [.record (finalRecord w e.1 e.2 0x04 0)])
        ∧ (∀ w slot j o, h.why = .op w slot j → ((s.ward w).ops.find? fun o => o.slot == slot) = some o → o.fin = none →
          failed fun t => ∃ p ∈ (t.ward w).ops, p.slot = slot ∧ p.fin = some (0x04, s.opResult w o)))
      ∧ (∀ old left, s.replayed h.port h.addr h.len = some (.data h.addr old, left) → h.why = .patch →
        ∃ t, exec (.hostReadDataArrival k (some bs)) s = .next t ∧ t.patch.image = old ∧ t.hostReads = rest))
    ∧ (s.stroke.phase ≠ .opened → h.late = none → ∀ data, (∀ b, data = some b → b.length = h.len) →
      ∃ t, exec (.hostReadDataArrival k data) s = .next t ∧ { h with late := some data } ∈ t.hostReads
        ∧ t.hostReads.length = s.hostReads.length ∧ t.journal = s.journal ∧ t.wards = s.wards ∧ t.patch = s.patch ∧ t.mem = s.mem)
    ∧ (h.late = none → bs.length ≠ h.len → exec (.hostReadDataArrival k (some bs)) s = .next s)

/-! ### The Rubric's decision -/

/-- R335, R344, R346 to R348: a VALID entry that contains a block decides alone, by its mask, RIGHTS and KIND; with none, the default map
decides for those that fall back on it, and every other requester is denied; lanes 21 and 22 are decided by the map
alone over the palimpsest and system regions, whatever the table holds. A table whose VALID entries are disjoint gives every block of a page what the page's verdict says. -/
def Obligations.RubricDecidesByEntryThenMap : Prop :=
  (∀ (s : State) (q : Asker) (k : Acc) (a : Nat) (e : RubEnt), s.rubEntry a = some e → ¬ ((q.lane = 21 ∨ q.lane = 22) ∧ (inPal a || inSys a)) →
    (e.mask.getLsbD q.bit = false → s.rubAllows q k a = false)
    ∧ (covers e.rights k = false → s.rubAllows q k a = false)
    ∧ (e.kind = 0 → hostLane q.lane = true → s.rubAllows q k a = false)
    ∧ (e.kind = 3 → q.bit < 8 → s.rubAllows q k a = false)
    ∧ (e.kind = 4 → q.bit < 8 → hostLane q.lane = false → s.rubAllows q k a = false)
    ∧ (e.kind = 2 → q.lane ≠ 22 → k = .write ∨ k = .writeT → s.rubAllows q k a = false)
    ∧ (e.mask.getLsbD q.bit = true → e.kind = 0 → hostLane q.lane = false → s.rubAllows q k a = covers e.rights k)
    ∧ (e.mask.getLsbD q.bit = true → e.kind = 1 → s.rubAllows q k a = covers e.rights k)
    ∧ ∀ o v, ({ s with sheetOwner := o, staged := v } : State).rubAllows q k a = s.rubAllows q k a)
  ∧ (∀ (s : State) (q : Asker) (k : Acc) (a : Nat), s.rubEntry a = none →
    (q.fall = false → (inPal a || inSys a) = false ∨ (q.lane ≠ 21 ∧ q.lane ≠ 22) → s.rubAllows q k a = false)
    ∧ (q.fall = true → q.bit < 8 → q.lane ≠ 21 → q.lane ≠ 22 → inHeap a = true →
        (s.rubAllows q k a = true ↔ mget (fun _ => 15) s.sheetOwner (sheetOf a) = q.bit))
    ∧ (q.fall = true → q.bit < 8 → q.lane ≠ 21 → q.lane ≠ 22 → inHeap a = false → s.rubAllows q k a = false))
  ∧ (∀ (s : State) (q : Asker) (k : Acc) (a : Nat), (q.lane = 21 ∨ q.lane = 22) → q.bit = mExe →
    (inPal a = true → s.rubAllows q k a = if q.lane = 22 then decide (k ≠ .exec) else decide (k = .read))
    ∧ (inSys a = true → s.rubAllows q k a = true))
  ∧ (∀ (s : State) (q : Asker) (p : Nat) (r : BitVec 4), q.lane < 8 → firstOverlap (s.rubActive.filter fun e => e.2.valid) = none →
    s.verdict q p = .rights r → ∀ a, a / 65536 = p → s.grantAt q a = r)

/-! ### The machine as a whole -/

/-- R11, R65, R85, R94, R95, R405, R509, Table 14-8: power-on reset. Every word is RAW zero and every register FIXNUM 0; context 0 of a nib has
PRIO 3 and LEVEL D, every other context PRIO 0 and LEVEL U, all IDLE; stroke 1 is the first, no command, trap or flag is pending, and
registers stand at their Reset columns. The reset values that the spec does not give are the model's choices (logs 3 and 4). -/
def Obligations.ResetLeavesTheStatedValues : Prop :=
  let s := State.reset
  memOk s = true ∧ logOk s = true ∧ regsOk s = true ∧ allFilesOk s = true ∧ imagesOk s = true
  ∧ (∀ a, s.word a = Word.rawZero)
  ∧ (∀ n c r, c < 32 → (s.ctx n c).reg r = Word.fx 0 ∧ (s.ctx n c).state = stIdle ∧ (s.ctx n c).res = 1 ∧ (s.ctx n c).cwp = 0
      ∧ (s.ctx n c).prio = (if c = 0 then 3 else 0) ∧ (s.ctx n c).level = (if c = 0 then lvD else lvU)
      ∧ (s.ctx n c).saveS.live = false ∧ (s.ctx n c).saveD.live = false ∧ (s.ctx n c).saveM.live = false)
  ∧ s.stroke.num = 1 ∧ s.stroke.attempt = 1 ∧ s.stroke.phase = .boot ∧ s.pending = [] ∧ s.guards = [] ∧ s.log = []
  ∧ s.rubActive = [] ∧ s.rubStaged = [] ∧ s.power.level = 0
  ∧ s.reg32 pgSTK = 100 ∧ s.reg32 pgPSM = 8 ∧ s.reg32 pgSWD = 0x1E ∧ s.reg32 (pgPWR + 0x10) = 0x5F0000
  ∧ s.reg32 (pgRUB + 0x34) = 0 ∧ s.reg32 (pgSTK + 0x1C) = 0 ∧ ∀ w, (s.ward w).env = envReset

/-- R36, R65, R429, R431: whatever a step does, memory keeps its one canonical form (addresses rising, no entry RAW zero), and the log keeps
each line once, whole, by its own address. -/
def Obligations.MemoryAndLogStayCanonical : Prop :=
  ∀ (s t : State), memOk s = true → logOk s = true → step s = .next t → memOk t = true ∧ logOk t = true

/-- R11, R80, R82, R426: whatever a step does, the set-up registers and the register file of every context, committed ones among them, keep
their one canonical form, and the shadow lines to be written are lines of an image. -/
def Obligations.RegistersStayCanonical : Prop :=
  ∀ (s t : State), regsOk s = true → allFilesOk s = true → imagesOk s = true → step s = .next t →
    regsOk t = true ∧ allFilesOk t = true ∧ imagesOk t = true

end Slice0Statements
end

