-- ==== Sys2Proof/Laws/Maps.lean ====
section
/-! SUPPORT. Sparse maps: what a read gives after a write, and that writes and removals keep the canonical form. -/

namespace Sys2Proof.Machine

variable {α : Type}

theorem mget_cons (d : Nat → α) (j : Nat) (v : α) (m : Map α) (k : Nat) :
    mget d ((j, v) :: m) k = if k = j then v else if k < j then d k else mget d m k := rfl

/-- A listed write is read back, whatever the list. -/
@[simp] theorem mget_mset_self (d : Nat → α) (m : Map α) (k : Nat) (v : α) : mget d (mset m k v) k = v := by
  induction m with
  | nil => simp [mset, mget]
  | cons e m ih =>
    obtain ⟨j, u⟩ := e
    unfold mset
    split
    · simp [mget]
    · split
      · simp [mget]
      · rename_i h1 h2
        simp [mget, h1, h2, ih]

/-- A listed write leaves every other key. -/
theorem mget_mset_ne (d : Nat → α) (m : Map α) {k i : Nat} (v : α) (h : i ≠ k) : mget d (mset m k v) i = mget d m i := by
  induction m with
  | nil => simp [mset, mget, h]
  | cons e m ih =>
    obtain ⟨j, u⟩ := e
    unfold mset
    split
    · rename_i hk
      simp only [mget_cons, h, if_false]
      split
      · rw [if_neg (by omega), if_pos (by omega)]
      · rfl
    · split
      · rename_i hk
        subst hk
        simp [mget_cons, h]
      · simp only [mget_cons, ih]

theorem mget_mset (d : Nat → α) (m : Map α) (k i : Nat) (v : α) :
    mget d (mset m k v) i = if i = k then v else mget d m i := by
  split
  · rename_i h; subst h; simp
  · rename_i h; exact mget_mset_ne d m v h

section Canonical

variable [DecidableEq α]

theorem mwfFrom_mono (d : Nat → α) {a b : Nat} (m : Map α) (h : a ≤ b) (hm : mwfFrom d b m = true) : mwfFrom d a m = true := by
  cases m with
  | nil => rfl
  | cons e m =>
    obtain ⟨j, u⟩ := e
    simp only [mwfFrom, Bool.and_eq_true, decide_eq_true_eq] at hm ⊢
    exact ⟨by omega, hm.2⟩

/-- Below the first listed key a map reads as its default. -/
theorem mget_below (d : Nat → α) {a k : Nat} (m : Map α) (hm : mwfFrom d a m = true) (h : k < a) : mget d m k = d k := by
  cases m with
  | nil => rfl
  | cons e m =>
    obtain ⟨j, u⟩ := e
    simp only [mwfFrom, Bool.and_eq_true, decide_eq_true_eq] at hm
    rw [mget_cons, if_neg (by omega), if_pos (by omega)]

theorem mget_mput_from (d : Nat → α) (m : Map α) (a k i : Nat) (v : α) (hm : mwfFrom d a m = true) :
    mget d (mput d m k v) i = if i = k then v else mget d m i := by
  induction m generalizing a with
  | nil =>
    by_cases hv : v = d k
    · simp only [mput, if_pos hv, mget]
      split
      · rename_i h; subst h; exact hv.symm
      · rfl
    · simp only [mput, if_neg hv, mget, ite_self]
  | cons e m ih =>
    obtain ⟨j, u⟩ := e
    simp only [mwfFrom, Bool.and_eq_true, decide_eq_true_eq] at hm
    have hi := ih (j + 1) hm.2.2
    have below : ∀ x, x < j + 1 → mget d m x = d x := fun x hx => mget_below d m hm.2.2 hx
    unfold mput
    split
    · split <;> simp only [mget_cons] <;> grind
    · split
      · split <;> simp only [mget_cons] <;> grind
      · simp only [mget_cons] <;> grind

/-- Read after write in a map of canonical form. -/
theorem mget_mput (d : Nat → α) (m : Map α) (k i : Nat) (v : α) (hm : mwf d m = true) :
    mget d (mput d m k v) i = if i = k then v else mget d m i := mget_mput_from d m 0 k i v hm

theorem mwfFrom_mput (d : Nat → α) (m : Map α) (a k : Nat) (v : α) (hm : mwfFrom d a m = true) :
    mwfFrom d (min a k) (mput d m k v) = true := by
  induction m generalizing a with
  | nil =>
    unfold mput
    split
    · rfl
    · rename_i h; simp [mwfFrom, h, Nat.min_le_right]
  | cons e m ih =>
    obtain ⟨j, u⟩ := e
    have hm' := hm
    simp only [mwfFrom, Bool.and_eq_true, decide_eq_true_eq] at hm
    unfold mput
    split
    · split
      · exact mwfFrom_mono d _ (by omega) hm'
      · rename_i h1 h2
        simp only [mwfFrom, Bool.and_eq_true, decide_eq_true_eq]
        exact ⟨by omega, h2, by omega, hm.2⟩
    · split
      · split
        · exact mwfFrom_mono d _ (by omega) hm.2.2
        · rename_i h1 h2 h3
          simp only [mwfFrom, Bool.and_eq_true, decide_eq_true_eq]
          exact ⟨by omega, h3, by rw [h2]; exact hm.2.2⟩
      · rename_i h1 h2
        have := ih (j + 1) hm.2.2
        rw [Nat.min_eq_left (by omega)] at this
        simp only [mwfFrom, Bool.and_eq_true, decide_eq_true_eq]
        exact ⟨by omega, hm.2.1, this⟩

/-- A write keeps the canonical form. -/
theorem mwf_mput (d : Nat → α) (m : Map α) (k : Nat) (v : α) (hm : mwf d m = true) : mwf d (mput d m k v) = true :=
  mwfFrom_mono d _ (Nat.zero_le _) (mwfFrom_mput d m 0 k v hm)

theorem mwfFrom_filter (d : Nat → α) (p : Nat × α → Bool) (m : Map α) (a : Nat) (hm : mwfFrom d a m = true) :
    mwfFrom d a (m.filter p) = true := by
  induction m generalizing a with
  | nil => rfl
  | cons e m ih =>
    obtain ⟨j, u⟩ := e
    simp only [mwfFrom, Bool.and_eq_true, decide_eq_true_eq] at hm
    simp only [List.filter_cons]
    split
    · simp only [mwfFrom, Bool.and_eq_true, decide_eq_true_eq]
      exact ⟨hm.1, hm.2.1, ih _ hm.2.2⟩
    · exact mwfFrom_mono d _ (by omega) (ih _ hm.2.2)

/-- A removal keeps the canonical form. -/
theorem mwf_mdrop (d : Nat → α) (p : Nat → α → Bool) (m : Map α) (hm : mwf d m = true) : mwf d (mdrop p m) = true :=
  mwfFrom_filter d _ m 0 hm

/-- Two maps of canonical form that read alike at every key are the same list. -/
theorem mwfFrom_ext (d : Nat → α) (m n : Map α) (a : Nat) (hm : mwfFrom d a m = true) (hn : mwfFrom d a n = true)
    (h : ∀ k, mget d m k = mget d n k) : m = n := by
  induction m generalizing n a with
  | nil =>
    cases n with
    | nil => rfl
    | cons e n =>
      obtain ⟨j, u⟩ := e
      simp only [mwfFrom, Bool.and_eq_true, decide_eq_true_eq] at hn
      have := h j
      simp [mget] at this
      exact absurd this.symm hn.2.1
  | cons e m ih =>
    obtain ⟨j, u⟩ := e
    simp only [mwfFrom, Bool.and_eq_true, decide_eq_true_eq] at hm
    cases n with
    | nil =>
      have := h j
      simp [mget] at this
      exact absurd this hm.2.1
    | cons f n =>
      obtain ⟨i, w⟩ := f
      simp only [mwfFrom, Bool.and_eq_true, decide_eq_true_eq] at hn
      have hj := h j
      have hi := h i
      simp only [mget_cons] at hj hi
      by_cases hij : j = i
      · subst hij
        simp only [if_true] at hj
        subst hj
        rw [ih n (j + 1) hm.2.2 hn.2.2 ?_]
        intro k
        by_cases hk : k < j + 1
        · rw [mget_below d m hm.2.2 hk, mget_below d n hn.2.2 hk]
        · have := h k
          simp only [mget_cons] at this
          rwa [if_neg (by omega), if_neg (by omega), if_neg (by omega), if_neg (by omega)] at this
      · rcases Nat.lt_or_gt_of_ne hij with hlt | hgt
        · simp only [if_true, if_neg hij, if_pos hlt] at hj
          exact absurd hj hm.2.1
        · simp only [if_true, if_neg (Ne.symm hij), if_pos hgt] at hi
          exact absurd hi.symm hn.2.1

/-- Equal memories are equal data. -/
theorem mwf_ext (d : Nat → α) (m n : Map α) (hm : mwf d m = true) (hn : mwf d n = true) (h : ∀ k, mget d m k = mget d n k) :
    m = n := mwfFrom_ext d m n 0 hm hn h

end Canonical

end Sys2Proof.Machine
end

