-- ==== Sys2Proof/Laws/State.lean ====
section
/-! SUPPORT. For every named update of the state, the fields it leaves, and what it makes of the one it writes. -/

namespace Sys2Proof.Machine

variable (s : State)

/-! ### State.setCtx -/

@[simp] theorem State.setCtx_pending (n c : Nat) (x : Context) : (s.setCtx n c x).pending = s.pending := rfl
@[simp] theorem State.setCtx_nibs (n c : Nat) (x : Context) : (s.setCtx n c x).nibs = s.nibs := rfl
@[simp] theorem State.setCtx_mem (n c : Nat) (x : Context) : (s.setCtx n c x).mem = s.mem := rfl
@[simp] theorem State.setCtx_ckpt (n c : Nat) (x : Context) : (s.setCtx n c x).ckpt = s.ckpt := rfl
@[simp] theorem State.setCtx_imagePending (n c : Nat) (x : Context) : (s.setCtx n c x).imagePending = s.imagePending := rfl
@[simp] theorem State.setCtx_shadowDue (n c : Nat) (x : Context) : (s.setCtx n c x).shadowDue = s.shadowDue := rfl
@[simp] theorem State.setCtx_reads (n c : Nat) (x : Context) : (s.setCtx n c x).reads = s.reads := rfl
@[simp] theorem State.setCtx_fills (n c : Nat) (x : Context) : (s.setCtx n c x).fills = s.fills := rfl
@[simp] theorem State.setCtx_invals (n c : Nat) (x : Context) : (s.setCtx n c x).invals = s.invals := rfl
@[simp] theorem State.setCtx_acks (n c : Nat) (x : Context) : (s.setCtx n c x).acks = s.acks := rfl
@[simp] theorem State.setCtx_writes (n c : Nat) (x : Context) : (s.setCtx n c x).writes = s.writes := rfl
@[simp] theorem State.setCtx_hostWrites (n c : Nat) (x : Context) : (s.setCtx n c x).hostWrites = s.hostWrites := rfl
@[simp] theorem State.setCtx_storeAcks (n c : Nat) (x : Context) : (s.setCtx n c x).storeAcks = s.storeAcks := rfl
@[simp] theorem State.setCtx_sends (n c : Nat) (x : Context) : (s.setCtx n c x).sends = s.sends := rfl
@[simp] theorem State.setCtx_answers (n c : Nat) (x : Context) : (s.setCtx n c x).answers = s.answers := rfl
@[simp] theorem State.setCtx_doorEvents (n c : Nat) (x : Context) : (s.setCtx n c x).doorEvents = s.doorEvents := rfl
@[simp] theorem State.setCtx_ink (n c : Nat) (x : Context) : (s.setCtx n c x).ink = s.ink := rfl
@[simp] theorem State.setCtx_inkState (n c : Nat) (x : Context) : (s.setCtx n c x).inkState = s.inkState := rfl
@[simp] theorem State.setCtx_inkSets (n c : Nat) (x : Context) : (s.setCtx n c x).inkSets = s.inkSets := rfl
@[simp] theorem State.setCtx_inkAuto (n c : Nat) (x : Context) : (s.setCtx n c x).inkAuto = s.inkAuto := rfl
@[simp] theorem State.setCtx_inkClock (n c : Nat) (x : Context) : (s.setCtx n c x).inkClock = s.inkClock := rfl
@[simp] theorem State.setCtx_spares (n c : Nat) (x : Context) : (s.setCtx n c x).spares = s.spares := rfl
@[simp] theorem State.setCtx_stackErr (n c : Nat) (x : Context) : (s.setCtx n c x).stackErr = s.stackErr := rfl
@[simp] theorem State.setCtx_regs (n c : Nat) (x : Context) : (s.setCtx n c x).regs = s.regs := rfl
@[simp] theorem State.setCtx_staged (n c : Nat) (x : Context) : (s.setCtx n c x).staged = s.staged := rfl
@[simp] theorem State.setCtx_guards (n c : Nat) (x : Context) : (s.setCtx n c x).guards = s.guards := rfl
@[simp] theorem State.setCtx_applies (n c : Nat) (x : Context) : (s.setCtx n c x).applies = s.applies := rfl
@[simp] theorem State.setCtx_assign (n c : Nat) (x : Context) : (s.setCtx n c x).assign = s.assign := rfl
@[simp] theorem State.setCtx_rubStaged (n c : Nat) (x : Context) : (s.setCtx n c x).rubStaged = s.rubStaged := rfl
@[simp] theorem State.setCtx_rubActive (n c : Nat) (x : Context) : (s.setCtx n c x).rubActive = s.rubActive := rfl
@[simp] theorem State.setCtx_rubOn (n c : Nat) (x : Context) : (s.setCtx n c x).rubOn = s.rubOn := rfl
@[simp] theorem State.setCtx_sheetOwner (n c : Nat) (x : Context) : (s.setCtx n c x).sheetOwner = s.sheetOwner := rfl
@[simp] theorem State.setCtx_walkCache (n c : Nat) (x : Context) : (s.setCtx n c x).walkCache = s.walkCache := rfl
@[simp] theorem State.setCtx_hub (n c : Nat) (x : Context) : (s.setCtx n c x).hub = s.hub := rfl
@[simp] theorem State.setCtx_stroke (n c : Nat) (x : Context) : (s.setCtx n c x).stroke = s.stroke := rfl
@[simp] theorem State.setCtx_log (n c : Nat) (x : Context) : (s.setCtx n c x).log = s.log := rfl
@[simp] theorem State.setCtx_heldWrites (n c : Nat) (x : Context) : (s.setCtx n c x).heldWrites = s.heldWrites := rfl
@[simp] theorem State.setCtx_journal (n c : Nat) (x : Context) : (s.setCtx n c x).journal = s.journal := rfl
@[simp] theorem State.setCtx_replay (n c : Nat) (x : Context) : (s.setCtx n c x).replay = s.replay := rfl
@[simp] theorem State.setCtx_nextInputs (n c : Nat) (x : Context) : (s.setCtx n c x).nextInputs = s.nextInputs := rfl
@[simp] theorem State.setCtx_staging (n c : Nat) (x : Context) : (s.setCtx n c x).staging = s.staging := rfl
@[simp] theorem State.setCtx_hostOut (n c : Nat) (x : Context) : (s.setCtx n c x).hostOut = s.hostOut := rfl
@[simp] theorem State.setCtx_hostReads (n c : Nat) (x : Context) : (s.setCtx n c x).hostReads = s.hostReads := rfl
@[simp] theorem State.setCtx_rings (n c : Nat) (x : Context) : (s.setCtx n c x).rings = s.rings := rfl
@[simp] theorem State.setCtx_wards (n c : Nat) (x : Context) : (s.setCtx n c x).wards = s.wards := rfl
@[simp] theorem State.setCtx_ports (n c : Nat) (x : Context) : (s.setCtx n c x).ports = s.ports := rfl
@[simp] theorem State.setCtx_binds (n c : Nat) (x : Context) : (s.setCtx n c x).binds = s.binds := rfl
@[simp] theorem State.setCtx_bindRefused (n c : Nat) (x : Context) : (s.setCtx n c x).bindRefused = s.bindRefused := rfl
@[simp] theorem State.setCtx_linksFailed (n c : Nat) (x : Context) : (s.setCtx n c x).linksFailed = s.linksFailed := rfl
@[simp] theorem State.setCtx_resend (n c : Nat) (x : Context) : (s.setCtx n c x).resend = s.resend := rfl
@[simp] theorem State.setCtx_coll (n c : Nat) (x : Context) : (s.setCtx n c x).coll = s.coll := rfl
@[simp] theorem State.setCtx_copyRecs (n c : Nat) (x : Context) : (s.setCtx n c x).copyRecs = s.copyRecs := rfl
@[simp] theorem State.setCtx_chunks (n c : Nat) (x : Context) : (s.setCtx n c x).chunks = s.chunks := rfl
@[simp] theorem State.setCtx_engines (n c : Nat) (x : Context) : (s.setCtx n c x).engines = s.engines := rfl
@[simp] theorem State.setCtx_errNext (n c : Nat) (x : Context) : (s.setCtx n c x).errNext = s.errNext := rfl
@[simp] theorem State.setCtx_wardNews (n c : Nat) (x : Context) : (s.setCtx n c x).wardNews = s.wardNews := rfl
@[simp] theorem State.setCtx_tallies (n c : Nat) (x : Context) : (s.setCtx n c x).tallies = s.tallies := rfl
@[simp] theorem State.setCtx_drops (n c : Nat) (x : Context) : (s.setCtx n c x).drops = s.drops := rfl
@[simp] theorem State.setCtx_snap (n c : Nat) (x : Context) : (s.setCtx n c x).snap = s.snap := rfl
@[simp] theorem State.setCtx_capture (n c : Nat) (x : Context) : (s.setCtx n c x).capture = s.capture := rfl
@[simp] theorem State.setCtx_latches (n c : Nat) (x : Context) : (s.setCtx n c x).latches = s.latches := rfl
@[simp] theorem State.setCtx_power (n c : Nat) (x : Context) : (s.setCtx n c x).power = s.power := rfl
@[simp] theorem State.setCtx_steward (n c : Nat) (x : Context) : (s.setCtx n c x).steward = s.steward := rfl
@[simp] theorem State.setCtx_patch (n c : Nat) (x : Context) : (s.setCtx n c x).patch = s.patch := rfl
@[simp] theorem State.setCtx_boot (n c : Nat) (x : Context) : (s.setCtx n c x).boot = s.boot := rfl
@[simp] theorem State.setCtx_dbg (n c : Nat) (x : Context) : (s.setCtx n c x).dbg = s.dbg := rfl
@[simp] theorem State.setCtx_pins (n c : Nat) (x : Context) : (s.setCtx n c x).pins = s.pins := rfl
@[simp] theorem State.setCtx_tick (n c : Nat) (x : Context) : (s.setCtx n c x).tick = s.tick := rfl

/-! ### State.modCtx -/

@[simp] theorem State.modCtx_pending (n c : Nat) (f : Context → Context) : (s.modCtx n c f).pending = s.pending := rfl
@[simp] theorem State.modCtx_nibs (n c : Nat) (f : Context → Context) : (s.modCtx n c f).nibs = s.nibs := rfl
@[simp] theorem State.modCtx_mem (n c : Nat) (f : Context → Context) : (s.modCtx n c f).mem = s.mem := rfl
@[simp] theorem State.modCtx_ckpt (n c : Nat) (f : Context → Context) : (s.modCtx n c f).ckpt = s.ckpt := rfl
@[simp] theorem State.modCtx_imagePending (n c : Nat) (f : Context → Context) : (s.modCtx n c f).imagePending = s.imagePending := rfl
@[simp] theorem State.modCtx_shadowDue (n c : Nat) (f : Context → Context) : (s.modCtx n c f).shadowDue = s.shadowDue := rfl
@[simp] theorem State.modCtx_reads (n c : Nat) (f : Context → Context) : (s.modCtx n c f).reads = s.reads := rfl
@[simp] theorem State.modCtx_fills (n c : Nat) (f : Context → Context) : (s.modCtx n c f).fills = s.fills := rfl
@[simp] theorem State.modCtx_invals (n c : Nat) (f : Context → Context) : (s.modCtx n c f).invals = s.invals := rfl
@[simp] theorem State.modCtx_acks (n c : Nat) (f : Context → Context) : (s.modCtx n c f).acks = s.acks := rfl
@[simp] theorem State.modCtx_writes (n c : Nat) (f : Context → Context) : (s.modCtx n c f).writes = s.writes := rfl
@[simp] theorem State.modCtx_hostWrites (n c : Nat) (f : Context → Context) : (s.modCtx n c f).hostWrites = s.hostWrites := rfl
@[simp] theorem State.modCtx_storeAcks (n c : Nat) (f : Context → Context) : (s.modCtx n c f).storeAcks = s.storeAcks := rfl
@[simp] theorem State.modCtx_sends (n c : Nat) (f : Context → Context) : (s.modCtx n c f).sends = s.sends := rfl
@[simp] theorem State.modCtx_answers (n c : Nat) (f : Context → Context) : (s.modCtx n c f).answers = s.answers := rfl
@[simp] theorem State.modCtx_doorEvents (n c : Nat) (f : Context → Context) : (s.modCtx n c f).doorEvents = s.doorEvents := rfl
@[simp] theorem State.modCtx_ink (n c : Nat) (f : Context → Context) : (s.modCtx n c f).ink = s.ink := rfl
@[simp] theorem State.modCtx_inkState (n c : Nat) (f : Context → Context) : (s.modCtx n c f).inkState = s.inkState := rfl
@[simp] theorem State.modCtx_inkSets (n c : Nat) (f : Context → Context) : (s.modCtx n c f).inkSets = s.inkSets := rfl
@[simp] theorem State.modCtx_inkAuto (n c : Nat) (f : Context → Context) : (s.modCtx n c f).inkAuto = s.inkAuto := rfl
@[simp] theorem State.modCtx_inkClock (n c : Nat) (f : Context → Context) : (s.modCtx n c f).inkClock = s.inkClock := rfl
@[simp] theorem State.modCtx_spares (n c : Nat) (f : Context → Context) : (s.modCtx n c f).spares = s.spares := rfl
@[simp] theorem State.modCtx_stackErr (n c : Nat) (f : Context → Context) : (s.modCtx n c f).stackErr = s.stackErr := rfl
@[simp] theorem State.modCtx_regs (n c : Nat) (f : Context → Context) : (s.modCtx n c f).regs = s.regs := rfl
@[simp] theorem State.modCtx_staged (n c : Nat) (f : Context → Context) : (s.modCtx n c f).staged = s.staged := rfl
@[simp] theorem State.modCtx_guards (n c : Nat) (f : Context → Context) : (s.modCtx n c f).guards = s.guards := rfl
@[simp] theorem State.modCtx_applies (n c : Nat) (f : Context → Context) : (s.modCtx n c f).applies = s.applies := rfl
@[simp] theorem State.modCtx_assign (n c : Nat) (f : Context → Context) : (s.modCtx n c f).assign = s.assign := rfl
@[simp] theorem State.modCtx_rubStaged (n c : Nat) (f : Context → Context) : (s.modCtx n c f).rubStaged = s.rubStaged := rfl
@[simp] theorem State.modCtx_rubActive (n c : Nat) (f : Context → Context) : (s.modCtx n c f).rubActive = s.rubActive := rfl
@[simp] theorem State.modCtx_rubOn (n c : Nat) (f : Context → Context) : (s.modCtx n c f).rubOn = s.rubOn := rfl
@[simp] theorem State.modCtx_sheetOwner (n c : Nat) (f : Context → Context) : (s.modCtx n c f).sheetOwner = s.sheetOwner := rfl
@[simp] theorem State.modCtx_walkCache (n c : Nat) (f : Context → Context) : (s.modCtx n c f).walkCache = s.walkCache := rfl
@[simp] theorem State.modCtx_hub (n c : Nat) (f : Context → Context) : (s.modCtx n c f).hub = s.hub := rfl
@[simp] theorem State.modCtx_stroke (n c : Nat) (f : Context → Context) : (s.modCtx n c f).stroke = s.stroke := rfl
@[simp] theorem State.modCtx_log (n c : Nat) (f : Context → Context) : (s.modCtx n c f).log = s.log := rfl
@[simp] theorem State.modCtx_heldWrites (n c : Nat) (f : Context → Context) : (s.modCtx n c f).heldWrites = s.heldWrites := rfl
@[simp] theorem State.modCtx_journal (n c : Nat) (f : Context → Context) : (s.modCtx n c f).journal = s.journal := rfl
@[simp] theorem State.modCtx_replay (n c : Nat) (f : Context → Context) : (s.modCtx n c f).replay = s.replay := rfl
@[simp] theorem State.modCtx_nextInputs (n c : Nat) (f : Context → Context) : (s.modCtx n c f).nextInputs = s.nextInputs := rfl
@[simp] theorem State.modCtx_staging (n c : Nat) (f : Context → Context) : (s.modCtx n c f).staging = s.staging := rfl
@[simp] theorem State.modCtx_hostOut (n c : Nat) (f : Context → Context) : (s.modCtx n c f).hostOut = s.hostOut := rfl
@[simp] theorem State.modCtx_hostReads (n c : Nat) (f : Context → Context) : (s.modCtx n c f).hostReads = s.hostReads := rfl
@[simp] theorem State.modCtx_rings (n c : Nat) (f : Context → Context) : (s.modCtx n c f).rings = s.rings := rfl
@[simp] theorem State.modCtx_wards (n c : Nat) (f : Context → Context) : (s.modCtx n c f).wards = s.wards := rfl
@[simp] theorem State.modCtx_ports (n c : Nat) (f : Context → Context) : (s.modCtx n c f).ports = s.ports := rfl
@[simp] theorem State.modCtx_binds (n c : Nat) (f : Context → Context) : (s.modCtx n c f).binds = s.binds := rfl
@[simp] theorem State.modCtx_bindRefused (n c : Nat) (f : Context → Context) : (s.modCtx n c f).bindRefused = s.bindRefused := rfl
@[simp] theorem State.modCtx_linksFailed (n c : Nat) (f : Context → Context) : (s.modCtx n c f).linksFailed = s.linksFailed := rfl
@[simp] theorem State.modCtx_resend (n c : Nat) (f : Context → Context) : (s.modCtx n c f).resend = s.resend := rfl
@[simp] theorem State.modCtx_coll (n c : Nat) (f : Context → Context) : (s.modCtx n c f).coll = s.coll := rfl
@[simp] theorem State.modCtx_copyRecs (n c : Nat) (f : Context → Context) : (s.modCtx n c f).copyRecs = s.copyRecs := rfl
@[simp] theorem State.modCtx_chunks (n c : Nat) (f : Context → Context) : (s.modCtx n c f).chunks = s.chunks := rfl
@[simp] theorem State.modCtx_engines (n c : Nat) (f : Context → Context) : (s.modCtx n c f).engines = s.engines := rfl
@[simp] theorem State.modCtx_errNext (n c : Nat) (f : Context → Context) : (s.modCtx n c f).errNext = s.errNext := rfl
@[simp] theorem State.modCtx_wardNews (n c : Nat) (f : Context → Context) : (s.modCtx n c f).wardNews = s.wardNews := rfl
@[simp] theorem State.modCtx_tallies (n c : Nat) (f : Context → Context) : (s.modCtx n c f).tallies = s.tallies := rfl
@[simp] theorem State.modCtx_drops (n c : Nat) (f : Context → Context) : (s.modCtx n c f).drops = s.drops := rfl
@[simp] theorem State.modCtx_snap (n c : Nat) (f : Context → Context) : (s.modCtx n c f).snap = s.snap := rfl
@[simp] theorem State.modCtx_capture (n c : Nat) (f : Context → Context) : (s.modCtx n c f).capture = s.capture := rfl
@[simp] theorem State.modCtx_latches (n c : Nat) (f : Context → Context) : (s.modCtx n c f).latches = s.latches := rfl
@[simp] theorem State.modCtx_power (n c : Nat) (f : Context → Context) : (s.modCtx n c f).power = s.power := rfl
@[simp] theorem State.modCtx_steward (n c : Nat) (f : Context → Context) : (s.modCtx n c f).steward = s.steward := rfl
@[simp] theorem State.modCtx_patch (n c : Nat) (f : Context → Context) : (s.modCtx n c f).patch = s.patch := rfl
@[simp] theorem State.modCtx_boot (n c : Nat) (f : Context → Context) : (s.modCtx n c f).boot = s.boot := rfl
@[simp] theorem State.modCtx_dbg (n c : Nat) (f : Context → Context) : (s.modCtx n c f).dbg = s.dbg := rfl
@[simp] theorem State.modCtx_pins (n c : Nat) (f : Context → Context) : (s.modCtx n c f).pins = s.pins := rfl
@[simp] theorem State.modCtx_tick (n c : Nat) (f : Context → Context) : (s.modCtx n c f).tick = s.tick := rfl

/-! ### State.setNib -/

@[simp] theorem State.setNib_pending (n : Nat) (x : Nib) : (s.setNib n x).pending = s.pending := rfl
@[simp] theorem State.setNib_ctxs (n : Nat) (x : Nib) : (s.setNib n x).ctxs = s.ctxs := rfl
@[simp] theorem State.setNib_mem (n : Nat) (x : Nib) : (s.setNib n x).mem = s.mem := rfl
@[simp] theorem State.setNib_ckpt (n : Nat) (x : Nib) : (s.setNib n x).ckpt = s.ckpt := rfl
@[simp] theorem State.setNib_imagePending (n : Nat) (x : Nib) : (s.setNib n x).imagePending = s.imagePending := rfl
@[simp] theorem State.setNib_shadowDue (n : Nat) (x : Nib) : (s.setNib n x).shadowDue = s.shadowDue := rfl
@[simp] theorem State.setNib_reads (n : Nat) (x : Nib) : (s.setNib n x).reads = s.reads := rfl
@[simp] theorem State.setNib_fills (n : Nat) (x : Nib) : (s.setNib n x).fills = s.fills := rfl
@[simp] theorem State.setNib_invals (n : Nat) (x : Nib) : (s.setNib n x).invals = s.invals := rfl
@[simp] theorem State.setNib_acks (n : Nat) (x : Nib) : (s.setNib n x).acks = s.acks := rfl
@[simp] theorem State.setNib_writes (n : Nat) (x : Nib) : (s.setNib n x).writes = s.writes := rfl
@[simp] theorem State.setNib_hostWrites (n : Nat) (x : Nib) : (s.setNib n x).hostWrites = s.hostWrites := rfl
@[simp] theorem State.setNib_storeAcks (n : Nat) (x : Nib) : (s.setNib n x).storeAcks = s.storeAcks := rfl
@[simp] theorem State.setNib_sends (n : Nat) (x : Nib) : (s.setNib n x).sends = s.sends := rfl
@[simp] theorem State.setNib_answers (n : Nat) (x : Nib) : (s.setNib n x).answers = s.answers := rfl
@[simp] theorem State.setNib_doorEvents (n : Nat) (x : Nib) : (s.setNib n x).doorEvents = s.doorEvents := rfl
@[simp] theorem State.setNib_ink (n : Nat) (x : Nib) : (s.setNib n x).ink = s.ink := rfl
@[simp] theorem State.setNib_inkState (n : Nat) (x : Nib) : (s.setNib n x).inkState = s.inkState := rfl
@[simp] theorem State.setNib_inkSets (n : Nat) (x : Nib) : (s.setNib n x).inkSets = s.inkSets := rfl
@[simp] theorem State.setNib_inkAuto (n : Nat) (x : Nib) : (s.setNib n x).inkAuto = s.inkAuto := rfl
@[simp] theorem State.setNib_inkClock (n : Nat) (x : Nib) : (s.setNib n x).inkClock = s.inkClock := rfl
@[simp] theorem State.setNib_spares (n : Nat) (x : Nib) : (s.setNib n x).spares = s.spares := rfl
@[simp] theorem State.setNib_stackErr (n : Nat) (x : Nib) : (s.setNib n x).stackErr = s.stackErr := rfl
@[simp] theorem State.setNib_regs (n : Nat) (x : Nib) : (s.setNib n x).regs = s.regs := rfl
@[simp] theorem State.setNib_staged (n : Nat) (x : Nib) : (s.setNib n x).staged = s.staged := rfl
@[simp] theorem State.setNib_guards (n : Nat) (x : Nib) : (s.setNib n x).guards = s.guards := rfl
@[simp] theorem State.setNib_applies (n : Nat) (x : Nib) : (s.setNib n x).applies = s.applies := rfl
@[simp] theorem State.setNib_assign (n : Nat) (x : Nib) : (s.setNib n x).assign = s.assign := rfl
@[simp] theorem State.setNib_rubStaged (n : Nat) (x : Nib) : (s.setNib n x).rubStaged = s.rubStaged := rfl
@[simp] theorem State.setNib_rubActive (n : Nat) (x : Nib) : (s.setNib n x).rubActive = s.rubActive := rfl
@[simp] theorem State.setNib_rubOn (n : Nat) (x : Nib) : (s.setNib n x).rubOn = s.rubOn := rfl
@[simp] theorem State.setNib_sheetOwner (n : Nat) (x : Nib) : (s.setNib n x).sheetOwner = s.sheetOwner := rfl
@[simp] theorem State.setNib_walkCache (n : Nat) (x : Nib) : (s.setNib n x).walkCache = s.walkCache := rfl
@[simp] theorem State.setNib_hub (n : Nat) (x : Nib) : (s.setNib n x).hub = s.hub := rfl
@[simp] theorem State.setNib_stroke (n : Nat) (x : Nib) : (s.setNib n x).stroke = s.stroke := rfl
@[simp] theorem State.setNib_log (n : Nat) (x : Nib) : (s.setNib n x).log = s.log := rfl
@[simp] theorem State.setNib_heldWrites (n : Nat) (x : Nib) : (s.setNib n x).heldWrites = s.heldWrites := rfl
@[simp] theorem State.setNib_journal (n : Nat) (x : Nib) : (s.setNib n x).journal = s.journal := rfl
@[simp] theorem State.setNib_replay (n : Nat) (x : Nib) : (s.setNib n x).replay = s.replay := rfl
@[simp] theorem State.setNib_nextInputs (n : Nat) (x : Nib) : (s.setNib n x).nextInputs = s.nextInputs := rfl
@[simp] theorem State.setNib_staging (n : Nat) (x : Nib) : (s.setNib n x).staging = s.staging := rfl
@[simp] theorem State.setNib_hostOut (n : Nat) (x : Nib) : (s.setNib n x).hostOut = s.hostOut := rfl
@[simp] theorem State.setNib_hostReads (n : Nat) (x : Nib) : (s.setNib n x).hostReads = s.hostReads := rfl
@[simp] theorem State.setNib_rings (n : Nat) (x : Nib) : (s.setNib n x).rings = s.rings := rfl
@[simp] theorem State.setNib_wards (n : Nat) (x : Nib) : (s.setNib n x).wards = s.wards := rfl
@[simp] theorem State.setNib_ports (n : Nat) (x : Nib) : (s.setNib n x).ports = s.ports := rfl
@[simp] theorem State.setNib_binds (n : Nat) (x : Nib) : (s.setNib n x).binds = s.binds := rfl
@[simp] theorem State.setNib_bindRefused (n : Nat) (x : Nib) : (s.setNib n x).bindRefused = s.bindRefused := rfl
@[simp] theorem State.setNib_linksFailed (n : Nat) (x : Nib) : (s.setNib n x).linksFailed = s.linksFailed := rfl
@[simp] theorem State.setNib_resend (n : Nat) (x : Nib) : (s.setNib n x).resend = s.resend := rfl
@[simp] theorem State.setNib_coll (n : Nat) (x : Nib) : (s.setNib n x).coll = s.coll := rfl
@[simp] theorem State.setNib_copyRecs (n : Nat) (x : Nib) : (s.setNib n x).copyRecs = s.copyRecs := rfl
@[simp] theorem State.setNib_chunks (n : Nat) (x : Nib) : (s.setNib n x).chunks = s.chunks := rfl
@[simp] theorem State.setNib_engines (n : Nat) (x : Nib) : (s.setNib n x).engines = s.engines := rfl
@[simp] theorem State.setNib_errNext (n : Nat) (x : Nib) : (s.setNib n x).errNext = s.errNext := rfl
@[simp] theorem State.setNib_wardNews (n : Nat) (x : Nib) : (s.setNib n x).wardNews = s.wardNews := rfl
@[simp] theorem State.setNib_tallies (n : Nat) (x : Nib) : (s.setNib n x).tallies = s.tallies := rfl
@[simp] theorem State.setNib_drops (n : Nat) (x : Nib) : (s.setNib n x).drops = s.drops := rfl
@[simp] theorem State.setNib_snap (n : Nat) (x : Nib) : (s.setNib n x).snap = s.snap := rfl
@[simp] theorem State.setNib_capture (n : Nat) (x : Nib) : (s.setNib n x).capture = s.capture := rfl
@[simp] theorem State.setNib_latches (n : Nat) (x : Nib) : (s.setNib n x).latches = s.latches := rfl
@[simp] theorem State.setNib_power (n : Nat) (x : Nib) : (s.setNib n x).power = s.power := rfl
@[simp] theorem State.setNib_steward (n : Nat) (x : Nib) : (s.setNib n x).steward = s.steward := rfl
@[simp] theorem State.setNib_patch (n : Nat) (x : Nib) : (s.setNib n x).patch = s.patch := rfl
@[simp] theorem State.setNib_boot (n : Nat) (x : Nib) : (s.setNib n x).boot = s.boot := rfl
@[simp] theorem State.setNib_dbg (n : Nat) (x : Nib) : (s.setNib n x).dbg = s.dbg := rfl
@[simp] theorem State.setNib_pins (n : Nat) (x : Nib) : (s.setNib n x).pins = s.pins := rfl
@[simp] theorem State.setNib_tick (n : Nat) (x : Nib) : (s.setNib n x).tick = s.tick := rfl

/-! ### State.modNib -/

@[simp] theorem State.modNib_pending (n : Nat) (f : Nib → Nib) : (s.modNib n f).pending = s.pending := rfl
@[simp] theorem State.modNib_ctxs (n : Nat) (f : Nib → Nib) : (s.modNib n f).ctxs = s.ctxs := rfl
@[simp] theorem State.modNib_mem (n : Nat) (f : Nib → Nib) : (s.modNib n f).mem = s.mem := rfl
@[simp] theorem State.modNib_ckpt (n : Nat) (f : Nib → Nib) : (s.modNib n f).ckpt = s.ckpt := rfl
@[simp] theorem State.modNib_imagePending (n : Nat) (f : Nib → Nib) : (s.modNib n f).imagePending = s.imagePending := rfl
@[simp] theorem State.modNib_shadowDue (n : Nat) (f : Nib → Nib) : (s.modNib n f).shadowDue = s.shadowDue := rfl
@[simp] theorem State.modNib_reads (n : Nat) (f : Nib → Nib) : (s.modNib n f).reads = s.reads := rfl
@[simp] theorem State.modNib_fills (n : Nat) (f : Nib → Nib) : (s.modNib n f).fills = s.fills := rfl
@[simp] theorem State.modNib_invals (n : Nat) (f : Nib → Nib) : (s.modNib n f).invals = s.invals := rfl
@[simp] theorem State.modNib_acks (n : Nat) (f : Nib → Nib) : (s.modNib n f).acks = s.acks := rfl
@[simp] theorem State.modNib_writes (n : Nat) (f : Nib → Nib) : (s.modNib n f).writes = s.writes := rfl
@[simp] theorem State.modNib_hostWrites (n : Nat) (f : Nib → Nib) : (s.modNib n f).hostWrites = s.hostWrites := rfl
@[simp] theorem State.modNib_storeAcks (n : Nat) (f : Nib → Nib) : (s.modNib n f).storeAcks = s.storeAcks := rfl
@[simp] theorem State.modNib_sends (n : Nat) (f : Nib → Nib) : (s.modNib n f).sends = s.sends := rfl
@[simp] theorem State.modNib_answers (n : Nat) (f : Nib → Nib) : (s.modNib n f).answers = s.answers := rfl
@[simp] theorem State.modNib_doorEvents (n : Nat) (f : Nib → Nib) : (s.modNib n f).doorEvents = s.doorEvents := rfl
@[simp] theorem State.modNib_ink (n : Nat) (f : Nib → Nib) : (s.modNib n f).ink = s.ink := rfl
@[simp] theorem State.modNib_inkState (n : Nat) (f : Nib → Nib) : (s.modNib n f).inkState = s.inkState := rfl
@[simp] theorem State.modNib_inkSets (n : Nat) (f : Nib → Nib) : (s.modNib n f).inkSets = s.inkSets := rfl
@[simp] theorem State.modNib_inkAuto (n : Nat) (f : Nib → Nib) : (s.modNib n f).inkAuto = s.inkAuto := rfl
@[simp] theorem State.modNib_inkClock (n : Nat) (f : Nib → Nib) : (s.modNib n f).inkClock = s.inkClock := rfl
@[simp] theorem State.modNib_spares (n : Nat) (f : Nib → Nib) : (s.modNib n f).spares = s.spares := rfl
@[simp] theorem State.modNib_stackErr (n : Nat) (f : Nib → Nib) : (s.modNib n f).stackErr = s.stackErr := rfl
@[simp] theorem State.modNib_regs (n : Nat) (f : Nib → Nib) : (s.modNib n f).regs = s.regs := rfl
@[simp] theorem State.modNib_staged (n : Nat) (f : Nib → Nib) : (s.modNib n f).staged = s.staged := rfl
@[simp] theorem State.modNib_guards (n : Nat) (f : Nib → Nib) : (s.modNib n f).guards = s.guards := rfl
@[simp] theorem State.modNib_applies (n : Nat) (f : Nib → Nib) : (s.modNib n f).applies = s.applies := rfl
@[simp] theorem State.modNib_assign (n : Nat) (f : Nib → Nib) : (s.modNib n f).assign = s.assign := rfl
@[simp] theorem State.modNib_rubStaged (n : Nat) (f : Nib → Nib) : (s.modNib n f).rubStaged = s.rubStaged := rfl
@[simp] theorem State.modNib_rubActive (n : Nat) (f : Nib → Nib) : (s.modNib n f).rubActive = s.rubActive := rfl
@[simp] theorem State.modNib_rubOn (n : Nat) (f : Nib → Nib) : (s.modNib n f).rubOn = s.rubOn := rfl
@[simp] theorem State.modNib_sheetOwner (n : Nat) (f : Nib → Nib) : (s.modNib n f).sheetOwner = s.sheetOwner := rfl
@[simp] theorem State.modNib_walkCache (n : Nat) (f : Nib → Nib) : (s.modNib n f).walkCache = s.walkCache := rfl
@[simp] theorem State.modNib_hub (n : Nat) (f : Nib → Nib) : (s.modNib n f).hub = s.hub := rfl
@[simp] theorem State.modNib_stroke (n : Nat) (f : Nib → Nib) : (s.modNib n f).stroke = s.stroke := rfl
@[simp] theorem State.modNib_log (n : Nat) (f : Nib → Nib) : (s.modNib n f).log = s.log := rfl
@[simp] theorem State.modNib_heldWrites (n : Nat) (f : Nib → Nib) : (s.modNib n f).heldWrites = s.heldWrites := rfl
@[simp] theorem State.modNib_journal (n : Nat) (f : Nib → Nib) : (s.modNib n f).journal = s.journal := rfl
@[simp] theorem State.modNib_replay (n : Nat) (f : Nib → Nib) : (s.modNib n f).replay = s.replay := rfl
@[simp] theorem State.modNib_nextInputs (n : Nat) (f : Nib → Nib) : (s.modNib n f).nextInputs = s.nextInputs := rfl
@[simp] theorem State.modNib_staging (n : Nat) (f : Nib → Nib) : (s.modNib n f).staging = s.staging := rfl
@[simp] theorem State.modNib_hostOut (n : Nat) (f : Nib → Nib) : (s.modNib n f).hostOut = s.hostOut := rfl
@[simp] theorem State.modNib_hostReads (n : Nat) (f : Nib → Nib) : (s.modNib n f).hostReads = s.hostReads := rfl
@[simp] theorem State.modNib_rings (n : Nat) (f : Nib → Nib) : (s.modNib n f).rings = s.rings := rfl
@[simp] theorem State.modNib_wards (n : Nat) (f : Nib → Nib) : (s.modNib n f).wards = s.wards := rfl
@[simp] theorem State.modNib_ports (n : Nat) (f : Nib → Nib) : (s.modNib n f).ports = s.ports := rfl
@[simp] theorem State.modNib_binds (n : Nat) (f : Nib → Nib) : (s.modNib n f).binds = s.binds := rfl
@[simp] theorem State.modNib_bindRefused (n : Nat) (f : Nib → Nib) : (s.modNib n f).bindRefused = s.bindRefused := rfl
@[simp] theorem State.modNib_linksFailed (n : Nat) (f : Nib → Nib) : (s.modNib n f).linksFailed = s.linksFailed := rfl
@[simp] theorem State.modNib_resend (n : Nat) (f : Nib → Nib) : (s.modNib n f).resend = s.resend := rfl
@[simp] theorem State.modNib_coll (n : Nat) (f : Nib → Nib) : (s.modNib n f).coll = s.coll := rfl
@[simp] theorem State.modNib_copyRecs (n : Nat) (f : Nib → Nib) : (s.modNib n f).copyRecs = s.copyRecs := rfl
@[simp] theorem State.modNib_chunks (n : Nat) (f : Nib → Nib) : (s.modNib n f).chunks = s.chunks := rfl
@[simp] theorem State.modNib_engines (n : Nat) (f : Nib → Nib) : (s.modNib n f).engines = s.engines := rfl
@[simp] theorem State.modNib_errNext (n : Nat) (f : Nib → Nib) : (s.modNib n f).errNext = s.errNext := rfl
@[simp] theorem State.modNib_wardNews (n : Nat) (f : Nib → Nib) : (s.modNib n f).wardNews = s.wardNews := rfl
@[simp] theorem State.modNib_tallies (n : Nat) (f : Nib → Nib) : (s.modNib n f).tallies = s.tallies := rfl
@[simp] theorem State.modNib_drops (n : Nat) (f : Nib → Nib) : (s.modNib n f).drops = s.drops := rfl
@[simp] theorem State.modNib_snap (n : Nat) (f : Nib → Nib) : (s.modNib n f).snap = s.snap := rfl
@[simp] theorem State.modNib_capture (n : Nat) (f : Nib → Nib) : (s.modNib n f).capture = s.capture := rfl
@[simp] theorem State.modNib_latches (n : Nat) (f : Nib → Nib) : (s.modNib n f).latches = s.latches := rfl
@[simp] theorem State.modNib_power (n : Nat) (f : Nib → Nib) : (s.modNib n f).power = s.power := rfl
@[simp] theorem State.modNib_steward (n : Nat) (f : Nib → Nib) : (s.modNib n f).steward = s.steward := rfl
@[simp] theorem State.modNib_patch (n : Nat) (f : Nib → Nib) : (s.modNib n f).patch = s.patch := rfl
@[simp] theorem State.modNib_boot (n : Nat) (f : Nib → Nib) : (s.modNib n f).boot = s.boot := rfl
@[simp] theorem State.modNib_dbg (n : Nat) (f : Nib → Nib) : (s.modNib n f).dbg = s.dbg := rfl
@[simp] theorem State.modNib_pins (n : Nat) (f : Nib → Nib) : (s.modNib n f).pins = s.pins := rfl
@[simp] theorem State.modNib_tick (n : Nat) (f : Nib → Nib) : (s.modNib n f).tick = s.tick := rfl

/-! ### State.putWord -/

@[simp] theorem State.putWord_pending (a : Nat) (w : Word) : (s.putWord a w).pending = s.pending := rfl
@[simp] theorem State.putWord_ctxs (a : Nat) (w : Word) : (s.putWord a w).ctxs = s.ctxs := rfl
@[simp] theorem State.putWord_nibs (a : Nat) (w : Word) : (s.putWord a w).nibs = s.nibs := rfl
@[simp] theorem State.putWord_ckpt (a : Nat) (w : Word) : (s.putWord a w).ckpt = s.ckpt := rfl
@[simp] theorem State.putWord_imagePending (a : Nat) (w : Word) : (s.putWord a w).imagePending = s.imagePending := rfl
@[simp] theorem State.putWord_shadowDue (a : Nat) (w : Word) : (s.putWord a w).shadowDue = s.shadowDue := rfl
@[simp] theorem State.putWord_reads (a : Nat) (w : Word) : (s.putWord a w).reads = s.reads := rfl
@[simp] theorem State.putWord_fills (a : Nat) (w : Word) : (s.putWord a w).fills = s.fills := rfl
@[simp] theorem State.putWord_invals (a : Nat) (w : Word) : (s.putWord a w).invals = s.invals := rfl
@[simp] theorem State.putWord_acks (a : Nat) (w : Word) : (s.putWord a w).acks = s.acks := rfl
@[simp] theorem State.putWord_writes (a : Nat) (w : Word) : (s.putWord a w).writes = s.writes := rfl
@[simp] theorem State.putWord_hostWrites (a : Nat) (w : Word) : (s.putWord a w).hostWrites = s.hostWrites := rfl
@[simp] theorem State.putWord_storeAcks (a : Nat) (w : Word) : (s.putWord a w).storeAcks = s.storeAcks := rfl
@[simp] theorem State.putWord_sends (a : Nat) (w : Word) : (s.putWord a w).sends = s.sends := rfl
@[simp] theorem State.putWord_answers (a : Nat) (w : Word) : (s.putWord a w).answers = s.answers := rfl
@[simp] theorem State.putWord_doorEvents (a : Nat) (w : Word) : (s.putWord a w).doorEvents = s.doorEvents := rfl
@[simp] theorem State.putWord_ink (a : Nat) (w : Word) : (s.putWord a w).ink = s.ink := rfl
@[simp] theorem State.putWord_inkState (a : Nat) (w : Word) : (s.putWord a w).inkState = s.inkState := rfl
@[simp] theorem State.putWord_inkSets (a : Nat) (w : Word) : (s.putWord a w).inkSets = s.inkSets := rfl
@[simp] theorem State.putWord_inkAuto (a : Nat) (w : Word) : (s.putWord a w).inkAuto = s.inkAuto := rfl
@[simp] theorem State.putWord_inkClock (a : Nat) (w : Word) : (s.putWord a w).inkClock = s.inkClock := rfl
@[simp] theorem State.putWord_spares (a : Nat) (w : Word) : (s.putWord a w).spares = s.spares := rfl
@[simp] theorem State.putWord_stackErr (a : Nat) (w : Word) : (s.putWord a w).stackErr = s.stackErr := rfl
@[simp] theorem State.putWord_regs (a : Nat) (w : Word) : (s.putWord a w).regs = s.regs := rfl
@[simp] theorem State.putWord_staged (a : Nat) (w : Word) : (s.putWord a w).staged = s.staged := rfl
@[simp] theorem State.putWord_guards (a : Nat) (w : Word) : (s.putWord a w).guards = s.guards := rfl
@[simp] theorem State.putWord_applies (a : Nat) (w : Word) : (s.putWord a w).applies = s.applies := rfl
@[simp] theorem State.putWord_assign (a : Nat) (w : Word) : (s.putWord a w).assign = s.assign := rfl
@[simp] theorem State.putWord_rubStaged (a : Nat) (w : Word) : (s.putWord a w).rubStaged = s.rubStaged := rfl
@[simp] theorem State.putWord_rubActive (a : Nat) (w : Word) : (s.putWord a w).rubActive = s.rubActive := rfl
@[simp] theorem State.putWord_rubOn (a : Nat) (w : Word) : (s.putWord a w).rubOn = s.rubOn := rfl
@[simp] theorem State.putWord_sheetOwner (a : Nat) (w : Word) : (s.putWord a w).sheetOwner = s.sheetOwner := rfl
@[simp] theorem State.putWord_walkCache (a : Nat) (w : Word) : (s.putWord a w).walkCache = s.walkCache := rfl
@[simp] theorem State.putWord_hub (a : Nat) (w : Word) : (s.putWord a w).hub = s.hub := rfl
@[simp] theorem State.putWord_stroke (a : Nat) (w : Word) : (s.putWord a w).stroke = s.stroke := rfl
@[simp] theorem State.putWord_log (a : Nat) (w : Word) : (s.putWord a w).log = s.log := rfl
@[simp] theorem State.putWord_heldWrites (a : Nat) (w : Word) : (s.putWord a w).heldWrites = s.heldWrites := rfl
@[simp] theorem State.putWord_journal (a : Nat) (w : Word) : (s.putWord a w).journal = s.journal := rfl
@[simp] theorem State.putWord_replay (a : Nat) (w : Word) : (s.putWord a w).replay = s.replay := rfl
@[simp] theorem State.putWord_nextInputs (a : Nat) (w : Word) : (s.putWord a w).nextInputs = s.nextInputs := rfl
@[simp] theorem State.putWord_staging (a : Nat) (w : Word) : (s.putWord a w).staging = s.staging := rfl
@[simp] theorem State.putWord_hostOut (a : Nat) (w : Word) : (s.putWord a w).hostOut = s.hostOut := rfl
@[simp] theorem State.putWord_hostReads (a : Nat) (w : Word) : (s.putWord a w).hostReads = s.hostReads := rfl
@[simp] theorem State.putWord_rings (a : Nat) (w : Word) : (s.putWord a w).rings = s.rings := rfl
@[simp] theorem State.putWord_wards (a : Nat) (w : Word) : (s.putWord a w).wards = s.wards := rfl
@[simp] theorem State.putWord_ports (a : Nat) (w : Word) : (s.putWord a w).ports = s.ports := rfl
@[simp] theorem State.putWord_binds (a : Nat) (w : Word) : (s.putWord a w).binds = s.binds := rfl
@[simp] theorem State.putWord_bindRefused (a : Nat) (w : Word) : (s.putWord a w).bindRefused = s.bindRefused := rfl
@[simp] theorem State.putWord_linksFailed (a : Nat) (w : Word) : (s.putWord a w).linksFailed = s.linksFailed := rfl
@[simp] theorem State.putWord_resend (a : Nat) (w : Word) : (s.putWord a w).resend = s.resend := rfl
@[simp] theorem State.putWord_coll (a : Nat) (w : Word) : (s.putWord a w).coll = s.coll := rfl
@[simp] theorem State.putWord_copyRecs (a : Nat) (w : Word) : (s.putWord a w).copyRecs = s.copyRecs := rfl
@[simp] theorem State.putWord_chunks (a : Nat) (w : Word) : (s.putWord a w).chunks = s.chunks := rfl
@[simp] theorem State.putWord_engines (a : Nat) (w : Word) : (s.putWord a w).engines = s.engines := rfl
@[simp] theorem State.putWord_errNext (a : Nat) (w : Word) : (s.putWord a w).errNext = s.errNext := rfl
@[simp] theorem State.putWord_wardNews (a : Nat) (w : Word) : (s.putWord a w).wardNews = s.wardNews := rfl
@[simp] theorem State.putWord_tallies (a : Nat) (w : Word) : (s.putWord a w).tallies = s.tallies := rfl
@[simp] theorem State.putWord_drops (a : Nat) (w : Word) : (s.putWord a w).drops = s.drops := rfl
@[simp] theorem State.putWord_snap (a : Nat) (w : Word) : (s.putWord a w).snap = s.snap := rfl
@[simp] theorem State.putWord_capture (a : Nat) (w : Word) : (s.putWord a w).capture = s.capture := rfl
@[simp] theorem State.putWord_latches (a : Nat) (w : Word) : (s.putWord a w).latches = s.latches := rfl
@[simp] theorem State.putWord_power (a : Nat) (w : Word) : (s.putWord a w).power = s.power := rfl
@[simp] theorem State.putWord_steward (a : Nat) (w : Word) : (s.putWord a w).steward = s.steward := rfl
@[simp] theorem State.putWord_patch (a : Nat) (w : Word) : (s.putWord a w).patch = s.patch := rfl
@[simp] theorem State.putWord_boot (a : Nat) (w : Word) : (s.putWord a w).boot = s.boot := rfl
@[simp] theorem State.putWord_dbg (a : Nat) (w : Word) : (s.putWord a w).dbg = s.dbg := rfl
@[simp] theorem State.putWord_pins (a : Nat) (w : Word) : (s.putWord a w).pins = s.pins := rfl
@[simp] theorem State.putWord_tick (a : Nat) (w : Word) : (s.putWord a w).tick = s.tick := rfl

/-! ### State.setReg -/

@[simp] theorem State.setReg_pending (a : Nat) (v : BitVec 32) : (s.setReg a v).pending = s.pending := rfl
@[simp] theorem State.setReg_ctxs (a : Nat) (v : BitVec 32) : (s.setReg a v).ctxs = s.ctxs := rfl
@[simp] theorem State.setReg_nibs (a : Nat) (v : BitVec 32) : (s.setReg a v).nibs = s.nibs := rfl
@[simp] theorem State.setReg_mem (a : Nat) (v : BitVec 32) : (s.setReg a v).mem = s.mem := rfl
@[simp] theorem State.setReg_ckpt (a : Nat) (v : BitVec 32) : (s.setReg a v).ckpt = s.ckpt := rfl
@[simp] theorem State.setReg_imagePending (a : Nat) (v : BitVec 32) : (s.setReg a v).imagePending = s.imagePending := rfl
@[simp] theorem State.setReg_shadowDue (a : Nat) (v : BitVec 32) : (s.setReg a v).shadowDue = s.shadowDue := rfl
@[simp] theorem State.setReg_reads (a : Nat) (v : BitVec 32) : (s.setReg a v).reads = s.reads := rfl
@[simp] theorem State.setReg_fills (a : Nat) (v : BitVec 32) : (s.setReg a v).fills = s.fills := rfl
@[simp] theorem State.setReg_invals (a : Nat) (v : BitVec 32) : (s.setReg a v).invals = s.invals := rfl
@[simp] theorem State.setReg_acks (a : Nat) (v : BitVec 32) : (s.setReg a v).acks = s.acks := rfl
@[simp] theorem State.setReg_writes (a : Nat) (v : BitVec 32) : (s.setReg a v).writes = s.writes := rfl
@[simp] theorem State.setReg_hostWrites (a : Nat) (v : BitVec 32) : (s.setReg a v).hostWrites = s.hostWrites := rfl
@[simp] theorem State.setReg_storeAcks (a : Nat) (v : BitVec 32) : (s.setReg a v).storeAcks = s.storeAcks := rfl
@[simp] theorem State.setReg_sends (a : Nat) (v : BitVec 32) : (s.setReg a v).sends = s.sends := rfl
@[simp] theorem State.setReg_answers (a : Nat) (v : BitVec 32) : (s.setReg a v).answers = s.answers := rfl
@[simp] theorem State.setReg_doorEvents (a : Nat) (v : BitVec 32) : (s.setReg a v).doorEvents = s.doorEvents := rfl
@[simp] theorem State.setReg_ink (a : Nat) (v : BitVec 32) : (s.setReg a v).ink = s.ink := rfl
@[simp] theorem State.setReg_inkState (a : Nat) (v : BitVec 32) : (s.setReg a v).inkState = s.inkState := rfl
@[simp] theorem State.setReg_inkSets (a : Nat) (v : BitVec 32) : (s.setReg a v).inkSets = s.inkSets := rfl
@[simp] theorem State.setReg_inkAuto (a : Nat) (v : BitVec 32) : (s.setReg a v).inkAuto = s.inkAuto := rfl
@[simp] theorem State.setReg_inkClock (a : Nat) (v : BitVec 32) : (s.setReg a v).inkClock = s.inkClock := rfl
@[simp] theorem State.setReg_spares (a : Nat) (v : BitVec 32) : (s.setReg a v).spares = s.spares := rfl
@[simp] theorem State.setReg_stackErr (a : Nat) (v : BitVec 32) : (s.setReg a v).stackErr = s.stackErr := rfl
@[simp] theorem State.setReg_staged (a : Nat) (v : BitVec 32) : (s.setReg a v).staged = s.staged := rfl
@[simp] theorem State.setReg_guards (a : Nat) (v : BitVec 32) : (s.setReg a v).guards = s.guards := rfl
@[simp] theorem State.setReg_applies (a : Nat) (v : BitVec 32) : (s.setReg a v).applies = s.applies := rfl
@[simp] theorem State.setReg_assign (a : Nat) (v : BitVec 32) : (s.setReg a v).assign = s.assign := rfl
@[simp] theorem State.setReg_rubStaged (a : Nat) (v : BitVec 32) : (s.setReg a v).rubStaged = s.rubStaged := rfl
@[simp] theorem State.setReg_rubActive (a : Nat) (v : BitVec 32) : (s.setReg a v).rubActive = s.rubActive := rfl
@[simp] theorem State.setReg_rubOn (a : Nat) (v : BitVec 32) : (s.setReg a v).rubOn = s.rubOn := rfl
@[simp] theorem State.setReg_sheetOwner (a : Nat) (v : BitVec 32) : (s.setReg a v).sheetOwner = s.sheetOwner := rfl
@[simp] theorem State.setReg_walkCache (a : Nat) (v : BitVec 32) : (s.setReg a v).walkCache = s.walkCache := rfl
@[simp] theorem State.setReg_hub (a : Nat) (v : BitVec 32) : (s.setReg a v).hub = s.hub := rfl
@[simp] theorem State.setReg_stroke (a : Nat) (v : BitVec 32) : (s.setReg a v).stroke = s.stroke := rfl
@[simp] theorem State.setReg_log (a : Nat) (v : BitVec 32) : (s.setReg a v).log = s.log := rfl
@[simp] theorem State.setReg_heldWrites (a : Nat) (v : BitVec 32) : (s.setReg a v).heldWrites = s.heldWrites := rfl
@[simp] theorem State.setReg_journal (a : Nat) (v : BitVec 32) : (s.setReg a v).journal = s.journal := rfl
@[simp] theorem State.setReg_replay (a : Nat) (v : BitVec 32) : (s.setReg a v).replay = s.replay := rfl
@[simp] theorem State.setReg_nextInputs (a : Nat) (v : BitVec 32) : (s.setReg a v).nextInputs = s.nextInputs := rfl
@[simp] theorem State.setReg_staging (a : Nat) (v : BitVec 32) : (s.setReg a v).staging = s.staging := rfl
@[simp] theorem State.setReg_hostOut (a : Nat) (v : BitVec 32) : (s.setReg a v).hostOut = s.hostOut := rfl
@[simp] theorem State.setReg_hostReads (a : Nat) (v : BitVec 32) : (s.setReg a v).hostReads = s.hostReads := rfl
@[simp] theorem State.setReg_rings (a : Nat) (v : BitVec 32) : (s.setReg a v).rings = s.rings := rfl
@[simp] theorem State.setReg_wards (a : Nat) (v : BitVec 32) : (s.setReg a v).wards = s.wards := rfl
@[simp] theorem State.setReg_ports (a : Nat) (v : BitVec 32) : (s.setReg a v).ports = s.ports := rfl
@[simp] theorem State.setReg_binds (a : Nat) (v : BitVec 32) : (s.setReg a v).binds = s.binds := rfl
@[simp] theorem State.setReg_bindRefused (a : Nat) (v : BitVec 32) : (s.setReg a v).bindRefused = s.bindRefused := rfl
@[simp] theorem State.setReg_linksFailed (a : Nat) (v : BitVec 32) : (s.setReg a v).linksFailed = s.linksFailed := rfl
@[simp] theorem State.setReg_resend (a : Nat) (v : BitVec 32) : (s.setReg a v).resend = s.resend := rfl
@[simp] theorem State.setReg_coll (a : Nat) (v : BitVec 32) : (s.setReg a v).coll = s.coll := rfl
@[simp] theorem State.setReg_copyRecs (a : Nat) (v : BitVec 32) : (s.setReg a v).copyRecs = s.copyRecs := rfl
@[simp] theorem State.setReg_chunks (a : Nat) (v : BitVec 32) : (s.setReg a v).chunks = s.chunks := rfl
@[simp] theorem State.setReg_engines (a : Nat) (v : BitVec 32) : (s.setReg a v).engines = s.engines := rfl
@[simp] theorem State.setReg_errNext (a : Nat) (v : BitVec 32) : (s.setReg a v).errNext = s.errNext := rfl
@[simp] theorem State.setReg_wardNews (a : Nat) (v : BitVec 32) : (s.setReg a v).wardNews = s.wardNews := rfl
@[simp] theorem State.setReg_tallies (a : Nat) (v : BitVec 32) : (s.setReg a v).tallies = s.tallies := rfl
@[simp] theorem State.setReg_drops (a : Nat) (v : BitVec 32) : (s.setReg a v).drops = s.drops := rfl
@[simp] theorem State.setReg_snap (a : Nat) (v : BitVec 32) : (s.setReg a v).snap = s.snap := rfl
@[simp] theorem State.setReg_capture (a : Nat) (v : BitVec 32) : (s.setReg a v).capture = s.capture := rfl
@[simp] theorem State.setReg_latches (a : Nat) (v : BitVec 32) : (s.setReg a v).latches = s.latches := rfl
@[simp] theorem State.setReg_power (a : Nat) (v : BitVec 32) : (s.setReg a v).power = s.power := rfl
@[simp] theorem State.setReg_steward (a : Nat) (v : BitVec 32) : (s.setReg a v).steward = s.steward := rfl
@[simp] theorem State.setReg_patch (a : Nat) (v : BitVec 32) : (s.setReg a v).patch = s.patch := rfl
@[simp] theorem State.setReg_boot (a : Nat) (v : BitVec 32) : (s.setReg a v).boot = s.boot := rfl
@[simp] theorem State.setReg_dbg (a : Nat) (v : BitVec 32) : (s.setReg a v).dbg = s.dbg := rfl
@[simp] theorem State.setReg_pins (a : Nat) (v : BitVec 32) : (s.setReg a v).pins = s.pins := rfl
@[simp] theorem State.setReg_tick (a : Nat) (v : BitVec 32) : (s.setReg a v).tick = s.tick := rfl

/-! ### State.setStaged -/

@[simp] theorem State.setStaged_pending (a : Nat) (v : BitVec 32) : (s.setStaged a v).pending = s.pending := rfl
@[simp] theorem State.setStaged_ctxs (a : Nat) (v : BitVec 32) : (s.setStaged a v).ctxs = s.ctxs := rfl
@[simp] theorem State.setStaged_nibs (a : Nat) (v : BitVec 32) : (s.setStaged a v).nibs = s.nibs := rfl
@[simp] theorem State.setStaged_mem (a : Nat) (v : BitVec 32) : (s.setStaged a v).mem = s.mem := rfl
@[simp] theorem State.setStaged_ckpt (a : Nat) (v : BitVec 32) : (s.setStaged a v).ckpt = s.ckpt := rfl
@[simp] theorem State.setStaged_imagePending (a : Nat) (v : BitVec 32) : (s.setStaged a v).imagePending = s.imagePending := rfl
@[simp] theorem State.setStaged_shadowDue (a : Nat) (v : BitVec 32) : (s.setStaged a v).shadowDue = s.shadowDue := rfl
@[simp] theorem State.setStaged_reads (a : Nat) (v : BitVec 32) : (s.setStaged a v).reads = s.reads := rfl
@[simp] theorem State.setStaged_fills (a : Nat) (v : BitVec 32) : (s.setStaged a v).fills = s.fills := rfl
@[simp] theorem State.setStaged_invals (a : Nat) (v : BitVec 32) : (s.setStaged a v).invals = s.invals := rfl
@[simp] theorem State.setStaged_acks (a : Nat) (v : BitVec 32) : (s.setStaged a v).acks = s.acks := rfl
@[simp] theorem State.setStaged_writes (a : Nat) (v : BitVec 32) : (s.setStaged a v).writes = s.writes := rfl
@[simp] theorem State.setStaged_hostWrites (a : Nat) (v : BitVec 32) : (s.setStaged a v).hostWrites = s.hostWrites := rfl
@[simp] theorem State.setStaged_storeAcks (a : Nat) (v : BitVec 32) : (s.setStaged a v).storeAcks = s.storeAcks := rfl
@[simp] theorem State.setStaged_sends (a : Nat) (v : BitVec 32) : (s.setStaged a v).sends = s.sends := rfl
@[simp] theorem State.setStaged_answers (a : Nat) (v : BitVec 32) : (s.setStaged a v).answers = s.answers := rfl
@[simp] theorem State.setStaged_doorEvents (a : Nat) (v : BitVec 32) : (s.setStaged a v).doorEvents = s.doorEvents := rfl
@[simp] theorem State.setStaged_ink (a : Nat) (v : BitVec 32) : (s.setStaged a v).ink = s.ink := rfl
@[simp] theorem State.setStaged_inkState (a : Nat) (v : BitVec 32) : (s.setStaged a v).inkState = s.inkState := rfl
@[simp] theorem State.setStaged_inkSets (a : Nat) (v : BitVec 32) : (s.setStaged a v).inkSets = s.inkSets := rfl
@[simp] theorem State.setStaged_inkAuto (a : Nat) (v : BitVec 32) : (s.setStaged a v).inkAuto = s.inkAuto := rfl
@[simp] theorem State.setStaged_inkClock (a : Nat) (v : BitVec 32) : (s.setStaged a v).inkClock = s.inkClock := rfl
@[simp] theorem State.setStaged_spares (a : Nat) (v : BitVec 32) : (s.setStaged a v).spares = s.spares := rfl
@[simp] theorem State.setStaged_stackErr (a : Nat) (v : BitVec 32) : (s.setStaged a v).stackErr = s.stackErr := rfl
@[simp] theorem State.setStaged_regs (a : Nat) (v : BitVec 32) : (s.setStaged a v).regs = s.regs := rfl
@[simp] theorem State.setStaged_guards (a : Nat) (v : BitVec 32) : (s.setStaged a v).guards = s.guards := rfl
@[simp] theorem State.setStaged_applies (a : Nat) (v : BitVec 32) : (s.setStaged a v).applies = s.applies := rfl
@[simp] theorem State.setStaged_assign (a : Nat) (v : BitVec 32) : (s.setStaged a v).assign = s.assign := rfl
@[simp] theorem State.setStaged_rubStaged (a : Nat) (v : BitVec 32) : (s.setStaged a v).rubStaged = s.rubStaged := rfl
@[simp] theorem State.setStaged_rubActive (a : Nat) (v : BitVec 32) : (s.setStaged a v).rubActive = s.rubActive := rfl
@[simp] theorem State.setStaged_rubOn (a : Nat) (v : BitVec 32) : (s.setStaged a v).rubOn = s.rubOn := rfl
@[simp] theorem State.setStaged_sheetOwner (a : Nat) (v : BitVec 32) : (s.setStaged a v).sheetOwner = s.sheetOwner := rfl
@[simp] theorem State.setStaged_walkCache (a : Nat) (v : BitVec 32) : (s.setStaged a v).walkCache = s.walkCache := rfl
@[simp] theorem State.setStaged_hub (a : Nat) (v : BitVec 32) : (s.setStaged a v).hub = s.hub := rfl
@[simp] theorem State.setStaged_stroke (a : Nat) (v : BitVec 32) : (s.setStaged a v).stroke = s.stroke := rfl
@[simp] theorem State.setStaged_log (a : Nat) (v : BitVec 32) : (s.setStaged a v).log = s.log := rfl
@[simp] theorem State.setStaged_heldWrites (a : Nat) (v : BitVec 32) : (s.setStaged a v).heldWrites = s.heldWrites := rfl
@[simp] theorem State.setStaged_journal (a : Nat) (v : BitVec 32) : (s.setStaged a v).journal = s.journal := rfl
@[simp] theorem State.setStaged_replay (a : Nat) (v : BitVec 32) : (s.setStaged a v).replay = s.replay := rfl
@[simp] theorem State.setStaged_nextInputs (a : Nat) (v : BitVec 32) : (s.setStaged a v).nextInputs = s.nextInputs := rfl
@[simp] theorem State.setStaged_staging (a : Nat) (v : BitVec 32) : (s.setStaged a v).staging = s.staging := rfl
@[simp] theorem State.setStaged_hostOut (a : Nat) (v : BitVec 32) : (s.setStaged a v).hostOut = s.hostOut := rfl
@[simp] theorem State.setStaged_hostReads (a : Nat) (v : BitVec 32) : (s.setStaged a v).hostReads = s.hostReads := rfl
@[simp] theorem State.setStaged_rings (a : Nat) (v : BitVec 32) : (s.setStaged a v).rings = s.rings := rfl
@[simp] theorem State.setStaged_wards (a : Nat) (v : BitVec 32) : (s.setStaged a v).wards = s.wards := rfl
@[simp] theorem State.setStaged_ports (a : Nat) (v : BitVec 32) : (s.setStaged a v).ports = s.ports := rfl
@[simp] theorem State.setStaged_binds (a : Nat) (v : BitVec 32) : (s.setStaged a v).binds = s.binds := rfl
@[simp] theorem State.setStaged_bindRefused (a : Nat) (v : BitVec 32) : (s.setStaged a v).bindRefused = s.bindRefused := rfl
@[simp] theorem State.setStaged_linksFailed (a : Nat) (v : BitVec 32) : (s.setStaged a v).linksFailed = s.linksFailed := rfl
@[simp] theorem State.setStaged_resend (a : Nat) (v : BitVec 32) : (s.setStaged a v).resend = s.resend := rfl
@[simp] theorem State.setStaged_coll (a : Nat) (v : BitVec 32) : (s.setStaged a v).coll = s.coll := rfl
@[simp] theorem State.setStaged_copyRecs (a : Nat) (v : BitVec 32) : (s.setStaged a v).copyRecs = s.copyRecs := rfl
@[simp] theorem State.setStaged_chunks (a : Nat) (v : BitVec 32) : (s.setStaged a v).chunks = s.chunks := rfl
@[simp] theorem State.setStaged_engines (a : Nat) (v : BitVec 32) : (s.setStaged a v).engines = s.engines := rfl
@[simp] theorem State.setStaged_errNext (a : Nat) (v : BitVec 32) : (s.setStaged a v).errNext = s.errNext := rfl
@[simp] theorem State.setStaged_wardNews (a : Nat) (v : BitVec 32) : (s.setStaged a v).wardNews = s.wardNews := rfl
@[simp] theorem State.setStaged_tallies (a : Nat) (v : BitVec 32) : (s.setStaged a v).tallies = s.tallies := rfl
@[simp] theorem State.setStaged_drops (a : Nat) (v : BitVec 32) : (s.setStaged a v).drops = s.drops := rfl
@[simp] theorem State.setStaged_snap (a : Nat) (v : BitVec 32) : (s.setStaged a v).snap = s.snap := rfl
@[simp] theorem State.setStaged_capture (a : Nat) (v : BitVec 32) : (s.setStaged a v).capture = s.capture := rfl
@[simp] theorem State.setStaged_latches (a : Nat) (v : BitVec 32) : (s.setStaged a v).latches = s.latches := rfl
@[simp] theorem State.setStaged_power (a : Nat) (v : BitVec 32) : (s.setStaged a v).power = s.power := rfl
@[simp] theorem State.setStaged_steward (a : Nat) (v : BitVec 32) : (s.setStaged a v).steward = s.steward := rfl
@[simp] theorem State.setStaged_patch (a : Nat) (v : BitVec 32) : (s.setStaged a v).patch = s.patch := rfl
@[simp] theorem State.setStaged_boot (a : Nat) (v : BitVec 32) : (s.setStaged a v).boot = s.boot := rfl
@[simp] theorem State.setStaged_dbg (a : Nat) (v : BitVec 32) : (s.setStaged a v).dbg = s.dbg := rfl
@[simp] theorem State.setStaged_pins (a : Nat) (v : BitVec 32) : (s.setStaged a v).pins = s.pins := rfl
@[simp] theorem State.setStaged_tick (a : Nat) (v : BitVec 32) : (s.setStaged a v).tick = s.tick := rfl

/-! ### State.modWard -/

@[simp] theorem State.modWard_pending (w : Nat) (f : Ward → Ward) : (s.modWard w f).pending = s.pending := rfl
@[simp] theorem State.modWard_ctxs (w : Nat) (f : Ward → Ward) : (s.modWard w f).ctxs = s.ctxs := rfl
@[simp] theorem State.modWard_nibs (w : Nat) (f : Ward → Ward) : (s.modWard w f).nibs = s.nibs := rfl
@[simp] theorem State.modWard_mem (w : Nat) (f : Ward → Ward) : (s.modWard w f).mem = s.mem := rfl
@[simp] theorem State.modWard_ckpt (w : Nat) (f : Ward → Ward) : (s.modWard w f).ckpt = s.ckpt := rfl
@[simp] theorem State.modWard_imagePending (w : Nat) (f : Ward → Ward) : (s.modWard w f).imagePending = s.imagePending := rfl
@[simp] theorem State.modWard_shadowDue (w : Nat) (f : Ward → Ward) : (s.modWard w f).shadowDue = s.shadowDue := rfl
@[simp] theorem State.modWard_reads (w : Nat) (f : Ward → Ward) : (s.modWard w f).reads = s.reads := rfl
@[simp] theorem State.modWard_fills (w : Nat) (f : Ward → Ward) : (s.modWard w f).fills = s.fills := rfl
@[simp] theorem State.modWard_invals (w : Nat) (f : Ward → Ward) : (s.modWard w f).invals = s.invals := rfl
@[simp] theorem State.modWard_acks (w : Nat) (f : Ward → Ward) : (s.modWard w f).acks = s.acks := rfl
@[simp] theorem State.modWard_writes (w : Nat) (f : Ward → Ward) : (s.modWard w f).writes = s.writes := rfl
@[simp] theorem State.modWard_hostWrites (w : Nat) (f : Ward → Ward) : (s.modWard w f).hostWrites = s.hostWrites := rfl
@[simp] theorem State.modWard_storeAcks (w : Nat) (f : Ward → Ward) : (s.modWard w f).storeAcks = s.storeAcks := rfl
@[simp] theorem State.modWard_sends (w : Nat) (f : Ward → Ward) : (s.modWard w f).sends = s.sends := rfl
@[simp] theorem State.modWard_answers (w : Nat) (f : Ward → Ward) : (s.modWard w f).answers = s.answers := rfl
@[simp] theorem State.modWard_doorEvents (w : Nat) (f : Ward → Ward) : (s.modWard w f).doorEvents = s.doorEvents := rfl
@[simp] theorem State.modWard_ink (w : Nat) (f : Ward → Ward) : (s.modWard w f).ink = s.ink := rfl
@[simp] theorem State.modWard_inkState (w : Nat) (f : Ward → Ward) : (s.modWard w f).inkState = s.inkState := rfl
@[simp] theorem State.modWard_inkSets (w : Nat) (f : Ward → Ward) : (s.modWard w f).inkSets = s.inkSets := rfl
@[simp] theorem State.modWard_inkAuto (w : Nat) (f : Ward → Ward) : (s.modWard w f).inkAuto = s.inkAuto := rfl
@[simp] theorem State.modWard_inkClock (w : Nat) (f : Ward → Ward) : (s.modWard w f).inkClock = s.inkClock := rfl
@[simp] theorem State.modWard_spares (w : Nat) (f : Ward → Ward) : (s.modWard w f).spares = s.spares := rfl
@[simp] theorem State.modWard_stackErr (w : Nat) (f : Ward → Ward) : (s.modWard w f).stackErr = s.stackErr := rfl
@[simp] theorem State.modWard_regs (w : Nat) (f : Ward → Ward) : (s.modWard w f).regs = s.regs := rfl
@[simp] theorem State.modWard_staged (w : Nat) (f : Ward → Ward) : (s.modWard w f).staged = s.staged := rfl
@[simp] theorem State.modWard_guards (w : Nat) (f : Ward → Ward) : (s.modWard w f).guards = s.guards := rfl
@[simp] theorem State.modWard_applies (w : Nat) (f : Ward → Ward) : (s.modWard w f).applies = s.applies := rfl
@[simp] theorem State.modWard_assign (w : Nat) (f : Ward → Ward) : (s.modWard w f).assign = s.assign := rfl
@[simp] theorem State.modWard_rubStaged (w : Nat) (f : Ward → Ward) : (s.modWard w f).rubStaged = s.rubStaged := rfl
@[simp] theorem State.modWard_rubActive (w : Nat) (f : Ward → Ward) : (s.modWard w f).rubActive = s.rubActive := rfl
@[simp] theorem State.modWard_rubOn (w : Nat) (f : Ward → Ward) : (s.modWard w f).rubOn = s.rubOn := rfl
@[simp] theorem State.modWard_sheetOwner (w : Nat) (f : Ward → Ward) : (s.modWard w f).sheetOwner = s.sheetOwner := rfl
@[simp] theorem State.modWard_walkCache (w : Nat) (f : Ward → Ward) : (s.modWard w f).walkCache = s.walkCache := rfl
@[simp] theorem State.modWard_hub (w : Nat) (f : Ward → Ward) : (s.modWard w f).hub = s.hub := rfl
@[simp] theorem State.modWard_stroke (w : Nat) (f : Ward → Ward) : (s.modWard w f).stroke = s.stroke := rfl
@[simp] theorem State.modWard_log (w : Nat) (f : Ward → Ward) : (s.modWard w f).log = s.log := rfl
@[simp] theorem State.modWard_heldWrites (w : Nat) (f : Ward → Ward) : (s.modWard w f).heldWrites = s.heldWrites := rfl
@[simp] theorem State.modWard_journal (w : Nat) (f : Ward → Ward) : (s.modWard w f).journal = s.journal := rfl
@[simp] theorem State.modWard_replay (w : Nat) (f : Ward → Ward) : (s.modWard w f).replay = s.replay := rfl
@[simp] theorem State.modWard_nextInputs (w : Nat) (f : Ward → Ward) : (s.modWard w f).nextInputs = s.nextInputs := rfl
@[simp] theorem State.modWard_staging (w : Nat) (f : Ward → Ward) : (s.modWard w f).staging = s.staging := rfl
@[simp] theorem State.modWard_hostOut (w : Nat) (f : Ward → Ward) : (s.modWard w f).hostOut = s.hostOut := rfl
@[simp] theorem State.modWard_hostReads (w : Nat) (f : Ward → Ward) : (s.modWard w f).hostReads = s.hostReads := rfl
@[simp] theorem State.modWard_rings (w : Nat) (f : Ward → Ward) : (s.modWard w f).rings = s.rings := rfl
@[simp] theorem State.modWard_ports (w : Nat) (f : Ward → Ward) : (s.modWard w f).ports = s.ports := rfl
@[simp] theorem State.modWard_binds (w : Nat) (f : Ward → Ward) : (s.modWard w f).binds = s.binds := rfl
@[simp] theorem State.modWard_bindRefused (w : Nat) (f : Ward → Ward) : (s.modWard w f).bindRefused = s.bindRefused := rfl
@[simp] theorem State.modWard_linksFailed (w : Nat) (f : Ward → Ward) : (s.modWard w f).linksFailed = s.linksFailed := rfl
@[simp] theorem State.modWard_resend (w : Nat) (f : Ward → Ward) : (s.modWard w f).resend = s.resend := rfl
@[simp] theorem State.modWard_coll (w : Nat) (f : Ward → Ward) : (s.modWard w f).coll = s.coll := rfl
@[simp] theorem State.modWard_copyRecs (w : Nat) (f : Ward → Ward) : (s.modWard w f).copyRecs = s.copyRecs := rfl
@[simp] theorem State.modWard_chunks (w : Nat) (f : Ward → Ward) : (s.modWard w f).chunks = s.chunks := rfl
@[simp] theorem State.modWard_engines (w : Nat) (f : Ward → Ward) : (s.modWard w f).engines = s.engines := rfl
@[simp] theorem State.modWard_errNext (w : Nat) (f : Ward → Ward) : (s.modWard w f).errNext = s.errNext := rfl
@[simp] theorem State.modWard_wardNews (w : Nat) (f : Ward → Ward) : (s.modWard w f).wardNews = s.wardNews := rfl
@[simp] theorem State.modWard_tallies (w : Nat) (f : Ward → Ward) : (s.modWard w f).tallies = s.tallies := rfl
@[simp] theorem State.modWard_drops (w : Nat) (f : Ward → Ward) : (s.modWard w f).drops = s.drops := rfl
@[simp] theorem State.modWard_snap (w : Nat) (f : Ward → Ward) : (s.modWard w f).snap = s.snap := rfl
@[simp] theorem State.modWard_capture (w : Nat) (f : Ward → Ward) : (s.modWard w f).capture = s.capture := rfl
@[simp] theorem State.modWard_latches (w : Nat) (f : Ward → Ward) : (s.modWard w f).latches = s.latches := rfl
@[simp] theorem State.modWard_power (w : Nat) (f : Ward → Ward) : (s.modWard w f).power = s.power := rfl
@[simp] theorem State.modWard_steward (w : Nat) (f : Ward → Ward) : (s.modWard w f).steward = s.steward := rfl
@[simp] theorem State.modWard_patch (w : Nat) (f : Ward → Ward) : (s.modWard w f).patch = s.patch := rfl
@[simp] theorem State.modWard_boot (w : Nat) (f : Ward → Ward) : (s.modWard w f).boot = s.boot := rfl
@[simp] theorem State.modWard_dbg (w : Nat) (f : Ward → Ward) : (s.modWard w f).dbg = s.dbg := rfl
@[simp] theorem State.modWard_pins (w : Nat) (f : Ward → Ward) : (s.modWard w f).pins = s.pins := rfl
@[simp] theorem State.modWard_tick (w : Nat) (f : Ward → Ward) : (s.modWard w f).tick = s.tick := rfl

/-! ### State.modRing -/

@[simp] theorem State.modRing_pending (w r : Nat) (f : Ring → Ring) : (s.modRing w r f).pending = s.pending := rfl
@[simp] theorem State.modRing_ctxs (w r : Nat) (f : Ring → Ring) : (s.modRing w r f).ctxs = s.ctxs := rfl
@[simp] theorem State.modRing_nibs (w r : Nat) (f : Ring → Ring) : (s.modRing w r f).nibs = s.nibs := rfl
@[simp] theorem State.modRing_mem (w r : Nat) (f : Ring → Ring) : (s.modRing w r f).mem = s.mem := rfl
@[simp] theorem State.modRing_ckpt (w r : Nat) (f : Ring → Ring) : (s.modRing w r f).ckpt = s.ckpt := rfl
@[simp] theorem State.modRing_imagePending (w r : Nat) (f : Ring → Ring) : (s.modRing w r f).imagePending = s.imagePending := rfl
@[simp] theorem State.modRing_shadowDue (w r : Nat) (f : Ring → Ring) : (s.modRing w r f).shadowDue = s.shadowDue := rfl
@[simp] theorem State.modRing_reads (w r : Nat) (f : Ring → Ring) : (s.modRing w r f).reads = s.reads := rfl
@[simp] theorem State.modRing_fills (w r : Nat) (f : Ring → Ring) : (s.modRing w r f).fills = s.fills := rfl
@[simp] theorem State.modRing_invals (w r : Nat) (f : Ring → Ring) : (s.modRing w r f).invals = s.invals := rfl
@[simp] theorem State.modRing_acks (w r : Nat) (f : Ring → Ring) : (s.modRing w r f).acks = s.acks := rfl
@[simp] theorem State.modRing_writes (w r : Nat) (f : Ring → Ring) : (s.modRing w r f).writes = s.writes := rfl
@[simp] theorem State.modRing_hostWrites (w r : Nat) (f : Ring → Ring) : (s.modRing w r f).hostWrites = s.hostWrites := rfl
@[simp] theorem State.modRing_storeAcks (w r : Nat) (f : Ring → Ring) : (s.modRing w r f).storeAcks = s.storeAcks := rfl
@[simp] theorem State.modRing_sends (w r : Nat) (f : Ring → Ring) : (s.modRing w r f).sends = s.sends := rfl
@[simp] theorem State.modRing_answers (w r : Nat) (f : Ring → Ring) : (s.modRing w r f).answers = s.answers := rfl
@[simp] theorem State.modRing_doorEvents (w r : Nat) (f : Ring → Ring) : (s.modRing w r f).doorEvents = s.doorEvents := rfl
@[simp] theorem State.modRing_ink (w r : Nat) (f : Ring → Ring) : (s.modRing w r f).ink = s.ink := rfl
@[simp] theorem State.modRing_inkState (w r : Nat) (f : Ring → Ring) : (s.modRing w r f).inkState = s.inkState := rfl
@[simp] theorem State.modRing_inkSets (w r : Nat) (f : Ring → Ring) : (s.modRing w r f).inkSets = s.inkSets := rfl
@[simp] theorem State.modRing_inkAuto (w r : Nat) (f : Ring → Ring) : (s.modRing w r f).inkAuto = s.inkAuto := rfl
@[simp] theorem State.modRing_inkClock (w r : Nat) (f : Ring → Ring) : (s.modRing w r f).inkClock = s.inkClock := rfl
@[simp] theorem State.modRing_spares (w r : Nat) (f : Ring → Ring) : (s.modRing w r f).spares = s.spares := rfl
@[simp] theorem State.modRing_stackErr (w r : Nat) (f : Ring → Ring) : (s.modRing w r f).stackErr = s.stackErr := rfl
@[simp] theorem State.modRing_regs (w r : Nat) (f : Ring → Ring) : (s.modRing w r f).regs = s.regs := rfl
@[simp] theorem State.modRing_staged (w r : Nat) (f : Ring → Ring) : (s.modRing w r f).staged = s.staged := rfl
@[simp] theorem State.modRing_guards (w r : Nat) (f : Ring → Ring) : (s.modRing w r f).guards = s.guards := rfl
@[simp] theorem State.modRing_applies (w r : Nat) (f : Ring → Ring) : (s.modRing w r f).applies = s.applies := rfl
@[simp] theorem State.modRing_assign (w r : Nat) (f : Ring → Ring) : (s.modRing w r f).assign = s.assign := rfl
@[simp] theorem State.modRing_rubStaged (w r : Nat) (f : Ring → Ring) : (s.modRing w r f).rubStaged = s.rubStaged := rfl
@[simp] theorem State.modRing_rubActive (w r : Nat) (f : Ring → Ring) : (s.modRing w r f).rubActive = s.rubActive := rfl
@[simp] theorem State.modRing_rubOn (w r : Nat) (f : Ring → Ring) : (s.modRing w r f).rubOn = s.rubOn := rfl
@[simp] theorem State.modRing_sheetOwner (w r : Nat) (f : Ring → Ring) : (s.modRing w r f).sheetOwner = s.sheetOwner := rfl
@[simp] theorem State.modRing_walkCache (w r : Nat) (f : Ring → Ring) : (s.modRing w r f).walkCache = s.walkCache := rfl
@[simp] theorem State.modRing_hub (w r : Nat) (f : Ring → Ring) : (s.modRing w r f).hub = s.hub := rfl
@[simp] theorem State.modRing_stroke (w r : Nat) (f : Ring → Ring) : (s.modRing w r f).stroke = s.stroke := rfl
@[simp] theorem State.modRing_log (w r : Nat) (f : Ring → Ring) : (s.modRing w r f).log = s.log := rfl
@[simp] theorem State.modRing_heldWrites (w r : Nat) (f : Ring → Ring) : (s.modRing w r f).heldWrites = s.heldWrites := rfl
@[simp] theorem State.modRing_journal (w r : Nat) (f : Ring → Ring) : (s.modRing w r f).journal = s.journal := rfl
@[simp] theorem State.modRing_replay (w r : Nat) (f : Ring → Ring) : (s.modRing w r f).replay = s.replay := rfl
@[simp] theorem State.modRing_nextInputs (w r : Nat) (f : Ring → Ring) : (s.modRing w r f).nextInputs = s.nextInputs := rfl
@[simp] theorem State.modRing_staging (w r : Nat) (f : Ring → Ring) : (s.modRing w r f).staging = s.staging := rfl
@[simp] theorem State.modRing_hostOut (w r : Nat) (f : Ring → Ring) : (s.modRing w r f).hostOut = s.hostOut := rfl
@[simp] theorem State.modRing_hostReads (w r : Nat) (f : Ring → Ring) : (s.modRing w r f).hostReads = s.hostReads := rfl
@[simp] theorem State.modRing_wards (w r : Nat) (f : Ring → Ring) : (s.modRing w r f).wards = s.wards := rfl
@[simp] theorem State.modRing_ports (w r : Nat) (f : Ring → Ring) : (s.modRing w r f).ports = s.ports := rfl
@[simp] theorem State.modRing_binds (w r : Nat) (f : Ring → Ring) : (s.modRing w r f).binds = s.binds := rfl
@[simp] theorem State.modRing_bindRefused (w r : Nat) (f : Ring → Ring) : (s.modRing w r f).bindRefused = s.bindRefused := rfl
@[simp] theorem State.modRing_linksFailed (w r : Nat) (f : Ring → Ring) : (s.modRing w r f).linksFailed = s.linksFailed := rfl
@[simp] theorem State.modRing_resend (w r : Nat) (f : Ring → Ring) : (s.modRing w r f).resend = s.resend := rfl
@[simp] theorem State.modRing_coll (w r : Nat) (f : Ring → Ring) : (s.modRing w r f).coll = s.coll := rfl
@[simp] theorem State.modRing_copyRecs (w r : Nat) (f : Ring → Ring) : (s.modRing w r f).copyRecs = s.copyRecs := rfl
@[simp] theorem State.modRing_chunks (w r : Nat) (f : Ring → Ring) : (s.modRing w r f).chunks = s.chunks := rfl
@[simp] theorem State.modRing_engines (w r : Nat) (f : Ring → Ring) : (s.modRing w r f).engines = s.engines := rfl
@[simp] theorem State.modRing_errNext (w r : Nat) (f : Ring → Ring) : (s.modRing w r f).errNext = s.errNext := rfl
@[simp] theorem State.modRing_wardNews (w r : Nat) (f : Ring → Ring) : (s.modRing w r f).wardNews = s.wardNews := rfl
@[simp] theorem State.modRing_tallies (w r : Nat) (f : Ring → Ring) : (s.modRing w r f).tallies = s.tallies := rfl
@[simp] theorem State.modRing_drops (w r : Nat) (f : Ring → Ring) : (s.modRing w r f).drops = s.drops := rfl
@[simp] theorem State.modRing_snap (w r : Nat) (f : Ring → Ring) : (s.modRing w r f).snap = s.snap := rfl
@[simp] theorem State.modRing_capture (w r : Nat) (f : Ring → Ring) : (s.modRing w r f).capture = s.capture := rfl
@[simp] theorem State.modRing_latches (w r : Nat) (f : Ring → Ring) : (s.modRing w r f).latches = s.latches := rfl
@[simp] theorem State.modRing_power (w r : Nat) (f : Ring → Ring) : (s.modRing w r f).power = s.power := rfl
@[simp] theorem State.modRing_steward (w r : Nat) (f : Ring → Ring) : (s.modRing w r f).steward = s.steward := rfl
@[simp] theorem State.modRing_patch (w r : Nat) (f : Ring → Ring) : (s.modRing w r f).patch = s.patch := rfl
@[simp] theorem State.modRing_boot (w r : Nat) (f : Ring → Ring) : (s.modRing w r f).boot = s.boot := rfl
@[simp] theorem State.modRing_dbg (w r : Nat) (f : Ring → Ring) : (s.modRing w r f).dbg = s.dbg := rfl
@[simp] theorem State.modRing_pins (w r : Nat) (f : Ring → Ring) : (s.modRing w r f).pins = s.pins := rfl
@[simp] theorem State.modRing_tick (w r : Nat) (f : Ring → Ring) : (s.modRing w r f).tick = s.tick := rfl

/-! ### State.modPort -/

@[simp] theorem State.modPort_pending (p : Nat) (f : Port → Port) : (s.modPort p f).pending = s.pending := rfl
@[simp] theorem State.modPort_ctxs (p : Nat) (f : Port → Port) : (s.modPort p f).ctxs = s.ctxs := rfl
@[simp] theorem State.modPort_nibs (p : Nat) (f : Port → Port) : (s.modPort p f).nibs = s.nibs := rfl
@[simp] theorem State.modPort_mem (p : Nat) (f : Port → Port) : (s.modPort p f).mem = s.mem := rfl
@[simp] theorem State.modPort_ckpt (p : Nat) (f : Port → Port) : (s.modPort p f).ckpt = s.ckpt := rfl
@[simp] theorem State.modPort_imagePending (p : Nat) (f : Port → Port) : (s.modPort p f).imagePending = s.imagePending := rfl
@[simp] theorem State.modPort_shadowDue (p : Nat) (f : Port → Port) : (s.modPort p f).shadowDue = s.shadowDue := rfl
@[simp] theorem State.modPort_reads (p : Nat) (f : Port → Port) : (s.modPort p f).reads = s.reads := rfl
@[simp] theorem State.modPort_fills (p : Nat) (f : Port → Port) : (s.modPort p f).fills = s.fills := rfl
@[simp] theorem State.modPort_invals (p : Nat) (f : Port → Port) : (s.modPort p f).invals = s.invals := rfl
@[simp] theorem State.modPort_acks (p : Nat) (f : Port → Port) : (s.modPort p f).acks = s.acks := rfl
@[simp] theorem State.modPort_writes (p : Nat) (f : Port → Port) : (s.modPort p f).writes = s.writes := rfl
@[simp] theorem State.modPort_hostWrites (p : Nat) (f : Port → Port) : (s.modPort p f).hostWrites = s.hostWrites := rfl
@[simp] theorem State.modPort_storeAcks (p : Nat) (f : Port → Port) : (s.modPort p f).storeAcks = s.storeAcks := rfl
@[simp] theorem State.modPort_sends (p : Nat) (f : Port → Port) : (s.modPort p f).sends = s.sends := rfl
@[simp] theorem State.modPort_answers (p : Nat) (f : Port → Port) : (s.modPort p f).answers = s.answers := rfl
@[simp] theorem State.modPort_doorEvents (p : Nat) (f : Port → Port) : (s.modPort p f).doorEvents = s.doorEvents := rfl
@[simp] theorem State.modPort_ink (p : Nat) (f : Port → Port) : (s.modPort p f).ink = s.ink := rfl
@[simp] theorem State.modPort_inkState (p : Nat) (f : Port → Port) : (s.modPort p f).inkState = s.inkState := rfl
@[simp] theorem State.modPort_inkSets (p : Nat) (f : Port → Port) : (s.modPort p f).inkSets = s.inkSets := rfl
@[simp] theorem State.modPort_inkAuto (p : Nat) (f : Port → Port) : (s.modPort p f).inkAuto = s.inkAuto := rfl
@[simp] theorem State.modPort_inkClock (p : Nat) (f : Port → Port) : (s.modPort p f).inkClock = s.inkClock := rfl
@[simp] theorem State.modPort_spares (p : Nat) (f : Port → Port) : (s.modPort p f).spares = s.spares := rfl
@[simp] theorem State.modPort_stackErr (p : Nat) (f : Port → Port) : (s.modPort p f).stackErr = s.stackErr := rfl
@[simp] theorem State.modPort_regs (p : Nat) (f : Port → Port) : (s.modPort p f).regs = s.regs := rfl
@[simp] theorem State.modPort_staged (p : Nat) (f : Port → Port) : (s.modPort p f).staged = s.staged := rfl
@[simp] theorem State.modPort_guards (p : Nat) (f : Port → Port) : (s.modPort p f).guards = s.guards := rfl
@[simp] theorem State.modPort_applies (p : Nat) (f : Port → Port) : (s.modPort p f).applies = s.applies := rfl
@[simp] theorem State.modPort_assign (p : Nat) (f : Port → Port) : (s.modPort p f).assign = s.assign := rfl
@[simp] theorem State.modPort_rubStaged (p : Nat) (f : Port → Port) : (s.modPort p f).rubStaged = s.rubStaged := rfl
@[simp] theorem State.modPort_rubActive (p : Nat) (f : Port → Port) : (s.modPort p f).rubActive = s.rubActive := rfl
@[simp] theorem State.modPort_rubOn (p : Nat) (f : Port → Port) : (s.modPort p f).rubOn = s.rubOn := rfl
@[simp] theorem State.modPort_sheetOwner (p : Nat) (f : Port → Port) : (s.modPort p f).sheetOwner = s.sheetOwner := rfl
@[simp] theorem State.modPort_walkCache (p : Nat) (f : Port → Port) : (s.modPort p f).walkCache = s.walkCache := rfl
@[simp] theorem State.modPort_hub (p : Nat) (f : Port → Port) : (s.modPort p f).hub = s.hub := rfl
@[simp] theorem State.modPort_stroke (p : Nat) (f : Port → Port) : (s.modPort p f).stroke = s.stroke := rfl
@[simp] theorem State.modPort_log (p : Nat) (f : Port → Port) : (s.modPort p f).log = s.log := rfl
@[simp] theorem State.modPort_heldWrites (p : Nat) (f : Port → Port) : (s.modPort p f).heldWrites = s.heldWrites := rfl
@[simp] theorem State.modPort_journal (p : Nat) (f : Port → Port) : (s.modPort p f).journal = s.journal := rfl
@[simp] theorem State.modPort_replay (p : Nat) (f : Port → Port) : (s.modPort p f).replay = s.replay := rfl
@[simp] theorem State.modPort_nextInputs (p : Nat) (f : Port → Port) : (s.modPort p f).nextInputs = s.nextInputs := rfl
@[simp] theorem State.modPort_staging (p : Nat) (f : Port → Port) : (s.modPort p f).staging = s.staging := rfl
@[simp] theorem State.modPort_hostOut (p : Nat) (f : Port → Port) : (s.modPort p f).hostOut = s.hostOut := rfl
@[simp] theorem State.modPort_hostReads (p : Nat) (f : Port → Port) : (s.modPort p f).hostReads = s.hostReads := rfl
@[simp] theorem State.modPort_rings (p : Nat) (f : Port → Port) : (s.modPort p f).rings = s.rings := rfl
@[simp] theorem State.modPort_wards (p : Nat) (f : Port → Port) : (s.modPort p f).wards = s.wards := rfl
@[simp] theorem State.modPort_binds (p : Nat) (f : Port → Port) : (s.modPort p f).binds = s.binds := rfl
@[simp] theorem State.modPort_bindRefused (p : Nat) (f : Port → Port) : (s.modPort p f).bindRefused = s.bindRefused := rfl
@[simp] theorem State.modPort_linksFailed (p : Nat) (f : Port → Port) : (s.modPort p f).linksFailed = s.linksFailed := rfl
@[simp] theorem State.modPort_resend (p : Nat) (f : Port → Port) : (s.modPort p f).resend = s.resend := rfl
@[simp] theorem State.modPort_coll (p : Nat) (f : Port → Port) : (s.modPort p f).coll = s.coll := rfl
@[simp] theorem State.modPort_copyRecs (p : Nat) (f : Port → Port) : (s.modPort p f).copyRecs = s.copyRecs := rfl
@[simp] theorem State.modPort_chunks (p : Nat) (f : Port → Port) : (s.modPort p f).chunks = s.chunks := rfl
@[simp] theorem State.modPort_engines (p : Nat) (f : Port → Port) : (s.modPort p f).engines = s.engines := rfl
@[simp] theorem State.modPort_errNext (p : Nat) (f : Port → Port) : (s.modPort p f).errNext = s.errNext := rfl
@[simp] theorem State.modPort_wardNews (p : Nat) (f : Port → Port) : (s.modPort p f).wardNews = s.wardNews := rfl
@[simp] theorem State.modPort_tallies (p : Nat) (f : Port → Port) : (s.modPort p f).tallies = s.tallies := rfl
@[simp] theorem State.modPort_drops (p : Nat) (f : Port → Port) : (s.modPort p f).drops = s.drops := rfl
@[simp] theorem State.modPort_snap (p : Nat) (f : Port → Port) : (s.modPort p f).snap = s.snap := rfl
@[simp] theorem State.modPort_capture (p : Nat) (f : Port → Port) : (s.modPort p f).capture = s.capture := rfl
@[simp] theorem State.modPort_latches (p : Nat) (f : Port → Port) : (s.modPort p f).latches = s.latches := rfl
@[simp] theorem State.modPort_power (p : Nat) (f : Port → Port) : (s.modPort p f).power = s.power := rfl
@[simp] theorem State.modPort_steward (p : Nat) (f : Port → Port) : (s.modPort p f).steward = s.steward := rfl
@[simp] theorem State.modPort_patch (p : Nat) (f : Port → Port) : (s.modPort p f).patch = s.patch := rfl
@[simp] theorem State.modPort_boot (p : Nat) (f : Port → Port) : (s.modPort p f).boot = s.boot := rfl
@[simp] theorem State.modPort_dbg (p : Nat) (f : Port → Port) : (s.modPort p f).dbg = s.dbg := rfl
@[simp] theorem State.modPort_pins (p : Nat) (f : Port → Port) : (s.modPort p f).pins = s.pins := rfl
@[simp] theorem State.modPort_tick (p : Nat) (f : Port → Port) : (s.modPort p f).tick = s.tick := rfl

/-! ### State.modColl -/

@[simp] theorem State.modColl_pending (w : Nat) (f : Coll → Coll) : (s.modColl w f).pending = s.pending := rfl
@[simp] theorem State.modColl_ctxs (w : Nat) (f : Coll → Coll) : (s.modColl w f).ctxs = s.ctxs := rfl
@[simp] theorem State.modColl_nibs (w : Nat) (f : Coll → Coll) : (s.modColl w f).nibs = s.nibs := rfl
@[simp] theorem State.modColl_mem (w : Nat) (f : Coll → Coll) : (s.modColl w f).mem = s.mem := rfl
@[simp] theorem State.modColl_ckpt (w : Nat) (f : Coll → Coll) : (s.modColl w f).ckpt = s.ckpt := rfl
@[simp] theorem State.modColl_imagePending (w : Nat) (f : Coll → Coll) : (s.modColl w f).imagePending = s.imagePending := rfl
@[simp] theorem State.modColl_shadowDue (w : Nat) (f : Coll → Coll) : (s.modColl w f).shadowDue = s.shadowDue := rfl
@[simp] theorem State.modColl_reads (w : Nat) (f : Coll → Coll) : (s.modColl w f).reads = s.reads := rfl
@[simp] theorem State.modColl_fills (w : Nat) (f : Coll → Coll) : (s.modColl w f).fills = s.fills := rfl
@[simp] theorem State.modColl_invals (w : Nat) (f : Coll → Coll) : (s.modColl w f).invals = s.invals := rfl
@[simp] theorem State.modColl_acks (w : Nat) (f : Coll → Coll) : (s.modColl w f).acks = s.acks := rfl
@[simp] theorem State.modColl_writes (w : Nat) (f : Coll → Coll) : (s.modColl w f).writes = s.writes := rfl
@[simp] theorem State.modColl_hostWrites (w : Nat) (f : Coll → Coll) : (s.modColl w f).hostWrites = s.hostWrites := rfl
@[simp] theorem State.modColl_storeAcks (w : Nat) (f : Coll → Coll) : (s.modColl w f).storeAcks = s.storeAcks := rfl
@[simp] theorem State.modColl_sends (w : Nat) (f : Coll → Coll) : (s.modColl w f).sends = s.sends := rfl
@[simp] theorem State.modColl_answers (w : Nat) (f : Coll → Coll) : (s.modColl w f).answers = s.answers := rfl
@[simp] theorem State.modColl_doorEvents (w : Nat) (f : Coll → Coll) : (s.modColl w f).doorEvents = s.doorEvents := rfl
@[simp] theorem State.modColl_ink (w : Nat) (f : Coll → Coll) : (s.modColl w f).ink = s.ink := rfl
@[simp] theorem State.modColl_inkState (w : Nat) (f : Coll → Coll) : (s.modColl w f).inkState = s.inkState := rfl
@[simp] theorem State.modColl_inkSets (w : Nat) (f : Coll → Coll) : (s.modColl w f).inkSets = s.inkSets := rfl
@[simp] theorem State.modColl_inkAuto (w : Nat) (f : Coll → Coll) : (s.modColl w f).inkAuto = s.inkAuto := rfl
@[simp] theorem State.modColl_inkClock (w : Nat) (f : Coll → Coll) : (s.modColl w f).inkClock = s.inkClock := rfl
@[simp] theorem State.modColl_spares (w : Nat) (f : Coll → Coll) : (s.modColl w f).spares = s.spares := rfl
@[simp] theorem State.modColl_stackErr (w : Nat) (f : Coll → Coll) : (s.modColl w f).stackErr = s.stackErr := rfl
@[simp] theorem State.modColl_regs (w : Nat) (f : Coll → Coll) : (s.modColl w f).regs = s.regs := rfl
@[simp] theorem State.modColl_staged (w : Nat) (f : Coll → Coll) : (s.modColl w f).staged = s.staged := rfl
@[simp] theorem State.modColl_guards (w : Nat) (f : Coll → Coll) : (s.modColl w f).guards = s.guards := rfl
@[simp] theorem State.modColl_applies (w : Nat) (f : Coll → Coll) : (s.modColl w f).applies = s.applies := rfl
@[simp] theorem State.modColl_assign (w : Nat) (f : Coll → Coll) : (s.modColl w f).assign = s.assign := rfl
@[simp] theorem State.modColl_rubStaged (w : Nat) (f : Coll → Coll) : (s.modColl w f).rubStaged = s.rubStaged := rfl
@[simp] theorem State.modColl_rubActive (w : Nat) (f : Coll → Coll) : (s.modColl w f).rubActive = s.rubActive := rfl
@[simp] theorem State.modColl_rubOn (w : Nat) (f : Coll → Coll) : (s.modColl w f).rubOn = s.rubOn := rfl
@[simp] theorem State.modColl_sheetOwner (w : Nat) (f : Coll → Coll) : (s.modColl w f).sheetOwner = s.sheetOwner := rfl
@[simp] theorem State.modColl_walkCache (w : Nat) (f : Coll → Coll) : (s.modColl w f).walkCache = s.walkCache := rfl
@[simp] theorem State.modColl_hub (w : Nat) (f : Coll → Coll) : (s.modColl w f).hub = s.hub := rfl
@[simp] theorem State.modColl_stroke (w : Nat) (f : Coll → Coll) : (s.modColl w f).stroke = s.stroke := rfl
@[simp] theorem State.modColl_log (w : Nat) (f : Coll → Coll) : (s.modColl w f).log = s.log := rfl
@[simp] theorem State.modColl_heldWrites (w : Nat) (f : Coll → Coll) : (s.modColl w f).heldWrites = s.heldWrites := rfl
@[simp] theorem State.modColl_journal (w : Nat) (f : Coll → Coll) : (s.modColl w f).journal = s.journal := rfl
@[simp] theorem State.modColl_replay (w : Nat) (f : Coll → Coll) : (s.modColl w f).replay = s.replay := rfl
@[simp] theorem State.modColl_nextInputs (w : Nat) (f : Coll → Coll) : (s.modColl w f).nextInputs = s.nextInputs := rfl
@[simp] theorem State.modColl_staging (w : Nat) (f : Coll → Coll) : (s.modColl w f).staging = s.staging := rfl
@[simp] theorem State.modColl_hostOut (w : Nat) (f : Coll → Coll) : (s.modColl w f).hostOut = s.hostOut := rfl
@[simp] theorem State.modColl_hostReads (w : Nat) (f : Coll → Coll) : (s.modColl w f).hostReads = s.hostReads := rfl
@[simp] theorem State.modColl_rings (w : Nat) (f : Coll → Coll) : (s.modColl w f).rings = s.rings := rfl
@[simp] theorem State.modColl_wards (w : Nat) (f : Coll → Coll) : (s.modColl w f).wards = s.wards := rfl
@[simp] theorem State.modColl_ports (w : Nat) (f : Coll → Coll) : (s.modColl w f).ports = s.ports := rfl
@[simp] theorem State.modColl_binds (w : Nat) (f : Coll → Coll) : (s.modColl w f).binds = s.binds := rfl
@[simp] theorem State.modColl_bindRefused (w : Nat) (f : Coll → Coll) : (s.modColl w f).bindRefused = s.bindRefused := rfl
@[simp] theorem State.modColl_linksFailed (w : Nat) (f : Coll → Coll) : (s.modColl w f).linksFailed = s.linksFailed := rfl
@[simp] theorem State.modColl_resend (w : Nat) (f : Coll → Coll) : (s.modColl w f).resend = s.resend := rfl
@[simp] theorem State.modColl_copyRecs (w : Nat) (f : Coll → Coll) : (s.modColl w f).copyRecs = s.copyRecs := rfl
@[simp] theorem State.modColl_chunks (w : Nat) (f : Coll → Coll) : (s.modColl w f).chunks = s.chunks := rfl
@[simp] theorem State.modColl_engines (w : Nat) (f : Coll → Coll) : (s.modColl w f).engines = s.engines := rfl
@[simp] theorem State.modColl_errNext (w : Nat) (f : Coll → Coll) : (s.modColl w f).errNext = s.errNext := rfl
@[simp] theorem State.modColl_wardNews (w : Nat) (f : Coll → Coll) : (s.modColl w f).wardNews = s.wardNews := rfl
@[simp] theorem State.modColl_tallies (w : Nat) (f : Coll → Coll) : (s.modColl w f).tallies = s.tallies := rfl
@[simp] theorem State.modColl_drops (w : Nat) (f : Coll → Coll) : (s.modColl w f).drops = s.drops := rfl
@[simp] theorem State.modColl_snap (w : Nat) (f : Coll → Coll) : (s.modColl w f).snap = s.snap := rfl
@[simp] theorem State.modColl_capture (w : Nat) (f : Coll → Coll) : (s.modColl w f).capture = s.capture := rfl
@[simp] theorem State.modColl_latches (w : Nat) (f : Coll → Coll) : (s.modColl w f).latches = s.latches := rfl
@[simp] theorem State.modColl_power (w : Nat) (f : Coll → Coll) : (s.modColl w f).power = s.power := rfl
@[simp] theorem State.modColl_steward (w : Nat) (f : Coll → Coll) : (s.modColl w f).steward = s.steward := rfl
@[simp] theorem State.modColl_patch (w : Nat) (f : Coll → Coll) : (s.modColl w f).patch = s.patch := rfl
@[simp] theorem State.modColl_boot (w : Nat) (f : Coll → Coll) : (s.modColl w f).boot = s.boot := rfl
@[simp] theorem State.modColl_dbg (w : Nat) (f : Coll → Coll) : (s.modColl w f).dbg = s.dbg := rfl
@[simp] theorem State.modColl_pins (w : Nat) (f : Coll → Coll) : (s.modColl w f).pins = s.pins := rfl
@[simp] theorem State.modColl_tick (w : Nat) (f : Coll → Coll) : (s.modColl w f).tick = s.tick := rfl

/-! ### State.emit -/

@[simp] theorem State.emit_pending (o : HostOut) : (s.emit o).pending = s.pending := rfl
@[simp] theorem State.emit_ctxs (o : HostOut) : (s.emit o).ctxs = s.ctxs := rfl
@[simp] theorem State.emit_nibs (o : HostOut) : (s.emit o).nibs = s.nibs := rfl
@[simp] theorem State.emit_mem (o : HostOut) : (s.emit o).mem = s.mem := rfl
@[simp] theorem State.emit_ckpt (o : HostOut) : (s.emit o).ckpt = s.ckpt := rfl
@[simp] theorem State.emit_imagePending (o : HostOut) : (s.emit o).imagePending = s.imagePending := rfl
@[simp] theorem State.emit_shadowDue (o : HostOut) : (s.emit o).shadowDue = s.shadowDue := rfl
@[simp] theorem State.emit_reads (o : HostOut) : (s.emit o).reads = s.reads := rfl
@[simp] theorem State.emit_fills (o : HostOut) : (s.emit o).fills = s.fills := rfl
@[simp] theorem State.emit_invals (o : HostOut) : (s.emit o).invals = s.invals := rfl
@[simp] theorem State.emit_acks (o : HostOut) : (s.emit o).acks = s.acks := rfl
@[simp] theorem State.emit_writes (o : HostOut) : (s.emit o).writes = s.writes := rfl
@[simp] theorem State.emit_hostWrites (o : HostOut) : (s.emit o).hostWrites = s.hostWrites := rfl
@[simp] theorem State.emit_storeAcks (o : HostOut) : (s.emit o).storeAcks = s.storeAcks := rfl
@[simp] theorem State.emit_sends (o : HostOut) : (s.emit o).sends = s.sends := rfl
@[simp] theorem State.emit_answers (o : HostOut) : (s.emit o).answers = s.answers := rfl
@[simp] theorem State.emit_doorEvents (o : HostOut) : (s.emit o).doorEvents = s.doorEvents := rfl
@[simp] theorem State.emit_ink (o : HostOut) : (s.emit o).ink = s.ink := rfl
@[simp] theorem State.emit_inkState (o : HostOut) : (s.emit o).inkState = s.inkState := rfl
@[simp] theorem State.emit_inkSets (o : HostOut) : (s.emit o).inkSets = s.inkSets := rfl
@[simp] theorem State.emit_inkAuto (o : HostOut) : (s.emit o).inkAuto = s.inkAuto := rfl
@[simp] theorem State.emit_inkClock (o : HostOut) : (s.emit o).inkClock = s.inkClock := rfl
@[simp] theorem State.emit_spares (o : HostOut) : (s.emit o).spares = s.spares := rfl
@[simp] theorem State.emit_stackErr (o : HostOut) : (s.emit o).stackErr = s.stackErr := rfl
@[simp] theorem State.emit_regs (o : HostOut) : (s.emit o).regs = s.regs := rfl
@[simp] theorem State.emit_staged (o : HostOut) : (s.emit o).staged = s.staged := rfl
@[simp] theorem State.emit_guards (o : HostOut) : (s.emit o).guards = s.guards := rfl
@[simp] theorem State.emit_applies (o : HostOut) : (s.emit o).applies = s.applies := rfl
@[simp] theorem State.emit_assign (o : HostOut) : (s.emit o).assign = s.assign := rfl
@[simp] theorem State.emit_rubStaged (o : HostOut) : (s.emit o).rubStaged = s.rubStaged := rfl
@[simp] theorem State.emit_rubActive (o : HostOut) : (s.emit o).rubActive = s.rubActive := rfl
@[simp] theorem State.emit_rubOn (o : HostOut) : (s.emit o).rubOn = s.rubOn := rfl
@[simp] theorem State.emit_sheetOwner (o : HostOut) : (s.emit o).sheetOwner = s.sheetOwner := rfl
@[simp] theorem State.emit_walkCache (o : HostOut) : (s.emit o).walkCache = s.walkCache := rfl
@[simp] theorem State.emit_hub (o : HostOut) : (s.emit o).hub = s.hub := rfl
@[simp] theorem State.emit_stroke (o : HostOut) : (s.emit o).stroke = s.stroke := rfl
@[simp] theorem State.emit_log (o : HostOut) : (s.emit o).log = s.log := rfl
@[simp] theorem State.emit_heldWrites (o : HostOut) : (s.emit o).heldWrites = s.heldWrites := rfl
@[simp] theorem State.emit_journal (o : HostOut) : (s.emit o).journal = s.journal := rfl
@[simp] theorem State.emit_replay (o : HostOut) : (s.emit o).replay = s.replay := rfl
@[simp] theorem State.emit_nextInputs (o : HostOut) : (s.emit o).nextInputs = s.nextInputs := rfl
@[simp] theorem State.emit_staging (o : HostOut) : (s.emit o).staging = s.staging := rfl
@[simp] theorem State.emit_hostReads (o : HostOut) : (s.emit o).hostReads = s.hostReads := rfl
@[simp] theorem State.emit_rings (o : HostOut) : (s.emit o).rings = s.rings := rfl
@[simp] theorem State.emit_wards (o : HostOut) : (s.emit o).wards = s.wards := rfl
@[simp] theorem State.emit_ports (o : HostOut) : (s.emit o).ports = s.ports := rfl
@[simp] theorem State.emit_binds (o : HostOut) : (s.emit o).binds = s.binds := rfl
@[simp] theorem State.emit_bindRefused (o : HostOut) : (s.emit o).bindRefused = s.bindRefused := rfl
@[simp] theorem State.emit_linksFailed (o : HostOut) : (s.emit o).linksFailed = s.linksFailed := rfl
@[simp] theorem State.emit_resend (o : HostOut) : (s.emit o).resend = s.resend := rfl
@[simp] theorem State.emit_coll (o : HostOut) : (s.emit o).coll = s.coll := rfl
@[simp] theorem State.emit_copyRecs (o : HostOut) : (s.emit o).copyRecs = s.copyRecs := rfl
@[simp] theorem State.emit_chunks (o : HostOut) : (s.emit o).chunks = s.chunks := rfl
@[simp] theorem State.emit_engines (o : HostOut) : (s.emit o).engines = s.engines := rfl
@[simp] theorem State.emit_errNext (o : HostOut) : (s.emit o).errNext = s.errNext := rfl
@[simp] theorem State.emit_wardNews (o : HostOut) : (s.emit o).wardNews = s.wardNews := rfl
@[simp] theorem State.emit_tallies (o : HostOut) : (s.emit o).tallies = s.tallies := rfl
@[simp] theorem State.emit_drops (o : HostOut) : (s.emit o).drops = s.drops := rfl
@[simp] theorem State.emit_snap (o : HostOut) : (s.emit o).snap = s.snap := rfl
@[simp] theorem State.emit_capture (o : HostOut) : (s.emit o).capture = s.capture := rfl
@[simp] theorem State.emit_latches (o : HostOut) : (s.emit o).latches = s.latches := rfl
@[simp] theorem State.emit_power (o : HostOut) : (s.emit o).power = s.power := rfl
@[simp] theorem State.emit_steward (o : HostOut) : (s.emit o).steward = s.steward := rfl
@[simp] theorem State.emit_patch (o : HostOut) : (s.emit o).patch = s.patch := rfl
@[simp] theorem State.emit_boot (o : HostOut) : (s.emit o).boot = s.boot := rfl
@[simp] theorem State.emit_dbg (o : HostOut) : (s.emit o).dbg = s.dbg := rfl
@[simp] theorem State.emit_pins (o : HostOut) : (s.emit o).pins = s.pins := rfl
@[simp] theorem State.emit_tick (o : HostOut) : (s.emit o).tick = s.tick := rfl

/-! ### State.count -/

@[simp] theorem State.count_pending (unit idx n : Nat) : (s.count unit idx n).pending = s.pending := rfl
@[simp] theorem State.count_ctxs (unit idx n : Nat) : (s.count unit idx n).ctxs = s.ctxs := rfl
@[simp] theorem State.count_nibs (unit idx n : Nat) : (s.count unit idx n).nibs = s.nibs := rfl
@[simp] theorem State.count_mem (unit idx n : Nat) : (s.count unit idx n).mem = s.mem := rfl
@[simp] theorem State.count_ckpt (unit idx n : Nat) : (s.count unit idx n).ckpt = s.ckpt := rfl
@[simp] theorem State.count_imagePending (unit idx n : Nat) : (s.count unit idx n).imagePending = s.imagePending := rfl
@[simp] theorem State.count_shadowDue (unit idx n : Nat) : (s.count unit idx n).shadowDue = s.shadowDue := rfl
@[simp] theorem State.count_reads (unit idx n : Nat) : (s.count unit idx n).reads = s.reads := rfl
@[simp] theorem State.count_fills (unit idx n : Nat) : (s.count unit idx n).fills = s.fills := rfl
@[simp] theorem State.count_invals (unit idx n : Nat) : (s.count unit idx n).invals = s.invals := rfl
@[simp] theorem State.count_acks (unit idx n : Nat) : (s.count unit idx n).acks = s.acks := rfl
@[simp] theorem State.count_writes (unit idx n : Nat) : (s.count unit idx n).writes = s.writes := rfl
@[simp] theorem State.count_hostWrites (unit idx n : Nat) : (s.count unit idx n).hostWrites = s.hostWrites := rfl
@[simp] theorem State.count_storeAcks (unit idx n : Nat) : (s.count unit idx n).storeAcks = s.storeAcks := rfl
@[simp] theorem State.count_sends (unit idx n : Nat) : (s.count unit idx n).sends = s.sends := rfl
@[simp] theorem State.count_answers (unit idx n : Nat) : (s.count unit idx n).answers = s.answers := rfl
@[simp] theorem State.count_doorEvents (unit idx n : Nat) : (s.count unit idx n).doorEvents = s.doorEvents := rfl
@[simp] theorem State.count_ink (unit idx n : Nat) : (s.count unit idx n).ink = s.ink := rfl
@[simp] theorem State.count_inkState (unit idx n : Nat) : (s.count unit idx n).inkState = s.inkState := rfl
@[simp] theorem State.count_inkSets (unit idx n : Nat) : (s.count unit idx n).inkSets = s.inkSets := rfl
@[simp] theorem State.count_inkAuto (unit idx n : Nat) : (s.count unit idx n).inkAuto = s.inkAuto := rfl
@[simp] theorem State.count_inkClock (unit idx n : Nat) : (s.count unit idx n).inkClock = s.inkClock := rfl
@[simp] theorem State.count_spares (unit idx n : Nat) : (s.count unit idx n).spares = s.spares := rfl
@[simp] theorem State.count_stackErr (unit idx n : Nat) : (s.count unit idx n).stackErr = s.stackErr := rfl
@[simp] theorem State.count_regs (unit idx n : Nat) : (s.count unit idx n).regs = s.regs := rfl
@[simp] theorem State.count_staged (unit idx n : Nat) : (s.count unit idx n).staged = s.staged := rfl
@[simp] theorem State.count_guards (unit idx n : Nat) : (s.count unit idx n).guards = s.guards := rfl
@[simp] theorem State.count_applies (unit idx n : Nat) : (s.count unit idx n).applies = s.applies := rfl
@[simp] theorem State.count_assign (unit idx n : Nat) : (s.count unit idx n).assign = s.assign := rfl
@[simp] theorem State.count_rubStaged (unit idx n : Nat) : (s.count unit idx n).rubStaged = s.rubStaged := rfl
@[simp] theorem State.count_rubActive (unit idx n : Nat) : (s.count unit idx n).rubActive = s.rubActive := rfl
@[simp] theorem State.count_rubOn (unit idx n : Nat) : (s.count unit idx n).rubOn = s.rubOn := rfl
@[simp] theorem State.count_sheetOwner (unit idx n : Nat) : (s.count unit idx n).sheetOwner = s.sheetOwner := rfl
@[simp] theorem State.count_walkCache (unit idx n : Nat) : (s.count unit idx n).walkCache = s.walkCache := rfl
@[simp] theorem State.count_hub (unit idx n : Nat) : (s.count unit idx n).hub = s.hub := rfl
@[simp] theorem State.count_stroke (unit idx n : Nat) : (s.count unit idx n).stroke = s.stroke := rfl
@[simp] theorem State.count_log (unit idx n : Nat) : (s.count unit idx n).log = s.log := rfl
@[simp] theorem State.count_heldWrites (unit idx n : Nat) : (s.count unit idx n).heldWrites = s.heldWrites := rfl
@[simp] theorem State.count_journal (unit idx n : Nat) : (s.count unit idx n).journal = s.journal := rfl
@[simp] theorem State.count_replay (unit idx n : Nat) : (s.count unit idx n).replay = s.replay := rfl
@[simp] theorem State.count_nextInputs (unit idx n : Nat) : (s.count unit idx n).nextInputs = s.nextInputs := rfl
@[simp] theorem State.count_staging (unit idx n : Nat) : (s.count unit idx n).staging = s.staging := rfl
@[simp] theorem State.count_hostOut (unit idx n : Nat) : (s.count unit idx n).hostOut = s.hostOut := rfl
@[simp] theorem State.count_hostReads (unit idx n : Nat) : (s.count unit idx n).hostReads = s.hostReads := rfl
@[simp] theorem State.count_rings (unit idx n : Nat) : (s.count unit idx n).rings = s.rings := rfl
@[simp] theorem State.count_wards (unit idx n : Nat) : (s.count unit idx n).wards = s.wards := rfl
@[simp] theorem State.count_ports (unit idx n : Nat) : (s.count unit idx n).ports = s.ports := rfl
@[simp] theorem State.count_binds (unit idx n : Nat) : (s.count unit idx n).binds = s.binds := rfl
@[simp] theorem State.count_bindRefused (unit idx n : Nat) : (s.count unit idx n).bindRefused = s.bindRefused := rfl
@[simp] theorem State.count_linksFailed (unit idx n : Nat) : (s.count unit idx n).linksFailed = s.linksFailed := rfl
@[simp] theorem State.count_resend (unit idx n : Nat) : (s.count unit idx n).resend = s.resend := rfl
@[simp] theorem State.count_coll (unit idx n : Nat) : (s.count unit idx n).coll = s.coll := rfl
@[simp] theorem State.count_copyRecs (unit idx n : Nat) : (s.count unit idx n).copyRecs = s.copyRecs := rfl
@[simp] theorem State.count_chunks (unit idx n : Nat) : (s.count unit idx n).chunks = s.chunks := rfl
@[simp] theorem State.count_engines (unit idx n : Nat) : (s.count unit idx n).engines = s.engines := rfl
@[simp] theorem State.count_errNext (unit idx n : Nat) : (s.count unit idx n).errNext = s.errNext := rfl
@[simp] theorem State.count_wardNews (unit idx n : Nat) : (s.count unit idx n).wardNews = s.wardNews := rfl
@[simp] theorem State.count_drops (unit idx n : Nat) : (s.count unit idx n).drops = s.drops := rfl
@[simp] theorem State.count_snap (unit idx n : Nat) : (s.count unit idx n).snap = s.snap := rfl
@[simp] theorem State.count_capture (unit idx n : Nat) : (s.count unit idx n).capture = s.capture := rfl
@[simp] theorem State.count_latches (unit idx n : Nat) : (s.count unit idx n).latches = s.latches := rfl
@[simp] theorem State.count_power (unit idx n : Nat) : (s.count unit idx n).power = s.power := rfl
@[simp] theorem State.count_steward (unit idx n : Nat) : (s.count unit idx n).steward = s.steward := rfl
@[simp] theorem State.count_patch (unit idx n : Nat) : (s.count unit idx n).patch = s.patch := rfl
@[simp] theorem State.count_boot (unit idx n : Nat) : (s.count unit idx n).boot = s.boot := rfl
@[simp] theorem State.count_dbg (unit idx n : Nat) : (s.count unit idx n).dbg = s.dbg := rfl
@[simp] theorem State.count_pins (unit idx n : Nat) : (s.count unit idx n).pins = s.pins := rfl
@[simp] theorem State.count_tick (unit idx n : Nat) : (s.count unit idx n).tick = s.tick := rfl

/-! ### State.drawn -/

@[simp] theorem State.drawn_pending : s.drawn.pending = s.pending := rfl
@[simp] theorem State.drawn_ctxs : s.drawn.ctxs = s.ctxs := rfl
@[simp] theorem State.drawn_nibs : s.drawn.nibs = s.nibs := rfl
@[simp] theorem State.drawn_mem : s.drawn.mem = s.mem := rfl
@[simp] theorem State.drawn_ckpt : s.drawn.ckpt = s.ckpt := rfl
@[simp] theorem State.drawn_imagePending : s.drawn.imagePending = s.imagePending := rfl
@[simp] theorem State.drawn_shadowDue : s.drawn.shadowDue = s.shadowDue := rfl
@[simp] theorem State.drawn_reads : s.drawn.reads = s.reads := rfl
@[simp] theorem State.drawn_fills : s.drawn.fills = s.fills := rfl
@[simp] theorem State.drawn_invals : s.drawn.invals = s.invals := rfl
@[simp] theorem State.drawn_acks : s.drawn.acks = s.acks := rfl
@[simp] theorem State.drawn_writes : s.drawn.writes = s.writes := rfl
@[simp] theorem State.drawn_hostWrites : s.drawn.hostWrites = s.hostWrites := rfl
@[simp] theorem State.drawn_storeAcks : s.drawn.storeAcks = s.storeAcks := rfl
@[simp] theorem State.drawn_sends : s.drawn.sends = s.sends := rfl
@[simp] theorem State.drawn_answers : s.drawn.answers = s.answers := rfl
@[simp] theorem State.drawn_doorEvents : s.drawn.doorEvents = s.doorEvents := rfl
@[simp] theorem State.drawn_ink : s.drawn.ink = s.ink := rfl
@[simp] theorem State.drawn_inkState : s.drawn.inkState = s.inkState := rfl
@[simp] theorem State.drawn_inkSets : s.drawn.inkSets = s.inkSets := rfl
@[simp] theorem State.drawn_inkAuto : s.drawn.inkAuto = s.inkAuto := rfl
@[simp] theorem State.drawn_inkClock : s.drawn.inkClock = s.inkClock := rfl
@[simp] theorem State.drawn_spares : s.drawn.spares = s.spares := rfl
@[simp] theorem State.drawn_stackErr : s.drawn.stackErr = s.stackErr := rfl
@[simp] theorem State.drawn_regs : s.drawn.regs = s.regs := rfl
@[simp] theorem State.drawn_staged : s.drawn.staged = s.staged := rfl
@[simp] theorem State.drawn_guards : s.drawn.guards = s.guards := rfl
@[simp] theorem State.drawn_applies : s.drawn.applies = s.applies := rfl
@[simp] theorem State.drawn_assign : s.drawn.assign = s.assign := rfl
@[simp] theorem State.drawn_rubStaged : s.drawn.rubStaged = s.rubStaged := rfl
@[simp] theorem State.drawn_rubActive : s.drawn.rubActive = s.rubActive := rfl
@[simp] theorem State.drawn_rubOn : s.drawn.rubOn = s.rubOn := rfl
@[simp] theorem State.drawn_sheetOwner : s.drawn.sheetOwner = s.sheetOwner := rfl
@[simp] theorem State.drawn_walkCache : s.drawn.walkCache = s.walkCache := rfl
@[simp] theorem State.drawn_hub : s.drawn.hub = s.hub := rfl
@[simp] theorem State.drawn_stroke : s.drawn.stroke = s.stroke := rfl
@[simp] theorem State.drawn_log : s.drawn.log = s.log := rfl
@[simp] theorem State.drawn_heldWrites : s.drawn.heldWrites = s.heldWrites := rfl
@[simp] theorem State.drawn_journal : s.drawn.journal = s.journal := rfl
@[simp] theorem State.drawn_replay : s.drawn.replay = s.replay := rfl
@[simp] theorem State.drawn_nextInputs : s.drawn.nextInputs = s.nextInputs := rfl
@[simp] theorem State.drawn_staging : s.drawn.staging = s.staging := rfl
@[simp] theorem State.drawn_hostOut : s.drawn.hostOut = s.hostOut := rfl
@[simp] theorem State.drawn_hostReads : s.drawn.hostReads = s.hostReads := rfl
@[simp] theorem State.drawn_rings : s.drawn.rings = s.rings := rfl
@[simp] theorem State.drawn_wards : s.drawn.wards = s.wards := rfl
@[simp] theorem State.drawn_ports : s.drawn.ports = s.ports := rfl
@[simp] theorem State.drawn_binds : s.drawn.binds = s.binds := rfl
@[simp] theorem State.drawn_bindRefused : s.drawn.bindRefused = s.bindRefused := rfl
@[simp] theorem State.drawn_linksFailed : s.drawn.linksFailed = s.linksFailed := rfl
@[simp] theorem State.drawn_resend : s.drawn.resend = s.resend := rfl
@[simp] theorem State.drawn_coll : s.drawn.coll = s.coll := rfl
@[simp] theorem State.drawn_copyRecs : s.drawn.copyRecs = s.copyRecs := rfl
@[simp] theorem State.drawn_chunks : s.drawn.chunks = s.chunks := rfl
@[simp] theorem State.drawn_engines : s.drawn.engines = s.engines := rfl
@[simp] theorem State.drawn_errNext : s.drawn.errNext = s.errNext := rfl
@[simp] theorem State.drawn_wardNews : s.drawn.wardNews = s.wardNews := rfl
@[simp] theorem State.drawn_tallies : s.drawn.tallies = s.tallies := rfl
@[simp] theorem State.drawn_drops : s.drawn.drops = s.drops := rfl
@[simp] theorem State.drawn_snap : s.drawn.snap = s.snap := rfl
@[simp] theorem State.drawn_capture : s.drawn.capture = s.capture := rfl
@[simp] theorem State.drawn_latches : s.drawn.latches = s.latches := rfl
@[simp] theorem State.drawn_power : s.drawn.power = s.power := rfl
@[simp] theorem State.drawn_steward : s.drawn.steward = s.steward := rfl
@[simp] theorem State.drawn_patch : s.drawn.patch = s.patch := rfl
@[simp] theorem State.drawn_boot : s.drawn.boot = s.boot := rfl
@[simp] theorem State.drawn_dbg : s.drawn.dbg = s.dbg := rfl
@[simp] theorem State.drawn_pins : s.drawn.pins = s.pins := rfl

/-! ### Reads after updates -/

theorem key_inj {n c m d : Nat} (hc : c < 32) (hd : d < 32) : key n c = key m d ↔ n = m ∧ c = d := by
  unfold key; omega

@[simp] theorem State.ctx_setCtx_self (n c : Nat) (x : Context) : (s.setCtx n c x).ctx n c = x :=
  mget_mset_self _ _ _ _

theorem State.ctx_setCtx_ne {n c m d : Nat} (x : Context) (h : key m d ≠ key n c) : (s.setCtx n c x).ctx m d = s.ctx m d :=
  mget_mset_ne _ _ _ h

@[simp] theorem State.ctx_modCtx_self (n c : Nat) (f : Context → Context) : (s.modCtx n c f).ctx n c = f (s.ctx n c) :=
  mget_mset_self _ _ _ _

theorem State.ctx_modCtx_ne {n c m d : Nat} (f : Context → Context) (h : key m d ≠ key n c) :
    (s.modCtx n c f).ctx m d = s.ctx m d := mget_mset_ne _ _ _ h

@[simp] theorem State.nib_setNib_self (n : Nat) (x : Nib) : (s.setNib n x).nib n = x := mget_mset_self _ _ _ _

theorem State.nib_setNib_ne {n m : Nat} (x : Nib) (h : m ≠ n) : (s.setNib n x).nib m = s.nib m := mget_mset_ne _ _ _ h

@[simp] theorem State.nib_modNib_self (n : Nat) (f : Nib → Nib) : (s.modNib n f).nib n = f (s.nib n) := mget_mset_self _ _ _ _

theorem State.nib_modNib_ne {n m : Nat} (f : Nib → Nib) (h : m ≠ n) : (s.modNib n f).nib m = s.nib m := mget_mset_ne _ _ _ h

@[simp] theorem State.nib_modCtx (n c m : Nat) (f : Context → Context) : (s.modCtx n c f).nib m = s.nib m := rfl
@[simp] theorem State.nib_setCtx (n c m : Nat) (x : Context) : (s.setCtx n c x).nib m = s.nib m := rfl
@[simp] theorem State.ctx_modNib (n m d : Nat) (f : Nib → Nib) : (s.modNib n f).ctx m d = s.ctx m d := rfl
@[simp] theorem State.ctx_setNib (n m d : Nat) (x : Nib) : (s.setNib n x).ctx m d = s.ctx m d := rfl
@[simp] theorem State.ctx_count (u i k m d : Nat) : (s.count u i k).ctx m d = s.ctx m d := rfl
@[simp] theorem State.nib_count (u i k m : Nat) : (s.count u i k).nib m = s.nib m := rfl

@[simp] theorem State.ward_modWard_self (w : Nat) (f : Ward → Ward) : (s.modWard w f).ward w = f (s.ward w) := mget_mset_self _ _ _ _
theorem State.ward_modWard_ne {w v : Nat} (f : Ward → Ward) (h : v ≠ w) : (s.modWard w f).ward v = s.ward v := mget_mset_ne _ _ _ h
@[simp] theorem State.ring_modRing_self (w r : Nat) (f : Ring → Ring) : (s.modRing w r f).ring w r = f (s.ring w r) :=
  mget_mset_self _ _ _ _
theorem State.ring_modRing_ne {w r v k : Nat} (f : Ring → Ring) (h : v * 64 + k ≠ w * 64 + r) :
    (s.modRing w r f).ring v k = s.ring v k := mget_mset_ne _ _ _ h
@[simp] theorem State.port_modPort_self (p : Nat) (f : Port → Port) : (s.modPort p f).port p = f (s.port p) := mget_mset_self _ _ _ _
theorem State.port_modPort_ne {p q : Nat} (f : Port → Port) (h : q ≠ p) : (s.modPort p f).port q = s.port q := mget_mset_ne _ _ _ h
@[simp] theorem State.collOf_modColl_self (w : Nat) (f : Coll → Coll) : (s.modColl w f).collOf w = f (s.collOf w) :=
  mget_mset_self _ _ _ _
theorem State.collOf_modColl_ne {w v : Nat} (f : Coll → Coll) (h : v ≠ w) : (s.modColl w f).collOf v = s.collOf v :=
  mget_mset_ne _ _ _ h

@[simp] theorem State.emit_hostOut (o : HostOut) : (s.emit o).hostOut = s.hostOut ++ [o] := rfl
@[simp] theorem State.drawn_tick : s.drawn.tick = s.tick + 1 := rfl

/-- A register reads as written, in a state whose registers are in canonical form. -/
theorem State.reg32_setReg (a b : Nat) (v : BitVec 32) (h : mwf regReset s.regs = true) :
    (s.setReg a v).reg32 b = if b = a then v else s.reg32 b := mget_mput _ _ _ _ _ h

theorem State.setReg_canonical (a : Nat) (v : BitVec 32) (h : mwf regReset s.regs = true) :
    mwf regReset (s.setReg a v).regs = true := mwf_mput _ _ _ _ h

end Sys2Proof.Machine
end

