-- ==== Sys2Proof/Laws/Operands.lean ====
section
/-! SUPPORT. Operand checks: when each answers, and what it answers, so that a plan is followed without unfolding them. -/

namespace Sys2Proof.Machine

/-! ### The order of a plan -/

@[simp] theorem Plan.ok_bind {α β : Type} (x : α) (f : α → Plan β) : (Except.ok x >>= f : Plan β) = f x := rfl
@[simp] theorem Plan.error_bind {α β : Type} (e : SlotOut) (f : α → Plan β) : (Except.error e >>= f : Plan β) = .error e := rfl
@[simp] theorem Plan.fail_bind {α β : Type} (k : Cause) (i : BitVec 64) (f : α → Plan β) : (fail k i >>= f : Plan β) = fail k i := rfl
@[simp] theorem Plan.failOp_bind {α β : Type} (sub : BitVec 8) (f : α → Plan β) : (failOp sub >>= f : Plan β) = failOp sub := rfl
@[simp] theorem Plan.waitFor_bind {α β : Type} (w : Wait) (f : α → Plan β) : (waitFor w >>= f : Plan β) = waitFor w := rfl
@[simp] theorem slotOut_ok (es : List Effect) : slotOut (.ok es) = .go es := rfl
@[simp] theorem slotOut_fail (k : Cause) (i : BitVec 64) : slotOut (fail k i) = .trap { cause := k, info := i } := rfl
@[simp] theorem slotOut_failOp (sub : BitVec 8) : slotOut (failOp sub) = .opcode sub := rfl
@[simp] theorem slotOut_waitFor (w : Wait) : slotOut (waitFor w) = .wait w := rfl

/-! ### Checks that pass -/

theorem need_true {b : Bool} (e : SlotOut) (h : b = true) : need b e = .ok () := by simp [need, h]
theorem need_false {b : Bool} (e : SlotOut) (h : b = false) : need b e = .error e := by simp [need, h]
@[simp] theorem zero_zero {w : Nat} : zero (0 : BitVec w) = .ok () := by simp [zero, need]
theorem zero_ne {w : Nat} {x : BitVec w} (h : x ≠ 0) : zero x = failOp 3 := by
  unfold zero
  exact need_false _ (by simpa using h)
@[simp] theorem defined_true : defined true = .ok () := rfl
theorem pairReg_ok {r : BitVec 5} (h : namesPair r) : pairReg r = .ok () := by
  obtain ⟨h1, h2⟩ := h
  exact need_true _ (by rw [h2, bne_iff_ne.mpr h1]; rfl)
theorem pairReg_fail {r : BitVec 5} (h : ¬ namesPair r) : pairReg r = failOp 4 := by
  refine need_false _ ?_
  rw [← Bool.not_eq_true, Bool.and_eq_true, bne_iff_ne, Bool.not_eq_true']
  exact h

/-! ### Registers -/

theorem Env.present_nil (e : Env) : e.present [] := by simp [Env.present]

theorem Env.present_cons {e : Env} {r : BitVec 5} {rs : List (BitVec 5)} :
    e.present (r :: rs) ↔ e.x.unfetched.getLsbD (e.x.phys r / 8) = false ∧ e.present rs := by simp [Env.present]

theorem Env.present_append {e : Env} {a b : List (BitVec 5)} : e.present (a ++ b) ↔ e.present a ∧ e.present b := by
  simp only [Env.present, List.mem_append]
  constructor
  · exact fun h => ⟨fun r hr => h r (.inl hr), fun r hr => h r (.inr hr)⟩
  · rintro ⟨h1, h2⟩ r (hr | hr)
    · exact h1 r hr
    · exact h2 r hr

theorem Env.present_mono {e : Env} {a b : List (BitVec 5)} (h : e.present b) (hs : ∀ r ∈ a, r ∈ b) : e.present a :=
  fun r hr => h r (hs r hr)

theorem Env.unpoisoned_mono {e : Env} {a b : List (BitVec 5)} (h : e.unpoisoned b) (hs : ∀ r ∈ a, r ∈ b) : e.unpoisoned a :=
  fun r hr => h r (hs r hr)

/-- Fetched groups let a plan go on (R124). -/
theorem Env.fetched_ok {e : Env} {rs : List (BitVec 5)} (h : e.present rs) : e.fetched rs = .ok () := by
  induction rs with
  | nil => rfl
  | cons r rs ih =>
    rw [Env.present_cons] at h
    simp [Env.fetched, h.1, ih h.2]

/-- Clean sources let a plan go on (R50). -/
theorem Env.clean_ok {e : Env} {rs : List (BitVec 5)} (h : e.unpoisoned rs) : e.clean rs = .ok () := by
  induction rs with
  | nil => rfl
  | cons r rs ih =>
    have h1 : (e.r r).typ ≠ Ty.poison := h r (List.mem_cons_self ..)
    unfold Env.clean
    rw [if_neg h1, ih fun q hq => h q (List.mem_cons_of_mem _ hq)]

theorem Env.srcs_ok {e : Env} {src dst : List (BitVec 5)} (h : e.present (src ++ dst)) (hc : e.unpoisoned src) :
    e.srcs src dst = .ok () := by
  unfold Env.srcs
  rw [Env.fetched_ok h, Env.clean_ok hc]
  rfl

/-- The first source that holds POISON faults, in the order given (R50, R136). -/
theorem Env.clean_poison {e : Env} {a : List (BitVec 5)} {r : BitVec 5} {b : List (BitVec 5)} (h : e.unpoisoned a)
    (hr : (e.r r).typ = Ty.poison) : e.clean (a ++ r :: b) = fail .poison (info 0 r.toNat 0) := by
  induction a with
  | nil => simp [Env.clean, hr]
  | cons q a ih =>
    have h1 : (e.r q).typ ≠ Ty.poison := h q (List.mem_cons_self ..)
    rw [List.cons_append]
    unfold Env.clean
    rw [if_neg h1, ih fun p hp => h p (List.mem_cons_of_mem _ hp)]

theorem Env.atLeast_ok {e : Env} {l : BitVec 2} (h : l.toNat ≤ e.x.level.toNat) : e.atLeast l = .ok () := by
  simp [Env.atLeast, need, h]

theorem Env.atLeast_fail {e : Env} {l : BitVec 2} (h : e.x.level.toNat < l.toNat) : e.atLeast l = fail .perm 0 := by
  simp [Env.atLeast, need, Nat.not_le.mpr h, fail]

theorem Env.i64_ok {e : Env} {r : BitVec 5} (h : isI64 (e.r r)) : e.i64 r = .ok (e.r r) := by
  unfold Env.i64; exact if_pos h

theorem Env.i64_fail {e : Env} {r : BitVec 5} (h : ¬ isI64 (e.r r)) : e.i64 r = failTag r := by
  unfold Env.i64; exact if_neg h

theorem isI64_unpoisoned {w : Word} (h : isI64 w) : w.typ ≠ Ty.poison := by
  rcases h with h | h <;> rw [h] <;> decide

theorem Env.ofType_ok {e : Env} {t : BitVec 6} {r : BitVec 5} (h : (e.r r).typ = t) : e.ofType t r = .ok (e.r r) := if_pos h
theorem Env.ofType_fail {e : Env} {t : BitVec 6} {r : BitVec 5} (h : (e.r r).typ ≠ t) : e.ofType t r = failTag r := if_neg h
theorem Env.ref_ok {e : Env} {r : BitVec 5} (h : okRtype (e.r r).typ = true) : e.ref r = .ok (e.r r) := if_pos h
theorem Env.nc_ok {e : Env} {r : BitVec 5} (h : isCapType (e.r r).typ = false) : e.nc r = .ok (e.r r) := by simp [Env.nc, h]
theorem Env.cap_ok {e : Env} {r : BitVec 5} (h : (e.pair r).ok = true) : e.cap r = .ok (e.pair r) := if_pos h
theorem Env.cap_fail {e : Env} {r : BitVec 5} (h : (e.pair r).ok = false) : e.cap r = failTag r := by simp [Env.cap, h]

/-! ### Capability accesses (R149) -/

theorem capCheck_ok {k : CapV} {off : Int} {size : Nat} {rights : BitVec 16} (hs : k.sealed = false)
    (h : capAllows k ((k.cursor : Int) + off) size rights) : capCheck k off size rights = .ok ((k.cursor : Int) + off).toNat := by
  obtain ⟨-, h1, h2, h3⟩ := h
  simp only [capCheck, hs, h3, Bool.not_true, Bool.false_eq_true, if_false]
  rw [if_neg (by omega)]

theorem capAlign_ok {k : CapV} {off : Int} {size : Nat} (h : ((k.cursor : Int) + off) % (size : Int) = 0) :
    capAlign k off size = .ok () := by
  simp [capAlign, need, h]

/-- No checked access leaves its capability's bounds. -/
theorem capCheck_inside {k : CapV} {off : Int} {size a : Nat} {rights : BitVec 16} (h : capCheck k off size rights = .ok a) :
    k.sealed = false ∧ k.has rights = true ∧ k.base ≤ a ∧ a + size ≤ k.top := by
  unfold capCheck at h
  dsimp only at h
  split at h
  · cases h
  · split at h
    · cases h
    · split at h
      · cases h
      · rename_i h1 h2 h3
        injection h with h
        simp only [Bool.not_eq_true, Bool.not_eq_true', Bool.not_eq_false] at h1 h2
        exact ⟨by simpa using h1, by simpa using h2, by omega, by omega⟩

/-! ### Register words -/

@[simp] theorem single_fx (v : BitVec 64) : single (Word.fx v) = Word.fx v := rfl

/-- A word that a register takes alone is no capability word (R180). -/
theorem single_not_cap (w : Word) : isCapType (single w).typ = false := by
  unfold single
  split
  · rfl
  · rename_i h; simpa using h

end Sys2Proof.Machine
end

