-- ==== Sys2Proof/Laws/Issue.lean ====
section
/-! SUPPORT. The issue of a pair: every instruction answers a next state, and one whose pair may issue completes with its plan's effects,
faults as its plan says, or waits. -/

namespace Sys2Proof.Machine

/-! ### Every instruction answers -/

theorem issue_next (q : Issue) (w : BitVec 32) (stop : Option Nat) (plan : Env → Plan (List Effect)) (s : State) :
    ∃ t, issue q w stop plan s = .next t := by
  unfold issue
  dsimp only
  repeat' (first | with_reducible exact ⟨_, rfl⟩ | split)

/-- A context that may not issue leaves the block as it is. -/
theorem issue_blocked {q : Issue} {s : State} (w : BitVec 32) (stop : Option Nat) (plan : Env → Plan (List Effect))
    (h : s.canIssue q.nib.val q.ctx.val = false) : issue q w stop plan s = .next s := by
  unfold issue
  simp [h]

/-- A context in a routine goes on with it, whatever instruction the command names. -/
theorem issue_routine {q : Issue} {s : State} {r : Routine} (w : BitVec 32) (stop : Option Nat) (plan : Env → Plan (List Effect))
    (h : s.canIssue q.nib.val q.ctx.val = true) (hr : (s.ctx q.nib.val q.ctx.val).routine = some r) :
    issue q w stop plan s = .next (s.goRoutine q.nib.val q.ctx.val stop) := by
  unfold issue
  simp [h, hr]

/-- A word that the pair does not hold in the slot issues nothing (log 5). -/
theorem issue_other {q : Issue} {s : State} {e : Env} {code : Word} (w : BitVec 32) (stop : Option Nat) (plan : Env → Plan (List Effect))
    (h : Ready s q e) (hf : ((s.atPair q).pairEnv q.nib.val q.ctx.val false).fetch = .ok code) (hw : half code q.slot ≠ w) :
    issue q w stop plan s = .next s := by
  obtain ⟨hi, hr, hu, hm, -⟩ := h
  unfold State.atPair at hu hm hf
  unfold issue
  simp [hi, hr, hu, hm, hf, hw]

/-- The pair that holds the instruction is planned, both slots of it (R97). -/
theorem issue_holds {q : Issue} {s : State} {e : Env} {w : BitVec 32} {code : Word} (stop : Option Nat) (plan : Env → Plan (List Effect))
    (h : Ready s q e) (hc : Holds s q w code) :
    issue q w stop plan s = .next ((s.atPair q).issuePair q.nib.val q.ctx.val q.slot stop code plan) := by
  obtain ⟨hi, hr, hu, hm, -⟩ := h
  obtain ⟨hf, hw⟩ := hc
  unfold State.atPair at hu hm hf
  unfold issue
  simp [hi, hr, hu, hm, hf, hw]
  rfl

/-! ### Both slots -/

theorem conflict_comm (a b : Cls) : conflict a b = conflict b a := by cases a <;> cases b <;> rfl

/-- Two slots that may issue together: the effects of both (R97, R100, R101). -/
theorem pairOutcome_go {c0 c1 : Cls} {t0 t1 dly : Bool} (hc : conflict c0 c1 = false) (ht : dly = true → t0 = false ∧ t1 = false)
    (e0 e1 : List Effect) : pairOutcome c0 c1 t0 t1 dly (.go e0) (.go e1) = .ok (e0, e1) := by
  have : (dly && (t0 || t1)) = false := by cases dly <;> simp_all
  simp [pairOutcome, hc, this]

/-- A fault of slot 0 beside a slot that would go through (R132, R136). -/
theorem pairOutcome_trap0 {c0 c1 : Cls} {t0 t1 dly : Bool} (hc : conflict c0 c1 = false) (ht : dly = true → t0 = false ∧ t1 = false)
    (t : TrapReq) (e1 : List Effect) : pairOutcome c0 c1 t0 t1 dly (.trap t) (.go e1) = .error (.inl { t with slot := false }) := by
  have : (dly && (t0 || t1)) = false := by cases dly <;> simp_all
  simp [pairOutcome, hc, this]

theorem pairOutcome_trap1 {c0 c1 : Cls} {t0 t1 dly : Bool} (hc : conflict c0 c1 = false) (ht : dly = true → t0 = false ∧ t1 = false)
    (t : TrapReq) (e0 : List Effect) : pairOutcome c0 c1 t0 t1 dly (.go e0) (.trap t) = .error (.inl { t with slot := true }) := by
  have : (dly && (t0 || t1)) = false := by cases dly <;> simp_all
  simp [pairOutcome, hc, this]

/-- A wait of slot 0 beside a slot that would go through: the pair issues again (R107, R132). -/
theorem pairOutcome_wait0 {c0 c1 : Cls} {t0 t1 dly : Bool} (hc : conflict c0 c1 = false) (ht : dly = true → t0 = false ∧ t1 = false)
    (w : Wait) (e1 : List Effect) : pairOutcome c0 c1 t0 t1 dly (.wait w) (.go e1) = .error (.inr (w, false)) := by
  have : (dly && (t0 || t1)) = false := by cases dly <;> simp_all
  simp [pairOutcome, hc, this]

theorem pairOutcome_wait1 {c0 c1 : Cls} {t0 t1 dly : Bool} (hc : conflict c0 c1 = false) (ht : dly = true → t0 = false ∧ t1 = false)
    (w : Wait) (e0 : List Effect) : pairOutcome c0 c1 t0 t1 dly (.go e0) (.wait w) = .error (.inr (w, true)) := by
  have : (dly && (t0 || t1)) = false := by cases dly <;> simp_all
  simp [pairOutcome, hc, this]

/-- With no patch on its routine, a slot does what its plan says. -/
theorem slotOf_unpatched {e : Env} {w : BitVec 32} (plan : Env → Plan (List Effect)) (h : (e.s.nib e.n).patchedAt w = none) :
    slotOf e w plan = slotOut (plan e) := by
  unfold slotOf patchedOut
  split
  · rename_i h'; exact h'.symm
  · rw [h]; split <;> rfl

/-- A fault without a Rubric denial is due in its context. -/
theorem State.raise_faultDue (s : State) (n c : Nat) (t : TrapReq) : ((s.raise n c t).ctx n c).faultDue = some t := by
  unfold State.raise
  simp

/-- The pair of an instruction beside one that passes its checks does what the instruction's own outcome says. -/
theorem issue_beside {s : State} {q : Issue} {e : Env} {w : BitVec 32} {other : List Effect} (stop : Option Nat)
    (plan : Env → Plan (List Effect)) (h : Ready s q e) (hb : Beside s q w other) :
    (∀ es, plan e = .ok es → issue q w stop plan s = .next (afterPair s q other es stop))
    ∧ (∀ k v, plan e = fail k v →
        issue q w stop plan s = .next ((s.atPair q).raise q.nib.val q.ctx.val { cause := k, info := v, slot := q.slot }))
    ∧ ∀ x, plan e = waitFor x → issue q w stop plan s = .next ((s.atPair q).park q.nib.val q.ctx.val { why := x, slot := q.slot }) := by
  obtain ⟨code, hc, ho, hk, ht, hp⟩ := hb
  obtain ⟨-, -, -, -, he⟩ := id h
  obtain ⟨hf, rfl⟩ := id hc
  have hown : slotOf ((s.atPair q).pairEnv q.nib.val q.ctx.val q.slot) (half code q.slot) plan = slotOut (plan e) := by
    rw [he]
    exact slotOf_unpatched plan hp
  change ((s.atPair q).pairEnv q.nib.val q.ctx.val false).x.dly = true → _ at ht
  refine ⟨fun es hes => ?_, fun k v hes => ?_, fun x hes => ?_⟩ <;> rw [issue_holds stop plan h hc] <;>
    unfold State.issuePair State.finishPair <;> dsimp only <;> rw [hown, ho, hes] <;>
    (cases hq : q.slot <;> rw [hq] at hk ht <;> simp only [Bool.not_false, Bool.not_true, Bool.false_eq_true, if_true, if_false] at *)
  · rw [slotOut_ok, pairOutcome_go hk ht]
    unfold afterPair beginning State.commitPair
    rw [hq]; rfl
  · rw [slotOut_ok, pairOutcome_go (conflict_comm _ _ ▸ hk) fun x => (ht x).symm]
    unfold afterPair beginning State.commitPair
    rw [hq]; rfl
  · rw [slotOut_fail, pairOutcome_trap0 hk ht]
  · rw [slotOut_fail, pairOutcome_trap1 (conflict_comm _ _ ▸ hk) fun x => (ht x).symm]
  · rw [slotOut_waitFor, pairOutcome_wait0 hk ht]
  · rw [slotOut_waitFor, pairOutcome_wait1 (conflict_comm _ _ ▸ hk) fun x => (ht x).symm]

/-- A plan that goes through completes its instruction (R97, R102). -/
theorem completes_of {s : State} {q : Issue} {e : Env} {i : Instr} {es : List Effect} {stop : Option Nat}
    {plan : Env → Plan (List Effect)} (h : Ready s q e) (hx : exec i s = issue q (instrWord i) stop plan s) (hp : plan e = .ok es) :
    completes s q i es stop := fun _ hb => hx.trans ((issue_beside stop plan h hb).1 es hp)

/-- A plan that faults leaves the fault due, and nothing of the pair happens (R132, R221). -/
theorem faults_of {s : State} {q : Issue} {e : Env} {i : Instr} {k : Cause} {v : BitVec 64} {stop : Option Nat}
    {plan : Env → Plan (List Effect)} (h : Ready s q e) (hx : exec i s = issue q (instrWord i) stop plan s) (hp : plan e = fail k v) :
    faults s q i k v := fun _ hb => ⟨hx.trans ((issue_beside stop plan h hb).2.1 k v hp), State.raise_faultDue _ _ _ _⟩

end Sys2Proof.Machine
end

