-- ==== Sys2Proof/Laws/Exec.lean ====
section
/-! SUPPORT. Every command answers a next state: no command ends a run (one lemma per meaning). -/

namespace Sys2Proof.Machine

/-! ### Shared meanings -/

/-- A command of ring 0 that starts, goes on, or finds nothing to do. -/
theorem State.command_next (s : State) (w code : Nat) (start : List Byte → Nat → State → State) (work : Op → State → State) :
    ∃ t, s.command w code start work = .next t := by
  unfold State.command
  repeat' (first | with_reducible exact ⟨_, rfl⟩ | split | dsimp only)

theorem State.tap_next (s : State) (code : BitVec 8) (out : List Bool) (f : State → State) : ∃ t, s.tap code out f = .next t := by
  unfold State.tap
  repeat' (first | with_reducible exact ⟨_, rfl⟩ | split | dsimp only)

theorem State.access_next (s : State) (op : BitVec 8) (pa : BitVec 40) (k : Acc) (there : Bool) (f : State → State) :
    ∃ t, s.access op pa k there f = .next t := State.tap_next _ _ _ _

theorem State.answersMctp_next (s : State) (bs : List Byte) : ∃ t, s.answersMctp bs = .next t := by
  unfold State.answersMctp
  repeat' (first | with_reducible exact ⟨_, rfl⟩ | split | dsimp only)

theorem State.hostMeets_next (s : State) (p : Nat) (ls : List Nat) (m : Meets) (go : State → State) :
    ∃ t, s.hostMeets p ls m go = .next t := by
  unfold State.hostMeets
  repeat' (first | with_reducible exact ⟨_, rfl⟩ | split | dsimp only)

theorem State.engineMeets_next (s : State) (e w a : Nat) (m : Meets) (go : State → State) : ∃ t, s.engineMeets e w a m go = .next t := by
  unfold State.engineMeets
  repeat' (first | with_reducible exact ⟨_, rfl⟩ | split | dsimp only)

theorem ite_next (p : Prop) [Decidable p] (a b : State) : ∃ t, (if p then .next a else .next b : Out) = .next t := by
  split <;> exact ⟨_, rfl⟩

/-! ### The commands -/

theorem execNop_next {q w s} : ∃ t, execNop q w s = .next t := by
  unfold execNop
  repeat' (first | with_reducible exact ⟨_, rfl⟩ | exact issue_next _ _ _ _ _ | split | dsimp only)
theorem execMov_next {q f s} : ∃ t, execMov q f s = .next t := issue_next _ _ _ _ _
theorem execMovi_next {q f s} : ∃ t, execMovi q f s = .next t := issue_next _ _ _ _ _
theorem execLui_next {q f s} : ∃ t, execLui q f s = .next t := issue_next _ _ _ _ _
theorem execTypeof_next {q f s} : ∃ t, execTypeof q f s = .next t := issue_next _ _ _ _ _
theorem execRetag_next {q f s} : ∃ t, execRetag q f s = .next t := issue_next _ _ _ _ _
theorem execTtest_next {q f s} : ∃ t, execTtest q f s = .next t := issue_next _ _ _ _ _
theorem execPretag_next {q f s} : ∃ t, execPretag q f s = .next t := issue_next _ _ _ _ _
theorem execStr_next {q f s} : ∃ t, execStr q f s = .next t := issue_next _ _ _ _ _
theorem execStw_next {q f s} : ∃ t, execStw q f s = .next t := issue_next _ _ _ _ _
theorem execSvr_next {q f s} : ∃ t, execSvr q f s = .next t := issue_next _ _ _ _ _
theorem execSvw_next {q f s} : ∃ t, execSvw q f s = .next t := issue_next _ _ _ _ _
theorem execIadd_next {q f s} : ∃ t, execIadd q f s = .next t := issue_next _ _ _ _ _
theorem execIsub_next {q f s} : ∃ t, execIsub q f s = .next t := issue_next _ _ _ _ _
theorem execAnd_next {q f s} : ∃ t, execAnd q f s = .next t := issue_next _ _ _ _ _
theorem execOr_next {q f s} : ∃ t, execOr q f s = .next t := issue_next _ _ _ _ _
theorem execXor_next {q f s} : ∃ t, execXor q f s = .next t := issue_next _ _ _ _ _
theorem execShift_next {q f s} : ∃ t, execShift q f s = .next t := issue_next _ _ _ _ _
theorem execIaddi_next {q f s} : ∃ t, execIaddi q f s = .next t := issue_next _ _ _ _ _
theorem execAndi_next {q f s} : ∃ t, execAndi q f s = .next t := issue_next _ _ _ _ _
theorem execOri_next {q f s} : ∃ t, execOri q f s = .next t := issue_next _ _ _ _ _
theorem execXori_next {q f s} : ∃ t, execXori q f s = .next t := issue_next _ _ _ _ _
theorem execShifti_next {q f s} : ∃ t, execShifti q f s = .next t := issue_next _ _ _ _ _
theorem execIcmp_next {q f s} : ∃ t, execIcmp q f s = .next t := issue_next _ _ _ _ _
theorem execEq_next {q f s} : ∃ t, execEq q f s = .next t := issue_next _ _ _ _ _
theorem execImul_next {q f s} : ∃ t, execImul q f s = .next t := issue_next _ _ _ _ _
theorem execMulh_next {q f s} : ∃ t, execMulh q f s = .next t := issue_next _ _ _ _ _
theorem execIdiv_next {q f s} : ∃ t, execIdiv q f s = .next t := issue_next _ _ _ _ _
theorem execAdd_next {q f s} : ∃ t, execAdd q f s = .next t := issue_next _ _ _ _ _
theorem execSub_next {q f s} : ∃ t, execSub q f s = .next t := issue_next _ _ _ _ _
theorem execMul_next {q f s} : ∃ t, execMul q f s = .next t := issue_next _ _ _ _ _
theorem execAddi_next {q f s} : ∃ t, execAddi q f s = .next t := issue_next _ _ _ _ _
theorem execEql_next {q f s} : ∃ t, execEql q f s = .next t := issue_next _ _ _ _ _
theorem execLess_next {q f s} : ∃ t, execLess q f s = .next t := issue_next _ _ _ _ _
theorem execDiv_next {q f s} : ∃ t, execDiv q f s = .next t := issue_next _ _ _ _ _
theorem execRem_next {q f s} : ∃ t, execRem q f s = .next t := issue_next _ _ _ _ _
theorem execFadd_next {q f s} : ∃ t, execFadd q f s = .next t := issue_next _ _ _ _ _
theorem execFsub_next {q f s} : ∃ t, execFsub q f s = .next t := issue_next _ _ _ _ _
theorem execFmul_next {q f s} : ∃ t, execFmul q f s = .next t := issue_next _ _ _ _ _
theorem execFma_next {q f s} : ∃ t, execFma q f s = .next t := issue_next _ _ _ _ _
theorem execFnma_next {q f s} : ∃ t, execFnma q f s = .next t := issue_next _ _ _ _ _
theorem execFcmp_next {q f s} : ∃ t, execFcmp q f s = .next t := issue_next _ _ _ _ _
theorem execFcvt_next {q f s} : ∃ t, execFcvt q f s = .next t := issue_next _ _ _ _ _
theorem execFmisc_next {q f s} : ∃ t, execFmisc q f s = .next t := issue_next _ _ _ _ _
theorem execBeq_next {q f s} : ∃ t, execBeq q f s = .next t := issue_next _ _ _ _ _
theorem execBne_next {q f s} : ∃ t, execBne q f s = .next t := issue_next _ _ _ _ _
theorem execBlt_next {q f s} : ∃ t, execBlt q f s = .next t := issue_next _ _ _ _ _
theorem execBge_next {q f s} : ∃ t, execBge q f s = .next t := issue_next _ _ _ _ _
theorem execBltu_next {q f s} : ∃ t, execBltu q f s = .next t := issue_next _ _ _ _ _
theorem execBgeu_next {q f s} : ∃ t, execBgeu q f s = .next t := issue_next _ _ _ _ _
theorem execBtype_next {q f s} : ∃ t, execBtype q f s = .next t := issue_next _ _ _ _ _
theorem execBntype_next {q f s} : ∃ t, execBntype q f s = .next t := issue_next _ _ _ _ _
theorem execBnil_next {q f s} : ∃ t, execBnil q f s = .next t := issue_next _ _ _ _ _
theorem execBnnil_next {q f s} : ∃ t, execBnnil q f s = .next t := issue_next _ _ _ _ _
theorem execBr_next {q disp s} : ∃ t, execBr q disp s = .next t := issue_next _ _ _ _ _
theorem execJmpr_next {q f s} : ∃ t, execJmpr q f s = .next t := issue_next _ _ _ _ _
theorem execCall_next {q disp s} : ∃ t, execCall q disp s = .next t := issue_next _ _ _ _ _
theorem execCallr_next {q f s} : ∃ t, execCallr q f s = .next t := issue_next _ _ _ _ _
theorem execRet_next {q f s} : ∃ t, execRet q f s = .next t := issue_next _ _ _ _ _
theorem execGate_next {q f s} : ∃ t, execGate q f s = .next t := issue_next _ _ _ _ _
theorem execGret_next {q f s} : ∃ t, execGret q f s = .next t := issue_next _ _ _ _ _
theorem execLdx_next {q f s} : ∃ t, execLdx q f s = .next t := issue_next _ _ _ _ _
theorem execLdi_next {q f s} : ∃ t, execLdi q f s = .next t := issue_next _ _ _ _ _
theorem execStx_next {q f s} : ∃ t, execStx q f s = .next t := issue_next _ _ _ _ _
theorem execSti_next {q f s} : ∃ t, execSti q f s = .next t := issue_next _ _ _ _ _
theorem execLdbx_next {q f s} : ∃ t, execLdbx q f s = .next t := issue_next _ _ _ _ _
theorem execStbx_next {q f s} : ∃ t, execStbx q f s = .next t := issue_next _ _ _ _ _
theorem execLdv_next {q f s} : ∃ t, execLdv q f s = .next t := issue_next _ _ _ _ _
theorem execStv_next {q f s} : ∃ t, execStv q f s = .next t := issue_next _ _ _ _ _
theorem execHdrq_next {q f s} : ∃ t, execHdrq q f s = .next t := issue_next _ _ _ _ _
theorem execFreeze_next {q f s} : ∃ t, execFreeze q f s = .next t := issue_next _ _ _ _ _
theorem execCld_next {q f s} : ∃ t, execCld q f s = .next t := issue_next _ _ _ _ _
theorem execCst_next {q f s} : ∃ t, execCst q f s = .next t := issue_next _ _ _ _ _
theorem execCldc_next {q f s} : ∃ t, execCldc q f s = .next t := issue_next _ _ _ _ _
theorem execCstc_next {q f s} : ∃ t, execCstc q f s = .next t := issue_next _ _ _ _ _
theorem execCldx_next {q f s} : ∃ t, execCldx q f s = .next t := issue_next _ _ _ _ _
theorem execCstx_next {q f s} : ∃ t, execCstx q f s = .next t := issue_next _ _ _ _ _
theorem execCar_next {q f s} : ∃ t, execCar q f s = .next t := issue_next _ _ _ _ _
theorem execCdr_next {q f s} : ∃ t, execCdr q f s = .next t := issue_next _ _ _ _ _
theorem execRplaca_next {q f s} : ∃ t, execRplaca q f s = .next t := issue_next _ _ _ _ _
theorem execRplacd_next {q f s} : ∃ t, execRplacd q f s = .next t := issue_next _ _ _ _ _
theorem execCons_next {q f s} : ∃ t, execCons q f s = .next t := issue_next _ _ _ _ _
theorem execConsn_next {q f stop s} : ∃ t, execConsn q f stop s = .next t := issue_next _ _ _ _ _
theorem execAlloc_next {q f s} : ∃ t, execAlloc q f s = .next t := issue_next _ _ _ _ _
theorem execAlloci_next {q f s} : ∃ t, execAlloci q f s = .next t := issue_next _ _ _ _ _
theorem execCbound_next {q f s} : ∃ t, execCbound q f s = .next t := issue_next _ _ _ _ _
theorem execCperm_next {q f s} : ∃ t, execCperm q f s = .next t := issue_next _ _ _ _ _
theorem execCinc_next {q f s} : ∃ t, execCinc q f s = .next t := issue_next _ _ _ _ _
theorem execCget_next {q f s} : ∃ t, execCget q f s = .next t := issue_next _ _ _ _ _
theorem execCseal_next {q f s} : ∃ t, execCseal q f s = .next t := issue_next _ _ _ _ _
theorem execCunseal_next {q f s} : ∃ t, execCunseal q f s = .next t := issue_next _ _ _ _ _
theorem execSavem_next {q f stop s} : ∃ t, execSavem q f stop s = .next t := issue_next _ _ _ _ _
theorem execLoadm_next {q f stop s} : ∃ t, execLoadm q f stop s = .next t := issue_next _ _ _ _ _
theorem execBcopy_next {q f stop s} : ∃ t, execBcopy q f stop s = .next t := issue_next _ _ _ _ _
theorem execBcmp_next {q f stop s} : ∃ t, execBcmp q f stop s = .next t := issue_next _ _ _ _ _
theorem execHash_next {q f stop s} : ∃ t, execHash q f stop s = .next t := issue_next _ _ _ _ _
theorem execBigstep_next {q f stop s} : ∃ t, execBigstep q f stop s = .next t := issue_next _ _ _ _ _
theorem execYield_next {q f s} : ∃ t, execYield q f s = .next t := issue_next _ _ _ _ _
theorem execWait_next {q f s} : ∃ t, execWait q f s = .next t := issue_next _ _ _ _ _
theorem execSend_next {q f s} : ∃ t, execSend q f s = .next t := issue_next _ _ _ _ _
theorem execRecv_next {q f s} : ∃ t, execRecv q f s = .next t := issue_next _ _ _ _ _
theorem execXr_next {q f s} : ∃ t, execXr q f s = .next t := issue_next _ _ _ _ _
theorem execXw_next {q f s} : ∃ t, execXw q f s = .next t := issue_next _ _ _ _ _
theorem execTimer_next {q f s} : ∃ t, execTimer q f s = .next t := issue_next _ _ _ _ _
theorem execSteady_next {q f s} : ∃ t, execSteady q f s = .next t := issue_next _ _ _ _ _
theorem execLbar_next {q f s} : ∃ t, execLbar q f s = .next t := issue_next _ _ _ _ _
theorem execSbar_next {q f s} : ∃ t, execSbar q f s = .next t := issue_next _ _ _ _ _
theorem execFbar_next {q f s} : ∃ t, execFbar q f s = .next t := issue_next _ _ _ _ _
theorem execXinvPage_next {q f s} : ∃ t, execXinvPage q f s = .next t := issue_next _ _ _ _ _
theorem execXinvWard_next {q f s} : ∃ t, execXinvWard q f s = .next t := issue_next _ _ _ _ _
theorem execXinvAll_next {q f s} : ∃ t, execXinvAll q f s = .next t := issue_next _ _ _ _ _
theorem execWalkComplete_next {n c s} : ∃ t, execWalkComplete n c s = .next t := by
  unfold execWalkComplete
  repeat' (first | with_reducible exact ⟨_, rfl⟩ | split | dsimp only)
theorem execRubricAnswer_next {n c agree s} : ∃ t, execRubricAnswer n c agree s = .next t := by
  unfold execRubricAnswer
  repeat' (first | with_reducible exact ⟨_, rfl⟩ | split | dsimp only)
theorem execLineFill_next {n c s} : ∃ t, execLineFill n c s = .next t := by
  unfold execLineFill
  repeat' (first | with_reducible exact ⟨_, rfl⟩ | split | dsimp only)
theorem execStoreBufferSend_next {n s} : ∃ t, execStoreBufferSend n s = .next t := by
  unfold execStoreBufferSend
  repeat' (first | with_reducible exact ⟨_, rfl⟩ | split | dsimp only)
theorem execStoreAck_next {n s} : ∃ t, execStoreAck n s = .next t := by
  unfold execStoreAck
  repeat' (first | with_reducible exact ⟨_, rfl⟩ | split | dsimp only)
theorem execStoreDropTimeout_next {n k s} : ∃ t, execStoreDropTimeout n k s = .next t := by
  unfold execStoreDropTimeout
  repeat' (first | with_reducible exact ⟨_, rfl⟩ | split | dsimp only)
theorem execDeviceLoadTimeout_next {n c s} : ∃ t, execDeviceLoadTimeout n c s = .next t := by
  unfold execDeviceLoadTimeout
  repeat' (first | with_reducible exact ⟨_, rfl⟩ | split | dsimp only)
theorem execBarrierComplete_next {n c s} : ∃ t, execBarrierComplete n c s = .next t := by
  unfold execBarrierComplete
  repeat' (first | with_reducible exact ⟨_, rfl⟩ | split | dsimp only)
theorem execInvalidation_next {n s} : ∃ t, execInvalidation n s = .next t := by
  unfold execInvalidation
  repeat' (first | with_reducible exact ⟨_, rfl⟩ | split | dsimp only)
theorem execInvalidationAck_next {k s} : ∃ t, execInvalidationAck k s = .next t := by
  unfold execInvalidationAck
  repeat' (first | with_reducible exact ⟨_, rfl⟩ | split | dsimp only)
theorem execStoreArrival_next {n k s} : ∃ t, execStoreArrival n k s = .next t := by
  unfold execStoreArrival
  repeat' (first | with_reducible exact ⟨_, rfl⟩ | split | dsimp only)
theorem execInkwellRead_next {k errs agree s} : ∃ t, execInkwellRead k errs agree s = .next t := by
  unfold execInkwellRead
  repeat' (first | with_reducible exact ⟨_, rfl⟩ | split | dsimp only)
theorem execShadeBufferDrain_next {n s} : ∃ t, execShadeBufferDrain n s = .next t := by
  unfold execShadeBufferDrain
  repeat' (first | with_reducible exact ⟨_, rfl⟩ | split | dsimp only)
theorem execCopyRecordRetry_next {n c s} : ∃ t, execCopyRecordRetry n c s = .next t := by
  unfold execCopyRecordRetry
  repeat' (first | with_reducible exact ⟨_, rfl⟩ | split | dsimp only)
theorem execMicroTrap_next {n c s} : ∃ t, execMicroTrap n c s = .next t := by
  unfold execMicroTrap
  repeat' (first | with_reducible exact ⟨_, rfl⟩ | split | dsimp only)
theorem execSpillWriteComplete_next {n c s} : ∃ t, execSpillWriteComplete n c s = .next t := by
  unfold execSpillWriteComplete
  repeat' (first | with_reducible exact ⟨_, rfl⟩ | split | dsimp only)
theorem execSpillRetry_next {n c s} : ∃ t, execSpillRetry n c s = .next t := by
  unfold execSpillRetry
  repeat' (first | with_reducible exact ⟨_, rfl⟩ | split | dsimp only)
theorem execTrapEntry_next {n c s} : ∃ t, execTrapEntry n c s = .next t := by
  unfold execTrapEntry
  repeat' (first | with_reducible exact ⟨_, rfl⟩ | split | dsimp only)
theorem execHeldCheckEntry_next {n s} : ∃ t, execHeldCheckEntry n s = .next t := by
  unfold execHeldCheckEntry
  repeat' (first | with_reducible exact ⟨_, rfl⟩ | split | dsimp only)
theorem execSchedulingDecision_next {n s} : ∃ t, execSchedulingDecision n s = .next t := by
  unfold execSchedulingDecision
  repeat' (first | with_reducible exact ⟨_, rfl⟩ | split | dsimp only)
theorem execTimeSliceExpiry_next {n s} : ∃ t, execTimeSliceExpiry n s = .next t := by
  unfold execTimeSliceExpiry
  repeat' (first | with_reducible exact ⟨_, rfl⟩ | split | dsimp only)
theorem execTimerExpiry_next {n c s} : ∃ t, execTimerExpiry n c s = .next t := by
  unfold execTimerExpiry
  repeat' (first | with_reducible exact ⟨_, rfl⟩ | split | dsimp only)
theorem execSteadyLimitExpiry_next {n c s} : ∃ t, execSteadyLimitExpiry n c s = .next t := by
  unfold execSteadyLimitExpiry
  repeat' (first | with_reducible exact ⟨_, rfl⟩ | split | dsimp only)
theorem execSendDelivery_next {k s} : ∃ t, execSendDelivery k s = .next t := by
  unfold execSendDelivery
  repeat' (first | with_reducible exact ⟨_, rfl⟩ | split | dsimp only)
theorem execSendAnswer_next {n c s} : ∃ t, execSendAnswer n c s = .next t := by
  unfold execSendAnswer
  repeat' (first | with_reducible exact ⟨_, rfl⟩ | split | dsimp only)
theorem execDoorbell_next {p ring v s} : ∃ t, execDoorbell p ring v s = .next t := by
  unfold execDoorbell
  repeat' (first | with_reducible exact ⟨_, rfl⟩ | split | dsimp only)
theorem execDoorbellEvent_next {k s} : ∃ t, execDoorbellEvent k s = .next t := by
  unfold execDoorbellEvent
  repeat' (first | with_reducible exact ⟨_, rfl⟩ | split | dsimp only)
theorem execCompletionHead_next {p ring v s} : ∃ t, execCompletionHead p ring v s = .next t := by
  unfold execCompletionHead
  repeat' (first | with_reducible exact ⟨_, rfl⟩ | split | dsimp only)
theorem execDescriptorArrival_next {w ring bytes s} : ∃ t, execDescriptorArrival w ring bytes s = .next t := by
  unfold execDescriptorArrival
  repeat' (first | with_reducible exact ⟨_, rfl⟩ | split | dsimp only)
theorem execConsumedReread_next {w ring s} : ∃ t, execConsumedReread w ring s = .next t := by
  unfold execConsumedReread
  repeat' (first | with_reducible exact ⟨_, rfl⟩ | split | dsimp only)
theorem execHostMemRead_next {p sp off len s} : ∃ t, execHostMemRead p sp off len s = .next t := by
  unfold execHostMemRead
  repeat' (first | with_reducible exact ⟨_, rfl⟩ | exact State.hostMeets_next _ _ _ _ _ | split | dsimp only)
theorem execHostMemWrite_next {p off bytes s} : ∃ t, execHostMemWrite p off bytes s = .next t := by
  unfold execHostMemWrite
  repeat' (first | with_reducible exact ⟨_, rfl⟩ | exact State.hostMeets_next _ _ _ _ _ | split | dsimp only)
theorem execTagApertureWrite_next {p off bytes s} : ∃ t, execTagApertureWrite p off bytes s = .next t := by
  unfold execTagApertureWrite
  repeat' (first | with_reducible exact ⟨_, rfl⟩ | split | dsimp only)
theorem execSnoop_next {p line s} : ∃ t, execSnoop p line s = .next t := by
  unfold execSnoop
  repeat' (first | with_reducible exact ⟨_, rfl⟩ | split | dsimp only)
theorem execConfigRequest_next {p r s} : ∃ t, execConfigRequest p r s = .next t := by
  unfold execConfigRequest
  repeat' (first | with_reducible exact ⟨_, rfl⟩ | split | dsimp only)
theorem execHdmDecoderCommit_next {p dec base ways s} : ∃ t, execHdmDecoderCommit p dec base ways s = .next t := by
  unfold execHdmDecoderCommit
  repeat' (first | with_reducible exact ⟨_, rfl⟩ | split | dsimp only)
theorem execHostLinkEvent_next {p e s} : ∃ t, execHostLinkEvent p e s = .next t := by
  unfold execHostLinkEvent
  repeat' (first | with_reducible exact ⟨_, rfl⟩ | split | dsimp only)
theorem execLinkBlock_next {leaf link fate s} : ∃ t, execLinkBlock leaf link fate s = .next t := by
  unfold execLinkBlock
  repeat' (first | with_reducible exact ⟨_, rfl⟩ | split | dsimp only)
theorem execStrokeTick_next {cause s} : ∃ t, execStrokeTick cause s = .next t := by
  unfold execStrokeTick
  split
  · exact ⟨_, rfl⟩
  · exact ite_next _ _ _
theorem execCloseReport_next {u s} : ∃ t, execCloseReport u s = .next t := by
  unfold execCloseReport
  repeat' (first | with_reducible exact ⟨_, rfl⟩ | split | dsimp only)
theorem execFaultReport_next {u c s} : ∃ t, execFaultReport u c s = .next t := by
  unfold execFaultReport
  repeat' (first | with_reducible exact ⟨_, rfl⟩ | split | dsimp only)
theorem execCloseTimeout_next {s} : ∃ t, execCloseTimeout s = .next t := by
  unfold execCloseTimeout
  repeat' (first | with_reducible exact ⟨_, rfl⟩ | split | dsimp only)
theorem execCommitInstant_next {agree s} : ∃ t, execCommitInstant agree s = .next t := by
  unfold execCommitInstant
  repeat' (first | with_reducible exact ⟨_, rfl⟩ | split | dsimp only)
theorem execEngineScan_next {e s} : ∃ t, execEngineScan e s = .next t := by
  unfold execEngineScan
  repeat' (first | with_reducible exact ⟨_, rfl⟩ | exact State.engineMeets_next _ _ _ _ _ _ | split | dsimp only)
theorem execWholeSheetScan_next {e s} : ∃ t, execWholeSheetScan e s = .next t := by
  unfold execWholeSheetScan
  repeat' (first | with_reducible exact ⟨_, rfl⟩ | exact State.engineMeets_next _ _ _ _ _ _ | split | dsimp only)
theorem execEngineCopy_next {e s} : ∃ t, execEngineCopy e s = .next t := by
  unfold execEngineCopy
  repeat' (first | with_reducible exact ⟨_, rfl⟩ | exact State.engineMeets_next _ _ _ _ _ _ | split | dsimp only)
theorem execZeroFill_next {e s} : ∃ t, execZeroFill e s = .next t := by
  unfold execZeroFill
  repeat' (first | with_reducible exact ⟨_, rfl⟩ | exact State.engineMeets_next _ _ _ _ _ _ | split | dsimp only)
theorem execShadowImageWrite_next {n s} : ∃ t, execShadowImageWrite n s = .next t := by
  unfold execShadowImageWrite
  repeat' (first | with_reducible exact ⟨_, rfl⟩ | split | dsimp only)
theorem execVoid_next {s} : ∃ t, execVoid s = .next t := by
  unfold execVoid
  repeat' (first | with_reducible exact ⟨_, rfl⟩ | split | dsimp only)
theorem execRubricBackgroundCompare_next {differ s} : ∃ t, execRubricBackgroundCompare differ s = .next t := by
  unfold execRubricBackgroundCompare
  repeat' (first | with_reducible exact ⟨_, rfl⟩ | split | dsimp only)
theorem execMcLockstep_next {s} : ∃ t, execMcLockstep s = .next t := by
  unfold execMcLockstep
  repeat' (first | with_reducible exact ⟨_, rfl⟩ | split | dsimp only)
theorem execClockLoss_next {sub s} : ∃ t, execClockLoss sub s = .next t := by
  unfold execClockLoss
  repeat' (first | with_reducible exact ⟨_, rfl⟩ | split | dsimp only)
theorem execPowerSample_next {mv ma die temp s} : ∃ t, execPowerSample mv ma die temp s = .next t := by
  unfold execPowerSample
  repeat' (first | with_reducible exact ⟨_, rfl⟩ | split | dsimp only)
theorem execPowerFailHold_next {s} : ∃ t, execPowerFailHold s = .next t := by
  unfold execPowerFailHold
  repeat' (first | with_reducible exact ⟨_, rfl⟩ | split | dsimp only)
theorem execThermalTrip_next {die s} : ∃ t, execThermalTrip die s = .next t := by
  unfold execThermalTrip
  repeat' (first | with_reducible exact ⟨_, rfl⟩ | split | dsimp only)
theorem execRegulatorFault_next {f s} : ∃ t, execRegulatorFault f s = .next t := by
  unfold execRegulatorFault
  repeat' (first | with_reducible exact ⟨_, rfl⟩ | split | dsimp only)
theorem execPowerOnReset_next {slot0 slot1 s} : ∃ t, execPowerOnReset slot0 slot1 s = .next t := by
  unfold execPowerOnReset
  repeat' (first | with_reducible exact ⟨_, rfl⟩ | split | dsimp only)
theorem execOrderedTurnOff_next {s} : ∃ t, execOrderedTurnOff s = .next t := by
  unfold execOrderedTurnOff
  repeat' (first | with_reducible exact ⟨_, rfl⟩ | split | dsimp only)
theorem execSetupRegisterWrite_next {lane pa v s} : ∃ t, execSetupRegisterWrite lane pa v s = .next t := by
  unfold execSetupRegisterWrite
  repeat' (first | with_reducible exact ⟨_, rfl⟩ | split | dsimp only)
theorem execRubStart_next {lane v s} : ∃ t, execRubStart lane v s = .next t := by
  unfold execRubStart
  repeat' (first | with_reducible exact ⟨_, rfl⟩ | split | dsimp only)
theorem execRubEnd_next {lane v s} : ∃ t, execRubEnd lane v s = .next t := by
  unfold execRubEnd
  repeat' (first | with_reducible exact ⟨_, rfl⟩ | split | dsimp only)
theorem execRubAttr_next {lane v s} : ∃ t, execRubAttr lane v s = .next t := by
  unfold execRubAttr
  repeat' (first | with_reducible exact ⟨_, rfl⟩ | split | dsimp only)
theorem execStkPeriod_next {lane v s} : ∃ t, execStkPeriod lane v s = .next t := by
  unfold execStkPeriod
  repeat' (first | with_reducible exact ⟨_, rfl⟩ | split | dsimp only)
theorem execPatEnable_next {lane v s} : ∃ t, execPatEnable lane v s = .next t := by
  unfold execPatEnable
  repeat' (first | with_reducible exact ⟨_, rfl⟩ | split | dsimp only)
theorem execPrtBind_next {lane p v s} : ∃ t, execPrtBind lane p v s = .next t := by
  unfold execPrtBind
  repeat' (first | with_reducible exact ⟨_, rfl⟩ | split | dsimp only)
theorem execWasAssign_next {lane v s} : ∃ t, execWasAssign lane v s = .next t := by
  unfold execWasAssign
  repeat' (first | with_reducible exact ⟨_, rfl⟩ | split | dsimp only)
theorem execPwrShed_next {lane v s} : ∃ t, execPwrShed lane v s = .next t := by
  unfold execPwrShed
  repeat' (first | with_reducible exact ⟨_, rfl⟩ | split | dsimp only)
theorem execLcsReq_next {lane v s} : ∃ t, execLcsReq lane v s = .next t := by
  unfold execLcsReq
  repeat' (first | with_reducible exact ⟨_, rfl⟩ | split | dsimp only)
theorem execComplementWrite_next {lane pa v s} : ∃ t, execComplementWrite lane pa v s = .next t := by
  unfold execComplementWrite
  repeat' (first | with_reducible exact ⟨_, rfl⟩ | split | dsimp only)
theorem execGuardTimeout_next {page s} : ∃ t, execGuardTimeout page s = .next t := by
  unfold execGuardTimeout
  repeat' (first | with_reducible exact ⟨_, rfl⟩ | split | dsimp only)
theorem execWscClear_next {lane pa v s} : ∃ t, execWscClear lane pa v s = .next t := by
  unfold execWscClear
  repeat' (first | with_reducible exact ⟨_, rfl⟩ | split | dsimp only)
theorem execWinFlags_next {lane w v s} : ∃ t, execWinFlags lane w v s = .next t := by
  unfold execWinFlags
  repeat' (first | with_reducible exact ⟨_, rfl⟩ | split | dsimp only)
theorem execStkApply_next {lane v s} : ∃ t, execStkApply lane v s = .next t := by
  unfold execStkApply
  repeat' (first | with_reducible exact ⟨_, rfl⟩ | split | dsimp only)
theorem execWinApply_next {lane w v s} : ∃ t, execWinApply lane w v s = .next t := by
  unfold execWinApply
  repeat' (first | with_reducible exact ⟨_, rfl⟩ | split | dsimp only)
theorem execRubCopyActive_next {lane s} : ∃ t, execRubCopyActive lane s = .next t := by
  unfold execRubCopyActive
  repeat' (first | with_reducible exact ⟨_, rfl⟩ | split | dsimp only)
theorem execRubClearStaged_next {lane s} : ∃ t, execRubClearStaged lane s = .next t := by
  unfold execRubClearStaged
  repeat' (first | with_reducible exact ⟨_, rfl⟩ | split | dsimp only)
theorem execPatchLoad_next {lane s} : ∃ t, execPatchLoad lane s = .next t := by
  unfold execPatchLoad
  repeat' (first | with_reducible exact ⟨_, rfl⟩ | split | dsimp only)
theorem execPatchVerifyDone_next {s} : ∃ t, execPatchVerifyDone s = .next t := by
  unfold execPatchVerifyDone
  repeat' (first | with_reducible exact ⟨_, rfl⟩ | split | dsimp only)
theorem execPatchDiscard_next {lane s} : ∃ t, execPatchDiscard lane s = .next t := by
  unfold execPatchDiscard
  repeat' (first | with_reducible exact ⟨_, rfl⟩ | split | dsimp only)
theorem execInkwellDisable_next {lane k s} : ∃ t, execInkwellDisable lane k s = .next t := by
  unfold execInkwellDisable
  repeat' (first | with_reducible exact ⟨_, rfl⟩ | split | dsimp only)
theorem execInkwellEnable_next {lane k s} : ∃ t, execInkwellEnable lane k s = .next t := by
  unfold execInkwellEnable
  repeat' (first | with_reducible exact ⟨_, rfl⟩ | split | dsimp only)
theorem execInkwellWritebackDone_next {k s} : ∃ t, execInkwellWritebackDone k s = .next t := by
  unfold execInkwellWritebackDone
  repeat' (first | with_reducible exact ⟨_, rfl⟩ | split | dsimp only)
theorem execTallyHold_next {lane view s} : ∃ t, execTallyHold lane view s = .next t := by
  unfold execTallyHold
  repeat' (first | with_reducible exact ⟨_, rfl⟩ | split | dsimp only)
theorem execTallyRelease_next {lane view s} : ∃ t, execTallyRelease lane view s = .next t := by
  unfold execTallyRelease
  repeat' (first | with_reducible exact ⟨_, rfl⟩ | split | dsimp only)
theorem execTalDataloRead_next {lane view s} : ∃ t, execTalDataloRead lane view s = .next t := by
  unfold execTalDataloRead
  repeat' (first | with_reducible exact ⟨_, rfl⟩ | split | dsimp only)
theorem execXlRootWrite_next {lane n hi v s} : ∃ t, execXlRootWrite lane n hi v s = .next t := by
  unfold execXlRootWrite
  repeat' (first | with_reducible exact ⟨_, rfl⟩ | split | dsimp only)
theorem execXlWardWrite_next {lane n v s} : ∃ t, execXlWardWrite lane n v s = .next t := by
  unfold execXlWardWrite
  repeat' (first | with_reducible exact ⟨_, rfl⟩ | split | dsimp only)
theorem execCtxRead_next {lane n s} : ∃ t, execCtxRead lane n s = .next t := by
  unfold execCtxRead
  repeat' (first | with_reducible exact ⟨_, rfl⟩ | split | dsimp only)
theorem execCtxWrite_next {lane n s} : ∃ t, execCtxWrite lane n s = .next t := by
  unfold execCtxWrite
  repeat' (first | with_reducible exact ⟨_, rfl⟩ | split | dsimp only)
theorem execCtxStart_next {lane n s} : ∃ t, execCtxStart lane n s = .next t := by
  unfold execCtxStart
  repeat' (first | with_reducible exact ⟨_, rfl⟩ | split | dsimp only)
theorem execCtxStop_next {lane n s} : ∃ t, execCtxStop lane n s = .next t := by
  unfold execCtxStop
  repeat' (first | with_reducible exact ⟨_, rfl⟩ | split | dsimp only)
theorem execCtxResume_next {lane n s} : ∃ t, execCtxResume lane n s = .next t := by
  unfold execCtxResume
  repeat' (first | with_reducible exact ⟨_, rfl⟩ | split | dsimp only)
theorem execCtxFreeze_next {lane n s} : ∃ t, execCtxFreeze lane n s = .next t := by
  unfold execCtxFreeze
  repeat' (first | with_reducible exact ⟨_, rfl⟩ | split | dsimp only)
theorem execStopRequestAct_next {n c s} : ∃ t, execStopRequestAct n c s = .next t := by
  unfold execStopRequestAct
  repeat' (first | with_reducible exact ⟨_, rfl⟩ | split | dsimp only)
theorem execNopCommand_next {w s} : ∃ t, execNopCommand w s = .next t := State.command_next _ _ _ _ _
theorem execImageLoad_next {w s} : ∃ t, execImageLoad w s = .next t := by
  unfold execImageLoad
  repeat' (first | with_reducible exact ⟨_, rfl⟩ | exact State.command_next _ _ _ _ _ | split | dsimp only)
theorem execSpawn_next {w s} : ∃ t, execSpawn w s = .next t := by
  unfold execSpawn
  split
  · exact State.command_next _ _ _ _ _
  · exact ⟨_, rfl⟩
theorem execPost_next {w ring rec0 rec1 s} : ∃ t, execPost w ring rec0 rec1 s = .next t := by
  unfold execPost
  repeat' (first | with_reducible exact ⟨_, rfl⟩ | split | dsimp only)
theorem execImportCmd_next {w s} : ∃ t, execImportCmd w s = .next t := by
  unfold execImportCmd
  repeat' (first | with_reducible exact ⟨_, rfl⟩ | exact State.command_next _ _ _ _ _ | split | dsimp only)
theorem execExportCmd_next {w s} : ∃ t, execExportCmd w s = .next t := by
  unfold execExportCmd
  repeat' (first | with_reducible exact ⟨_, rfl⟩ | exact State.command_next _ _ _ _ _ | split | dsimp only)
theorem execCopyCmd_next {w s} : ∃ t, execCopyCmd w s = .next t := by
  unfold execCopyCmd
  repeat' (first | with_reducible exact ⟨_, rfl⟩ | exact State.command_next _ _ _ _ _ | split | dsimp only)
theorem execCollect_next {w s} : ∃ t, execCollect w s = .next t := by
  unfold execCollect
  repeat' (first | with_reducible exact ⟨_, rfl⟩ | exact State.command_next _ _ _ _ _ | split | dsimp only)
theorem execHeapVerify_next {w s} : ∃ t, execHeapVerify w s = .next t := by
  unfold execHeapVerify
  exact State.command_next _ _ _ _ _
theorem execScrub_next {w s} : ∃ t, execScrub w s = .next t := by
  unfold execScrub
  exact State.command_next _ _ _ _ _
theorem execQuery_next {w s} : ∃ t, execQuery w s = .next t := by
  unfold execQuery
  repeat' (first | with_reducible exact ⟨_, rfl⟩ | exact State.command_next _ _ _ _ _ | split | dsimp only)
theorem execPolicy_next {w s} : ∃ t, execPolicy w s = .next t := by
  unfold execPolicy
  repeat' (first | with_reducible exact ⟨_, rfl⟩ | exact State.command_next _ _ _ _ _ | split | dsimp only)
theorem execAttest_next {w s} : ∃ t, execAttest w s = .next t := by
  unfold execAttest
  repeat' (first | with_reducible exact ⟨_, rfl⟩ | exact State.command_next _ _ _ _ _ | split | dsimp only)
theorem execFence_next {w s} : ∃ t, execFence w s = .next t := State.command_next _ _ _ _ _
theorem execSuspend_next {w s} : ∃ t, execSuspend w s = .next t := State.command_next _ _ _ _ _
theorem execResume_next {w s} : ∃ t, execResume w s = .next t := State.command_next _ _ _ _ _
theorem execCancel_next {w s} : ∃ t, execCancel w s = .next t := State.command_next _ _ _ _ _
theorem execWardReset_next {w s} : ∃ t, execWardReset w s = .next t := by
  unfold execWardReset
  repeat' (first | with_reducible exact ⟨_, rfl⟩ | exact State.command_next _ _ _ _ _ | split | dsimp only)
theorem execIdcode_next {s} : ∃ t, execIdcode s = .next t := State.tap_next _ _ _ _
theorem execSamplePreload_next {s} : ∃ t, execSamplePreload s = .next t := State.tap_next _ _ _ _
theorem execExtest_next {s} : ∃ t, execExtest s = .next t := State.tap_next _ _ _ _
theorem execBypass_next {code s} : ∃ t, execBypass code s = .next t := State.tap_next _ _ _ _
theorem execNvsChallenge_next {s} : ∃ t, execNvsChallenge s = .next t := by
  unfold execNvsChallenge
  repeat' (first | with_reducible exact ⟨_, rfl⟩ | exact State.tap_next _ _ _ _ | split | dsimp only)
theorem execNvsUnlock_next {token s} : ∃ t, execNvsUnlock token s = .next t := State.tap_next _ _ _ _
theorem execNvsRelock_next {bit s} : ∃ t, execNvsRelock bit s = .next t := by
  unfold execNvsRelock
  repeat' (first | with_reducible exact ⟨_, rfl⟩ | exact State.tap_next _ _ _ _ | split | dsimp only)
theorem execNvsStatus_next {s} : ∃ t, execNvsStatus s = .next t := State.tap_next _ _ _ _
theorem execDebugWordRead_next {pa s} : ∃ t, execDebugWordRead pa s = .next t := by
  unfold execDebugWordRead
  repeat' (first | with_reducible exact ⟨_, rfl⟩ | exact State.access_next _ _ _ _ _ _ | split | dsimp only)
theorem execDebugWordWrite_next {pa tag v s} : ∃ t, execDebugWordWrite pa tag v s = .next t := by
  unfold execDebugWordWrite
  repeat' (first | with_reducible exact ⟨_, rfl⟩ | exact State.access_next _ _ _ _ _ _ | split | dsimp only)
theorem execDebugRegRead_next {pa s} : ∃ t, execDebugRegRead pa s = .next t := by
  unfold execDebugRegRead
  repeat' (first | with_reducible exact ⟨_, rfl⟩ | exact State.access_next _ _ _ _ _ _ | split | dsimp only)
theorem execDebugRegWrite_next {pa v s} : ∃ t, execDebugRegWrite pa v s = .next t := State.access_next _ _ _ _ _ _
theorem execTapReset_next {s} : ∃ t, execTapReset s = .next t := by
  unfold execTapReset
  repeat' (first | with_reducible exact ⟨_, rfl⟩ | split | dsimp only)
theorem execGetReport_next {nonce s} : ∃ t, execGetReport nonce s = .next t := by
  unfold execGetReport
  repeat' (first | with_reducible exact ⟨_, rfl⟩ | exact State.answersMctp_next _ _ | split | dsimp only)
theorem execGetStatus_next {s} : ∃ t, execGetStatus s = .next t := State.answersMctp_next _ _
theorem execGetCert_next {off len s} : ∃ t, execGetCert off len s = .next t := by
  unfold execGetCert
  repeat' (first | with_reducible exact ⟨_, rfl⟩ | exact State.answersMctp_next _ _ | split | dsimp only)
theorem execMctpControl_next {msg s} : ∃ t, execMctpControl msg s = .next t := State.answersMctp_next _ _
theorem execAlertResponse_next {s} : ∃ t, execAlertResponse s = .next t := by
  unfold execAlertResponse
  repeat' (first | with_reducible exact ⟨_, rfl⟩ | split | dsimp only)
theorem execHostReadDataArrival_next {k data s} : ∃ t, execHostReadDataArrival k data s = .next t := by
  unfold execHostReadDataArrival
  repeat' (first | with_reducible exact ⟨_, rfl⟩ | split | dsimp only)
theorem execHostLinkTrained_next {p wide speed s} : ∃ t, execHostLinkTrained p wide speed s = .next t := by
  unfold execHostLinkTrained
  repeat' (first | with_reducible exact ⟨_, rfl⟩ | split | dsimp only)
theorem execPortWidthChangeDone_next {p s} : ∃ t, execPortWidthChangeDone p s = .next t := by
  unfold execPortWidthChangeDone
  repeat' (first | with_reducible exact ⟨_, rfl⟩ | split | dsimp only)
theorem execSelfRefreshReturn_next {k s} : ∃ t, execSelfRefreshReturn k s = .next t := by
  unfold execSelfRefreshReturn
  repeat' (first | with_reducible exact ⟨_, rfl⟩ | split | dsimp only)
theorem execStrokeOutFall_next {s} : ∃ t, execStrokeOutFall s = .next t := by
  unfold execStrokeOutFall
  repeat' (first | with_reducible exact ⟨_, rfl⟩ | split | dsimp only)
theorem execLifecycleBurnDone_next {s} : ∃ t, execLifecycleBurnDone s = .next t := by
  unfold execLifecycleBurnDone
  repeat' (first | with_reducible exact ⟨_, rfl⟩ | split | dsimp only)
theorem execUnlockCheckDone_next {s} : ∃ t, execUnlockCheckDone s = .next t := by
  unfold execUnlockCheckDone
  repeat' (first | with_reducible exact ⟨_, rfl⟩ | split | dsimp only)

/-- No command faults or is refused, in any state. -/
theorem exec_next (c : Instr) (s : State) : ∃ t, exec c s = .next t := by
  cases c with
  | nop q w => exact execNop_next
  | mov q f => exact execMov_next
  | movi q f => exact execMovi_next
  | lui q f => exact execLui_next
  | typeof q f => exact execTypeof_next
  | retag q f => exact execRetag_next
  | ttest q f => exact execTtest_next
  | pretag q f => exact execPretag_next
  | str q f => exact execStr_next
  | stw q f => exact execStw_next
  | svr q f => exact execSvr_next
  | svw q f => exact execSvw_next
  | iadd q f => exact execIadd_next
  | isub q f => exact execIsub_next
  | and q f => exact execAnd_next
  | or q f => exact execOr_next
  | xor q f => exact execXor_next
  | shift q f => exact execShift_next
  | iaddi q f => exact execIaddi_next
  | andi q f => exact execAndi_next
  | ori q f => exact execOri_next
  | xori q f => exact execXori_next
  | shifti q f => exact execShifti_next
  | icmp q f => exact execIcmp_next
  | eq q f => exact execEq_next
  | imul q f => exact execImul_next
  | mulh q f => exact execMulh_next
  | idiv q f => exact execIdiv_next
  | add q f => exact execAdd_next
  | sub q f => exact execSub_next
  | mul q f => exact execMul_next
  | addi q f => exact execAddi_next
  | eql q f => exact execEql_next
  | less q f => exact execLess_next
  | div q f => exact execDiv_next
  | rem q f => exact execRem_next
  | fadd q f => exact execFadd_next
  | fsub q f => exact execFsub_next
  | fmul q f => exact execFmul_next
  | fma q f => exact execFma_next
  | fnma q f => exact execFnma_next
  | fcmp q f => exact execFcmp_next
  | fcvt q f => exact execFcvt_next
  | fmisc q f => exact execFmisc_next
  | beq q f => exact execBeq_next
  | bne q f => exact execBne_next
  | blt q f => exact execBlt_next
  | bge q f => exact execBge_next
  | bltu q f => exact execBltu_next
  | bgeu q f => exact execBgeu_next
  | btype q f => exact execBtype_next
  | bntype q f => exact execBntype_next
  | bnil q f => exact execBnil_next
  | bnnil q f => exact execBnnil_next
  | br q disp => exact execBr_next
  | jmpr q f => exact execJmpr_next
  | call q disp => exact execCall_next
  | callr q f => exact execCallr_next
  | ret q f => exact execRet_next
  | gate q f => exact execGate_next
  | gret q f => exact execGret_next
  | ldx q f => exact execLdx_next
  | ldi q f => exact execLdi_next
  | stx q f => exact execStx_next
  | sti q f => exact execSti_next
  | ldbx q f => exact execLdbx_next
  | stbx q f => exact execStbx_next
  | ldv q f => exact execLdv_next
  | stv q f => exact execStv_next
  | hdrq q f => exact execHdrq_next
  | freeze q f => exact execFreeze_next
  | cld q f => exact execCld_next
  | cst q f => exact execCst_next
  | cldc q f => exact execCldc_next
  | cstc q f => exact execCstc_next
  | cldx q f => exact execCldx_next
  | cstx q f => exact execCstx_next
  | car q f => exact execCar_next
  | cdr q f => exact execCdr_next
  | rplaca q f => exact execRplaca_next
  | rplacd q f => exact execRplacd_next
  | cons q f => exact execCons_next
  | consn q f stop => exact execConsn_next
  | alloc q f => exact execAlloc_next
  | alloci q f => exact execAlloci_next
  | cbound q f => exact execCbound_next
  | cperm q f => exact execCperm_next
  | cinc q f => exact execCinc_next
  | cget q f => exact execCget_next
  | cseal q f => exact execCseal_next
  | cunseal q f => exact execCunseal_next
  | savem q f stop => exact execSavem_next
  | loadm q f stop => exact execLoadm_next
  | bcopy q f stop => exact execBcopy_next
  | bcmp q f stop => exact execBcmp_next
  | hash q f stop => exact execHash_next
  | bigstep q f stop => exact execBigstep_next
  | yield q f => exact execYield_next
  | wait q f => exact execWait_next
  | send q f => exact execSend_next
  | recv q f => exact execRecv_next
  | xr q f => exact execXr_next
  | xw q f => exact execXw_next
  | timer q f => exact execTimer_next
  | steady q f => exact execSteady_next
  | lbar q f => exact execLbar_next
  | sbar q f => exact execSbar_next
  | fbar q f => exact execFbar_next
  | xinvPage q f => exact execXinvPage_next
  | xinvWard q f => exact execXinvWard_next
  | xinvAll q f => exact execXinvAll_next
  | walkComplete n c => exact execWalkComplete_next
  | rubricAnswer n c agree => exact execRubricAnswer_next
  | lineFill n c => exact execLineFill_next
  | storeBufferSend n => exact execStoreBufferSend_next
  | storeAck n => exact execStoreAck_next
  | storeDropTimeout n k => exact execStoreDropTimeout_next
  | deviceLoadTimeout n c => exact execDeviceLoadTimeout_next
  | barrierComplete n c => exact execBarrierComplete_next
  | invalidation n => exact execInvalidation_next
  | invalidationAck k => exact execInvalidationAck_next
  | storeArrival n k => exact execStoreArrival_next
  | inkwellRead k errs agree => exact execInkwellRead_next
  | shadeBufferDrain n => exact execShadeBufferDrain_next
  | copyRecordRetry n c => exact execCopyRecordRetry_next
  | microTrap n c => exact execMicroTrap_next
  | spillWriteComplete n c => exact execSpillWriteComplete_next
  | spillRetry n c => exact execSpillRetry_next
  | trapEntry n c => exact execTrapEntry_next
  | heldCheckEntry n => exact execHeldCheckEntry_next
  | schedulingDecision n => exact execSchedulingDecision_next
  | timeSliceExpiry n => exact execTimeSliceExpiry_next
  | timerExpiry n c => exact execTimerExpiry_next
  | steadyLimitExpiry n c => exact execSteadyLimitExpiry_next
  | sendDelivery k => exact execSendDelivery_next
  | sendAnswer n c => exact execSendAnswer_next
  | doorbell p ring v => exact execDoorbell_next
  | doorbellEvent k => exact execDoorbellEvent_next
  | completionHead p ring v => exact execCompletionHead_next
  | descriptorArrival w ring bytes => exact execDescriptorArrival_next
  | consumedReread w ring => exact execConsumedReread_next
  | hostMemRead p sp off len => exact execHostMemRead_next
  | hostMemWrite p off bytes => exact execHostMemWrite_next
  | tagApertureWrite p off bytes => exact execTagApertureWrite_next
  | snoop p line => exact execSnoop_next
  | configRequest p r => exact execConfigRequest_next
  | hdmDecoderCommit p dec base ways => exact execHdmDecoderCommit_next
  | hostLinkEvent p e => exact execHostLinkEvent_next
  | linkBlock leaf link fate => exact execLinkBlock_next
  | strokeTick cause => exact execStrokeTick_next
  | closeReport u => exact execCloseReport_next
  | faultReport u c => exact execFaultReport_next
  | closeTimeout => exact execCloseTimeout_next
  | commitInstant agree => exact execCommitInstant_next
  | engineScan e => exact execEngineScan_next
  | wholeSheetScan e => exact execWholeSheetScan_next
  | engineCopy e => exact execEngineCopy_next
  | zeroFill e => exact execZeroFill_next
  | shadowImageWrite n => exact execShadowImageWrite_next
  | void => exact execVoid_next
  | rubricBackgroundCompare differ => exact execRubricBackgroundCompare_next
  | mcLockstep => exact execMcLockstep_next
  | clockLoss sub => exact execClockLoss_next
  | powerSample mv ma die temp => exact execPowerSample_next
  | powerFailHold => exact execPowerFailHold_next
  | thermalTrip die => exact execThermalTrip_next
  | regulatorFault f => exact execRegulatorFault_next
  | powerOnReset slot0 slot1 => exact execPowerOnReset_next
  | orderedTurnOff => exact execOrderedTurnOff_next
  | setupRegisterWrite lane pa v => exact execSetupRegisterWrite_next
  | rubStart lane v => exact execRubStart_next
  | rubEnd lane v => exact execRubEnd_next
  | rubAttr lane v => exact execRubAttr_next
  | stkPeriod lane v => exact execStkPeriod_next
  | patEnable lane v => exact execPatEnable_next
  | prtBind lane p v => exact execPrtBind_next
  | wasAssign lane v => exact execWasAssign_next
  | pwrShed lane v => exact execPwrShed_next
  | lcsReq lane v => exact execLcsReq_next
  | complementWrite lane pa v => exact execComplementWrite_next
  | guardTimeout page => exact execGuardTimeout_next
  | wscClear lane pa v => exact execWscClear_next
  | winFlags lane w v => exact execWinFlags_next
  | stkApply lane v => exact execStkApply_next
  | winApply lane w v => exact execWinApply_next
  | rubCopyActive lane => exact execRubCopyActive_next
  | rubClearStaged lane => exact execRubClearStaged_next
  | patchLoad lane => exact execPatchLoad_next
  | patchVerifyDone => exact execPatchVerifyDone_next
  | patchDiscard lane => exact execPatchDiscard_next
  | inkwellDisable lane k => exact execInkwellDisable_next
  | inkwellEnable lane k => exact execInkwellEnable_next
  | inkwellWritebackDone k => exact execInkwellWritebackDone_next
  | tallyHold lane view => exact execTallyHold_next
  | tallyRelease lane view => exact execTallyRelease_next
  | talDataloRead lane view => exact execTalDataloRead_next
  | xlRootWrite lane n hi v => exact execXlRootWrite_next
  | xlWardWrite lane n v => exact execXlWardWrite_next
  | ctxRead lane n => exact execCtxRead_next
  | ctxWrite lane n => exact execCtxWrite_next
  | ctxStart lane n => exact execCtxStart_next
  | ctxStop lane n => exact execCtxStop_next
  | ctxResume lane n => exact execCtxResume_next
  | ctxFreeze lane n => exact execCtxFreeze_next
  | stopRequestAct n c => exact execStopRequestAct_next
  | nopCommand w => exact execNopCommand_next
  | imageLoad w => exact execImageLoad_next
  | spawn w => exact execSpawn_next
  | post w ring rec0 rec1 => exact execPost_next
  | importCmd w => exact execImportCmd_next
  | exportCmd w => exact execExportCmd_next
  | copyCmd w => exact execCopyCmd_next
  | collect w => exact execCollect_next
  | heapVerify w => exact execHeapVerify_next
  | scrub w => exact execScrub_next
  | query w => exact execQuery_next
  | policy w => exact execPolicy_next
  | attest w => exact execAttest_next
  | fence w => exact execFence_next
  | suspend w => exact execSuspend_next
  | resume w => exact execResume_next
  | cancel w => exact execCancel_next
  | wardReset w => exact execWardReset_next
  | idcode => exact execIdcode_next
  | samplePreload => exact execSamplePreload_next
  | extest => exact execExtest_next
  | bypass code => exact execBypass_next
  | nvsChallenge => exact execNvsChallenge_next
  | nvsUnlock token => exact execNvsUnlock_next
  | nvsRelock bit => exact execNvsRelock_next
  | nvsStatus => exact execNvsStatus_next
  | debugWordRead pa => exact execDebugWordRead_next
  | debugWordWrite pa tag v => exact execDebugWordWrite_next
  | debugRegRead pa => exact execDebugRegRead_next
  | debugRegWrite pa v => exact execDebugRegWrite_next
  | tapReset => exact execTapReset_next
  | getReport nonce => exact execGetReport_next
  | getStatus => exact execGetStatus_next
  | getCert off len => exact execGetCert_next
  | mctpControl msg => exact execMctpControl_next
  | alertResponse => exact execAlertResponse_next
  | hostReadDataArrival k data => exact execHostReadDataArrival_next
  | hostLinkTrained p wide speed => exact execHostLinkTrained_next
  | portWidthChangeDone p => exact execPortWidthChangeDone_next
  | selfRefreshReturn k => exact execSelfRefreshReturn_next
  | strokeOutFall => exact execStrokeOutFall_next
  | lifecycleBurnDone => exact execLifecycleBurnDone_next
  | unlockCheckDone => exact execUnlockCheckDone_next

end Sys2Proof.Machine
end

