-- ==== Sys2Proof/Laws/Commands.lean ====
section
/-! SUPPORT. Ring commands: which of its three ways a command goes (it starts, it goes on, it finds nothing to do), and the effects
of a pair one by one. -/

namespace Sys2Proof.Machine

/-! ### Ring commands (R477, R486) -/

section Ring

variable {s : State} {w : Fin 8} {code : Nat} (start : List Byte → Nat → State → State) (work : Op → State → State)

/-- The command is due: it starts. -/
theorem State.command_due {d : List Byte} (h : s.commandDue w d code) :
    s.command w.val code start work = .next (start d (s.ward w.val).started (s.takeCmd w.val)) := by
  obtain ⟨h1, rfl, h3, h4⟩ := h
  unfold State.command
  simp only [h1, h4, h3, Bool.not_true, Bool.false_eq_true, if_false, if_true, ne_eq, not_true_eq_false]

/-- A reserved byte that is not zero ends the command with INVALID_FIELD. -/
theorem State.command_unclean {d : List Byte} (h1 : s.nextCmd w.val = some d) (h2 : descOp d = code)
    (h3 : descClean d = false) (h4 : definedOp (descOp d) = true) :
    s.command w.val code start work = .next ((s.takeCmd w.val).finish w.val d (s.ward w.val).started okInvalidField 0) := by
  subst h2
  unfold State.command
  simp only [h1, h4, h3, Bool.not_true, Bool.false_eq_true, if_false, ne_eq, not_true_eq_false]

/-- A code that no command has ends with INVALID_OPCODE. -/
theorem State.command_undefined {d : List Byte} (h1 : s.nextCmd w.val = some d) (h4 : definedOp (descOp d) = false) :
    s.command w.val code start work = .next ((s.takeCmd w.val).finish w.val d (s.ward w.val).started okInvalidOpcode 0) := by
  unfold State.command
  simp only [h1, h4, Bool.not_false, if_true]

/-- No command is due, and an operation of the code runs: it goes on. -/
theorem State.command_works {o : Op} (h : s.works w code o) : s.command w.val code start work = .next (work o s) := by
  obtain ⟨h1, h2, h3⟩ := h
  unfold State.command
  simp only [h2, h1, h3, if_true]

/-- Nothing is due and nothing of the code runs: nothing changes. -/
theorem State.command_idle (h1 : s.nextCmd w.val = none) (h2 : s.running w.val code = none) :
    s.command w.val code start work = .next s := by
  unfold State.command
  simp only [h1, h2, ite_self]

end Ring

/-! ### The effects of a pair -/

section Effects

variable (s : State) (n c t iss : Nat) (slot : Bool) (pc : BitVec 64)

@[simp] theorem State.effects_nil : s.effects n c t iss slot pc [] = s := rfl

@[simp] theorem State.effects_cons (e : Effect) (es : List Effect) :
    s.effects n c t iss slot pc (e :: es) = (s.effect n c t iss slot pc e).effects n c t iss slot pc es := rfl

@[simp] theorem State.effect_land (d : Nat) (g : Target) (w : Word) :
    s.effect n c t iss slot pc (.land d g w) = s.modCtx n c fun x => x.launch (t + d) iss g w := rfl

@[simp] theorem State.effect_store (k : StoreEnt) : s.effect n c t iss slot pc (.store k) = s.bufferStore n k := rfl

@[simp] theorem State.effect_took (k : Nat) :
    s.effect n c t iss slot pc (.took k) = s.elapse n k := rfl

@[simp] theorem State.effect_drew : s.effect n c t iss slot pc .drew = s.drawn := rfl

/-- Cycles of a nib change its clock and three of its counters, and nothing of its contexts. -/
@[simp] theorem State.tallyCycles_ctxs (k : Nat) : (s.tallyCycles n k).ctxs = s.ctxs := by
  unfold State.tallyCycles
  dsimp only
  split <;> split <;> split <;> rfl

@[simp] theorem State.elapse_ctxs (k : Nat) : (s.elapse n k).ctxs = s.ctxs := by simp [State.elapse]

/-- The effects of landings alone are the launches of their results. -/
theorem State.effects_lands (ls : List (Nat × Target × Word)) :
    s.effects n c t iss slot pc (ls.map fun l => .land l.1 l.2.1 l.2.2)
      = ls.foldl (fun u l => u.modCtx n c fun x => x.launch (t + l.1) iss l.2.1 l.2.2) s := by
  unfold State.effects
  rw [List.foldl_map]
  rfl

end Effects

end Sys2Proof.Machine
end

