-- ==== Sys2Proof/Laws/Fields.lean ====
section
/-! SUPPORT. Bit fields: what a field reads after a write of it, that a write leaves every field it does not meet, and the
fields of ST and WS that follow. -/

namespace Sys2Proof.Machine

/-! ### Fields in general -/

/-- A write of a field sets its bits from the value and leaves every other bit. -/
theorem getLsbD_setBits {w : Nat} (x : BitVec w) (lo len v i : Nat) :
    (setBits x lo len v).getLsbD i = if i < w ∧ lo ≤ i ∧ i < lo + len then v.testBit (i - lo) else x.getLsbD i := by
  unfold setBits
  simp only [BitVec.getLsbD_or, BitVec.getLsbD_and, BitVec.getLsbD_not, BitVec.getLsbD_ofNat, Nat.testBit_shiftLeft,
    Nat.one_shiftLeft, Nat.testBit_two_pow_sub_one, Nat.testBit_mod_two_pow]
  by_cases hw : i < w
  · by_cases h1 : lo ≤ i
    · by_cases h2 : i < lo + len
      · have h3 : i - lo < len := by omega
        simp [hw, h1, h2, h3]
      · have h3 : ¬ i - lo < len := by omega
        simp [hw, h1, h2, h3]
    · simp [hw, h1]
  · have : x.getLsbD i = false := BitVec.getLsbD_of_ge x i (Nat.le_of_not_lt hw)
    simp [hw, this]

theorem bits_lt {w : Nat} (x : BitVec w) (lo len : Nat) : bits x lo len < 2 ^ len := (x.extractLsb' lo len).isLt

/-- A field reads as it was written, cut to its width. -/
theorem bits_setBits_self {w : Nat} (x : BitVec w) (lo len v : Nat) (h : lo + len ≤ w) :
    bits (setBits x lo len v) lo len = v % 2 ^ len := by
  unfold bits
  apply Nat.eq_of_testBit_eq
  intro i
  rw [BitVec.testBit_toNat, BitVec.getLsbD_extractLsb', Nat.testBit_mod_two_pow, getLsbD_setBits]
  by_cases hi : i < len
  · simp [hi, show lo + i < w by omega]
  · simp [hi]

/-- A field that a write does not meet stays. -/
theorem bits_setBits_ne {w : Nat} (x : BitVec w) (lo len v a n : Nat) (h : a + n ≤ lo ∨ lo + len ≤ a) :
    bits (setBits x lo len v) a n = bits x a n := by
  unfold bits
  apply Nat.eq_of_testBit_eq
  intro i
  rw [BitVec.testBit_toNat, BitVec.testBit_toNat, BitVec.getLsbD_extractLsb', BitVec.getLsbD_extractLsb', getLsbD_setBits]
  by_cases hi : i < n
  · rw [if_neg (by omega)]
  · simp [hi]

theorem getLsbD_setBits_ne {w : Nat} (x : BitVec w) (lo len v i : Nat) (h : i < lo ∨ lo + len ≤ i) :
    (setBits x lo len v).getLsbD i = x.getLsbD i := by
  rw [getLsbD_setBits, if_neg (by omega)]

@[simp] theorem getLsbD_setBit_self {w : Nat} (x : BitVec w) (n : Nat) (b : Bool) (h : n < w) : (setBit x n b).getLsbD n = b := by
  unfold setBit
  rw [getLsbD_setBits, if_pos (by omega), Nat.sub_self]
  cases b <;> rfl

theorem getLsbD_setBit_ne {w : Nat} (x : BitVec w) (n i : Nat) (b : Bool) (h : i ≠ n) :
    (setBit x n b).getLsbD i = x.getLsbD i := getLsbD_setBits_ne _ _ _ _ _ (by omega)

/-! ### Updates of a context -/

section Context

variable (c : Context)

@[simp] theorem Context.touch_regs (k : Nat) : (c.touch k).regs = c.regs := rfl
@[simp] theorem Context.touch_st (k : Nat) : (c.touch k).st = c.st := rfl
@[simp] theorem Context.touch_ws (k : Nat) : (c.touch k).ws = c.ws := rfl
@[simp] theorem Context.touch_pc (k : Nat) : (c.touch k).pc = c.pc := rfl
@[simp] theorem Context.touch_evf (k : Nat) : (c.touch k).evf = c.evf := rfl
@[simp] theorem Context.touch_queue (k : Nat) : (c.touch k).queue = c.queue := rfl
@[simp] theorem Context.touch_frames (k : Nat) : (c.touch k).frames = c.frames := rfl
@[simp] theorem Context.touch_save (k : Nat) (l : BitVec 2) : (c.touch k).save l = c.save l := rfl
@[simp] theorem Context.touch_level (k : Nat) : (c.touch k).level = c.level := rfl
@[simp] theorem Context.touch_state (k : Nat) : (c.touch k).state = c.state := rfl

@[simp] theorem Context.setSt_st (lo len v : Nat) : (c.setSt lo len v).st = setBits c.st lo len v := rfl
@[simp] theorem Context.setSt_regs (lo len v : Nat) : (c.setSt lo len v).regs = c.regs := rfl
@[simp] theorem Context.setSt_ws (lo len v : Nat) : (c.setSt lo len v).ws = c.ws := rfl
@[simp] theorem Context.setSt_pc (lo len v : Nat) : (c.setSt lo len v).pc = c.pc := rfl
@[simp] theorem Context.setState_regs (v : Nat) : (c.setState v).regs = c.regs := rfl
@[simp] theorem Context.setState_pc (v : Nat) : (c.setState v).pc = c.pc := rfl
@[simp] theorem Context.setState_ws (v : Nat) : (c.setState v).ws = c.ws := rfl
@[simp] theorem Context.setState_parked (v : Nat) : (c.setState v).parked = c.parked := rfl

/-- The scheduling state is what was set. -/
theorem Context.setState_state (v : Nat) (h : v < 8) : (c.setState v).state = v := by
  unfold Context.state Context.setState
  rw [Context.setSt_st, bits_setBits_self _ _ _ _ (by omega)]
  exact Nat.mod_eq_of_lt h

/-- The scheduling state is no part of the level or priority. -/
theorem Context.setState_prio (v : Nat) : (c.setState v).prio = c.prio := by
  unfold Context.prio Context.setState
  exact bits_setBits_ne _ _ _ _ _ _ (.inl (by omega))

@[simp] theorem Context.setWs_ws (lo len v : Nat) : (c.setWs lo len v).ws = setBits c.ws lo len v := rfl
@[simp] theorem Context.setWs_regs (lo len v : Nat) : (c.setWs lo len v).regs = c.regs := rfl
@[simp] theorem Context.setWs_st (lo len v : Nat) : (c.setWs lo len v).st = c.st := rfl
@[simp] theorem Context.setWs_pc (lo len v : Nat) : (c.setWs lo len v).pc = c.pc := rfl
@[simp] theorem Context.setWs_frames (lo len v : Nat) : (c.setWs lo len v).frames = c.frames := rfl
@[simp] theorem Context.setWs_save (lo len v : Nat) (l : BitVec 2) : (c.setWs lo len v).save l = c.save l := rfl
@[simp] theorem Context.setWs_level (lo len v : Nat) : (c.setWs lo len v).level = c.level := rfl

@[simp] theorem Context.launch_regs (due iss : Nat) (t : Target) (w : Word) : (c.launch due iss t w).regs = c.regs := rfl
@[simp] theorem Context.launch_st (due iss : Nat) (t : Target) (w : Word) : (c.launch due iss t w).st = c.st := rfl
@[simp] theorem Context.launch_pc (due iss : Nat) (t : Target) (w : Word) : (c.launch due iss t w).pc = c.pc := rfl
@[simp] theorem Context.launch_ws (due iss : Nat) (t : Target) (w : Word) : (c.launch due iss t w).ws = c.ws := rfl

/-- z0 reads as FIXNUM 0 (R80). -/
@[simp] theorem Context.reg_zero : c.reg 0 = Word.fx 0 := rfl

end Context

end Sys2Proof.Machine
end

