-- ==== Sys2Proof/Laws/Landing.lean ====
section
/-! SUPPORT. Results in flight and the register file: what one landing leaves, the order of landings, and that landings keep the
canonical form of a register file. -/

namespace Sys2Proof.Machine

/-! ### One landing in a register -/

theorem Context.putReg_zero (c : Context) (w : Word) : c.putReg 0 w = c := rfl

theorem Context.putReg_regs (c : Context) {n : Nat} (w : Word) (h : n ≠ 0) :
    (c.putReg n w).regs = mput regDefault c.regs n { w with cdr := 0 } := by
  unfold Context.putReg; rw [if_neg h]

/-- A register reads as it was written, with CDR 0; z0 stays FIXNUM 0; every other register stays (R51, R80). -/
theorem Context.reg_putReg (c : Context) (n k : Nat) (w : Word) (h : mwf regDefault c.regs = true) :
    (c.putReg n w).reg k = if k = n ∧ n ≠ 0 then { w with cdr := 0 } else c.reg k := by
  by_cases hn : n = 0
  · subst hn; simp [Context.putReg_zero]
  · unfold Context.reg
    rw [Context.putReg_regs c w hn, mget_mput _ _ _ _ _ h]
    by_cases hk : k = 0
    · subst hk; simp [Ne.symm hn]
    · by_cases hkn : k = n
      · simp [hkn, hn]
      · simp [hk, hkn]

theorem Context.putReg_canonical (c : Context) (n : Nat) (w : Word) (h : mwf regDefault c.regs = true) :
    mwf regDefault (c.putReg n w).regs = true := by
  by_cases hn : n = 0
  · subst hn; exact h
  · rw [Context.putReg_regs c w hn]; exact mwf_mput _ _ _ _ h

section Frame

variable (c : Context) (n : Nat) (w : Word)

@[simp] theorem Context.putReg_st : (c.putReg n w).st = c.st := by unfold Context.putReg; split <;> rfl
@[simp] theorem Context.putReg_ws : (c.putReg n w).ws = c.ws := by unfold Context.putReg; split <;> rfl
@[simp] theorem Context.putReg_pc : (c.putReg n w).pc = c.pc := by unfold Context.putReg; split <;> rfl
@[simp] theorem Context.putReg_evf : (c.putReg n w).evf = c.evf := by unfold Context.putReg; split <;> rfl
@[simp] theorem Context.putReg_queue : (c.putReg n w).queue = c.queue := by unfold Context.putReg; split <;> rfl
@[simp] theorem Context.putReg_inflight : (c.putReg n w).inflight = c.inflight := by unfold Context.putReg; split <;> rfl
@[simp] theorem Context.putReg_save (l : BitVec 2) : (c.putReg n w).save l = c.save l := by
  unfold Context.putReg; split <;> rfl
@[simp] theorem Context.putReg_undo : (c.putReg n w).undo = c.undo := by unfold Context.putReg; split <;> rfl

end Frame

/-! ### Any landing -/

theorem Context.setSave_regs (c : Context) (l : BitVec 2) (v : SaveSet) : (c.setSave l v).regs = c.regs := by
  unfold Context.setSave; split
  · rfl
  · split <;> rfl

theorem Context.setSave_st (c : Context) (l : BitVec 2) (v : SaveSet) : (c.setSave l v).st = c.st := by
  unfold Context.setSave; split
  · rfl
  · split <;> rfl

theorem Context.setSave_undo (c : Context) (l : BitVec 2) (v : SaveSet) : (c.setSave l v).undo = c.undo := by
  unfold Context.setSave; split
  · rfl
  · split <;> rfl

/-- The save set of a level takes the value; level U has none (R219). -/
theorem Context.save_setSave (c : Context) (l : BitVec 2) (v : SaveSet) : (c.setSave l v).save l = v := by
  unfold Context.setSave Context.save
  split
  · rfl
  · split <;> rfl

@[simp] theorem Context.setFreed_regs (c : Context) (l : BitVec 2) : (c.setFreed l).regs = c.regs := by
  unfold Context.setFreed; split <;> rfl

@[simp] theorem Context.setFreed_undo (c : Context) (l : BitVec 2) : (c.setFreed l).undo = c.undo := by
  unfold Context.setFreed; split <;> rfl

theorem Context.writeSave_regs (c : Context) (zero : Bool) (l : BitVec 2) (item : Nat) (v : BitVec 64) :
    (c.writeSave zero l item v).regs = c.regs := by
  unfold Context.writeSave
  dsimp only
  split <;> simp [Context.setSave_regs]

theorem Context.writeSave_undo (c : Context) (zero : Bool) (l : BitVec 2) (item : Nat) (v : BitVec 64) :
    (c.writeSave zero l item v).undo = c.undo := by
  unfold Context.writeSave
  dsimp only
  split <;> simp [Context.setSave_undo]

theorem Context.landOne_canonical (zero : Bool) (c : Context) (x : Landing) (h : mwf regDefault c.regs = true) :
    mwf regDefault (Context.landOne zero c x).regs = true := by
  unfold Context.landOne
  split
  · exact Context.putReg_canonical _ _ _ h
  · exact h
  · rw [Context.writeSave_regs]; exact h

theorem Context.landOne_undo (zero : Bool) (c : Context) (x : Landing) : (Context.landOne zero c x).undo = c.undo := by
  unfold Context.landOne
  split
  · exact Context.putReg_undo _ _ _
  · rfl
  · exact Context.writeSave_undo _ _ _ _ _

/-! ### Every landing due -/

theorem landAll_canonical (zero : Bool) (xs : List Landing) (c : Context) (h : mwf regDefault c.regs = true) :
    mwf regDefault (xs.foldl (Context.landOne zero) c).regs = true := by
  induction xs generalizing c with
  | nil => exact h
  | cons x xs ih => exact ih _ (Context.landOne_canonical _ _ _ h)

theorem landAll_undo (zero : Bool) (xs : List Landing) (c : Context) : (xs.foldl (Context.landOne zero) c).undo = c.undo := by
  induction xs generalizing c with
  | nil => rfl
  | cons x xs ih => exact (ih _).trans (Context.landOne_undo _ _ _)

theorem Context.settle_canonical (zero : Bool) (now : Nat) (c : Context) (h : mwf regDefault c.regs = true) :
    mwf regDefault (c.settle zero now).regs = true := landAll_canonical _ _ _ h

theorem Context.settle_undo (zero : Bool) (now : Nat) (c : Context) : (c.settle zero now).undo = c.undo := landAll_undo _ _ _

/-- Nothing in flight: nothing lands. -/
theorem Context.settle_none (zero : Bool) (now : Nat) (c : Context) (h : c.inflight = []) : c.settle zero now = c := by
  unfold Context.settle
  rw [h]
  simp only [List.takeWhile_nil, List.dropWhile_nil, List.foldl_nil]
  cases c
  simp_all

/-! ### The order of results in flight (R102) -/

theorem mem_insertLanding {x y : Landing} {xs : List Landing} : y ∈ insertLanding x xs ↔ y = x ∨ y ∈ xs := by
  induction xs with
  | nil => simp [insertLanding]
  | cons z zs ih =>
    unfold insertLanding
    split
    · simp
    · simp only [List.mem_cons, ih]
      exact or_left_comm

/-- A result joins in order of its cycle: the results in flight stay in order. -/
theorem insertLanding_sorted {x : Landing} {xs : List Landing} (h : xs.Pairwise fun a b => a.due ≤ b.due) :
    (insertLanding x xs).Pairwise fun a b => a.due ≤ b.due := by
  induction xs with
  | nil => simp [insertLanding]
  | cons y ys ih =>
    rw [List.pairwise_cons] at h
    unfold insertLanding
    split
    · rename_i hlt
      refine List.pairwise_cons.mpr ⟨?_, List.pairwise_cons.mpr h⟩
      intro z hz
      rcases List.mem_cons.mp hz with rfl | hz
      · omega
      · have := h.1 z hz; omega
    · rename_i hge
      refine List.pairwise_cons.mpr ⟨?_, ih h.2⟩
      intro z hz
      rcases mem_insertLanding.mp hz with rfl | hz
      · omega
      · exact h.1 z hz

/-- A result that is due no earlier than every other, and issued no earlier than those due with it, lands last. -/
theorem insertLanding_last {x : Landing} {xs : List Landing} (h : ∀ y ∈ xs, y.due < x.due ∨ (y.due = x.due ∧ y.iss ≤ x.iss)) :
    insertLanding x xs = xs ++ [x] := by
  induction xs with
  | nil => rfl
  | cons y ys ih =>
    unfold insertLanding
    rw [if_neg (by have := h y (List.mem_cons_self ..); omega), ih fun z hz => h z (List.mem_cons_of_mem _ hz)]
    rfl

theorem Context.launch_inflight (c : Context) (due iss : Nat) (t : Target) (w : Word) :
    (c.launch due iss t w).inflight = insertLanding ⟨due, iss, t, w⟩ c.inflight := rfl

end Sys2Proof.Machine
end

