-- ==== Sys2Proof/Laws/Memory.lean ====
section
/-! SUPPORT. Memory: a word reads as written, every write keeps the canonical form, and what each shared write leaves. -/

namespace Sys2Proof.Machine

/-! ### One word -/

theorem State.word_putWord (s : State) (a b : Nat) (w : Word) (h : mwf memDefault s.mem = true) :
    (s.putWord a w).word b = if b / 8 = a / 8 then w else s.word b := mget_mput _ _ _ _ _ h

theorem State.putWord_canonical (s : State) (a : Nat) (w : Word) (h : mwf memDefault s.mem = true) :
    mwf memDefault (s.putWord a w).mem = true := mwf_mput _ _ _ _ h

theorem State.line_length (s : State) (l : Nat) : (s.line l).length = 8 := rfl

/-! ### What leaves memory as it is -/

@[simp] theorem State.setFlags_mem (s : State) (a : Nat) (f : BitVec 32) : (s.setFlags a f).mem = s.mem := by
  unfold State.setFlags; split <;> simp

@[simp] theorem State.deny_mem (s : State) (lane a : Nat) : (s.deny lane a).mem = s.mem := by
  unfold State.deny State.rubEvent
  dsimp only
  split <;> simp

@[simp] theorem State.detect_mem (s : State) (u : Nat) (c : McCause) : (s.detect u c).mem = s.mem := by
  unfold State.detect; dsimp only; split <;> rfl

@[simp] theorem State.purge_mem (s : State) (l : Nat) (n : Option Nat) : (s.purge l n).mem = s.mem := rfl

@[simp] theorem State.dropCopies_mem (s : State) (l : Nat) (n : Option Nat) : (s.dropCopies l n).mem = s.mem := rfl

@[simp] theorem State.inkRoom_mem (s : State) (l : Nat) : (s.inkRoom l).mem = s.mem := by
  unfold State.inkRoom
  dsimp only
  split
  · rfl
  · split
    · rfl
    · split <;> simp

@[simp] theorem State.setInkEnt_mem (s : State) (l : Nat) (e : InkEnt) : (s.setInkEnt l e).mem = s.mem := by
  unfold State.setInkEnt
  split
  · rfl
  · simp

@[simp] theorem State.inkWritten_mem (s : State) (l : Nat) (n : Option Nat) : (s.inkWritten l n).mem = s.mem := by
  simp [State.inkWritten]

@[simp] theorem State.inkRead_mem (s : State) (l : Nat) : (s.inkRead l).mem = s.mem := by simp [State.inkRead]

@[simp] theorem State.changed_mem (s : State) (l : Nat) (n : Option Nat) : (s.changed l n).mem = s.mem := by simp [State.changed]

@[simp] theorem State.countDrop_mem (s : State) (n : Nat) : (s.countDrop n).mem = s.mem := rfl

/-- A read of a word depends on memory alone. -/
theorem State.word_congr {s t : State} (h : t.mem = s.mem) (a : Nat) : t.word a = s.word a := by
  unfold State.word; rw [h]

/-! ### Lines and fixed ranges (R21) -/

theorem State.putLine_canonical (s : State) (l i : Nat) (ws : Line) (h : mwf memDefault s.mem = true) :
    mwf memDefault (s.putLine l i ws).mem = true := by
  induction ws generalizing s i with
  | nil => exact h
  | cons w ws ih => exact ih _ _ (State.putWord_canonical _ _ _ h)

/-- Words outside the lines that a list of words goes to read as before. -/
theorem State.word_putLine (ws : Line) (s : State) (l i b : Nat) (h : mwf memDefault s.mem = true)
    (hb : b < l + 8 * i ∨ l + 8 * i + 8 * ws.length ≤ b) (hl : l % 8 = 0) : (s.putLine l i ws).word b = s.word b := by
  induction ws generalizing s i with
  | nil => rfl
  | cons w ws ih =>
    simp only [List.length_cons] at hb
    unfold State.putLine
    rw [ih _ _ (State.putWord_canonical _ _ _ h) (by omega), State.word_putWord _ _ _ _ h, if_neg (by omega)]

theorem State.putLine_log (ws : Line) (s : State) (l i : Nat) : (s.putLine l i ws).log = s.log := by
  induction ws generalizing s i with
  | nil => rfl
  | cons w ws ih => exact ih _ _

/-! ### A log entry (R429, R431) -/

/-- An address outside the palimpsest region. -/
def offPal (b : Nat) : Prop := b < heapEnd ∨ palEnd ≤ b

theorem State.logLine_canonical (s : State) (l : Nat) (h : mwf memDefault s.mem = true) : mwf memDefault (s.logLine l).mem = true := by
  unfold State.logLine
  split
  · split
    · exact State.putLine_canonical _ _ _ _ h
    · simpa using h
  · exact h

/-- A log entry writes its slot of the palimpsest region alone. -/
theorem State.logLine_word (s : State) (l b : Nat) (h : mwf memDefault s.mem = true) (hb : offPal b) : (s.logLine l).word b = s.word b := by
  unfold State.logLine
  split
  · split
    · have hp : s.logPlace % 8 = 0 ∧ heapEnd ≤ s.logPlace ∧ s.logPlace + 72 ≤ palEnd := by
        unfold State.logPlace heapEnd palEnd; omega
      refine State.word_putLine _ { s with log := _, stroke := _ } _ 0 b h ?_ hp.1
      have hn : (logWords l (s.line l)).length = 9 := rfl
      rw [hn]
      unfold offPal at hb; omega
    · exact State.word_congr (by simp) b
  · rfl

theorem State.logLine_line (s : State) (l m : Nat) (h : mwf memDefault s.mem = true) (hm : m + 64 ≤ heapEnd ∨ palEnd ≤ m) :
    (s.logLine l).line m = s.line m := by
  unfold State.line
  refine List.map_congr_left fun i hi => State.logLine_word _ _ _ h ?_
  have : i < 8 := by simp [upFrom] at hi; omega
  unfold offPal; omega

theorem State.writeFixed_canonical (s : State) (f : FixedWriter) (a : Nat) (ws : List Word) (h : mwf memDefault s.mem = true) :
    mwf memDefault (s.writeFixed f a ws).mem = true := by
  unfold State.writeFixed
  split
  · rw [State.changed_mem]
    refine State.putLine_canonical _ _ _ _ ?_
    split
    · exact State.logLine_canonical _ _ h
    · exact h
  · simpa [State.withheld] using h

/-! ### The write barrier -/

theorem State.pushGrey_canonical (s : State) (w : Nat) (g : Grey) (h : mwf memDefault s.mem = true) :
    mwf memDefault (s.pushGrey w g).mem = true := by
  unfold State.pushGrey
  dsimp only
  split
  · split
    · exact h
    · exact State.writeFixed_canonical _ _ _ _ h
  · exact h

theorem State.pushAll_canonical (ps : List (Word × Word)) (s : State) (w : Nat) (h : mwf memDefault s.mem = true) :
    mwf memDefault (ps.foldl (fun s p => s.pushGrey w (.word p.1 p.2)) s).mem = true := by
  induction ps generalizing s with
  | nil => exact h
  | cons p ps ih => exact ih _ (State.pushGrey_canonical _ _ _ h)

theorem State.shadeOver_canonical (s : State) (a : Nat) (done : Bool) (wr : Bool × Bool) (o0 o1 f0 f1 : Word)
    (h : mwf memDefault s.mem = true) : mwf memDefault (s.shadeOver a done wr o0 o1 f0 f1).mem = true := by
  unfold State.shadeOver
  split
  · exact h
  · rename_i w _
    have hp := State.pushAll_canonical (shadeWords (s.collOf w) wr o0 o1 f0 f1) s w h
    cases done
    · simp only [Bool.false_eq_true, if_false]
      split
      · exact State.pushGrey_canonical _ _ _ hp
      · exact hp
    · simp only [if_true]
      split
      · exact State.pushGrey_canonical _ _ _ h
      · exact h

/-- Outside MARK, and outside the heap, a write shades nothing (R381). -/
theorem State.shadeOver_idle (s : State) (a : Nat) (done : Bool) (wr : Bool × Bool) (o0 o1 f0 f1 : Word)
    (h : ∀ w, s.wardAt a = some w → (s.collOf w).phase ≠ .mark) : s.shadeOver a done wr o0 o1 f0 f1 = s := by
  unfold State.shadeOver
  split
  · rfl
  · rename_i w hw
    have hp : ((s.collOf w).phase == Phase.mark) = false := by simpa using h w hw
    simp [shadeWords, needsShade, hp]

/-! ### Pairs -/

theorem State.putPair_canonical (s : State) (a : Nat) (done : Bool) (wr : Bool × Bool) (f0 f1 : Word)
    (h : mwf memDefault s.mem = true) : mwf memDefault (s.putPair a done wr f0 f1).mem = true :=
  State.putWord_canonical _ _ _ (State.putWord_canonical _ _ _ (State.shadeOver_canonical _ _ _ _ _ _ _ _ (State.logLine_canonical _ _ h)))

/-- What a write of a pair leaves of memory before the pair itself: the log and the barrier have acted. -/
def State.beforePair (s : State) (a : Nat) (done : Bool) (wr : Bool × Bool) (f0 f1 : Word) : State :=
  (s.logLine (lineOf a)).shadeOver a done wr ((s.logLine (lineOf a)).word a) ((s.logLine (lineOf a)).word (a + 8)) f0 f1

/-- The words of the pair take the new values; every word outside it is as the log and the barrier left it. -/
theorem State.word_putPair (s : State) (a b : Nat) (done : Bool) (wr : Bool × Bool) (f0 f1 : Word) (ha : a % 16 = 0)
    (h : mwf memDefault s.mem = true) :
    (s.putPair a done wr f0 f1).word b
      = if b / 8 = a / 8 then f0 else if b / 8 = a / 8 + 1 then f1 else (s.beforePair a done wr f0 f1).word b := by
  have hc : mwf memDefault (s.beforePair a done wr f0 f1).mem = true := State.shadeOver_canonical _ _ _ _ _ _ _ _ (State.logLine_canonical _ _ h)
  change (((s.beforePair a done wr f0 f1).putWord a f0).putWord (a + 8) f1).word b = _
  rw [State.word_putWord _ _ _ _ (State.putWord_canonical _ _ _ hc), State.word_putWord _ _ _ _ hc]
  have : (a + 8) / 8 = a / 8 + 1 := by omega
  rw [this]
  split
  · rw [if_neg (by omega)]
  · rfl

/-! ### Entries of the store buffer as memory takes them -/

theorem State.applyKind_canonical (s : State) (pa : Nat) (k : StoreKind) (shaded : Bool) (h : mwf memDefault s.mem = true) :
    mwf memDefault (s.applyKind pa k shaded).mem = true := State.putPair_canonical _ _ _ _ _ _ h

/-- A write of one entry forms its 16-byte pair by R61, R182 and R295, and leaves every word outside it as the log and the barrier left
it. -/
theorem State.word_applyKind (s : State) (pa b : Nat) (k : StoreKind) (shaded : Bool) (h : mwf memDefault s.mem = true) :
    let r := k.apply pa (s.word (pa - pa % 16)) (s.word (pa - pa % 16 + 8))
    (s.applyKind pa k shaded).word b
      = if b / 8 = pa / 16 * 2 then r.1
        else if b / 8 = pa / 16 * 2 + 1 then r.2
        else (s.beforePair (pa - pa % 16) shaded (k.writes pa) r.1 r.2).word b := by
  unfold State.applyKind
  dsimp only
  rw [State.word_putPair _ _ _ _ _ _ _ (by omega) h]
  have : (pa - pa % 16) / 8 = pa / 16 * 2 := by omega
  rw [this]

theorem State.writeAs_mem (s : State) (pa : Nat) (k : StoreKind) : (s.writeAs pa k).mem = (s.applyKind pa k false).mem := by
  simp [State.writeAs]

theorem State.writeAs_canonical (s : State) (pa : Nat) (k : StoreKind) (h : mwf memDefault s.mem = true) :
    mwf memDefault (s.writeAs pa k).mem = true := by
  rw [State.writeAs_mem]; exact State.applyKind_canonical _ _ _ _ h

theorem State.writeOr_canonical (s : State) (pa : Nat) (k : StoreKind) (h : mwf memDefault s.mem = true) :
    mwf memDefault (s.writeOr pa k).mem = true := by
  unfold State.writeOr
  split
  · exact h
  · exact State.writeAs_canonical _ _ _ h

/-- What a nib's store makes of memory: nothing where STV's guard stops it (R148), else its entry. -/
theorem State.applyStore_mem (s : State) (n : Nat) (e : StoreEnt) :
    (s.applyStore n e).mem = if e.stops (s.word e.pa) = true then s.mem else (s.applyKind e.pa e.kind e.shaded).mem := by
  unfold State.applyStore
  split <;> simp

theorem State.applyStore_canonical (s : State) (n : Nat) (e : StoreEnt) (h : mwf memDefault s.mem = true) :
    mwf memDefault (s.applyStore n e).mem = true := by
  rw [State.applyStore_mem]
  split
  · exact h
  · exact State.applyKind_canonical _ _ _ _ h

/-! ### Plain and collector writes -/

theorem State.writePlain_mem (s : State) (pa : Nat) (w : Word) : (s.writePlain pa w).mem = (s.putWord pa w).mem := by
  simp [State.writePlain]

theorem State.writePlain_canonical (s : State) (pa : Nat) (w : Word) (h : mwf memDefault s.mem = true) :
    mwf memDefault (s.writePlain pa w).mem = true := by
  rw [State.writePlain_mem]; exact State.putWord_canonical _ _ _ h

theorem State.writeRaw_canonical (s : State) (pa : Nat) (vs : List (BitVec 64)) (h : mwf memDefault s.mem = true) :
    mwf memDefault (s.writeRaw pa vs).mem = true := by
  induction vs generalizing s pa with
  | nil => exact h
  | cons v vs ih => exact ih _ _ (State.writePlain_canonical _ _ _ h)

theorem State.setDesc_canonical (s : State) (sheet k : Nat) (v : BitVec 64) (h : mwf memDefault s.mem = true) :
    mwf memDefault (s.setDesc sheet k v).mem = true := State.writeAs_canonical _ _ _ h

theorem State.setSheetState_canonical (s : State) (sheet v : Nat) (h : mwf memDefault s.mem = true) :
    mwf memDefault (s.setSheetState sheet v).mem = true := State.setDesc_canonical _ _ _ _ h

theorem State.setCard_canonical (s : State) (a v : Nat) (h : mwf memDefault s.mem = true) :
    mwf memDefault (s.setCard a v).mem = true := State.writeAs_canonical _ _ _ h

theorem State.noteItem_canonical (s : State) (a : Nat) (h : mwf memDefault s.mem = true) :
    mwf memDefault (s.noteItem a).mem = true := by
  unfold State.noteItem
  dsimp only
  split
  · exact h
  · split
    · exact h
    · exact State.setCard_canonical _ _ _ h

/-! ### The palimpsest log (R429, R434) -/

@[simp] theorem State.setFlags_log (s : State) (a : Nat) (f : BitVec 32) : (s.setFlags a f).log = s.log := by
  unfold State.setFlags; split <;> simp

@[simp] theorem State.deny_log (s : State) (lane a : Nat) : (s.deny lane a).log = s.log := by
  unfold State.deny State.rubEvent
  dsimp only
  split <;> simp

/-- The committed view reads memory and the log. -/
theorem State.committed_congr {s t : State} (hm : t.mem = s.mem) (hl : t.log = s.log) (m : Nat) : t.committed m = s.committed m := by
  unfold State.committed State.line
  simp only [hl, State.word_congr hm]

/-- The log after a write is as it was, or has one entry more: the line as it stood, of which it had none. -/
theorem State.logLine_log (s : State) (l : Nat) :
    (s.logLine l).log = s.log ∨ ((s.logLine l).log = { line := l, words := s.line l } :: s.log ∧ s.logged l = false) := by
  unfold State.logLine
  split
  · rename_i hg
    simp only [Bool.and_eq_true, Bool.not_eq_true'] at hg
    split
    · exact .inr ⟨by rw [State.count_log, State.putLine_log], hg.2⟩
    · exact .inl (State.deny_log _ _ _)
  · exact .inl rfl

/-- A log entry keeps the line as it stood; the committed view of every line outside the palimpsest region stays. -/
theorem State.logLine_committed (s : State) (l m : Nat) (h : mwf memDefault s.mem = true) (hm : m + 64 ≤ heapEnd ∨ palEnd ≤ m) :
    (s.logLine l).committed m = s.committed m := by
  unfold State.committed
  rw [State.logLine_line s l m h hm]
  obtain e | ⟨e, hn⟩ := State.logLine_log s l
  · rw [e]
  · rw [e, List.find?_cons]
    by_cases he : l = m
    · subst he
      have : s.log.find? (fun e => e.line == l) = none := by
        rw [List.find?_eq_none]
        unfold State.logged at hn
        rw [List.any_eq_false] at hn
        exact hn
      simp [this]
    · have : (l == m) = false := by simp [he]
      simp only [this]

end Sys2Proof.Machine
end

