-- ==== Sys2Proof/Laws/Registers.lean ====
section
/-! SUPPORT. Set-up registers: when a lane's write reaches its register, the guard of a page, flags with a sequence number, and that
register writes keep the canonical form. -/

namespace Sys2Proof.Machine

/-! ### A lane's write -/

/-- A write that its lane may make is the register's own write (R503), which the debug master's access register shows (R581). -/
theorem State.laneWrite_may {s : State} {lane : Fin 24} {a : Nat} {b : Blk} (v : BitVec 32) (h : s.laneMay lane a b) :
    s.laneWrite lane.val a v = (s.regWrite lane.val b (regOff a) v).laneDone lane.val 4 a 1 (Word.rawOf (v.setWidth 64)) := by
  unfold State.laneMay at h
  unfold State.laneWrite
  rw [h]

/-- Lanes but the debug master's have no access register. -/
theorem State.laneDone_other {s : State} {lane : Nat} (h : lane ≠ 23) (op : BitVec 8) (a : Nat) (st : BitVec 13) (w : Word) :
    s.laneDone lane op a st w = s := if_neg h

/-- The access register is all that the debug master's access leaves beside the access itself. -/
theorem State.laneDone_rest (s : State) (lane : Nat) (op : BitVec 8) (a : Nat) (st : BitVec 13) (w : Word) :
    { s.laneDone lane op a st w with dbg := s.dbg } = s := by
  unfold State.laneDone State.setAccess
  split <;> rfl

/-- A write that its lane does not reach changes nothing. -/
theorem State.laneWrite_out {s : State} {lane a : Nat} (v : BitVec 32) (h : s.laneReach lane a = false) : s.laneWrite lane a v = s := by
  unfold State.laneWrite State.laneWay
  simp [h]

/-! ### Guards (R511 to R515) -/

theorem find_mset {α : Type} (m : Map α) (k : Nat) (v : α) : (mset m k v).find? (fun e => e.1 == k) = some (k, v) := by
  induction m with
  | nil => simp [mset]
  | cons e m ih =>
    obtain ⟨j, u⟩ := e
    unfold mset
    split
    · simp
    · split
      · simp
      · rename_i h1 h2
        have : (j == k) = false := by simp [Ne.symm h2]
        simp [this, ih]

theorem find_mset_ne {α : Type} (m : Map α) {k i : Nat} (v : α) (h : i ≠ k) :
    (mset m k v).find? (fun e => e.1 == i) = m.find? (fun e => e.1 == i) := by
  have hk : (k == i) = false := by simp [Ne.symm h]
  induction m with
  | nil => simp [mset, hk]
  | cons e m ih =>
    obtain ⟨j, u⟩ := e
    unfold mset
    split
    · simp [hk]
    · split
      · rename_i h2
        subst h2
        simp [hk]
      · simp only [List.find?_cons, ih]

/-- The guard that was set stands. -/
@[simp] theorem State.guardOf_setGuard (s : State) (b : Blk) (g : Guard) : (s.setGuard b (some g)).guardOf b = some g := by
  unfold State.guardOf State.setGuard
  simp only [find_mset]
  rfl

/-- A guard that was taken away is gone. -/
@[simp] theorem State.guardOf_clearGuard (s : State) (b : Blk) : (s.setGuard b none).guardOf b = none := by
  unfold State.guardOf State.setGuard
  simp only [Option.map_eq_none_iff, List.find?_eq_none]
  intro x hx
  have := (List.mem_filter.mp hx).2
  simpa using this

@[simp] theorem State.setGuard_regs (s : State) (b : Blk) (g : Option Guard) : (s.setGuard b g).regs = s.regs := by
  unfold State.setGuard; cases g <;> rfl
@[simp] theorem State.setGuard_mem (s : State) (b : Blk) (g : Option Guard) : (s.setGuard b g).mem = s.mem := by
  unfold State.setGuard; cases g <;> rfl
@[simp] theorem State.setGuard_ctxs (s : State) (b : Blk) (g : Option Guard) : (s.setGuard b g).ctxs = s.ctxs := by
  unfold State.setGuard; cases g <;> rfl
@[simp] theorem State.setGuard_hub (s : State) (b : Blk) (g : Option Guard) : (s.setGuard b g).hub = s.hub := by
  unfold State.setGuard; cases g <;> rfl
@[simp] theorem State.setGuard_staged (s : State) (b : Blk) (g : Option Guard) : (s.setGuard b g).staged = s.staged := by
  unfold State.setGuard; cases g <;> rfl

/-- No guard stands: its end changes nothing. -/
theorem State.guardEnd_none {s : State} {b : Blk} (reason : Nat) (h : s.guardOf b = none) : s.guardEnd b reason = s := by
  unfold State.guardEnd; rw [h]

theorem State.guardEnd_some {s : State} {b : Blk} {g : Guard} (reason : Nat) (h : s.guardOf b = some g) :
    s.guardEnd b reason = (s.setGuard b none).guardFail b reason g.lane g.off := by
  unfold State.guardEnd; rw [h]

/-! ### Flags (R509) -/

theorem State.setFlags_ctxs (s : State) (a : Nat) (f : BitVec 32) : (s.setFlags a f).ctxs = s.ctxs := by
  unfold State.setFlags; split <;> rfl
theorem State.setFlags_guards (s : State) (a : Nat) (f : BitVec 32) : (s.setFlags a f).guards = s.guards := by
  unfold State.setFlags; split <;> rfl
theorem State.setFlags_staged (s : State) (a : Nat) (f : BitVec 32) : (s.setFlags a f).staged = s.staged := by
  unfold State.setFlags; split <;> rfl

theorem State.setFlags_canonical (s : State) (a : Nat) (f : BitVec 32) (h : mwf regReset s.regs = true) :
    mwf regReset (s.setFlags a f).regs = true := by
  unfold State.setFlags
  split
  · exact h
  · exact State.setReg_canonical _ _ _ h

/-- The flags set, and SEQ rises by one (R509); other registers stay. -/
theorem State.reg32_setFlags (s : State) (a b : Nat) {f : BitVec 32} (hf : f ≠ 0) (h : mwf regReset s.regs = true) :
    (s.setFlags a f).reg32 b
      = if b = a then setBits (s.reg32 a ||| (f &&& 0xFFFFFF)) 24 8 (bits (s.reg32 a) 24 8 + 1) else s.reg32 b := by
  unfold State.setFlags
  rw [if_neg hf]
  exact State.reg32_setReg _ _ _ _ h

theorem State.guardFail_mem (s : State) (b : Blk) (reason lane off : Nat) : (s.guardFail b reason lane off).mem = s.mem := by
  unfold State.guardFail
  dsimp only
  rw [State.setFlags_mem]
  split <;> rfl

theorem State.guardFail_ctxs (s : State) (b : Blk) (reason lane off : Nat) : (s.guardFail b reason lane off).ctxs = s.ctxs := by
  unfold State.guardFail
  dsimp only
  rw [State.setFlags_ctxs]
  split <;> rfl

theorem State.guardFail_staged (s : State) (b : Blk) (reason lane off : Nat) :
    (s.guardFail b reason lane off).staged = s.staged := by
  unfold State.guardFail
  dsimp only
  rw [State.setFlags_staged]
  split <;> rfl

theorem State.guardFail_canonical (s : State) (b : Blk) (reason lane off : Nat) (h : mwf regReset s.regs = true) :
    mwf regReset (s.guardFail b reason lane off).regs = true := by
  unfold State.guardFail
  dsimp only
  apply State.setFlags_canonical
  split
  · exact h
  · exact State.setReg_canonical _ _ _ h

theorem State.guardEnd_canonical (s : State) (b : Blk) (reason : Nat) (h : mwf regReset s.regs = true) :
    mwf regReset (s.guardEnd b reason).regs = true := by
  unfold State.guardEnd
  split
  · exact h
  · exact State.guardFail_canonical _ _ _ _ _ (by rw [State.setGuard_regs]; exact h)

theorem State.guardEnd_mem (s : State) (b : Blk) (reason : Nat) : (s.guardEnd b reason).mem = s.mem := by
  unfold State.guardEnd
  split
  · rfl
  · rw [State.guardFail_mem, State.setGuard_mem]

/-! ### One write -/

/-- A register that is neither a paired one nor a complement, on a page with no guard armed: its own effect. -/
theorem State.regWrite_unpaired {s : State} {b : Blk} {o : Nat} (lane : Nat) (v : BitVec 32) (h : unpaired b o)
    (hg : s.guardOf b = none) : s.regWrite lane b o v = s.writePlainReg b o v := by
  obtain ⟨h1, h2⟩ := h
  unfold State.regWrite
  simp only [hg, h1, Bool.false_eq_true, if_false]
  rw [if_neg (fun hc => by rw [h2 hc.1] at hc; exact absurd hc.2 (by decide)), State.guardEnd_none _ hg]

/-- The first half of a paired write arms the page's guard with its offset, value, lane and cycle (R511). -/
theorem State.regWrite_first {s : State} {b : Blk} {o : Nat} (lane : Nat) (v : BitVec 32) (h : (rwpOffsets b).contains o = true)
    (hg : s.guardOf b = none) :
    s.regWrite lane b o v = s.setGuard b (some { off := o, val := v, lane := lane, at_ := s.hub }) := by
  unfold State.regWrite
  simp only [hg, h, if_true]
  rw [State.guardEnd_none _ hg]

/-- The complement of the guarded value, from its lane and in time, completes the paired write (R512). -/
theorem State.regWrite_complement {s : State} {b : Blk} {g : Guard} (hg : s.guardOf b = some g) (ht : s.hub ≤ g.at_ + 256)
    (h1 : (rwpOffsets b).contains (g.off + 4) = false) (h2 : (rwpOffsets b).contains g.off = true) :
    s.regWrite g.lane b (g.off + 4) (~~~g.val) = (s.setGuard b none).pairedTake b g.off g.val := by
  have h3 : (4 ≤ g.off + 4 ∧ (rwpOffsets b).contains (g.off + 4 - 4) = true) := ⟨by omega, by rw [Nat.add_sub_cancel]; exact h2⟩
  unfold State.regWrite
  simp only [hg, Nat.not_lt.mpr ht, if_false, h1, Bool.false_eq_true, if_pos h3, and_self, if_true]

end Sys2Proof.Machine
end

