-- ==== Sys2Proof/WellFormed.lean ====
section
/-! DEFINITION. Well-formed commands: what the types of Syntax.lean leave to check in a command's operands. A command that is
not well formed is one that its surroundings never send. -/

namespace Sys2Proof

/-- A CXL.mem request: one to four blocks within one 256-byte span (R20). -/
def requestOk (off : BitVec 40) (len : Nat) : Bool := decide (1 ≤ len) && decide (off.toNat % 256 + len ≤ 256)

/-- The units that can report a cause (R418, Table 11-4, Table 11-9). -/
def reportOk (u : Nat) (c : McCause) : Bool :=
  match c with
  | .checker => decide (u < 544)
  | .ustore k => decide (u < 544) && decide (1 ≤ k.toNat) && decide (k.toNat ≤ 4)
  | .array k => decide (u < 544) && decide (1 ≤ k.toNat) && decide (k.toNat ≤ 3)
  | .nested x => decide (u < 544) && x.val == 0
  | .vote l _ => l == 0xFE || u == 601
  | .uncorrectable _ => decide (588 ≤ u) && decide (u < 596)
  | .link n => decide (564 ≤ u) && decide (u < 580) && decide (n.toNat < 8)
  | .colophon => (decide (560 ≤ u) && decide (u < 564)) || u == 604
  | .lockstep => u == 599
  | .clock k => u == 599 && decide (1 ≤ k.toNat) && decide (k.toNat ≤ 3)

/-- Codes that Table 15-12 lists, which a BYPASS command does not carry but for its own. -/
def tapCodes : List (BitVec 8) := [0x01, 0x02, 0x03, 0x20, 0x21, 0x22, 0x23, 0x24]

/-- The checks on a command's operands. -/
def wellFormed : Instr → Bool
  | .descriptorArrival _ _ bytes => bytes.length == 64
  | .hostMemRead _ _ off len => requestOk off len.arg
  | .hostMemWrite _ off bytes => requestOk off bytes.arg.length
  | .tagApertureWrite _ off bytes => requestOk off bytes.length
  | .hdmDecoderCommit _ _ _ ways => decide (1 ≤ ways)
  | .faultReport u c => reportOk u.val c
  | .clockLoss sub => decide (1 ≤ sub.toNat) && decide (sub.toNat ≤ 3)
  | .powerOnReset slot0 slot1 => decide (slot0.length ≤ 0x1000000) && decide (slot1.length ≤ 0x1000000)
  | .bypass code => !tapCodes.contains code
  | .nvsUnlock token => token.length == 16336
  | .getReport nonce => nonce.length == 32
  | _ => true

end Sys2Proof
end

