-- ==== Sys2Proof/Tests/Slice0.lean ====
section
/-! SUPPORT. Tests: the checks of WellFormed, worked examples of the spec, single commands, and for every statement of
Obligations.lean concrete states and operands that meet its hypotheses (test_meets_…). -/

set_option Elab.async false

namespace Sys2Proof.Tests

open Sys2Proof Sys2Proof.Machine

/-! ### Well-formed commands: one ill-formed term for each check -/

theorem test_wf_refused :
    ∀ i ∈ ([.descriptorArrival 0 0 [], .hostMemRead 0 .payload 0xF0 ⟨0x20, {}⟩, .hostMemRead 0 .payload 0 ⟨0, {}⟩,
        .hostMemWrite 0 0xFF ⟨[0, 0], {}⟩, .tagApertureWrite 0 0 [], .hdmDecoderCommit 0 0 0 0, .faultReport 544 .checker, .clockLoss 4,
        .bypass 0x20, .nvsUnlock [], .getReport []] : List Instr), wellFormed i = false := by decide
theorem test_wf_reset_long : wellFormed (.powerOnReset (List.replicate 0x1000001 0) []) = false := by
  simp only [wellFormed, List.length_replicate]; decide
theorem test_wf_taken :
    ∀ i ∈ ([.powerOnReset [] [], .nop ⟨0, 0, false⟩ 0, .hostMemRead 0 .payload 0xF0 ⟨0x10, {}⟩, .faultReport 543 .checker] : List Instr),
      wellFormed i = true := by decide

/-! ### A small state: one context of nib 0 runs in ward 2 -/

def lineAt (pa : Nat) (ws : List Word) : CLine := { line := pa, words := ws ++ List.replicate (8 - ws.length) Word.rawZero }
def capLo (cur perms : Nat) : Word := Word.mk0 Ty.capLo (BitVec.ofNat 64 (cur * 65536 + perms))
def capHi (base e m : Nat) : Word := Word.mk0 Ty.capHi (capHiPay base e m)
def hdr (t : BitVec 6) (len bits : Nat) : Word := Word.mk0 Ty.header (BitVec.ofNat 64 (t.toNat * 2 ^ 42 + bits + len))
def codeOf (w v : BitVec 32) : Word := Word.mk0 Ty.code (w ++ v)

/-- A 64 KiB page of ward 2: its TLB entry, with verdicts that allow all. -/
def page (vpn ppn : Nat) : TlbEnt :=
  { ward := 2, vpn := vpn, large := false, ppn := ppn, rights := 0x3F, c := true, dev := false, page := ppn,
    fall := some (.rights 15), noFall := some (.rights 15) }

/-- The data page at VA 0x10000, at physical address 0x3000000, as L1 holds it: a vector, a string, two cells, a frozen vector, words and
a capability, three headers for sealing, a gate object, an arena, a stack with a gate frame, a spilled frame. -/
def dataLines : List CLine :=
  [lineAt 0x3000000 [hdr Ty.vector 3 0, Word.fx 11, Word.fx 12, Word.fx 13],
   lineAt 0x3000040 [hdr Ty.string 3 0, Word.fx 8, Word.rawOf 0x0807060504030201],
   lineAt 0x3000080 [Word.fx 21, Word.fx 22, { Word.fx 31 with cdr := 1 }, { Word.fx 32 with cdr := 2 }],
   lineAt 0x30000C0 [hdr Ty.vector 1 0x10000000000, Word.fx 14],
   lineAt 0x3000400 [Word.fx 41, Word.fx 42, capLo 0x10400 0x47B, capHi 0x10400 0 128],
   lineAt 0x3000440 [], lineAt 0x3000480 [],
   lineAt 0x3000600 [hdr Ty.record 3 0],
   lineAt 0x3000640 [hdr Ty.record 1 (5 * 2 ^ 48 + 2 ^ 39)],
   lineAt 0x3000680 [hdr Ty.record 1 (5 * 2 ^ 48)],
   lineAt 0x3000700 [hdr Ty.record 4 (2 ^ 41 + 2 ^ 40), Word.rawOf 0x0101000000000080, capLo 0x10880 0x3B, capHi 0x10880 0 64,
     Word.fx 0x400200],
   lineAt 0x3000800 [],
   lineAt 0x3000880 [Word.rawOf 0x400300, Word.rawOf 0x40]]

def nibUp (c : Nat) : Nib :=
  { running := some c, parkedBy := 0, icache := [lineAt 0x02000000 (List.replicate 8 (codeOf 0 0))], l1 := dataLines,
    tlb := [page 0x40 0x200, page 1 0x300],
    verdicts := [{ page := 0x200, fall := true, v := .rights 15 }, { page := 0x300, fall := true, v := .rights 15 }, { page := 0x445001, fall := true, v := .rights 15 }] }

/-- A word of each kind in the registers of the window. -/
def operandRegs : List (Nat × Word) :=
  [(1, Word.rawOf 0x40), (2, capLo 0x10400 0x47B), (3, capHi 0x10400 0 128), (4, capLo 0x10640 0x181), (5, capHi 0x10640 0 16),
   (6, capLo 0x10800 3), (7, capHi 0x10800 0 128), (8, capLo 0x10600 0x401), (9, capHi 0x10600 0 32),
   (10, capLo 0x10680 0x8001), (11, capHi 0x10680 0 16), (12, Word.mk0 Ty.vector 0x10000), (13, Word.mk0 Ty.string 0x10040),
   (14, Word.mk0 Ty.cons 0x10080), (15, Word.mk0 Ty.cons 0x10090), (16, Word.fx 5), (17, Word.fx 7), (18, Word.fx 0),
   (19, Word.mk0 Ty.flonum 0x3FF8000000000000), (20, Word.mk0 Ty.flonum 0x4002000000000000), (21, Word.rawOf 0x400100),
   (22, capLo 0x10890 3), (23, capHi 0x10880 0 64), (24, Word.rawOf 0x10000), (25, Word.fx 0x8000000000000000), (26, Word.nil),
   (27, Word.poisonOf 1), (28, capLo 0x10700 0x8204), (29, capHi 0x10700 0 40), (30, Word.mk0 Ty.function 0x400000),
   (31, Word.mk0 Ty.vector 0x100C0)]

def setRegs (x : Context) (rs : List (Nat × Word)) : Context :=
  rs.foldl (fun x p => x.putReg (x.phys (BitVec.ofNat 5 p.1)) p.2) x

def ctxUp (c : Nat) (l : BitVec 2) : Context :=
  setRegs { st := 0x3FFF0400 ||| l.setWidth 32, pc := if c = 0 then 0x2000000 else 0x400000, ws := 0x18 } operandRegs

/-- Context c of nib 0 runs at level l in ward 2; an open stroke; a Rubric entry that shares the heap region used. -/
def up (c : Fin 32) (l : BitVec 2) : State :=
  { State.reset with
    stroke := { phase := .opened }
    nibs := [(0, nibUp c.val)]
    ctxs := [(c.val, ctxUp c.val l)]
    regs := [(nibPage 0 + 8, 0x80000002)]
    rubActive := [(0, { start := 0x80000, last := 0xFFFFF, attr := 0x8FFFF000 })]
    wards := [(2, { wcns := [(1, 2), (2, 545)], env := envReset })]
    power := { ({} : Power) with domains := 0xFFFFFFFFFFFFFFFF }
    boot := { ({} : Boot) with done := true } }

def qUp (c : Fin 32) : Issue := ⟨0, c, false⟩
def user : State := up 1 lvU
def super : State := up 1 lvS
def exec0 : State := up 0 lvD
def op1 (s : State) : Env := operands s (qUp 1)
def eU : Env := op1 user
def eS : Env := op1 super
def eD : Env := operands exec0 (qUp 0)

/-- The running context changed. -/
def tweak (s : State) (f : Context → Context) : State := s.modCtx 0 1 f
/-- Registers of the running context changed. -/
def withRegs (s : State) (rs : List (Nat × Word)) : State := tweak s fun x => setRegs x rs
def exact (s : State) : State := tweak s fun x => { x with st := x.st ||| 0x20 }
def delayed (s : State) : State := tweak s fun x => { x with ws := x.ws ||| 0x80 }

/-- The CODE word of the pair: w in slot 0, and v, at first a NOP, in slot 1. -/
def holding (s : State) (w : BitVec 32) (v : BitVec 32 := 0) : State :=
  s.modNib 0 fun b => { b with icache := [lineAt 0x02000000 (List.replicate 8 (codeOf w v))] }

/-- The CODE word of the pair holds the instruction in slot 0. -/
def holds (s : State) (i : Instr) : State := holding s (instrWord i)

/-- The state that a command leaves. -/
def ran (s : State) (i : Instr) : State :=
  match exec i s with
  | .next t => t
  | _ => s

/-- The state that an instruction leaves, from the state whose CODE word holds it. -/
def runs (s : State) (i : Instr) : State := ran (holds s i) i

/-- What register r of the running context holds when every result has landed. -/
def regAfter (s : State) (r : BitVec 5) : Word :=
  let x := (s.ctx 0 1).settle false (s.now 0 + 64)
  x.reg (x.phys r)

/-- A plan that answers this value. -/
def okIs {α : Type} [DecidableEq α] (p : Plan α) (v : α) : Bool :=
  match p with
  | .ok x => decide (x = v)
  | .error _ => false

theorem ok_of {α : Type} [DecidableEq α] {p : Plan α} {v : α} (h : okIs p v = true) : p = .ok v := by
  cases p with
  | error e => cases h
  | ok x => rw [of_decide_eq_true h]

/-- A plan that ends this way. -/
def errIs {α : Type} (p : Plan α) (o : SlotOut) : Bool :=
  match p with
  | .ok _ => false
  | .error x => decide (x = o)

theorem err_of {α : Type} {p : Plan α} {o : SlotOut} (h : errIs p o = true) : p = .error o := by
  cases p with
  | ok x => cases h
  | error x => rw [of_decide_eq_true h]

/-! ### What the hypotheses on a pair come to -/

/-- A new pair of the context may issue, and all its registers are fetched. -/
def ready (s : State) (q : Issue) : Bool :=
  let x := (s.atPair q).ctx q.nib.val q.ctx.val
  s.canIssue q.nib.val q.ctx.val && (s.ctx q.nib.val q.ctx.val).routine.isNone && x.spillUnfetched.isNone && !x.mpend
    && (operands s q).x.unfetched == 0

/-- The CODE word holds w in the slot and a NOP beside it, and nothing stops the pair. -/
def alone (s : State) (q : Issue) (w : BitVec 32) : Bool :=
  let e := operands s { q with slot := false }
  let v := operands s { q with slot := !q.slot }
  match e.fetch with
  | .ok code => half code q.slot == w && half code (!q.slot) == 0 && decide (slotOf v 0 (planOf 0) = .go [])
      && !conflict (opClass (opOf w)) (opClass (opOf 0)) && (!(operands s q).x.dly || !(opTransfer (opOf w) || opTransfer (opOf 0)))
      && (((s.atPair q).nib q.nib.val).patchedAt w).isNone
  | .error _ => false

theorem ready_of {s : State} {q : Issue} (h : ready s q = true) : Ready s q (operands s q) ∧ ∀ rs, (operands s q).present rs := by
  simp only [ready, Bool.and_eq_true, Option.isNone_iff_eq_none, Bool.not_eq_true', beq_iff_eq] at h
  obtain ⟨⟨⟨⟨h1, h2⟩, h3⟩, h4⟩, h5⟩ := h
  refine ⟨⟨h1, h2, h3, h4, rfl⟩, fun rs r _ => ?_⟩
  rw [h5]; simp

theorem beside_of {s : State} {q : Issue} {w : BitVec 32} (h : alone s q w = true) : Beside s q w [] := by
  unfold alone at h
  simp only [] at h
  split at h
  · rename_i code hc
    simp only [Bool.and_eq_true, beq_iff_eq, decide_eq_true_eq, Bool.not_eq_true', Bool.or_eq_true, Option.isNone_iff_eq_none] at h
    obtain ⟨⟨⟨⟨⟨h1, h2⟩, h3⟩, h4⟩, h5⟩, h6⟩ := h
    refine ⟨code, ⟨hc, h1⟩, ?_⟩
    rw [h2]
    refine ⟨h3, h4, fun hd => ?_, h6⟩
    rcases h5 with h5 | h5
    · rw [hd] at h5; cases h5
    · simpa using h5
  · cases h

/-- The instruction's CODE word is there, its pair may issue, and what it sees meets a condition. -/
def met (s : State) (p : Env → Bool) (i : Instr) : Bool :=
  ready (holds s i) (qUp 1) && alone (holds s i) (qUp 1) (instrWord i) && p (op1 (holds s i))

theorem met_of {s : State} {p : Env → Bool} {i : Instr} (h : met s p i = true) :
    let t := holds s i
    Ready t (qUp 1) (op1 t) ∧ Beside t (qUp 1) (instrWord i) [] ∧ (∀ rs, (op1 t).present rs) ∧ p (op1 t) = true := by
  simp only [met, Bool.and_eq_true] at h
  exact ⟨(ready_of h.1.1).1, beside_of h.1.2, (ready_of h.1.1).2, h.2⟩

/-- The pair issues and its routine begins, and what the routine's step sees meets a condition. -/
def begins (s : State) (r : Env → Routine) (p : Env → Bool) (i : Instr) : Bool :=
  let t := ((beginning (holds s i) (qUp 1) [] [.run (r (op1 (holds s i)))]).settled 0 1)
  met s (fun _ => true) i && !(t.stroke.faults.any (·.unit == 0)) && p (t.routineEnv 0 1 (r (op1 (holds s i))))

def i64 (w : Word) : Bool := w.typ == Ty.fixnum || w.typ == Ty.raw
def clean (e : Env) (rs : List (BitVec 5)) : Bool := rs.all fun r => (e.r r).typ != Ty.poison
def fix (w : Word) : Bool := w.typ == Ty.fixnum

/-- A load of a word finds v in the nib, at this physical address. -/
def reads (e : Env) (a : BitVec 64) (v : Word) (pa : Nat) (sup : Bool := false) : Bool :=
  !inDev pa && okIs (e.read a sup) (v, ⟨pa, true⟩, [])

/-- A store goes to memory at this physical address. -/
def stores (e : Env) (a : BitVec 64) (kind : StoreKind) (k : Acc) (pa : Nat) (sup : Bool := false) : Bool :=
  okIs (e.access a k sup) ⟨pa, true⟩ && !inDev pa && decide ((e.s.nib e.n).storeBuf.length < 15)
    && (e.shades ⟨pa, true⟩ kind).isEmpty

/-- The HEADER of the object that a reference names, at the reference's own address. -/
def object (e : Env) (r : Word) (h : Word) (pa : Nat) : Bool :=
  okRtype r.typ && h.typ == Ty.header && hdrRtype h == r.typ && reads e (waddr r) h pa

def delivers (e : Env) (v : Word) : Bool :=
  !reservedWord v && v.typ != Ty.header && v.typ != Ty.forward && v.typ != Ty.xlate && v.typ != Ty.spill
    && (!isRefType v.typ || !e.condemned (waddr v).toNat)

theorem reads_of {e : Env} {a : BitVec 64} {v : Word} {pa : Nat} {sup : Bool} (h : reads e a v pa sup = true) : e.reads a v sup := by
  simp only [reads, Bool.and_eq_true, Bool.not_eq_true'] at h
  exact ⟨⟨pa, true⟩, h.1, ok_of h.2⟩

theorem object_of {e : Env} {r h : Word} {pa : Nat} (g : object e r h pa = true) : e.object r (waddr r) h := by
  simp only [object, Bool.and_eq_true, beq_iff_eq] at g
  exact ⟨g.1.1.1, g.1.1.2, g.1.2, reads_of g.2, .inl rfl⟩

theorem storesTo_of {e : Env} {a : BitVec 64} {kind : StoreKind} {k : Acc} {pa : Nat} {sup : Bool} (h : stores e a kind k pa sup = true) :
    e.storesTo a kind k sup ⟨pa, true⟩ := by
  simp only [stores, Bool.and_eq_true, Bool.not_eq_true', decide_eq_true_eq, List.isEmpty_iff] at h
  exact ⟨ok_of h.1.1.1, h.1.1.2, h.1.2, h.2⟩

theorem delivers_of {e : Env} {v : Word} (h : delivers e v = true) : e.delivers v := by
  simp only [delivers, Bool.and_eq_true, bne_iff_ne, Bool.not_eq_true', Bool.or_eq_true] at h
  obtain ⟨⟨⟨⟨⟨h1, h2⟩, h3⟩, h4⟩, h5⟩, h6⟩ := h
  refine ⟨h1, fun _ => ⟨h2, h3, fun _ => ⟨h4, h5⟩, fun hr => ?_⟩⟩
  rcases h6 with h6 | h6
  · rw [hr] at h6; cases h6
  · exact h6

theorem test_ready : ready user (qUp 1) = true ∧ ready super (qUp 1) = true ∧ ready exec0 (qUp 0) = true
    ∧ alone exec0 (qUp 0) 0 = true := by decide +kernel

/-! ### Hypotheses of the statements about moves, arithmetic, floating point -/

theorem test_meets_step : (∃ s : State, s.pending = [.nop (qUp 1) 0]) ∧ ∃ s : State, s.pending = [] :=
  ⟨⟨{ user with pending := [.nop (qUp 1) 0] }, rfl⟩, ⟨user, rfl⟩⟩

theorem test_meets_moves :
    (∀ i ∈ ([.nop (qUp 1) 0, .mov (qUp 1) ⟨12, 16, 0, 0, 0⟩, .mov (qUp 1) ⟨12, 2, 0, 1, 0⟩, .movi (qUp 1) ⟨16, 0, 0x7FFF⟩,
        .lui (qUp 1) ⟨16, 0xFFFFF⟩, .typeof (qUp 1) ⟨17, 16, 0, 0, 0⟩, .typeof (qUp 1) ⟨17, 16, 0, 1, 0⟩, .ttest (qUp 1) ⟨17, 16, 0, 0, 0x3F⟩,
        .ttest (qUp 1) ⟨17, 16, 0, 1, 3⟩, .str (qUp 1) ⟨17, 0, 0, 0, 0⟩] : List Instr),
      met user (fun e => i64 (e.r 16) && clean e [16, 2, 3]) i = true)
    ∧ met user (fun e => !reservedWord (Word.mk0 4 (e.r 16).pay)) (.retag (qUp 1) ⟨17, 16, 0, 0, 4⟩) = true
    ∧ namesPair 12 ∧ namesPair 2 := by
  refine ⟨?_, ?_, ?_⟩
  · decide +kernel
  · decide +kernel
  · simp only [namesPair]; decide

/-- PRETAG at D, in context 0. -/
theorem test_meets_pretag :
    let q := qUp 0
    let s := holding exec0 (wordR 0x7C ⟨17, 16, 0, 0, 2⟩)
    (ready s q && alone s q (wordR 0x7C ⟨17, 16, 0, 0, 2⟩) && clean (operands s q) [16]
      && !reservedWord (Word.mk0 2 ((operands s q).r 16).pay) && !badHeader (Word.mk0 2 ((operands s q).r 16).pay)) = true
      ∧ 2 ≤ (operands s q).x.level.toNat := by decide +kernel

theorem test_meets_status :
    met (withRegs user [(16, Word.rawOf 0x3FFF0460)]) (fun e => i64 (e.r 16)
        && ((e.r 16).pay.setWidth 32 ^^^ e.x.st) &&& ~~~(0x60#32) == 0 && bits (e.r 16).pay 2 2 != 3) (.stw (qUp 1) ⟨0, 16, 0, 0, 0⟩) = true
      ∧ met super (fun e => i64 (e.r 16) && e.x.level == 1) (.svr (qUp 1) ⟨16, 0, 12⟩) = true
      ∧ met super (fun e => i64 (e.r 16) && e.x.level != lvU) (.svw (qUp 1) ⟨16, 0, 12⟩) = true := by decide +kernel

/-- One result in flight lands before, another at, the cycle of the result launched, issued before it. -/
theorem test_meets_landings :
    let x : Context := { ctxUp 1 lvU with inflight := [⟨3, 0, .reg 9, Word.fx 1⟩, ⟨7, 8, .reg 5, Word.fx 2⟩] }
    mwf regDefault x.regs = true ∧ (x.inflight.Pairwise fun a b => a.due < b.due ∨ (a.due = b.due ∧ a.iss ≤ b.iss))
      ∧ (∀ l ∈ x.inflight, l.tgt = .reg 5 → l.due < 7 ∨ (l.due = 7 ∧ l.iss ≤ 9))
      ∧ ((x.launch 7 9 (.reg 5) (Word.fx 3)).settle false 7).reg 5 = Word.fx 3
      ∧ ((x.launch 7 9 (.reg 5) (Word.fx 3)).settle false 6).reg 5 ≠ Word.fx 3
      ∧ ((x.launch 7 9 (.reg 0) (Word.fx 3)).settle false 7).reg 0 = Word.fx 0 := by decide +kernel

/-- MOVI in slot 0 with an IADD of its register in slot 1; two IMULs; a branch in a delay pair. -/
theorem test_meets_pairs :
    let q0 := qUp 1
    let q1 : Issue := { q0 with slot := true }
    let a := wordI 0x02 ⟨16, 0, 3⟩
    let b := wordR 0x10 ⟨18, 16, 17, 0, 0⟩
    let m := wordR 0x12 ⟨18, 16, 17, 0, 0⟩
    let s := holding user a b
    let t := holding user m m
    let u := holding (delayed user) (wordJ 0x38 4)
    ready s q0 = true ∧ ready s q1 = true ∧ okIs (op1 s).fetch (codeOf a b) = true
      ∧ ready t q0 = true ∧ okIs (op1 t).fetch (codeOf m m) = true
      ∧ half (codeOf a b) false = a ∧ half (codeOf a b) true = b ∧ i64 ((op1 s).r 16) = true ∧ i64 ((op1 s).r 17) = true
      ∧ ready u q0 = true ∧ (op1 u).x.dly = true ∧ okIs (op1 u).fetch (codeOf (wordJ 0x38 4) 0) = true
      ∧ slotOf (operands u q1) 0 (planOf 0) = .go []
      ∧ regAfter (ran s (.iadd q1 ⟨18, 16, 17, 0, 0⟩)) 18 = Word.fx 12 ∧ regAfter (ran s (.iadd q1 ⟨18, 16, 17, 0, 0⟩)) 16 = Word.fx 3 := by
  decide +kernel

theorem test_meets_arithmetic :
    ∀ i ∈ ([.iadd (qUp 1) ⟨18, 16, 1, 0, 0⟩, .isub (qUp 1) ⟨18, 16, 1, 0, 0⟩, .and (qUp 1) ⟨18, 16, 1, 0, 0⟩, .or (qUp 1) ⟨18, 16, 1, 0, 0⟩,
        .xor (qUp 1) ⟨18, 16, 1, 0, 0⟩, .imul (qUp 1) ⟨18, 16, 1, 0, 0⟩, .mulh (qUp 1) ⟨18, 16, 1, 0, 0⟩, .mulh (qUp 1) ⟨18, 16, 1, 1, 0⟩,
        .iaddi (qUp 1) ⟨18, 16, 0x4000⟩, .andi (qUp 1) ⟨18, 16, 0x4000⟩, .ori (qUp 1) ⟨18, 16, 0x4000⟩, .xori (qUp 1) ⟨18, 16, 0x4000⟩,
        .shift (qUp 1) ⟨18, 16, 1, 0, 0⟩, .shift (qUp 1) ⟨18, 16, 1, 3, 0⟩, .shifti (qUp 1) ⟨18, 16, 0xFF⟩, .icmp (qUp 1) ⟨18, 16, 1, 0, 0⟩,
        .icmp (qUp 1) ⟨18, 16, 1, 3, 0⟩, .eq (qUp 1) ⟨18, 16, 1, 0, 0⟩] : List Instr),
      met user (fun e => i64 (e.r 16) && i64 (e.r 1) && clean e [16, 1]) i = true := by decide +kernel

theorem test_meets_division :
    (∀ i ∈ ([.idiv (qUp 1) ⟨18, 16, 17, 0, 0⟩, .idiv (qUp 1) ⟨18, 16, 17, 3, 0⟩, .div (qUp 1) ⟨18, 16, 17, 0, 0⟩,
        .rem (qUp 1) ⟨18, 16, 17, 0, 0⟩, .rem (qUp 1) ⟨18, 16, 17, 1, 0⟩] : List Instr),
      met user (fun e => fix (e.r 16) && fix (e.r 17) && (e.r 17).pay != 0) i = true)
    ∧ (∀ s ∈ [user, exact user], ∀ i ∈ ([.idiv (qUp 1) ⟨20, 16, 18, 0, 0⟩, .idiv (qUp 1) ⟨20, 16, 18, 3, 0⟩] : List Instr),
      met s (fun e => fix (e.r 16) && fix (e.r 18) && (e.r 18).pay == 0 && (e.x.exact == (s == exact user))) i = true)
    ∧ (∀ i ∈ ([.div (qUp 1) ⟨20, 16, 18, 0, 0⟩, .rem (qUp 1) ⟨20, 16, 18, 0, 0⟩] : List Instr),
      met user (fun e => fix (e.r 16) && fix (e.r 18) && (e.r 18).pay == 0 && !e.x.exact) i = true)
    ∧ met (withRegs user [(16, Word.fx 0xFFFFFFFFFFFFFFFF)]) (fun e => fix (e.r 25) && fix (e.r 16) && (e.r 25).pay == 0x8000000000000000
        && (e.r 16).pay == 0xFFFFFFFFFFFFFFFF) (.div (qUp 1) ⟨20, 25, 16, 0, 0⟩) = true := by
  decide +kernel

/-- The largest FIXNUM sum that is a FIXNUM, and the least that is not (Table 04-4). -/
theorem test_generic_boundary :
    let s := withRegs user [(16, Word.fx 0x7FFFFFFFFFFFFFFE), (17, Word.fx 1), (18, Word.fx 2)]
    regAfter (runs s (.add (qUp 1) ⟨20, 16, 17, 0, 0⟩)) 20 = Word.fx 0x7FFFFFFFFFFFFFFF
      ∧ ((runs s (.add (qUp 1) ⟨20, 16, 18, 0, 0⟩)).ctx 0 1).faultDue = some { cause := .promote, info := 0 } := by decide +kernel

theorem test_meets_generic :
    (∀ i ∈ ([.add (qUp 1) ⟨20, 16, 17, 0, 0⟩, .sub (qUp 1) ⟨20, 16, 17, 0, 0⟩, .mul (qUp 1) ⟨20, 16, 17, 0, 0⟩, .addi (qUp 1) ⟨20, 16, 1⟩,
        .eql (qUp 1) ⟨20, 16, 17, 0, 0⟩, .less (qUp 1) ⟨20, 16, 17, 0, 0⟩, .less (qUp 1) ⟨20, 16, 17, 1, 0⟩] : List Instr),
      met user (fun e => fix (e.r 16) && fix (e.r 17)) i = true)
    ∧ (∀ i ∈ ([.eql (qUp 1) ⟨20, 26, 12, 0, 0⟩, .less (qUp 1) ⟨20, 26, 12, 0, 0⟩] : List Instr),
      met user (fun e => !isNum (e.r 26) && clean e [26, 12]) i = true) := by decide +kernel

/-- A sum with no exception, and infinity less infinity, which is invalid, taken and recorded. -/
theorem test_meets_float :
    (∀ i ∈ ([.fadd (qUp 1) ⟨18, 19, 20, 0, 3⟩, .fsub (qUp 1) ⟨18, 19, 20, 0, 0⟩, .fmul (qUp 1) ⟨18, 19, 20, 0, 0⟩,
        .fma (qUp 1) ⟨20, 19, 20, 0, 0⟩, .fnma (qUp 1) ⟨20, 19, 20, 0, 0⟩, .fcmp (qUp 1) ⟨18, 19, 20, 0, 0⟩, .fcmp (qUp 1) ⟨18, 19, 20, 3, 0⟩,
        .fcvt (qUp 1) ⟨18, 19, 0, 1, 0⟩, .fcvt (qUp 1) ⟨18, 19, 0, 3, 0⟩, .fmisc (qUp 1) ⟨18, 19, 0, 0, 0⟩, .fmisc (qUp 1) ⟨18, 19, 20, 5, 0⟩,
        .div (qUp 1) ⟨18, 19, 20, 1, 0⟩, .div (qUp 1) ⟨18, 20, 0, 2, 0⟩] : List Instr),
      met user (fun e => (e.r 19).typ == Ty.flonum && (e.r 20).typ == Ty.flonum && !fpNaN (e.r 19).pay && !fpNaN (e.r 20).pay
        && (fpAdd 3 (e.r 19).pay (e.r 20).pay).sub == 0 && (fpDiv 0 (e.r 19).pay (e.r 20).pay).sub == 0
        && (fpSqrt 0 (e.r 20).pay).sub == 0) i = true)
    ∧ met user (fun e => (e.r 16).typ == Ty.fixnum) (.fcvt (qUp 1) ⟨18, 16, 0, 0, 3⟩) = true
    ∧ met user (fun e => (e.r 1).typ == Ty.raw) (.fcvt (qUp 1) ⟨18, 1, 0, 2, 0⟩) = true
    ∧ met user (fun e => isNum (e.r 16) && isNum (e.r 19) && (fpAdd 0 (toFl (e.r 16)) (toFl (e.r 19))).sub == 0)
        (.add (qUp 1) ⟨18, 16, 19, 0, 0⟩) = true
    ∧ (let s := withRegs user [(19, Word.mk0 Ty.flonum 0x7FF0000000000000)]
       ∀ t ∈ [s, exact s], met t (fun e => (fpSub 0 (e.r 19).pay (e.r 19).pay).sub != 0) (.fsub (qUp 1) ⟨18, 19, 19, 0, 0⟩) = true)
    ∧ met (withRegs user [(19, Word.mk0 Ty.flonum 0x7FF8000000000000)]) (fun e => fpNaN (e.r 19).pay) (.fcmp (qUp 1) ⟨18, 19, 20, 0, 0⟩) = true := by
  decide +kernel

theorem test_float_values :
    (fpAdd 0 0x3FF8000000000000 0x4002000000000000).val = 0x400E000000000000
      ∧ (fpMul 0 0x3FF8000000000000 0x4002000000000000).val = 0x400B000000000000
      ∧ (fpSqrt 0 0x4002000000000000).val = 0x3FF8000000000000 := by decide +kernel

theorem test_meets_binary :
    -(2 ^ 53) ≤ (0x20000000000000#64).toInt ∧ (0x20000000000000#64).toInt ≤ 2 ^ 53
      ∧ flToFix 0 (fixToFl 0 0x20000000000000) = ⟨0x20000000000000, 0⟩ ∧ flToFix 3 (fixToFl 2 0xFFE0000000000000) = ⟨0xFFE0000000000000, 0⟩
      ∧ fpNaN 0x7FF0000000000001 = true ∧ fpSNaN 0x7FF0000000000001 = true := by decide +kernel

theorem test_meets_operand_faults :
    met user (fun _ => true) (.iadd (qUp 1) ⟨18, 16, 17, 1, 0⟩) = true
    ∧ met user (fun e => (e.r 27).typ == Ty.poison) (.iadd (qUp 1) ⟨18, 27, 17, 0, 0⟩) = true
    ∧ met user (fun e => (e.r 27).typ == Ty.poison && clean e [16]) (.iadd (qUp 1) ⟨18, 16, 27, 0, 0⟩) = true
    ∧ met user (fun e => clean e [26, 17] && !i64 (e.r 26)) (.iadd (qUp 1) ⟨18, 26, 17, 0, 0⟩) = true
    ∧ met user (fun e => clean e [26, 17] && !i64 (e.r 26) && i64 (e.r 17)) (.iadd (qUp 1) ⟨18, 17, 26, 0, 0⟩) = true
    ∧ met user (fun e => e.x.level == lvU) (.pretag (qUp 1) ⟨18, 16, 0, 0, 0⟩) = true
    ∧ met user (fun e => e.x.level == lvU) (.svr (qUp 1) ⟨18, 0, 8⟩) = true
    ∧ met user (fun e => i64 (e.r 17) && ((e.r 17).pay.setWidth 32 ^^^ e.x.st) &&& 0x9F != 0) (.stw (qUp 1) ⟨0, 17, 0, 0, 0⟩) = true := by
  decide +kernel

/-! ### Branches, calls, windows, levels -/

theorem test_meets_branches :
    ∀ i ∈ ([.beq (qUp 1) ⟨16, 17, 0x7FFF⟩, .bne (qUp 1) ⟨16, 17, 1⟩, .blt (qUp 1) ⟨16, 17, 1⟩, .bge (qUp 1) ⟨16, 17, 1⟩,
        .bltu (qUp 1) ⟨16, 17, 1⟩, .bgeu (qUp 1) ⟨16, 17, 1⟩, .btype (qUp 1) ⟨16, 3, 1⟩, .bntype (qUp 1) ⟨16, 3, 1⟩, .bnil (qUp 1) ⟨26, 0, 1⟩,
        .bnnil (qUp 1) ⟨26, 0, 1⟩, .br (qUp 1) 0x1FFFFFF, .jmpr (qUp 1) ⟨0, 21, 0, 0, 0⟩] : List Instr),
      met user (fun e => !e.x.dly && clean e [16, 17, 26] && i64 (e.r 16) && i64 (e.r 17) && i64 (e.r 21)
        && (e.r 21).pay.toNat % 8 == 0) i = true := by decide +kernel

/-- RES = 6, with a spill area that has room for one frame, to its last byte. -/
def deep : State := tweak user fun x => { x with ws := 0x30, spillLo := capLo 0x10400 0x3B, spillHi := capHi 0x10400 0 144 }

/-- The spill engine can take the frame that a CALL hands it. -/
def spillRoom (e : Env) : Bool :=
  let k : CapV := ⟨e.x.spillLo, e.x.spillHi⟩
  (e.x.spillGroups.all fun g => !e.x.unfetched.getLsbD g) && !e.x.spillHeld && k.ok && !k.sealed && k.has spillPerms
    && k.cursor % 16 == 0 && decide (k.cursor + 144 ≤ k.top) && decide (e.x.frames.length < 2)

/-- One window in use, and a spilled frame in memory below the spill area's cursor. -/
def spilled : State :=
  (tweak user fun x => { x with ws := 0x08, spillLo := capLo 0x10490 0x3B, spillHi := capHi 0x10400 0 144 }).modNib 0 fun b =>
    { b with l1 := [lineAt 0x3000400 [Word.mk0 Ty.spill 0x10006], lineAt 0x3000440 [], lineAt 0x3000480 []] }

theorem test_meets_calls :
    (∀ i ∈ ([.call (qUp 1) 4, .callr (qUp 1) ⟨0, 30, 0, 0, 0⟩, .callr (qUp 1) ⟨0, 21, 0, 0, 0⟩] : List Instr),
      met user (fun e => !e.x.dly && decide (e.x.res < 6) && (e.r 30).typ == Ty.function && i64 (e.r 21) && (e.r 21).pay.toNat % 8 == 0) i = true
      ∧ met deep (fun e => !e.x.dly && decide (e.x.res = 6) && spillRoom e) i = true)
    ∧ met user (fun e => !e.x.dly && decide (1 < e.x.res) && !e.x.tw && i64 (e.r 21)) (.ret (qUp 1) ⟨0, 21, 0, 0, 0⟩) = true
    ∧ met (tweak user fun x => { x with ws := 0x08, frames := [{ win := 2, hb := false, cursor := 0, words := [] }] })
        (fun e => decide (e.x.res ≤ 1) && !e.x.frames.isEmpty && !e.x.tw && !e.x.dly && i64 (e.r 21)) (.ret (qUp 1) ⟨0, 21, 0, 0, 0⟩) = true
    ∧ met (tweak user fun x => { x with ws := 0x58, saveS := { pc := 0x400000, cause := 1 } }) (fun e => e.x.tw && !e.x.dly)
        (.ret (qUp 1) ⟨0, 0, 0, 0, 0⟩) = true := by decide +kernel

/-- A plan that answers. -/
def resolves {α : Type} (p : Plan α) : Bool :=
  match p with
  | .ok _ => true
  | .error _ => false

/-- A RET whose frame comes back from memory. -/
theorem test_meets_refill :
    met spilled (fun e =>
      let k : CapV := ⟨e.x.spillLo, e.x.spillHi⟩
      decide (e.x.res ≤ 1) && e.x.frames.isEmpty && k.ok && !k.sealed && k.has (pR ||| pLC) && k.cursor % 16 == 0
        && decide (k.base + 144 ≤ k.cursor)
        && resolves (e.runMem (.refill (k.cursor - 144) e.x.backWindow (hBase e.x.backWindow) (mBase e.x.backWindow)) 3))
      (.ret (qUp 1) ⟨0, 21, 0, 0, 0⟩) = true := by decide +kernel

/-- A context with this RES at window 6, the last. -/
def window6 (res : Nat) : Context := { (ctxUp 1 lvU) with ws := BitVec.ofNat 64 (res * 8 + 6) }

theorem test_meets_windows :
    (window6 5).cwp < 7 ∧ (window6 5).tw = false ∧ (∀ w, w < 7 → (window6 5).hb w = false) ∧ (window6 5).res < 6 ∧ (window6 6).res = 6
      ∧ 1 < (window6 2).res ∧ 0 < (window6 1).res ∧ (window6 5).advance.cwp = 0 := by decide +kernel

/-- The gate object at 0x10700, its gate frame to 0x10880; a GRET by the frame at 0x10880. -/
theorem test_meets_gates :
    let hd := hdr Ty.record 4 (2 ^ 41 + 2 ^ 40)
    let desc := Word.rawOf 0x0101000000000080
    let stk : CapV := ⟨capLo 0x10880 0x3B, capHi 0x10880 0 64⟩
    met user (fun e =>
        let g := e.pair 28
        clean e [28, 29] && g.ok && g.sealed && g.has (pGATE ||| pX) && g.base % 16 == 0 && decide (g.base + 40 ≤ g.top))
      (.gate (qUp 1) ⟨0, 28, 0, 0, 0⟩) = true
    ∧ hd.typ = Ty.header ∧ hdrGate hd = true ∧ hdrFrozen hd = true ∧ 4 ≤ hdrLen hd ∧ badDesc desc = false ∧ bits desc.pay 56 2 = 1
    ∧ (∀ v ∈ [hd, stk.lo, stk.hi], reservedWord v = false) ∧ stackOk stk = true ∧ gateNarg desc.pay = 1
    ∧ begins user (fun e => e.gateRoutine 28) (fun v =>
        okIs (v.readMem 0x10700 true) (hd, ⟨0x3000700, true⟩, []) && okIs (v.readMem 0x10708 true) (desc, ⟨0x3000708, true⟩, [])
        && okIs (v.readMem 0x10710 true) (stk.lo, ⟨0x3000710, true⟩, []) && okIs (v.readMem 0x10718 true) (stk.hi, ⟨0x3000718, true⟩, [])
        && okIs (v.readMem 0x10720 true) (Word.fx 0x400200, ⟨0x3000720, true⟩, []) && v.x.level == lvU
        && okIs (v.forwardPair stk.lo stk.hi) (stk.lo, stk.hi, []) && v.x.unfetched == 0 && v.meets (gateArg desc.pay 0)
        && okIs (({ v with x := v.x.setSt 0 2 1 } : Env).access (BitVec.ofNat 64 stk.cursor) .write) ⟨0x3000880, true⟩
        && decide (v.x.res < 6) && decide ((v.s.nib v.n).storeBuf.length < 16))
      (.gate (qUp 1) ⟨0, 28, 0, 0, 0⟩) = true
    ∧ met user (fun e =>
        let k := e.pair 22
        k.ok && !k.sealed && k.has pR && decide (k.base + 16 ≤ k.cursor) && (k.cursor - 16) % 16 == 0) (.gret (qUp 1) ⟨0, 0, 0, 0, 0⟩) = true
    ∧ begins user (fun e => e.gretRoutine) (fun v =>
        !v.x.tw && okIs (v.readMem 0x10880) (Word.rawOf 0x400300, ⟨0x3000880, true⟩, [])
        && okIs (v.readMem 0x10888) (Word.rawOf 0x40, ⟨0x3000888, true⟩, []) && decide (1 < v.x.res)
        && !badStatus (v.c == 0) v.x 0 0x40) (.gret (qUp 1) ⟨0, 0, 0, 0, 0⟩) = true := by decide +kernel

theorem test_meets_level_changes :
    let g := tweak user fun x => { x with xfer := some (.gate 1 Word.nil Word.nil 0x3000880 false 0x10880 (capLo 0x10890 3) (capHi 0x10880 0 64)) }
    let r := tweak super fun x => { x with xfer := some (.gret 0 0x40) }
    let t := tweak super fun x => { x with xfer := some (.trapRet 1), saveS := { pc := 0x400040, st := 0x3FFF0400, cause := 1, win := 0x18 } }
    (g.ctx 0 1).dly = false ∧ ((g.bind 0 1).ctx 0 1).level = 1 ∧ ((r.bind 0 1).ctx 0 1).level = 0 ∧ (t.ctx 0 1).level ≠ lvU
      ∧ ((t.bind 0 1).ctx 0 1).pc = 0x400040 ∧ (((delayed g).bind 0 1).ctx 0 1).level = 0 := by decide +kernel

/-! ### Memory, lists, allocation, capabilities -/

/-- The last element of a vector and the last byte of a string's only data word. -/
theorem test_meets_loads :
    met (withRegs user [(16, Word.fx 2)]) (fun e => object e (e.r 12) (hdr Ty.vector 3 0) 0x3000000 && fix (e.r 16)
        && decide ((e.r 16).pay.toInt = 2) && reads e 0x10018 (Word.fx 13) 0x3000018 && delivers e (Word.fx 13))
      (.ldx (qUp 1) ⟨20, 12, 16, 0, 0⟩) = true
    ∧ met user (fun e => object e (e.r 12) (hdr Ty.vector 3 0) 0x3000000 && reads e 0x10018 (Word.fx 13) 0x3000018
        && delivers e (Word.fx 13)) (.ldi (qUp 1) ⟨20, 12, 2⟩) = true
    ∧ met user (fun e => object e (e.r 13) (hdr Ty.string 3 0) 0x3000040 && (e.r 13).typ == Ty.string && fix (e.r 17)
        && decide ((e.r 17).pay.toInt = 7) && reads e 0x10048 (Word.fx 8) 0x3000048
        && reads e 0x10050 (Word.rawOf 0x0807060504030201) 0x3000050) (.ldbx (qUp 1) ⟨20, 13, 17, 0, 0⟩) = true
    ∧ met super (fun e => i64 (e.r 24) && e.x.level != lvU && reads e 0x10008 (Word.fx 11) 0x3000008 true && delivers e (Word.fx 11))
        (.ldv (qUp 1) ⟨20, 24, 1⟩) = true
    ∧ (∀ m : BitVec 3, m.toNat ≤ 4 → met user (fun e => object e (e.r 12) (hdr Ty.vector 3 0) 0x3000000)
        (.hdrq (qUp 1) ⟨20, 12, 0, m, 0⟩) = true) := by decide +kernel

/-- LDX of the last element, LDBX of the last byte. -/
theorem test_load_values :
    regAfter (runs (withRegs user [(16, Word.fx 2)]) (.ldx (qUp 1) ⟨20, 12, 16, 0, 0⟩)) 20 = Word.fx 13
      ∧ regAfter (runs user (.ldbx (qUp 1) ⟨20, 13, 17, 0, 0⟩)) 20 = Word.fx 8 := by decide +kernel

/-- A line that the nib lacks: the HEADER of an object at 0x10A00. -/
theorem test_meets_miss :
    met (withRegs user [(12, Word.mk0 Ty.vector 0x10A00)])
      (fun e => okRtype (e.r 12).typ && clean e [12] && errIs (e.read (waddr (e.r 12))) (.wait (.line 0x3000A00 true)))
      (.hdrq (qUp 1) ⟨20, 12, 0, 0, 0⟩) = true := by decide +kernel

theorem test_meets_stores :
    (∀ i ∈ ([.stx (qUp 1) ⟨17, 12, 16, 0, 0⟩, .sti (qUp 1) ⟨17, 12, 2⟩] : List Instr),
      met (withRegs user [(16, Word.fx 2)]) (fun e => object e (e.r 12) (hdr Ty.vector 3 0) 0x3000000 && !isCapType (e.r 17).typ
        && clean e [17] && fix (e.r 16) && !hdrFrozen (hdr Ty.vector 3 0)
        && stores e 0x10018 (.word (e.r 17) .keep) (storeAcc [e.r 17]) 0x3000018) i = true)
    ∧ met user (fun e => object e (e.r 13) (hdr Ty.string 3 0) 0x3000040 && fix (e.r 16) && decide ((e.r 16).pay.toNat ≤ 255)
        && fix (e.r 17) && !hdrFrozen (hdr Ty.string 3 0) && reads e 0x10048 (Word.fx 8) 0x3000048
        && reads e 0x10050 (Word.rawOf 0x0807060504030201) 0x3000050
        && stores e 0x10050 (.byte 7 ((e.r 16).pay.setWidth 8)) .write 0x3000050) (.stbx (qUp 1) ⟨16, 13, 17, 0, 0⟩) = true
    ∧ met super (fun e => i64 (e.r 24) && e.x.level != lvU && !isCapType (e.r 16).typ && clean e [16]
        && reads e 0x10008 (Word.fx 11) 0x3000008 true && stores e 0x10008 (.word (e.r 16) .keep) (storeAcc [e.r 16]) 0x3000008 true)
        (.stv (qUp 1) ⟨16, 24, 1⟩) = true
    ∧ met { user with mem := [(0x600000, hdr Ty.vector 3 0)] } (fun e => okRtype (e.r 12).typ && hdrRtype (hdr Ty.vector 3 0) == (e.r 12).typ
        && okIs (e.access (waddr (e.r 12)) .writeT) ⟨0x3000000, true⟩ && okIs (e.lockedWord 0x3000000) (hdr Ty.vector 3 0)
        && !inDev 0x3000000 && !e.s.held 0x3000000) (.freeze (qUp 1) ⟨0, 12, 0, 0, 0⟩) = true := by decide +kernel

theorem test_meets_access_faults :
    met user (fun e => object e (e.r 31) (hdr Ty.vector 1 0x10000000000) 0x30000C0 && fix (e.r 16)
        && decide ((hdrLen (hdr Ty.vector 1 0x10000000000) : Int) ≤ (e.r 16).pay.toInt)) (.ldx (qUp 1) ⟨20, 31, 16, 0, 0⟩) = true
    ∧ met user (fun e => object e (e.r 31) (hdr Ty.vector 1 0x10000000000) 0x30000C0 && hdrFrozen (hdr Ty.vector 1 0x10000000000)
        && fix (e.r 18) && decide ((e.r 18).pay.toInt = 0)) (.stx (qUp 1) ⟨16, 31, 18, 0, 0⟩) = true
    ∧ met (withRegs user [(12, Word.mk0 Ty.vector 0x10080)]) (fun e => okRtype (e.r 12).typ && fix (e.r 16)
        && reads e (waddr (e.r 12)) (Word.fx 21) 0x3000080) (.ldx (qUp 1) ⟨20, 12, 16, 0, 0⟩) = true
    ∧ met user (fun e => decide ((e.pair 16).cursor % 8 = 0) && !(e.pair 16).ok && clean e [16, 17]) (.cld (qUp 1) ⟨20, 16, 0⟩) = true
    ∧ met user (fun e => (e.pair 10).ok && (e.pair 10).sealed && clean e [10, 11]) (.cld (qUp 1) ⟨20, 10, 0⟩) = true
    ∧ met (withRegs user [(2, capLo 0x10400 2)]) (fun e => (e.pair 2).ok && !(e.pair 2).sealed && !(e.pair 2).has pR && clean e [2, 3])
        (.cld (qUp 1) ⟨20, 2, 0⟩) = true
    ∧ met user (fun e => (e.pair 2).ok && !(e.pair 2).sealed && (e.pair 2).has pR
        && decide ((e.pair 2).top < (e.pair 2).cursor + 8 * 16 + 8)) (.cld (qUp 1) ⟨20, 2, 16⟩) = true
    ∧ met (withRegs user [(2, capLo 0x10401 0x47B)]) (fun e => decide ((e.pair 2).cursor % 8 ≠ 0)) (.cld (qUp 1) ⟨20, 2, 0⟩) = true := by
  decide +kernel

/-- Registers a and a + 1 hold an unsealed capability. -/
def holdsCap (e : Env) (a : BitVec 5) : Bool := a != 0 && !a.getLsbD 0 && clean e [a, a + 1] && (e.pair a).ok && !(e.pair a).sealed

/-- An access through a capability is inside its bounds and rights. -/
def within (k : CapV) (a size : Nat) (rights : BitVec 16) : Bool :=
  a % size == 0 && decide (k.base ≤ a) && decide (a + size ≤ k.top) && k.has rights

/-- An access that ends at a capability's last byte. -/
theorem test_meets_capability_access :
    (∀ i ∈ ([.cld (qUp 1) ⟨20, 2, 1⟩, .cldx (qUp 1) ⟨20, 2, 16, 0, 0⟩] : List Instr),
      met (withRegs user [(16, Word.fx 1)]) (fun e => holdsCap e 2 && fix (e.r 16) && within (e.pair 2) 0x10408 8 pR
        && reads e 0x10408 (Word.fx 42) 0x3000408 && delivers e (Word.fx 42)) i = true)
    ∧ met user (fun e => holdsCap e 2 && within (e.pair 2) 0x10410 16 (pR ||| pLC)
        && reads e 0x10410 (capLo 0x10400 0x47B) 0x3000410 && reads e 0x10418 (capHi 0x10400 0 128) 0x3000418
        && delivers e (capLo 0x10400 0x47B) && delivers e (capHi 0x10400 0 128)
        && okIs (e.forwardPair (capLo 0x10400 0x47B) (capHi 0x10400 0 128)) (capLo 0x10400 0x47B, capHi 0x10400 0 128, []))
      (.cldc (qUp 1) ⟨12, 2, 2⟩) = true
    ∧ (∀ i ∈ ([.cst (qUp 1) ⟨17, 2, 15⟩, .cstx (qUp 1) ⟨17, 2, 16, 0, 0⟩] : List Instr),
      met (withRegs user [(16, Word.fx 15)]) (fun e => holdsCap e 2 && fix (e.r 16) && within (e.pair 2) 0x10478 8 pW
        && !isCapType (e.r 17).typ && stores e 0x10478 (.word (e.r 17) .keep) (storeAcc [e.r 17]) 0x3000478) i = true)
    ∧ met user (fun e => holdsCap e 2 && (e.pair 2).has pGLOBAL && within (e.pair 2) 0x10470 16 (pW ||| pSC)
        && stores e 0x10470 (.pair (e.r 2) (e.r 3) .keep) .writeT 0x3000470) (.cstc (qUp 1) ⟨2, 2, 14⟩) = true
    ∧ within ⟨capLo 0x10400 0x47B, capHi 0x10400 0 128⟩ 0x10480 8 pW = false := by decide +kernel

/-- The car word of the cell that a CONS reference names, at the reference's own address. -/
def cell (e : Env) (r x : Word) (pa : Nat) : Bool := r.typ == Ty.cons && x.typ != Ty.forward && reads e (waddr r) x pa

theorem cellAt_of {e : Env} {entry : Nat} {r x : Word} {pa : Nat} (h : cell e r x pa = true) : e.cellAt entry false r (waddr r) x := by
  simp only [cell, Bool.and_eq_true, beq_iff_eq, bne_iff_ne] at h
  exact ⟨h.1.1, reads_of h.2, rfl, fun hf => absurd hf h.1.2⟩

/-- A vector and a cell that have moved: FORWARD words at 0x10400 name the item at 0x10000 or 0x10080. -/
def movedTo (a : Nat) : State :=
  user.modNib 0 fun b => { b with l1 := lineAt 0x3000400 [Word.mk0 Ty.forward (BitVec.ofNat 64 a)] :: b.l1.filter fun l => l.line != 0x3000400 }

/-- The FORWARD word that the routine at an entry point follows to address a. -/
def followed (e : Env) (entry : Nat) (r : Word) (g : Word) (a : BitVec 64) (pa : Nat) : Bool :=
  reads e (waddr r) g pa && g.typ == Ty.forward && !reservedWord g && decide (e.x.level.toNat < 2)
    && ((e.s.nib e.n).matchAt false entry).isNone && a == g.pay &&& 0xFFFFFFFFFFF8

theorem follows_of {e : Env} {entry : Nat} {r g : Word} {a : BitVec 64} {pa : Nat} (h : followed e entry r g a pa = true) :
    e.reads (waddr r) g ∧ e.follows entry g a := by
  simp only [followed, Bool.and_eq_true, beq_iff_eq, Bool.not_eq_true', decide_eq_true_eq, Option.isNone_iff_eq_none] at h
  obtain ⟨⟨⟨⟨⟨h1, h2⟩, h3⟩, h4⟩, h5⟩, h6⟩ := h
  exact ⟨reads_of h1, h2, h3, h4, h5, h6⟩

theorem test_meets_moved_items :
    met (withRegs (movedTo 0x10000) [(12, Word.mk0 Ty.vector 0x10400)]) (fun e =>
        followed e 0x0008 (e.r 12) (Word.mk0 Ty.forward 0x10000) 0x10000 0x3000400 && reads e 0x10000 (hdr Ty.vector 3 0) 0x3000000)
      (.hdrq (qUp 1) ⟨20, 12, 0, 0, 0⟩) = true
    ∧ (∀ p ∈ ([(0x0020, .car (qUp 1) ⟨20, 14, 0, 0, 0⟩), (0x0020, .cdr (qUp 1) ⟨20, 14, 0, 0, 0⟩),
        (0x0008, .rplaca (qUp 1) ⟨26, 14, 0, 0, 0⟩), (0x0008, .rplacd (qUp 1) ⟨26, 14, 0, 0, 0⟩)] : List (Nat × Instr)),
      met (withRegs (movedTo 0x10080) [(14, Word.mk0 Ty.cons 0x10400)]) (fun e => (e.r 14).typ == Ty.cons
        && followed e p.1 (e.r 14) (Word.mk0 Ty.forward 0x10080) 0x10080 0x3000400 && reads e 0x10080 (Word.fx 21) 0x3000080
        && stores e 0x10080 (.word (e.r 26) .keep) (storeAcc [e.r 26]) 0x3000080) p.2 = true) := by decide +kernel

/-- CAR of a cell that has moved. -/
theorem test_moved_car :
    regAfter (runs (withRegs (movedTo 0x10080) [(14, Word.mk0 Ty.cons 0x10400)]) (.car (qUp 1) ⟨20, 14, 0, 0, 0⟩)) 20 = Word.fx 21 := by
  decide +kernel

/-- Cells of cdr-code normal and next, and nil. -/
theorem test_meets_lists :
    (∀ i ∈ ([.car (qUp 1) ⟨20, 14, 0, 0, 0⟩, .cdr (qUp 1) ⟨20, 14, 0, 1, 0⟩, .rplaca (qUp 1) ⟨26, 14, 0, 0, 0⟩,
        .rplacd (qUp 1) ⟨26, 14, 0, 0, 0⟩] : List Instr),
      met user (fun e => cell e (e.r 14) (Word.fx 21) 0x3000080 && delivers e (Word.fx 21) && reads e 0x10088 (Word.fx 22) 0x3000088
        && delivers e (Word.fx 22) && !isCapType (e.r 26).typ && clean e [26]
        && stores e 0x10080 (.word (e.r 26) .keep) (storeAcc [e.r 26]) 0x3000080
        && stores e 0x10088 (.word (e.r 26) .keep) (storeAcc [e.r 26]) 0x3000088) i = true)
    ∧ (∀ i ∈ ([.cdr (qUp 1) ⟨20, 15, 0, 0, 0⟩, .rplacd (qUp 1) ⟨26, 15, 0, 0, 0⟩] : List Instr),
      let x : Word := { Word.fx 31 with cdr := 1 }
      met user (fun e => cell e (e.r 15) x 0x3000090 && !reservedWord x && (e.r 26).typ == Ty.immed && (e.r 26).pay == 0
        && stores e 0x10090 (.word { x with cdr := 2 } .list) (storeAcc [x]) 0x3000090) i = true)
    ∧ met (withRegs user [(26, Word.mk0 Ty.cons 0x10098)]) (fun e => cell e (e.r 15) { Word.fx 31 with cdr := 1 } 0x3000090
        && (e.r 26).typ == Ty.cons && (e.r 26).pay == waddr (e.r 15) + 8) (.rplacd (qUp 1) ⟨26, 15, 0, 0, 0⟩) = true
    ∧ (∀ i ∈ ([.car (qUp 1) ⟨20, 26, 0, 1, 0⟩, .cdr (qUp 1) ⟨20, 26, 0, 1, 0⟩] : List Instr),
      met user (fun e => (e.r 26).typ == Ty.immed && (e.r 26).pay == 0) i = true) := by decide +kernel

/-- The CDRs of cells of cdr-code normal, next and nil. -/
theorem test_cdr_values :
    regAfter (runs user (.cdr (qUp 1) ⟨20, 14, 0, 0, 0⟩)) 20 = Word.fx 22
      ∧ regAfter (runs user (.cdr (qUp 1) ⟨20, 15, 0, 0, 0⟩)) 20 = Word.mk0 Ty.cons 0x10098
      ∧ regAfter (runs (withRegs user [(15, Word.mk0 Ty.cons 0x10098)]) (.cdr (qUp 1) ⟨20, 15, 0, 0, 0⟩)) 20 = Word.nil := by
  decide +kernel

/-- An arena of 16 words, whose cards need no mark: CONS of two, ALLOC and ALLOCI of the largest object that fits. -/
theorem test_meets_allocation :
    met user (fun e => holdsCap e 6 && (e.pair 6).cursor % 8 == 0 && (e.pair 6).has (pR ||| pW) && decide ((e.pair 6).cursor + 16 ≤ (e.pair 6).top)
        && !isCapType (e.r 16).typ && !isCapType (e.r 17).typ && clean e [16, 17]) (.cons (qUp 1) ⟨20, 16, 17, 0, 0⟩) = true
    ∧ begins user (fun e =>
        { op := .cons, d := 20, a := 16, b := 17, slot := false, base := 0x10800, w0 := e.r 16, w1 := e.r 17,
          w2 := ((e.pair 6).setCursor ((e.pair 6).cursor + 16)).lo })
        (fun v => stores v 0x10800 (.word (Word.fx 5) .exact) .writeT 0x3000800
          && stores v 0x10808 (.word (Word.fx 7) .exact) .writeT 0x3000808 && okIs (v.cardOk 0x3000800) ()) (.cons (qUp 1) ⟨20, 16, 17, 0, 0⟩) = true
    ∧ (∀ i ∈ ([.alloc (qUp 1) ⟨20, 16, 0, 0, 9⟩, .alloci (qUp 1) ⟨20, 0, 0x3C9⟩] : List Instr),
      met (withRegs user [(16, Word.fx 15)]) (fun e => holdsCap e 6 && (e.pair 6).cursor % 8 == 0 && (e.pair 6).has (pR ||| pW)
        && fix (e.r 16) && (e.r 16).pay == 15 && decide ((e.pair 6).cursor + 8 * (1 + 15) ≤ (e.pair 6).top) && okRtype 9
        && stores e 0x10800 (.word (Word.mk0 Ty.header (BitVec.ofNat 64 (9 * 2 ^ 42 + 15))) .colour) .writeT 0x3000800
        && okIs (e.lookup ⟨0x3000800, true⟩) (Word.rawZero, []) && okIs (e.cardOk 0x3000800) ()) i = true)
    ∧ met user (fun e => (e.r 12).typ == Ty.vector && fix (e.r 18) && (e.r 18).pay == 0) (.consn (qUp 1) ⟨20, 12, 18, 0, 0⟩ none) = true
    ∧ met user (fun e => (e.r 12).typ == Ty.vector && fix (e.r 16) && decide (0 < (e.r 16).pay.toInt) && (e.pair 6).cursor % 8 == 0
        && clean e [6, 7]) (.consn (qUp 1) ⟨20, 12, 16, 0, 0⟩ none) = true := by decide +kernel

/-- CONS lands its reference and moves the arena's cursor by two words. -/
theorem test_cons_values :
    let s := runs user (.cons (qUp 1) ⟨20, 16, 17, 0, 0⟩)
    regAfter s 20 = Word.mk0 Ty.cons 0x10800 ∧ regAfter s 6 = capLo 0x10810 3
      ∧ ((s.nib 0).storeBuf.map fun e => (e.pa, e.kind)) = [(0x3000800, .word (Word.fx 5) .exact), (0x3000808, .word (Word.fx 7) .exact)] := by
  decide +kernel

/-- R175, R176: 4095 is a mantissa, 4097 is not, and rounds up to 513 × 8; the longest length is 4095 × 8^12. -/
theorem test_lengths :
    reprExact 4095 = some (0, 4095) ∧ reprExact 4097 = none ∧ reprUp 4097 = some (1, 513) ∧ reprExact 4104 = some (1, 513)
      ∧ reprUp (4095 * 8 ^ 12) = some (12, 4095) ∧ reprUp (4095 * 8 ^ 12 + 1) = none := by decide +kernel

theorem test_meets_capability_operations :
    (∀ i ∈ ([.cbound (qUp 1) ⟨12, 2, 16, 0, 0⟩, .cbound (qUp 1) ⟨12, 2, 16, 1, 0⟩, .cperm (qUp 1) ⟨12, 2, 16, 0, 0⟩, .cinc (qUp 1) ⟨12, 2, 128⟩,
        .cget (qUp 1) ⟨20, 2, 0, 0, 0⟩, .cget (qUp 1) ⟨20, 2, 0, 4, 0⟩] : List Instr),
      met user (fun e => holdsCap e 2 && (e.pair 2).has pDERIVE && fix (e.r 16) && reprExact (e.r 16).pay.toNat == some (0, 5)
        && decide ((e.pair 2).cursor + 5 * 8 ^ 0 ≤ (e.pair 2).top) && decide ((e.pair 2).top < 2 ^ 48)
        && decide ((e.pair 2).cursor + 128 ≤ (e.pair 2).top)) i = true)
    ∧ met (withRegs user [(16, Word.fx 4097)]) (fun e => reprExact (e.r 16).pay.toNat == none) (.cbound (qUp 1) ⟨12, 2, 16, 0, 0⟩) = true := by
  decide +kernel

/-- CBOUND to five bytes. -/
theorem test_cbound_value :
    let s := runs user (.cbound (qUp 1) ⟨12, 2, 16, 0, 0⟩)
    regAfter s 12 = capLo 0x10400 0x47B ∧ regAfter s 13 = capHi 0x10400 0 5 := by decide +kernel

/-- CSEAL of a capability whose target has no OTYPE yet, at its inkwell; CUNSEAL of one sealed with the key's OTYPE. -/
theorem test_meets_sealing :
    let key := hdr Ty.record 1 (5 * 2 ^ 48 + 2 ^ 39)
    let s : State := { (tweak user fun x => { x with blockAns := none }) with mem := [(0x6000C0, hdr Ty.record 3 0)] }
    met s (fun e =>
        let c := e.pair 8
        let k := e.pair 4
        clean e [8, 9, 4, 5] && c.ok && k.ok && !k.sealed && !c.sealed && c.base % 8 == 0 && k.base % 8 == 0 && decide (8 ≤ k.len) && k.has pSEAL)
      (.cseal (qUp 1) ⟨12, 8, 4, 0, 0⟩) = true
    ∧ begins s (fun e => e.sealRoutine .cseal ⟨12, 8, 4, 0, 0⟩) (fun v =>
        !v.s.held 0x3000600 && okIs (v.access 0x10600 .locked) ⟨0x3000600, true⟩ && okIs (v.lockedWord 0x3000600) (hdr Ty.record 3 0)
        && okIs (v.readMem 0x10640) (key, ⟨0x3000640, true⟩, [])) (.cseal (qUp 1) ⟨12, 8, 4, 0, 0⟩) = true
    ∧ met s (fun e => (e.pair 10).ok && (e.pair 10).base % 8 == 0 && (e.pair 4).has pUNSEAL) (.cunseal (qUp 1) ⟨12, 10, 4, 0, 0⟩) = true
    ∧ begins s (fun e => e.sealRoutine .cunseal ⟨12, 10, 4, 0, 0⟩) (fun v =>
        okIs (v.readMem 0x10680) (hdr Ty.record 1 (5 * 2 ^ 48), ⟨0x3000680, true⟩, [])
        && okIs (v.readMem 0x10640) (key, ⟨0x3000640, true⟩, [])) (.cunseal (qUp 1) ⟨12, 10, 4, 0, 0⟩) = true
    ∧ key.typ = Ty.header ∧ hdrKey key = true ∧ hdrOtype key = 5 ∧ hdrOtype (hdr Ty.record 1 (5 * 2 ^ 48)) = 5
      ∧ hdrOtype (hdr Ty.record 3 0) = 0 ∧ hdrKey (hdr Ty.record 3 0) = false ∧ memOk s = true ∧ (s.word 0x3000600).typ = Ty.header
      ∧ reservedWord (s.word 0x3000600) = false ∧ isCapType (s.word 0x3000608).typ = false := by decide +kernel

theorem test_meets_long :
    (∀ n ∈ ([5, 0] : List Nat), ∀ i ∈ ([.bcopy (qUp 1) ⟨16, 2, 6, 0, 0⟩ none, .bcopy (qUp 1) ⟨16, 2, 6, 1, 0⟩ (some 0), .bcmp (qUp 1) ⟨16, 2, 6, 0, 0⟩ none,
        .hash (qUp 1) ⟨1, 2, 16, 0, 0⟩ none] : List Instr),
      met (withRegs user [(16, Word.fx (BitVec.ofNat 64 n))]) (fun e => clean e [2, 3, 6, 7, 16] && (e.pair 2).ok && (e.pair 6).ok
        && (e.pair 2).cursor % 8 == 0 && (e.pair 6).cursor % 8 == 0 && fix (e.r 16) && i64 (e.r 1)
        && decide (countOf (e.r 16) = n)) i = true)
    ∧ (∀ i ∈ ([.savem (qUp 1) ⟨16, 2, 1⟩ none, .loadm (qUp 1) ⟨16, 2, 0x2001⟩ (some 1)] : List Instr),
      met user (fun e => holdsCap e 2 && clean e [16] && (e.pair 2).cursor % 16 == 0 && decide ((e.pair 2).cursor + 80 ≤ (e.pair 2).top)
        && (e.pair 2).has (pW ||| pSC) && (e.pair 2).has (pR ||| pLC)) i = true)
    ∧ (16 : BitVec 5) ∉ maskRegs 1 ∧ (16 : BitVec 5) ∉ maskRegs 0x2001 ∧ (2 : BitVec 5) ∉ maskRegs 0x2001 ∧ (0 : BitVec 5) ∉ maskRegs 0x2001
    ∧ (∀ m : BitVec 3, m.toNat ≤ 2 → met user (fun e => mwf regDefault e.x.regs && i64 (e.r 16) && i64 (e.r 17) && e.x.inflight.isEmpty
        && i64 (e.r 24) && i64 (e.r 25) && !e.x.stdy) (.bigstep (qUp 1) ⟨24, 16, 17, m, 0⟩ none) = true)
    ∧ (let s := tweak user fun x => { x with routine := some (eU.blockRoutine .bcopy ⟨16, 2, 6, 0, 0⟩) }
       s.canIssue 0 1 = true ∧ (s.ctx 0 1).routine = some (eU.blockRoutine .bcopy ⟨16, 2, 6, 0, 0⟩)) := by decide +kernel

/-- BIGSTEP: the sum of two limbs and a carry, with its carry out; with a condition due it stops at its check point. -/
theorem test_bigstep_value :
    let s := withRegs user [(16, Word.rawOf 0xFFFFFFFFFFFFFFFF), (18, Word.fx 0), (19, Word.fx 1)]
    regAfter (runs s (.bigstep (qUp 1) ⟨18, 16, 17, 0, 0⟩ none)) 18 = Word.rawOf 7
      ∧ regAfter (runs s (.bigstep (qUp 1) ⟨18, 16, 17, 0, 0⟩ none)) 19 = Word.rawOf 1
      ∧ (((runs s (.bigstep (qUp 1) ⟨18, 16, 17, 0, 0⟩ (some 0))).ctx 0 1).routine.map (·.stopped)) = some true := by decide +kernel

/-- A step of SAVEM and of LOADM of register 0 of its block; turns of BCOPY, BCMP and HASH at a word that is no capability. -/
theorem test_meets_turns :
    let a : Routine := { eU.areaRoutine .savem ⟨16, 2, 0x2001⟩ with begun := true }
    let r : Routine := { eU.blockRoutine .bcopy ⟨16, 2, 6, 0, 0⟩ with begun := true, count := 1 }
    let e := user.routineEnv 0 1 r
    a.begun = true ∧ (a.base.setWidth 8).getLsbD 0 = true ∧ (a.base.setWidth 8).getLsbD 1 = false
      ∧ stores e (BitVec.ofNat 64 (a.area + 16)) (.word (e.r 8) .keep) (storeAcc [e.r 8]) 0x3000410 = true
      ∧ resolves (e.copyIn (a.area + 16)) = true ∧ e.x.unfetched = 0
      ∧ ({ a with base := 0 }.base.setWidth 8 : BitVec 8) = 0
      ∧ 0 < r.count ∧ r.sub = 0 ∧ okIs (capCheck ⟨r.w0, r.w1⟩ 0 8 pR) 0x10400 = true
      ∧ okIs (e.readMem 0x10400) (Word.fx 41, ⟨0x3000400, true⟩, []) = true ∧ delivers e (Word.fx 41) = true ∧ isCapType (Word.fx 41).typ = false
      ∧ okIs (capCheck ⟨r.w2, r.w3⟩ 0 8 pW) 0x10800 = true ∧ okIs (capCheck ⟨r.w2, r.w3⟩ 0 8 pR) 0x10800 = true
      ∧ stores e 0x10800 (.word (Word.fx 41) .colour) .writeT 0x3000800 = true
      ∧ okIs (e.readMem 0x10800) (Word.rawZero, ⟨0x3000800, true⟩, []) = true ∧ delivers e Word.rawZero = true := by decide +kernel

/-! ### Contexts, messages, barriers -/

theorem test_meets_contexts :
    (∀ i ∈ ([.yield (qUp 1) ⟨0, 0, 0, 0, 0⟩, .wait (qUp 1) ⟨20, 0, 8⟩, .timer (qUp 1) ⟨0, 16, 0, 0, 0⟩] : List Instr),
      met user (fun e => fix (e.r 16)) i = true)
    ∧ met super (fun e => e.x.level != lvU) (.steady (qUp 1) ⟨0, 0, 512⟩) = true
    ∧ (512#15).toNat ≤ 512 ∧ (user.ctx 0 1).evf &&& 1 = 0 ∧ ((tweak user fun x => { x with evf := 3 }).ctx 0 1).evf &&& 1 ≠ 0
    ∧ (user.ctx 0 1).steadyUsed = false ∧ (user.ctx 0 1).stdy = false
    ∧ ((tweak user fun x => { x with steadyUsed := true }).ctx 0 1).steadyUsed = true
    ∧ (((tweak user fun x => { x with steadyFrom := 5 }.setSt 8 1 1)).ctx 0 1).stdy = true ∧ 4 + 512 ≤ 5 + 511 := by decide +kernel

/-- Another READY context of the same priority. -/
theorem test_meets_yield :
    let s := user.setCtx 0 2 { st := 0x3FFF0200 }
    (∃ j, j < 32 ∧ j ≠ 1 ∧ (s.ctx 0 j).state = stReady ∧ s.prioOf 0 1 ≤ s.prioOf 0 j)
      ∧ ((runs s (.yield (qUp 1) ⟨0, 0, 0, 0, 0⟩)).nib 0).running = none := ⟨⟨2, by decide +kernel⟩, by decide +kernel⟩

theorem test_meets_messages :
    let s := tweak user fun x => { x with queue := [Word.fx 1, Word.fx 2] }
    let t := user.setCtx 0 2 { st := 0x3FFF0200 }
    met user (fun e => fix (e.r 16) && !isCapType (e.r 17).typ && clean e [20, 16, 17]) (.send (qUp 1) ⟨20, 16, 17, 0, 0⟩) = true
      ∧ met user (fun e => e.x.queue.isEmpty) (.recv (qUp 1) ⟨20, 0, 0, 0, 0⟩) = true
      ∧ met s (fun e => e.x.queue == [Word.fx 1, Word.fx 2] && !isRefType (Word.fx 1).typ) (.recv (qUp 1) ⟨20, 0, 0, 0, 0⟩) = true
      ∧ (∀ i ∈ ([.xr (qUp 1) ⟨20, 16, 143⟩, .xw (qUp 1) ⟨20, 16, 143⟩] : List Instr),
        met super (fun e => e.x.level != lvU && fix (e.r 16) && decide ((e.r 16).pay.toNat ≤ 31) && (e.r 16).pay != 0
          && (e.r 16).pay != 1 && clean e [20, 16] && (super.ctx 0 5).unfetched == 0) i = true)
      ∧ t.wcnAt (t.xlWard 0) 1 = some (0, 2) ∧ t.accepts 0 2 = true ∧ user.accepts 0 2 = false ∧ t.wcnAt (t.xlWard 0) 2 = some (17, 1)
      ∧ t.wcnAt (t.xlWard 0) 3 = none ∧ ((s.ctx 0 1).queue = [Word.fx 1, Word.fx 2]) := by decide +kernel

/-- A dropped store, a store on its way, an invalidation not done. -/
theorem test_meets_barriers :
    let b := tweak user fun x => { x with barFault := true, barAddr := 0x10000 }
    let w := user.modNib 0 fun n => { n with storeBuf := [{ ctx := 1, pa := 0x3000000, va := 0x10000, kind := .word Word.nil .keep }] }
    (∀ i ∈ ([.lbar (qUp 1) ⟨0, 0, 0, 0⟩, .sbar (qUp 1) ⟨0, 0, 0, 0⟩, .fbar (qUp 1) ⟨0, 0, 0, 0⟩] : List Instr),
      met user (fun e => !e.x.barFault && !e.storesOut && e.x.xinvs.all e.s.xinvDone) i = true
      ∧ met b (fun e => e.x.barFault) i = true ∧ met w (fun e => !e.x.barFault && e.storesOut) i = true)
    ∧ (∀ i ∈ ([.xinvWard (qUp 1) ⟨0, 0, 0, 0⟩, .xinvPage (qUp 1) ⟨0, 24, 0, 0⟩] : List Instr),
      met super (fun e => e.x.level != lvU && i64 (e.r 24)) i = true)
    ∧ (let w := wordZ 0x79 2 ⟨0, 0, 0, 0⟩
       ready (holding exec0 w) (qUp 0) && alone (holding exec0 w) (qUp 0) w) = true ∧ 2 ≤ eD.x.level.toNat := by decide +kernel

/-! ### Events of a nib's memory path -/

/-- A walk that ends with this result. -/
def walkIs (r : Except TrapReq (TlbEnt × List WalkEnt)) (e : TlbEnt) (ks : List WalkEnt) : Bool :=
  match r with
  | .ok x => decide (x = (e, ks))
  | .error _ => false

def walkFails (r : Except TrapReq (TlbEnt × List WalkEnt)) : Bool :=
  match r with
  | .ok _ => false
  | .error x => x.cause == .walk && x.deny.isNone

def parkedOn (s : State) (w : Wait) : State := tweak s fun x => { x with parked := some { why := w } }

/-- Tables at 0x45_0000_0000: the root's entry 0 names a table whose entry 0 is a large leaf over the heap's first 512 MiB. -/
def tables (s : State) : State :=
  { (s.setReg (nibPage 0) 0).setReg (nibPage 0 + 4) 0x45 with
    mem := [(0x8A0000000, Word.mk0 Ty.xlate 0x4500010000000001), (0x8A0002000, Word.mk0 Ty.xlate 0x5FD)] }

/-- A request that no line of memory troubles, one with a correctable error at a line, one whose replicas differ. -/
def oneBit (l : Nat) : Meets := { errs := [(l, [[.bit 3]])] }

theorem test_meets_meets :
    user.meets (fun _ => true) {} user ∧ ({} : Meets).agree = true ∧ ({ agree := false } : Meets).agree = false
      ∧ user.meets (fun l => l == 0x3000000) (oneBit 0x3000000) (user.meet (fun l => l == 0x3000000) (oneBit 0x3000000).errs).1 := by
  refine ⟨⟨rfl, rfl⟩, rfl, rfl, rfl, ?_⟩
  have h : (user.meet (fun l => l == 0x3000000) (oneBit 0x3000000).errs).2 = true := by decide +kernel
  rw [← h]

/-- A walk to a large leaf, a walk that meets a RAW word, a page verdict, and denied, allowed and unpopulated blocks. -/
theorem test_meets_walks :
    let s := parkedOn (tables user) (.walk 0x20000)
    let t := parkedOn user (.walk 0x40000000000)
    let a := { user.nibAsker 0 1 lvU with fall := false }
    walkIs (walk s 0 0x20000) { ward := 2, vpn := 0, large := true, ppn := 0, rights := 0x3F, c := true, dev := false }
        [{ level := 1, ward := 2, pre := 0, entry := 0x4500010000000001 }, { level := 2, ward := 2, pre := 0, entry := 0x5FD }] = true
      ∧ walkFails (walk t 0 0x40000000000) = true
      ∧ ((parkedOn user (.page 0x3000000 true true)).ctx 0 1).parked = some { why := .page 0x3000000 true true }
      ∧ ((parkedOn user (.block 0x3000000 .read false true)).ctx 0 1).parked = some { why := .block 0x3000000 .read false true }
      ∧ s.resending 0 = false ∧ t.resending 0 = false
      ∧ user.rubAllows a .read 0x3000000 = true ∧ user.rubAllows a .read 0x10000 = false ∧ inMem 0x3000000 = true
      ∧ ({ user with rubActive := [(0, { start := 0, last := 0xFFFFFFFF, attr := 0x8FFFF030 })] } : State).rubAllows a .read 0xE000000000 = true
      ∧ inMem 0xE000000000 = false ∧ blockAt 0xE000000000 = none := by decide +kernel

/-- Lines with one error, with two on the check read, and with a whole die lost, in the heap and in the system region. -/
theorem test_meets_memory_code :
    codeFinds [.bit 3] = .fixed (.bit 3) ∧ codeFinds [.die 0] = .lost ∧ (∀ e ∈ ([[.bit 3]] : Ecc), codeFinds e ≠ .lost)
      ∧ 0 < user.sparesOf (stackOf 0x3000000) ∧ mwf (fun _ => sparesAtReset) user.spares = true ∧ inHeap 0x3000000 = true
      ∧ inHeap 0x4500000000 = false ∧ memOk user = true ∧ 0x3000000 % 64 = 0
      ∧ (user.eccRead 0x3000000 [[.die 0]]).1.word 0x3000008 = Word.poisonOf 1 := by decide +kernel

/-- A read at its inkwell; a read whose line is lost; the fill a context waits for. -/
theorem test_meets_reads :
    let r : ReadReq := { nib := 0, ctx := 1, line := 0x3000A00, cached := true, fetch := false }
    let s := { parkedOn user (.line 0x3000A00 true) with reads := [r] }
    let m : FillMsg := { nib := 0, ctx := 1, line := 0x3000A00, cached := true, fetch := false, ans := .words (s.line 0x3000A00) }
    takeAt s.reads 0 = some (r, []) ∧ s.resending 0 = false ∧ s.readWaits r.line = false ∧ s.fetchDenied r = false
      ∧ { s with reads := [] }.meet (fun l => l == r.line) [] = ({ s with reads := [] }, true)
      ∧ ({ s with reads := [] }.meet (fun l => l == 0x4500000000) [(0x4500000000, [[.die 0]])]).2 = false
      ∧ takeFirst (fun m => m.nib == 0 && m.ctx == 1) [m] = some (m, []) ∧ { s with fills := [m] }.fillWaits m = false
      ∧ (s.ctx 0 1).parked = some { why := .line m.line true } := by decide +kernel

/-- R182, R295: pairs of plain words, of a capability, and a byte store at each end of a word. -/
theorem test_store_pairs :
    (capLo 0x10400 0x47B).typ = Ty.capLo ∧ (capHi 0x10400 0 128).typ = Ty.capHi ∧ isCapType (Word.fx 1).typ = false
      ∧ (StoreKind.word (Word.fx 1) .keep).apply 0x3000018 (capLo 0x10400 3) (capHi 0x10400 0 128)
          = (Word.rawOf 0x104000003, Word.rawOf 1)
      ∧ ((StoreKind.byte 7 0xAB).apply 0x3000010 (Word.rawOf 1) (Word.fx 2)).1 = Word.rawOf 0xAB00000000000001
      ∧ ((StoreKind.byte 0 0xAB).apply 0x3000010 (Word.rawOf 1) (Word.fx 2)).1 = Word.rawOf 0xAB := by decide +kernel

def ent0 : StoreEnt := { ctx := 1, pa := 0x3000018, va := 0x10018, kind := .word (Word.fx 1) .keep, seq := 3 }
def entDev : StoreEnt := { ctx := 1, pa := pgDBG, va := 0, kind := .dev 5, seq := 4 }
/-- Registers shared with every requester. -/
def open' (s : State) : State := { s with rubActive := s.rubActive ++ [(1, { start := 0xC0000000, last := 0xC3FFFFFF, attr := 0x8FFFF033 })] }

/-- A buffered store, one on its way with no other holder, one that its lane denies, one to a register page, an acknowledgement. -/
theorem test_meets_stores_on_their_way :
    let b := user.modNib 0 fun n => { n with storeBuf := [ent0] }
    let t := (open' user).modNib 0 fun n => { n with tracker := [ent0, entDev, { ent0 with pa := 0x40 }] }
    let a := { t with storeAcks := [(0, ent0)] }
    (b.nib 0).storeBuf = [ent0] ∧ b.resending 0 = false ∧ t.resending 0 = false ∧ a.resending 0 = false ∧ (b.nib 0).tracker.length < 32 ∧ ent0.ordered = false ∧ (∀ c, c < 32 → (t.ctx 0 c).parked = none)
      ∧ (t.nib 0).tracker[0]? = some ent0 ∧ (t.nib 0).tracker[1]? = some entDev ∧ isDev ent0 = false ∧ t.held (lineOf ent0.pa) = false
      ∧ memOk t = true ∧ (t.holderNibs (t.inkEnt (lineOf ent0.pa)).holders).all (fun m => m == 0 && !ent0.kind.formed) = true
      ∧ t.storeDenied 0 ent0 = false ∧ t.storeDenied 0 entDev = false ∧ t.storeDenied 0 { ent0 with pa := 0x40 } = true
      ∧ (t.writes.any fun w => lineOf w.ent.pa == lineOf ent0.pa) = false ∧ ent0.arrived = false ∧ ent0.done = false ∧ ent0.guarded = false
      ∧ (((t.nib 0).tracker.take 1).any fun j => lineOf j.pa == lineOf entDev.pa && !j.done) = false
      ∧ blockAt entDev.pa = some .dbg ∧ t.answers' .dbg = true ∧ takeFirst (fun a => a.1 == 0) a.storeAcks = some ((0, ent0), []) := by
  decide +kernel

/-- A line that nib 5 holds, an invalidation for it, the acknowledgements of one and of two nibs, and one that a host's write awaits. -/
theorem test_meets_invalidations :
    let t := user.modNib 0 fun n => { n with tracker := [ent0] }
    let s := { t with ink := [(0x3000000, { holders := .ptrs [5] })] }
    let w (hs : List Nat) : State := { s with acks := [(5, 0x3000000)], writes := [⟨0, ent0, hs⟩] }
    let h : HostWrite := { port := 3, ward := 2, blocks := [], waits := [(5, 0x3000000)] }
    takeFirst (fun p => p.1 == 5 && !({ s with invals := [(5, 0x3000000)] } : State).invalWaits p) [((5 : Nat), (0x3000000 : Nat))]
        = some ((5, 0x3000000), [])
      ∧ ((s.holderNibs (s.inkEnt (lineOf ent0.pa)).holders).filter fun m => m != 0 || ent0.kind.formed) ≠ []
      ∧ s.storeDenied 0 ent0 = false ∧ s.held (lineOf ent0.pa) = false ∧ s.logged (lineOf ent0.pa) = false
      ∧ takeAt (w [5]).acks 0 = some ((5, 0x3000000), []) ∧ (w [5]).writes = [⟨0, ent0, [5]⟩] ∧ lineOf ent0.pa = 0x3000000
      ∧ (w [5]).held 0x3000000 = false ∧ (w [5]).hostWrites = [] ∧ ([5, 9] : List Nat).erase 5 ≠ []
      ∧ ({ s with acks := [(5, 0x3000000)], hostWrites := [h] } : State).writes = [] ∧ h.waits = [(5, 0x3000000)] := by decide +kernel

/-- A store to a page whose domain is off; a load of a register, barriers over and not over, a copy record, a shaded word. -/
theorem test_meets_waits :
    let off := { user with power := { user.power with domains := 0 } }
    let d := { entDev with pa := pgPCB 0 }
    let t := off.modNib 0 fun n => { n with tracker := [d], shade := [(Word.mk0 Ty.cons 0x10080, Word.rawZero)] }
    let b := parkedOn user (.barrier .sbar)
    let w := b.modNib 0 fun n => { n with tracker := [ent0] }
    (∀ c, c < 32 → (t.ctx 0 c).parked = none) ∧ (t.nib 0).tracker[0]? = some d ∧ d.done = false ∧ t.deadTarget d = true
      ∧ ((parkedOn user (.devLoad 0xE000000000)).fills.any fun m => m.nib == 0 && m.ctx == 1 && m.line == 0xE000000000) = false
      ∧ ((parkedOn user (.devLoad 0xE000000000)).ctx 0 1).parked = some { why := .devLoad 0xE000000000 }
      ∧ b.barrierOver 0 1 .sbar = true ∧ w.barrierOver 0 1 .sbar = false ∧ ((parkedOn user (.bucket 0)).ctx 0 1).parked = some { why := .bucket 0 }
      ∧ (t.nib 0).shade = [(Word.mk0 Ty.cons 0x10080, Word.rawZero)] ∧ (t.collOf (t.xlWard 0)).grey.length < greyMax := by decide +kernel

/-! ### Traps, scheduling, messages, spills -/

def due (k : Cause) : TrapReq := { cause := k, info := 0 }
def dueIn (s : State) (c : Nat) (k : Cause) (f : Context → Context) : State := s.modCtx 0 c fun x => f { x with faultDue := some (due k) }

/-- A context of which a fault is due. -/
def faultIn (s : State) (c : Nat) (k : Cause) : Bool :=
  let x := (s.ctx 0 c).settle (c == 0) (s.now 0 + 64)
  s.serves 0 && (s.nib 0).running == some c && x.routine.isNone && x.parked.isNone && x.xfer.isNone && x.arith.isEmpty
    && x.spillFault.isNone && x.faultDue == some (due k) && (s.nib 0).heldTraps.isEmpty && !s.checkDue 0 c

/-- Each of the ways a fault is taken: at S, at D from a ward context, at D, at M and as a machine check in context 0. -/
theorem test_meets_traps :
    let live (v : Context) : Context := { v with saveS := { cause := v.saveS.cause ||| 4 } }
    let dlive (v : Context) : Context := { v with saveD := { cause := v.saveD.cause ||| 4 } }
    let dmlive (v : Context) : Context := { dlive v with saveM := { cause := v.saveM.cause ||| 4 } }
    let h := exec0.modNib 0 fun b => { b with heldChecks := [⟨0x20, 0⟩] }
    faultIn (dueIn user 1 .tag id) 1 .tag = true ∧ Cause.tag.atD = false ∧ ((dueIn user 1 .tag id).ctx 0 1).saveS.live = false
      ∧ faultIn (dueIn user 1 .bus id) 1 .bus = true ∧ Cause.bus.atD = true ∧ ((dueIn user 1 .bus id).ctx 0 0).queue.length < 8
      ∧ faultIn (dueIn user 1 .tag live) 1 .tag = true ∧ ((dueIn user 1 .tag live).ctx 0 1).saveS.live = true
      ∧ faultIn (dueIn exec0 0 .tag id) 0 .tag = true ∧ ((dueIn exec0 0 .tag id).ctx 0 0).saveD.live = false
      ∧ faultIn (dueIn exec0 0 .tag dlive) 0 .tag = true ∧ ((dueIn exec0 0 .tag dlive).ctx 0 0).saveD.live = true
      ∧ ((dueIn exec0 0 .tag dlive).ctx 0 0).saveM.live = false
      ∧ faultIn (dueIn exec0 0 .tag dmlive) 0 .tag = true ∧ ((dueIn exec0 0 .tag dmlive).ctx 0 0).saveM.live = true
      ∧ h.serves 0 = true ∧ (h.nib 0).heldChecks = [⟨0x20, 0⟩] ∧ (h.ctx 0 0).state = stRunning ∧ (h.ctx 0 0).saveM.live = false
      ∧ (checkCause 0x20).code = 0x20 := by decide +kernel

theorem test_meets_scheduling :
    let s := user.setCtx 0 2 { st := 0x3FFF0204 }
    let same := user.setCtx 0 2 { st := 0x3FFF0200 }
    let idle := s.modNib 0 fun b => { b with running := none }
    let r := { eU.blockRoutine .bcopy ⟨16, 2, 6, 0, 0⟩ with stopped := true }
    let m := tweak user fun x => { x with routine := some r }
    s.choose 0 (s.readyOn 0) = some 2 ∧ s.decides 0 = true ∧ (idle.nib 0).running = none ∧ idle.decides 0 = true
      ∧ (s.nib 0).running = some 1 ∧ s.keepsNib 0 1 = false ∧ s.prioOf 0 1 < s.prioOf 0 2 ∧ (((s.nib 0).lastRun[s.prioOf 0 2]?).getD 0) < 32
      ∧ same.choose 0 ((same.readyOn 0).filter fun d => same.prioOf 0 d == same.prioOf 0 1) = some 2 ∧ same.keepsNib 0 1 = false
      ∧ same.choose 0 (same.readyOn 0) = some 2 ∧ same.prioOf 0 2 ≤ same.prioOf 0 1
      ∧ ((tweak user fun x => { x with timer := some 5 }).ctx 0 1).timer ≠ none ∧ (user.nib 0).closed = false
      ∧ ((user.modNib 0 fun b => { b with closed := true }).nib 0).closed = true
      ∧ ((tweak user fun x => { x with timer := some 5, waiting := some (1, 7, 3) }).ctx 0 1).waiting = some (1, 7, 3)
      ∧ ((tweak user fun x => { x with steady := 9 }.setSt 8 1 1).ctx 0 1).stdy = true
      ∧ (m.ctx 0 1).routine = some r ∧ r.stopped = true ∧ (m.ctx 0 1).parked = none ∧ (m.ctx 0 1).stdy = false ∧ (m.ctx 0 1).xfer = none := by
  decide +kernel

def frame0 : SpillFrame := { win := 3, hb := false, cursor := 0x10800, words := List.replicate 16 (Word.fx 1) }

/-- A word to a context that takes it and to one that does not; an answer awaited; a frame that goes to memory, and one whose page may
not be written. -/
theorem test_meets_arrivals :
    let t := user.setCtx 0 2 { st := 0x3FFF0200 }
    let m : SendMsg := { nib := 0, ctx := 1, tnib := 0, tctx := 2, word := Word.fx 5 }
    let a := { parkedOn user (.answer 9) with answers := [(0, 1, true)] }
    let f := tweak user fun x => { x with frames := [frame0] }
    let g := { frame0 with cursor := 0x20000 }
    let h := (tweak user fun x => { x with frames := [g] }).modNib 0 fun b => { b with tlb := b.tlb ++ [{ page 2 0x300 with rights := 9 }] }
    let s := tweak user fun x => { x with suspended := some lvS }
    t.accepts 0 2 = true ∧ user.accepts 0 2 = false ∧ takeAt [m] 0 = some (m, []) ∧ t.sendWaits m = false ∧ f.resending 0 = false
      ∧ h.resending 0 = false ∧ f.spillTargets 0 1 ≠ []
      ∧ takeFirst (fun a => a.1 == 0 && a.2.1 == 1) a.answers = some ((0, 1, true), [])
      ∧ (a.ctx 0 1).parked = some { why := .answer 9 } ∧ (f.ctx 0 1).frames = [frame0] ∧ (f.ctx 0 1).spillHeld = false
      ∧ (f.ctx 0 1).parked = none
      ∧ (match State.spillPlan 0 1 f frame0.cursor.toNat frame0.pairs with
          | .ok (u, ws) => u == f && ws.length == 9 && (ws.any fun w => f.held (lineOf w.1)) == false
          | .error _ => false) = true
      ∧ (h.ctx 0 1).frames = [g] ∧ (h.ctx 0 1).spillHeld = false
      ∧ (match State.spillPlan 0 1 h g.cursor.toNat g.pairs with
          | .error (.trap t, _) => t.deny.isNone
          | _ => false) = true
      ∧ lvS ≠ lvU ∧ (s.ctx 0 1).suspended = some lvS ∧ ((s.ctx 0 1).save lvS).live = false := by decide +kernel

/-! ### Hosts: rings, memory, links -/

/-- Port 3 is up and serves ward 2, whose rings 0 and 5 are in use; the Rubric lets every requester reach the registers. -/
def hosted : State :=
  { user with
    rubActive := [(0, { start := 0x80000, last := 0xFFFFF, attr := 0x8FFFF000 }), (1, { start := 0xC0000000, last := 0xC3FFFFFF, attr := 0x8FFFF033 })]
    ports := [(3, { up := true, cmem := true, speed := 6, dec0 := some 0, dec1 := some 0x10000000000 })]
    binds := [(3, some 2)]
    rings := [(128, { en := true, sq := 0x1000, cq := 0x8000, sqlog := 4, cqlog := 5, port := 3 }),
              (133, { en := true, sq := 0x2000, cq := 0x9000, sqlog := 4, cqlog := 5, port := 3, wcn := 1, xva := 0x100000, xpa := 0x3100000 })]
    ctxs := user.ctxs ++ [(2, { st := 0x3FFF0200 })]
    nibs := [(0, { nibUp 1 with icache := [] })] }

/-- A doorbell at the ring's last index and one beyond it, a completion head, the wake event, a descriptor's arrival, CONSUMED read again. -/
theorem test_meets_rings :
    let h : HostRead := { port := 3, addr := 0x2000, len := 64, why := .desc 2 5 0 }
    let s := { hosted with doorEvents := [(2, 5, 7)], hostReads := [h] }
    s.bound 3 = some 2 ∧ s.boot.done = true ∧ (s.port 3).up = true ∧ s.bellDenied 3 2 = false ∧ (s.ring 2 5).en = true
      ∧ (15#32).toNat < (s.ring 2 5).size ∧ (s.ring 2 5).size ≤ (16#32).toNat ∧ (16#32).toNat < 2 ^ 16 ∧ (s.port 3).heldBells = []
      ∧ mget (fun _ => []) s.nextInputs 3 = [] ∧ s.eventWaits 0 = false ∧ h.late = none ∧ (s.port 3).d3 = false ∧ s.takesInput = true
      ∧ (s.port (s.ring 2 5).port).d3 = false
      ∧ (31#32).toNat < 2 ^ (s.ring 2 5).cqlog ∧ takeAt s.doorEvents 0 = some ((2, 5, 7), []) ∧ s.wcnAt 2 (BitVec.ofNat 64 (s.ring 2 5).wcn) = some (0, 2)
      ∧ (s.nib 0).active = true ∧ (s.nib 0).parkedBy = 0 ∧ (s.ctx 0 0).queue.length < 8 ∧ (s.ctx 0 2).state ≠ stIdle
      ∧ (s.ctx 0 2).waiting = none ∧ takeFirst (fun h => h.why == .desc 2 5 (s.ring 2 5).head) s.hostReads = some (h, [])
      ∧ s.replayed h.port h.addr 64 = none ∧ (s.ward 2).cmds.length < 64 := by decide +kernel

/-- A read and a write of the last bytes of a line, a denied line, a line that a nib holds, a write of the tag aperture, a snoop. -/
theorem test_meets_host_memory :
    hosted.bound 3 = some 2 ∧ (hosted.port 3).changing = false ∧ hosted.aperture 3 .payload = true ∧ hosted.aperture 3 .tags = true
      ∧ logOk hosted = true ∧ (hosted.hostReads.any fun h => h.holds 3 0x40) = false
      ∧ ([{ port := 3, addr := 0x40, len := 8, why := .op 2 0 0, cache := true }] : List HostRead).any (fun h => h.holds 3 0x40) = true
      ∧ hosted.meet (fun _ => true) [] = (hosted, true)
      ∧ hosted.rubAllows (hostAsker 3 2) .read 0x3000000 = true ∧ hosted.rubAllows (hostAsker 3 2) .write 0x3000000 = true
      ∧ hosted.rubAllows (hostAsker 3 2) .read 0x40 = false ∧ hosted.rubAllows (hostAsker 3 2) .write 0x40 = false
      ∧ 0x3000038 % 64 + 8 ≤ 64 ∧ 0x3000038 + 8 ≤ heapEnd ∧ memOk hosted = true
      ∧ hosted.holderNibs (hosted.inkEnt 0x3000000).holders = []
      ∧ (let s := { hosted with ink := [(0x3000000, { holders := .ptrs [5] })] }; s.holderNibs (s.inkEnt 0x3000000).holders ≠ [])
      ∧ (0xC00000 % 64) % 16 = 0 ∧ 0xC00000 + 16 ≤ heapEnd / 4 ∧ hosted.rubAllows (hostAsker 3 2) .read (4 * 0xC00000) = true
      ∧ (∀ i, i < 8 → isCapType (hosted.word (0x3000000 + 8 * i)).typ = false) ∧ (hosted.port 3).up = true := by decide +kernel

theorem test_meets_links :
    let raw := { hosted with boot := {} }
    let dark := { hosted with ports := [] }
    let wide := { hosted with ports := [(3, { up := true, changing := true })] }
    hosted.boot.done = true ∧ raw.boot.done = false ∧ (raw.port 3).up = true ∧ (dark.port 3).up = false ∧ dark.domain 47 = true
      ∧ dark.power.off = false ∧ dark.power.hold = false ∧ (wide.port 3).changing = true ∧ hosted.linksFailed.getLsbD 5 = false := by decide +kernel

/-! ### Strokes -/

def closing (us : List Nat) : State := { user with stroke := { user.stroke with phase := .closing, reports := us.map fun u => (u, 0) } }

/-- A tick; reports of an engine with and without a ward, a port, the root, an inactive and an active nib; a unit whose link re-sends. -/
theorem test_meets_close :
    let s := closing [0]
    let q := s.modNib 0 fun b => { b with storeBuf := [ent0] }
    let j := { s with journal := [(3, [.doorbell 2 5 7])] }
    user.stroke.phase = .opened ∧ user.stroke.voided = false ∧ user.tickDue .period = true ∧ user.tickDue .short = false
      ∧ s.stroke.phase = .closing ∧ memOk s = true
      ∧ (∀ u ∈ [1, 17, 550, 562, 583, 590], s.reported u = false ∧ s.silent u = false ∧ s.resending u = false)
      ∧ (∀ u ∈ [1, 17, 550, 562, 564, 583, 590], s.gatedUnit u = false) ∧ s.reported 564 = false ∧ s.stroke.misfits = []
      ∧ ({ s with linksFailed := 1 } : State).gatedUnit 564 = true ∧ ({ s with power := { s.power with domains := 0 } } : State).gatedUnit 583 = true
      ∧ ({ s with resend := [(0, 1)] } : State).resending 564 = true ∧ s.resending 564 = false
      ∧ (let v := { s with stroke := { s.stroke with voided := true, faults := [⟨604, .colophon, 9⟩] } }
         v.stroke.voided = true ∧ (∀ g ∈ v.stroke.faults, (⟨599, .lockstep, 2⟩ : FaultRep).rank < g.rank)
           ∧ ∀ g ∈ v.stroke.faults, g.rank ≤ (⟨5, .lockstep, 900⟩ : FaultRep).rank)
      ∧ s.engineWard (550 - 544) = none ∧ ({ s with engines := [(6, 3)] } : State).engineWard 6 = some 2
      ∧ ({ s with resend := [(0, 1)] } : State).resending 1 = true
      ∧ 0 < j.journalLines 3 ∧ j.journalLines 3 ≤ 0x100000
      ∧ (closing []).nibQuiet 0 = true ∧ ((closing []).nib 0).active = true ∧ ((closing []).nib 0).shade = [] ∧ q.nibQuiet 0 = false
      ∧ ((closing []).modNib 0 fun b => { b with retired := true }).silent 0 = false
      ∧ (((closing []).modNib 0 fun b => { b with retired := true }).nib 0).active = false
      ∧ (∀ v, v < 1 → s.reported v = true) ∧ ({ user with applies := [(8, { pend := true })] } : State).apply' 8 = { pend := true }
      ∧ user.power.off = false := by decide +kernel

theorem mem_upFrom (a n : Nat) : ∀ u, a ≤ u → u < a + n → u ∈ upFrom a n := by
  induction n generalizing a with
  | zero => intro u h1 h2; omega
  | succ n ih =>
    intro u h1 h2
    by_cases h : u = a
    · subst h; simp [upFrom]
    · simp only [upFrom, List.mem_cons]; exact .inr (ih (a + 1) u (by omega) (by omega))

theorem reported_upFrom (a b n : Nat) (u : Nat) (h : u < a ∨ (b ≤ u ∧ u < b + n)) :
    (closing (upFrom 0 a ++ upFrom b n)).reported u = true := by
  simp only [State.reported, closing, List.any_map, List.any_eq_true]
  refine ⟨u, ?_, by simp⟩
  rcases h with h | h
  · exact List.mem_append_left _ (mem_upFrom 0 a u (Nat.zero_le u) (by omega))
  · exact List.mem_append_right _ (mem_upFrom b n u h.1 h.2)

/-- Every unit has reported; all others have and the root has not. -/
theorem test_meets_commit :
    let s := closing (upFrom 0 604 ++ upFrom 604 0)
    let r := closing (upFrom 0 598 ++ upFrom 599 5)
    s.stroke.phase = .closing ∧ s.stroke.voided = false ∧ (∀ u, u < 604 → s.reported u = true) ∧ (closing []).reported 0 = false
      ∧ (∀ v, v < 604 → v ≠ 598 → r.reported v = true) ∧ r.reported 598 = false ∧ r.silent 598 = false ∧ r.resending 598 = false :=
  ⟨rfl, rfl, fun u hu => reported_upFrom _ _ _ u (.inl hu), by decide +kernel, fun u hu h => reported_upFrom _ _ _ u (by omega), by decide +kernel,
    by decide +kernel, by decide +kernel⟩

/-- A dirty line, and lines of an image that are to be written. -/
theorem test_meets_images :
    let s := { user with imagePending := [(0, 1, 2), (0, 1, 19)] }
    2 ∈ ((tweak user fun x => { x with dirty := 4 }).ctx 0 1).dirtyLines ∧ (user.nib 0).active = true ∧ s.stroke.misfits = []
      ∧ (0, 1, 3) ∈ ({ user with shadowDue := [(0, 1, 3)] } : State).shadowDue
      ∧ (let g := s.modNib 0 fun b => { b with retired := true }; (g.nib 0).active = false ∧ (0, 1, 2) ∈ g.flipShadows.imagePending)
      ∧ (∀ l, l < 4 → user.linksFailed.getLsbD (2 * l) = false) ∧ (∀ e ∈ s.imagePending, e.2.1 < 32 ∧ e.2.2 < 30) ∧ memOk s = true
      ∧ (0, 1, 2) ∈ s.imagePending ∧ (0, 1, 19) ∈ s.imagePending ∧ (s.imagePending.filter fun e => e.1 == 0) = s.imagePending
      ∧ (s.imagePending.filter fun e => e.1 == 5) = [] := by decide +kernel

/-- A void after a disagreement of the colophons, a fourth attempt, and a log of one line. -/
theorem test_meets_void :
    let s := { user with stroke := { user.stroke with phase := .closing, voided := true, faults := [⟨604, .colophon, 0⟩] } }
    let l := { user with log := [{ line := 0x3000000, words := List.replicate 8 Word.nil }] }
    s.stroke.voided = true ∧ s.stroke.phase = .closing ∧ imagesOk s = true ∧ (∀ f ∈ s.stroke.faults, 544 ≤ f.unit ∧ (f.cause = .colophon ∨ f.cause = .lockstep))
           ∧ (∀ d, d < 63 → s.domain d = true ∨ s.power.lost.getLsbD d = true) ∧ s.power.pllA = true ∧ s.linksFailed = 0 ∧ s.stroke.attempt < 4
      ∧ s.ckpt.rings = [] ∧ s.hostWrites = [] ∧ s.power.l5 = false ∧ 4 ≤ ({ s.stroke with attempt := 4 } : Stroke).attempt ∧ user.stroke.voided = false
      ∧ memOk l = true ∧ (l.log.map LogLine.line).Nodup
      ∧ (∀ e ∈ l.log, e.line % 64 = 0 ∧ e.words.length = 8 ∧ l.rubAllows palAsker .writeT e.line = true) ∧ user.watching = true := by
  decide +kernel

/-! ### The collector -/

/-- An entry that shares the system region with every requester. -/
def sysEnt : RubEnt := { start := 0x10000000, last := 0x1FFFFFFF, attr := 0x8FFFF011 }

/-- Sheet 1 is a sheet of ward 2 at virtual sheet 0, in this state; a grey vector of one FIXNUM begins it. -/
def marking (state : Nat) (k : Coll) : State :=
  { user with
    coll := [(2, k)]
    engines := [(0, 3)]
    rubActive := user.rubActive ++ [(1, sysEnt)]
    mem := [(0x400000, { hdr Ty.vector 1 0 with col := 3 }), (0x400001, Word.fx 9),
            (0x889000008, Word.rawOf (BitVec.ofNat 64 (state * 2 ^ 60 + 2 * 2 ^ 52)))] }

def markState : State := marking shArena { phase := .mark, grey := [.word (Word.mk0 Ty.vector 0) Word.rawZero] }

theorem test_meets_scan :
    let s := markState
    s.engineWard 0 = some 2 ∧ s.engineOn 0 2 = true ∧ (s.collOf 2).phase = .mark ∧ (s.collOf 2).roots = []
      ∧ s.itemAtV 2 0 = some 0 ∧ s.heapAt 2 0 = some 0x2000000 ∧ memOk s = true ∧ (s.word 0x2000000).typ = Ty.header
      ∧ reservedWord (s.word 0x2000000) = false ∧ (s.word 0x2000000).cdr ≠ 1 ∧ s.itemWords 0x2000000 = 2
      ∧ s.itemPath 2 0x2000000 2 = [0x2000000, 0x2000008]
      ∧ (∀ b ∈ s.itemPath 2 0x2000000 2, isRefType (s.word b).typ = false ∧ (s.word b).typ ≠ Ty.capLo)
      ∧ (∀ b ∈ [s.greyHead 2, descAddr (sheetOf 0x2000000), 0x2000000], s.mayBy (some 0) .read b = true)
      ∧ s.mayBy (some 0) .writeT 0x2000000 = true ∧ s.meet (s.heapLine 2) [] = (s, true)
      ∧ s.roomFor (s.greyWords 2 (.word (Word.mk0 Ty.vector 0) Word.rawZero) + 40) = true := by decide +kernel

/-- A fetched root, a sheet to scan that the Rubric denies, a copy record, a sheet that cannot be parsed. -/
theorem test_meets_engine_work :
    let root := marking shArena { phase := .mark, roots := [(key 0 1, 2)] }
    let scan := { marking shArena { phase := .mark, scans := [1] } with rubActive := [(1, sysEnt)] }
    let rec0 : CopyRec := { ward := 2, src := 0x2000000, dst := 0x2001000, len := 16, done := 0 }
    let copy := { marking shCopy { phase := .evacuate } with copyRecs := [rec0] }
    let bad := { marking shCondemned { phase := .evacuate, parsing := [1] } with mem := [(0x400000, Word.poisonOf 1)] }
    (root.ctx 0 1).unfetched.getLsbD 2 = false ∧ root.imagePending.contains (0, 1, 2) = false ∧ root.roomFor 40 = true
      ∧ (root.collOf 2).roots ≠ []
      ∧ scan.roomFor 524290 = true ∧ scan.mayBy (some 0) .read (1 * sheetBytes) = false ∧ scan.mayBy (some 0) .write (descAddr 1) = true
      ∧ (copy.copyRecs.find? fun r => r.ward == 2) = some rec0 ∧ (copy.collOf 2).phase = .evacuate
      ∧ (bad.word (1 * sheetBytes)).typ = Ty.poison ∧ bad.cardByte (1 * sheetBytes) = 0 ∧ bad.copyRecs = []
      ∧ bad.mayBy (some 0) .read (1 * sheetBytes) = true ∧ bad.mayBy (some 0) .write (descAddr 1) = true := by decide +kernel

/-- An engine may touch every word of sheet 1. -/
theorem engine_may_sheet (s : State) (k : Acc) {r : Map RubEnt} (h : s.rubActive = user.rubActive ++ r) (a : Nat) (h1 : 0x2000000 ≤ a) (h2 : a < 0x4000000) :
    s.mayBy (some 0) k a = true := by
  have h3 : RubEnt.contains { start := 0x80000, last := 0xFFFFF, attr := 0x8FFFF000 } a = true := by
    have ha : RubEnt.first { start := 0x80000, last := 0xFFFFF, attr := 0x8FFFF000 } = 0x2000000 := by decide
    have hb : RubEnt.past { start := 0x80000, last := 0xFFFFF, attr := 0x8FFFF000 } = 0x4000000 := by decide
    have hv : RubEnt.valid { start := 0x80000, last := 0xFFFFF, attr := 0x8FFFF000 } = true := by decide
    simp only [RubEnt.contains, ha, hb, hv, Bool.true_and, Bool.and_eq_true, decide_eq_true_eq]
    exact ⟨h1, h2⟩
  have h4 : s.rubEntry a = some { start := 0x80000, last := 0xFFFFF, attr := 0x8FFFF000 } := by
    simp only [State.rubEntry, h, user, up, List.cons_append, List.find?, h3, Option.map]
  simp only [State.mayBy, State.rubAllows, State.grantAt, h4]
  rw [if_neg (fun h => absurd h.1 (by decide))]
  cases k <;> decide

theorem upFrom_lt (a n : Nat) : ∀ u, u ∈ upFrom a n → u < a + n := by
  induction n generalizing a with
  | zero => intro u h; simp [upFrom] at h
  | succ n ih =>
    intro u h
    simp only [upFrom, List.mem_cons] at h
    rcases h with rfl | h
    · omega
    · have := ih (a + 1) u h; omega

/-- The system region is shared by sysEnt. -/
theorem system_may (s : State) (k : Acc) {e : Nat × RubEnt} (h : s.rubActive = [e, (1, sysEnt)]) (he : e.2.past ≤ 0x4000000) (a : Nat)
    (h1 : 0x4400000000 ≤ a) (h5 : a < 0x4800000000) : s.rubAllows (pumAsker 0) k a = true := by
  have h3 : sysEnt.contains a = true := by
    have ha : sysEnt.first = 0x4400000000 := by decide
    have hb : sysEnt.past = 0x4800000000 := by decide
    have hv : sysEnt.valid = true := by decide
    simp only [RubEnt.contains, ha, hb, hv, Bool.true_and, Bool.and_eq_true, decide_eq_true_eq]
    omega
  have h2 : e.2.contains a = false := by
    simp only [RubEnt.contains, Bool.and_eq_false_iff, decide_eq_false_iff_not]
    exact Or.inr (by omega)
  have h4 : s.rubEntry a = some sysEnt := by
    simp only [State.rubEntry, h, List.find?, h2, h3, Option.map]
  simp only [State.rubAllows, State.grantAt, h4]
  rw [if_neg (fun h => absurd h.1 (by decide))]
  cases k <;> decide

/-- A sheet to be released that the engine may write, with its cards; one to be scanned that it may nowhere read. -/
theorem test_meets_sheets :
    let s := marking shReleasing { phase := .finish }
    let t := { marking shArena { phase := .mark, scans := [1] } with rubActive := [(1, sysEnt)] }
    (∃ rest, s.releasing 2 = 1 :: rest) ∧ s.roomFor 525400 = true
      ∧ (∀ l, l ∈ sheetLines 1 ∨ l ∈ cardLines 1 → s.mayBy (some 0) .write l = true)
      ∧ (t.collOf 2).scans = [1] ∧ (∀ i, i < 524288 → ¬ t.mayBy (some 0) .read (1 * sheetBytes + 64 * i) = true) := by
  refine ⟨⟨[], by decide +kernel⟩, by decide +kernel, ?_, by decide +kernel, ?_⟩
  · intro l hl
    simp only [sheetLines, cardLines, linesFrom, List.mem_map] at hl
    rcases hl with ⟨i, hi, rfl⟩ | ⟨i, hi, rfl⟩
    · have := upFrom_lt 0 _ i hi
      exact engine_may_sheet _ _ (r := [(1, sysEnt)]) rfl _ (by simp only [sheetBytes] at *; omega) (by simp only [sheetBytes] at *; omega)
    · have := upFrom_lt 0 _ i hi
      exact system_may _ _ rfl (by decide) _ (by simp only [sheetBytes, cardBase] at *; omega) (by simp only [sheetBytes, cardBase] at *; omega)
  · intro i hi
    have h2 : sysEnt.contains (1 * sheetBytes + 64 * i) = false := by
      have ha : sysEnt.first = 0x4400000000 := by decide
      simp only [RubEnt.contains, ha, Bool.and_eq_false_iff, decide_eq_false_iff_not, sheetBytes]
      exact Or.inl (Or.inr (by omega))
    have h4 : ({ marking shArena { phase := .mark, scans := [1] } with rubActive := [(1, sysEnt)] } : State).rubEntry
        (1 * sheetBytes + 64 * i) = none := by
      simp only [State.rubEntry, List.find?, h2, Option.map]
    simp only [State.mayBy, State.rubAllows, State.grantAt, h4]
    rw [if_neg (fun h => absurd h.1 (by decide)), if_neg (by decide)]
    decide

/-- A grey queue that is full. -/
theorem test_meets_full_queue :
    let k : Coll := { phase := .mark, grey := List.replicate greyMax (.rescan 0) }
    greyMax ≤ k.grey.length ∧ isWhite k (hdr Ty.vector 1 0) = true :=
  ⟨Nat.le_of_eq List.length_replicate.symm, by simp only [isWhite] <;> decide⟩

/-- A white and a grey item to shade. -/
theorem test_meets_shading :
    let s := { markState with mem := (markState.mem.map fun (e : Nat × Word) => if e.1 = 0x400000 then (e.1, { e.2 with col := 0 }) else e) }
    isWhite (s.collOf 2) (s.word 0x2000000) = true ∧ isWhite (markState.collOf 2) (markState.word 0x2000000) = false
      ∧ memOk s = true ∧ s.heapAt 2 0 = some 0x2000000 ∧ (s.collOf 2).grey.length < greyMax ∧ reservedWord (s.word 0x2000000) = false
      ∧ (∀ k ∈ [Acc.read, Acc.writeT], s.mayBy (some 0) k 0x2000000 = true) ∧ s.mayBy (some 0) .read (descAddr 1) = true
      ∧ s.mayBy (some 0) .write (greyAddr 2 (s.collOf 2).greyAt) = true := by decide +kernel

/-! ### Power, reset and boot -/

/-- Samples at the thresholds of Table 14-1: the fourth below an entry, one below an exit, the fourth below 30 V, the fourth above CAP. -/
theorem test_meets_power :
    let p (f : Power → Power) : State := { user with power := f user.power }
    let run := p fun q => { q with vIn := [3, 0, 0, 0, 0, 0], tIn := [3, 0, 0, 0, 0, 0] }
    (vEntry run.vofs)[0]? = some 42000 ∧ 3 ≤ 3 ∧ 41999 < 42000 ∧ (vExit run.vofs)[0]? = some 43000 ∧ tEntry[0]? = some 95
      ∧ (p fun q => { q with vLevel := 1 }).power.vLevel = 0 + 1 ∧ (p fun q => { q with low := 3 }).power.low = 3
      ∧ (p fun q => { q with capCnt := 3 }).capMicro < 48000 * 20000 ∧ user.attemptOn = true ∧ user.power.off = false ∧ user.power.hold = false
      ∧ (p fun q => { q with off := true }).power.off = true ∧ (p fun q => { q with hold := true }).power.hold = true
      ∧ (p fun q => { q with vLevel := 6, l5done := true }).power.vLevel = 6
      ∧ (p fun q => { q with l5done := true, turnOff := true }).power.turnOff = true
      ∧ user.power.stage.getLsbD 3 = false ∧ user.domain 63 = true
      ∧ ({ user with stroke := { user.stroke with phase := .held }, power := { user.power with l5 := true, l5done := true } } : State).power.l5 = true := by
  decide +kernel

/-- Power-on with no image in either slot, and a burned transition. That an image passes rests on Config.verifies, which is open. -/
theorem test_meets_boot :
    1000 ≤ State.reset.power.goodCnt ∧ State.reset.boot.done = false ∧ State.reset.boot.stopped = false
      ∧ (State.reset.powerOn.chooseImage [] []).1 = none ∧ State.reset.imageErr [] ≠ 0
      ∧ ({ State.reset with boot := { State.reset.boot with burning := some 3 } } : State).boot.burning = some 3 := by decide +kernel

/-! ### Set-up registers -/

/-- What lane 20 is, and what lane 15, that of port 3, is. -/
abbrev mgmt : Asker := { lane := 20, bit := mExe, fall := true }

/-- A lane's way to a register is clear. -/
def mayAll (s : State) (lane : Fin 24) (a : Nat) (b : Blk) (k : Acc := .write) : Bool := decide (s.laneWay lane.val a k = .go b)

theorem may_of {s : State} {lane : Fin 24} {a : Nat} {b : Blk} (h : mayAll s lane a b = true) : s.laneMay lane a b :=
  of_decide_eq_true (p := s.laneWay lane.val a .write = .go b) h

/-- Plain, clearing and ward-flag registers; a write that the Rubric denies; pages with paired registers. -/
theorem test_meets_register_writes :
    (∀ p ∈ ([(pgSWD, .swd), (pgRUB + 0x34, .rub), (pgRUB + 0x10, .rub), (pgSTK, .stk), (pgPAT + 0x10, .pat), (pgPRT + 0x40 * 7, .prt),
        (pgWAS, .was), (pgPWR + 0x10, .pwr), (pgLCS, .lcs)] : List (Nat × Blk)), mayAll hosted 20 p.1 p.2 = true)
      ∧ mayAll hosted 15 (window 2 + 4) (.win 2) = true
      ∧ wscMask .swd 0 = 0 ∧ rwMask .swd 0 ≠ 0 ∧ wscMask .rub 0x34 ≠ 0 ∧ (rwpOffsets .swd).contains 0 = false
      ∧ (rwpOffsets .rub).contains 0x34 = false ∧ (rwpOffsets .rub).contains (0x34 - 4) = false
      ∧ user.laneAsker 23 = some { lane := 23, bit := mDbg, fall := false } ∧ user.lockedFrom pgPSM = false
      ∧ user.rubAllows { lane := 23, bit := mDbg, fall := false } .write pgPSM = false ∧ user.laneReach 23 pgPSM = true
      ∧ user.laneWay 23 pgPSM .write = .denied
      ∧ ({ hosted with rubActive := [(1, { start := 0xC0000000, last := 0xC3FFFFFF, attr := 0xCFFFF033 })] } : State).laneWay 23 pgPSM .write = .locked
      ∧ blockAt pgPSM = some .psm ∧ regsOk hosted = true ∧ hosted.guards = [] := by decide +kernel

/-- A guard at the last cycle of its 256, one that is not armed, and the values at which ranges end. -/
theorem test_meets_complements :
    let s := { hosted with guards := [(pgSTK, { off := 0, val := 250, lane := 20, at_ := 0 })], hub := 256 }
    s.guardOf .stk = some { off := 0, val := 250, lane := 20, at_ := 0 } ∧ s.hub ≤ 0 + 256 ∧ (rwpOffsets .stk).contains 0 = true
      ∧ regOff (pgSTK + 4) = 0 + 4 ∧ mayAll s 20 (pgSTK + 4) .stk = true ∧ regsOk s = true ∧ hosted.guardOf .stk = none
      ∧ (rwpOffsets .stk).contains 4 = false ∧ blockAt pgSTK = some .stk ∧ (s.reg32 (pgSTK + 0x3F0)).getLsbD 0 = false
      ∧ s.rubSel.2 = false ∧ ({ s with regs := [(pgRUB, 0x80000000)] } : State).rubSel.2 = true ∧ bits (250#32) 0 8 = 250
      ∧ bits (0x5F0004#32) 16 7 = 95 ∧ hosted.boot.life = 2 ∧ hosted.boot.burning = none := by decide +kernel

theorem test_meets_register_commands :
    let p (v : BitVec 32) (f : Patch → Patch) : State := { hosted with regs := [(pgPAT + 4, v)], patch := f {} }
    let verify := p 0 fun q => { q with state := 2, loading := true, image := List.replicate 26832 0 }
    (∀ p ∈ ([(pgSTK + 8, .stk), (pgRUB + 4, .rub), (pgPAT, .pat), (pgINK 7, .ink 7), (talBase 8, .tal)] : List (Nat × Blk)),
        mayAll hosted 20 p.1 p.2 = true)
      ∧ mayAll hosted 15 (window 2) (.win 2) = true ∧ mayAll hosted 20 (talBase 8 + 0x10) .tal .read = true
      ∧ ((p 26832 id).reg32 (pgPAT + 4)).toNat = 26832 ∧ ((p 26833 id).reg32 (pgPAT + 4)).toNat ≠ 26832
      ∧ (p 0 id).patch.loading = false ∧ (p 0 fun q => { q with active := true }).patch.active = true
      ∧ (p 0 fun q => { q with state := 3 }).patch.state = 3 ∧ verify.patch.loading = true
      ∧ (hosted.latch 8).held = none ∧ mget (fun _ => 0) ({ hosted with inkState := [(7, 1)] } : State).inkState 7 = 1 := by decide +kernel

/-- An image of the right length that no check passes: it does not begin with the magic number. -/
theorem test_meets_patch :
    let s := { hosted with patch := { hosted.patch with state := 2, loading := true, image := List.replicate 26832 0 } }
    s.patch.loading = true ∧ s.patch.image.length = 26832 ∧ s.patchErr s.patch.image ≠ 0 := by
  refine ⟨rfl, List.length_replicate, ?_⟩
  simp only [State.patchErr]
  decide +kernel

/-- A captured period, an assignment that is taken and one that is refused, a ring that becomes enabled and one that does not. -/
theorem test_meets_captured :
    let s := { hosted with applies := [(8, { captured := true, vals := [(pgSTK, 250)] })] }
    let vals (k : BitVec 32) : Map (BitVec 32) :=
      [(ringKey 3 0 4, 1), (ringKey 3 0 8, 0x1000), (ringKey 3 0 0x10, 0x2000), (ringKey 3 0 0x18, 0x400 + k), (ringKey 3 0 0x1C, 0xFEC000)]
    let t := { hosted with binds := [(3, some 3)] }
    (s.apply' 8).captured = true ∧ (s.apply' 8).vals = [(pgSTK, 250)] ∧ (∀ k, k < 8 → (s.apply' k).captured = false)
      ∧ s.stroke.rubOk = none ∧ regsOk s = true ∧ bits (0x80000003#32) 16 10 = 0 ∧ (exec0.nib 0).active = true ∧ exec0.assigned 0 ≠ some 3
      ∧ (∀ c, c < 31 → (exec0.ctx 0 (1 + c)).state = stIdle) ∧ (user.ctx 0 1).state ≠ stIdle ∧ 544 ≤ bits (0x83FF0000#32) 16 10
      ∧ (t.ring 3 0).en = false ∧ ((t.applyRing (vals 4) 3 0).ring 3 0).en = true
      ∧ (ringOf t (vals 3) 3 0).en = true ∧ (ringOffsets.any fun o => (vals 3).any fun e => e.1 == ringKey 3 0 o) = true
      ∧ (match t.ringCheck (vals 3) 3 0 (ringOf t (vals 3) 3 0) with | .error c => c == 2 | .ok _ => false) = true := by
  decide +kernel

theorem test_meets_context_control :
    let sel (v : BitVec 32) (s : State) : State := s.setReg (ctxPage 0) v
    let frozen := hosted.setCtx 0 4 { st := 0x3FFF0A00, saveD := { pc := 0x400, cause := 4 } }
    let stop := tweak hosted fun x => { x with stopReq := some .stop }
    mayAll hosted 20 (nibPage 0) (.nib 0) = true ∧ mayAll hosted 20 (nibPage 0 + 8) (.nib 0) = true ∧ mayAll hosted 20 (ctxPage 0 + 4) (.ctx 0) = true
      ∧ (∀ d, d < 31 → (exec0.ctx 0 (1 + d)).state = stIdle) ∧ (hosted.ctx 0 1).state ≠ stIdle ∧ regsOk (sel 0x30000 hosted) = true
      ∧ (sel 0x30000 hosted).ctxSel 0 = (3, 0, 0) ∧ ((sel 0x30000 hosted).ctx 0 3).state = stIdle ∧ ((sel 0x10000 hosted).ctxSel 0).1 = 1
      ∧ (sel 0x10000 hosted).changeable 0 1 = false ∧ (sel 0x40000 frozen).changeable 0 4 = true ∧ ((sel 0x40000 frozen).ctx 0 4).state = stFrozen
      ∧ ((sel 0x40000 frozen).ctx 0 4).saveD.live = true ∧ (sel 0x3008F hosted).ctxSel 0 = (3, 0, 143)
      ∧ mwf regDefault (hosted.ctx 0 3).regs = true ∧ reservedWord (hosted.ctxData 0) = false ∧ badHeader (hosted.ctxData 0) = false
      ∧ (hosted.ctxData 0).typ ≠ Ty.forward ∧ (hosted.ctxData 0).typ ≠ Ty.spill
      ∧ ((sel 0x30B00 hosted).ctxSel 0).2.1 = 11 ∧ (stop.ctx 0 1).stopReq = some .stop ∧ (stop.ctx 0 1).stdy = false
      ∧ (stop.ctx 0 1).xfer = none ∧ (stop.ctx 0 1).awaits = false ∧ (stop.ctx 0 1).bare = false ∧ (stop.ctx 0 1).faultsDue = false
      ∧ stop.checkDue 0 1 = false ∧ (stop.ctx 0 1).inRoutine = false := by decide +kernel

/-! ### One item copied and forwarded -/

theorem idle_logLine (s : State) (l : Nat) (h : s.attemptOn = false) : s.logLine l = s := by
  unfold State.logLine; rw [h]; rfl

theorem putLine_word (ws : Line) (s : State) (l i b : Nat) (hc : mwf memDefault s.mem = true) (h : b / 8 < l / 8) (hl : l % 8 = 0) :
    (s.putLine l i ws).word b = s.word b := by
  induction ws generalizing s i with
  | nil => rfl
  | cons w ws ih =>
    rw [State.putLine, ih _ _ (State.putWord_canonical _ _ _ hc), State.word_putWord _ _ _ _ hc, if_neg (by omega)]

/-- The records, the tables, the stroke and the collectors are as before. -/
def kept (s t : State) : Prop := t.rubActive = s.rubActive ∧ t.copyRecs = s.copyRecs ∧ t.stroke = s.stroke ∧ t.coll = s.coll

theorem kept_trans {s t u : State} (h : kept s t) (g : kept t u) : kept s u :=
  ⟨g.1.trans h.1, g.2.1.trans h.2.1, g.2.2.1.trans h.2.2.1, g.2.2.2.trans h.2.2.2⟩

theorem room_kept (s : State) (l : Nat) : kept s (s.inkRoom l) := by
  unfold State.inkRoom; dsimp only; split
  · exact ⟨rfl, rfl, rfl, rfl⟩
  · split
    · exact ⟨rfl, rfl, rfl, rfl⟩
    · split <;> refine ⟨?_, ?_, ?_, ?_⟩ <;> simp [State.dropCopies]

theorem changed_kept (s : State) (l : Nat) : kept s (s.changed l none) := by
  unfold State.changed State.inkWritten State.setInkEnt
  dsimp only
  split
  · exact ⟨rfl, rfl, rfl, rfl⟩
  · have h := room_kept (s.purge l none) l
    exact ⟨h.1, h.2.1, h.2.2.1, h.2.2.2⟩

theorem putLine_kept (ws : Line) (s : State) (l i : Nat) : kept s (s.putLine l i ws) := by
  induction ws generalizing s i with
  | nil => exact ⟨rfl, rfl, rfl, rfl⟩
  | cons w ws ih => exact ih _ _

/-- A write while no attempt is open and no collector marks. -/
theorem writeAs_kept (s : State) (a : Nat) (k : StoreKind) (h : s.attemptOn = false) (hm : ∀ w, (s.collOf w).phase ≠ .mark) :
    kept s (s.writeAs a k) := by
  refine kept_trans ?_ (changed_kept _ _)
  unfold State.applyKind State.putPair
  dsimp only
  rw [idle_logLine _ _ h, State.shadeOver_idle _ _ _ _ _ _ _ _ fun w _ => hm w]
  exact ⟨rfl, rfl, rfl, rfl⟩

theorem bucket_place (w a : Nat) : bucketAddr w a % 64 = 0 ∧ 0x4448200000 ≤ bucketAddr w a ∧ bucketAddr w a < 0x4450000000 := by
  have := Nat.mod_lt (Config.bucketOf w a) (show 0 < 2064384 by decide)
  unfold bucketAddr
  omega

/-- A bucket's line as it is written leaves the records, the tables and every word below its area. -/
theorem bucket_frame (s : State) (w a : Nat) (h : s.attemptOn = false) (hc : mwf memDefault s.mem = true) :
    kept s (s.noteBucket w a) ∧ ∀ b, b < 0x4448000000 → (s.noteBucket w a).word b = s.word b := by
  unfold State.noteBucket
  dsimp only
  rw [idle_logLine _ _ h]
  refine ⟨kept_trans (putLine_kept _ _ _ _) (changed_kept _ _), fun b hb => ?_⟩
  have hp := bucket_place w a
  rw [State.word_congr (State.changed_mem _ _ _), putLine_word _ _ _ _ _ hc (by omega) (by omega)]

theorem bucket_canonical (s : State) (w a : Nat) (h : s.attemptOn = false) (hc : mwf memDefault s.mem = true) :
    mwf memDefault (s.noteBucket w a).mem = true := by
  unfold State.noteBucket
  dsimp only
  rw [idle_logLine _ _ h, State.changed_mem]
  exact State.putLine_canonical _ _ _ _ hc

/-- The bucket of an item lies in the system region, which sysEnt shares. -/
theorem bucket_may (s : State) (k : Acc) {e : Nat × RubEnt} (h : s.rubActive = [e, (1, sysEnt)]) (he : e.2.past ≤ 0x4000000) (w a : Nat) :
    s.rubAllows (pumAsker 0) k (bucketAddr w a) = true := by
  have hp := bucket_place w a
  exact system_may s k h he _ (by omega) (by omega)

theorem coll_word (s : State) (w a : Nat) (f : Coll → Coll) : (s.modColl w f).word a = s.word a := rfl

theorem drop_word (s : State) (w a b : Nat) (h : s.attemptOn = false) (hc : mwf memDefault s.mem = true) (hb : b < 0x4448000000) :
    (s.dropRec w a).word b = s.word b := by
  unfold State.dropRec
  generalize s.copyRecs.filter (fun x => !(x.ward == w && x.src == a)) = rs
  exact (bucket_frame { s with copyRecs := rs } w a h hc).2 b hb

/-- FORWARD stands at an item's first word once it is installed. -/
theorem forward_stands (u : State) (w a d : Nat) (f : Coll → Coll) (ha : a % 16 = 0) (hb : a < 0x4448000000) (hh : u.attemptOn = false)
    (hm : ∀ w, (u.collOf w).phase ≠ .mark) (hc : mwf memDefault u.mem = true) (hu : (u.word a).typ ≠ Ty.forward)
    (h0 : isCapType (u.word a).typ = false) (h1 : isCapType (u.word (a + 8)).typ = false) :
    (((u.installForward w a d).modColl w f).word a).typ = Ty.forward := by
  rw [coll_word]
  unfold State.installForward
  dsimp only
  rw [if_neg hu]
  generalize hx : ({ typ := Ty.forward, col := 0, cdr := (u.word a).cdr, pay := BitVec.ofNat 64 (u.virtOf d) } : Word) = x
  have hxt : x.typ = Ty.forward := by rw [← hx]
  have hwc : mwf memDefault (u.writeAs a (.word x .exact)).mem = true := State.writeAs_canonical _ _ _ hc
  have hk : kept u (u.writeAs a (.word x .exact)) := writeAs_kept _ _ _ hh hm
  have hh2 : (u.writeAs a (.word x .exact)).attemptOn = false := by
    unfold State.attemptOn at hh ⊢
    rw [hk.2.2.1]
    exact hh
  rw [drop_word _ _ _ _ hh2 hwc hb]
  have hv : (u.writeAs a (.word x .exact)).word a = (StoreKind.apply (.word x .exact) a (u.word a) (u.word (a + 8))).1 := by
    rw [State.word_congr (State.writeAs_mem _ _ _), State.word_applyKind _ _ _ _ _ hc, if_pos (by omega)]
    have : a - a % 16 = a := by omega
    rw [this]
  refine (congrArg Word.typ hv).trans ?_
  have hxc : isCapType x.typ = false := by rw [hxt]; decide
  have hxu : (unmarked x).typ = x.typ := by unfold unmarked; split <;> rfl
  simp [StoreKind.apply, ha, pairRule, h0, h1, formWord, hxu, hxc]
  exact hxt

def rec0 : CopyRec := { ward := 2, src := 0x2000000, dst := 0x2001000, len := 16, done := 0 }

/-- A vector of one FIXNUM is to be copied within its sheet, between strokes. -/
def copying : State :=
  { marking shCopy { phase := .evacuate } with copyRecs := [rec0], stroke := { user.stroke with phase := .held } }

/-- The line copied, before the record says so. -/
def lineCopied : State :=
  let s := copying.inkRead 0x2000000
  ((s.putPairs 0x2001000 (s.copyLine 0x2000000 0x2001000 2 0x2001000)).changed 0x2001000 none).noteItem 0x2001000

theorem only_evacuates (w : Nat) : (mget (fun _ => {}) lineCopied.coll w : Coll).phase ≠ .mark := by
  have : lineCopied.coll = [(2, { phase := .evacuate })] := by decide +kernel
  rw [this, mget, mget]
  split
  · decide
  · split <;> decide

def rec1 : CopyRec := { rec0 with done := 1 }

/-- A step whose accesses the Rubric allows, while no attempt is open. -/
theorem allowed_of (s : State) (rs ws : List (Asker × Acc × Nat)) (go : CopyNext) (h : s.attemptOn = false)
    (hm : ∀ x ∈ rs ++ ws, s.rubAllows x.1 x.2.1 x.2.2 = true) : s.copyAllowed rs ws go = go := by
  have h1 : s.heldAny (ws.map fun x => lineOf x.2.2) = false := by
    unfold State.heldAny
    rw [h]
    rfl
  have h2 : ∀ l : List (Asker × Acc × Nat), (∀ x ∈ l, s.rubAllows x.1 x.2.1 x.2.2 = true) → s.firstDenied l = none := by
    intro l
    induction l with
    | nil => intro _; rfl
    | cons x l ih =>
      intro hl
      obtain ⟨q, k, a⟩ := x
      rw [State.firstDenied, if_pos (hl (q, k, a) (by simp))]
      exact ih fun y hy => hl y (by simp [hy])
  unfold State.copyAllowed
  rw [h1, h2 _ hm]
  rfl

theorem first_step : copying.copyStep (pumAsker 0) (pumAsker 0) 0 2 0x2000000 = .went (lineCopied.setRec rec1) true := by
  have hr : copying.copyRec 2 0x2000000 = some rec0 := by decide +kernel
  have ho : copying.attemptOn = false := by decide +kernel
  have hb : ∀ k, copying.rubAllows (pumAsker 0) k (bucketAddr 2 0x2000000) = true := fun k => bucket_may copying k rfl (by decide) 2 0x2000000
  have next : copying.copyNext (pumAsker 0) (pumAsker 0) 0 2 0x2000000 = .line rec0 := by
    unfold State.copyNext
    rw [hr]
    dsimp only
    rw [if_pos (by decide)]
    refine allowed_of _ _ _ _ ho ?_
    intro x hx
    have hx : x ∈ [(pumAsker 0, Acc.read, bucketAddr 2 0x2000000), (pumAsker 0, .read, 0x2000000), (pumAsker 0, .read, 0x2000000),
        (pumAsker 0, .writeT, 0x2001000), (pumAsker 0, .writeT, bucketAddr 2 0x2000000), (pumAsker 0, .write, cardAddr 0x2001000)] := hx
    simp only [List.mem_cons, List.not_mem_nil, or_false] at hx
    rcases hx with rfl | rfl | rfl | rfl | rfl | rfl
    · exact hb _
    · decide +kernel
    · decide +kernel
    · decide +kernel
    · exact hb _
    · decide +kernel
  unfold State.copyStep
  rw [next]
  rfl

/-- The run of the protocol ends: FORWARD stands at the item. -/
theorem test_meets_copy :
    memOk copying = true ∧ (copying.word 0x2000000).typ ≠ Ty.forward ∧ copying.itemWords 0x2000000 = 2
      ∧ copying.copyRec 2 0x2000000 = some rec0 ∧ (0x2001000 % 16 = 0x2000000 % 16 ∧ 0x2001000 + 16 ≤ heapEnd ∧ 0x2000000 + 16 + 8 ≤ 0x2001000)
      ∧ (∀ b, 0x2001000 ≤ b + 24 → b < 0x2001000 + 16 + 8 → isCapType (copying.word b).typ = false)
      ∧ (∀ i, i < 2 → isCapType (copying.word (0x2000000 + 8 * i)).typ = false)
      ∧ ∃ t, copying.copyRun (pumAsker 0) (pumAsker 0) 0 2 0x2000000 (copying.copySteps 0x2000000) = (t, .finished) := by
  have near : ∀ i, i < 48 → isCapType (copying.word (0x2000FE8 + i)).typ = false := by decide +kernel
  refine ⟨by decide +kernel, by decide +kernel, by decide +kernel, by decide +kernel, by decide, fun b h1 h2 => ?_, by decide +kernel, ?_⟩
  · rw [show b = 0x2000FE8 + (b - 0x2000FE8) by omega]; exact near _ (by omega)
  have hs : copying.copySteps 0x2000000 = 6 := by decide +kernel
  have hf : (copying.word 0x2000000).typ ≠ Ty.forward := by decide +kernel
  rw [hs, State.copyRun, if_neg hf, first_step]
  dsimp only
  -- the record says that the line is done
  have ho : lineCopied.attemptOn = false := by decide +kernel
  have hm : mwf memDefault lineCopied.mem = true := by decide +kernel
  have hc := bucket_canonical { lineCopied with copyRecs := [rec1] } 2 0x2000000 ho hm
  have fr := bucket_frame { lineCopied with copyRecs := [rec1] } 2 0x2000000 ho hm
  have hset : lineCopied.setRec rec1 = { lineCopied with copyRecs := [rec1] }.noteBucket 2 0x2000000 := by
    have : lineCopied.copyRecs.filter (fun x => !(x.ward == rec1.ward && x.src == rec1.src)) = [] := by decide +kernel
    unfold State.setRec; rw [this]; rfl
  rw [hset]
  generalize { lineCopied with copyRecs := [rec1] }.noteBucket 2 0x2000000 = u at fr hc ⊢
  obtain ⟨⟨fa, fb, fc, fd⟩, fw⟩ := fr
  -- FORWARD is installed
  have wa : u.word 0x2000000 = lineCopied.word 0x2000000 := fw _ (by decide)
  have wb : u.word 0x2000008 = lineCopied.word 0x2000008 := fw _ (by decide)
  have hu : (u.word 0x2000000).typ ≠ Ty.forward := by rw [wa]; decide +kernel
  have hr : u.copyRec 2 0x2000000 = some rec1 := by rw [State.copyRec, fb]; decide +kernel
  have hh : u.attemptOn = false := by rw [State.attemptOn, fc]; exact ho
  have hra : u.rubActive = user.rubActive ++ [(1, sysEnt)] := by rw [fa]; decide +kernel
  have next : u.copyNext (pumAsker 0) (pumAsker 0) 0 2 0x2000000 = .install rec1 := by
    unfold State.copyNext
    rw [hr]
    dsimp only
    rw [if_neg (by decide)]
    refine allowed_of _ _ _ _ hh fun x hx => ?_
    simp only [List.cons_append, List.nil_append, List.mem_cons, List.not_mem_nil, or_false] at hx
    rcases hx with rfl | rfl | rfl | rfl
    · exact bucket_may u _ hra (by decide) 2 0x2000000
    · exact engine_may_sheet u _ hra _ (by decide) (by decide)
    · exact engine_may_sheet u _ hra _ (by decide) (by decide)
    · exact bucket_may u _ hra (by decide) 2 0x2000000
  have step : u.copyStep (pumAsker 0) (pumAsker 0) 0 2 0x2000000
      = .went ((u.installForward 2 0x2000000 rec1.dst).modColl 2 fun c => { c with copied := c.copied + rec1.len }) false := by
    unfold State.copyStep
    rw [next]
    rfl
  rw [State.copyRun, if_neg hu, step]
  dsimp only
  have hfin : (((u.installForward 2 0x2000000 rec1.dst).modColl 2 fun c => { c with copied := c.copied + rec1.len }).word 0x2000000).typ
      = Ty.forward := by
    refine forward_stands u 2 0x2000000 rec1.dst _ (by decide) (by decide) hh (fun w => ?_) hc hu ?_ ?_
    · rw [State.collOf, fd]; exact only_evacuates w
    · rw [wa]; decide +kernel
    · rw [wb]; decide +kernel
  rw [State.copyRun, if_pos hfin]
  exact ⟨_, rfl⟩

/-! ### Ring commands -/

def descriptor (op : Byte) (operands : List Byte) : List Byte :=
  [op, 0, 0, 0, 0x44, 0, 0, 0] ++ operands ++ List.replicate (56 - operands.length) 0

/-- Ward 2's next command; its heap is mapped one to one, and sheet 1 is FIXED. -/
def commanded (d : List Byte) : State :=
  { tables hosted with
    mem := [(0x889000008, Word.rawOf 0x1420000100000000)] ++ (tables hosted).mem
    wards := [(2, { wcns := [(1, 2)], env := envReset, cmds := [d] })] }

/-- The command with these operands is due. -/
def dueCmd (op : Byte) (operands : List Byte) : Bool :=
  let d := descriptor op operands
  (commanded d).nextCmd 2 == some d && descOp d == op.toNat && descClean d && definedOp (descOp d)

theorem due_of {op : Byte} {bs : List Byte} (h : dueCmd op bs = true) :
    (commanded (descriptor op bs)).commandDue 2 (descriptor op bs) op.toNat := by
  simp only [dueCmd, Bool.and_eq_true, beq_iff_eq] at h
  exact ⟨h.1.1.1, h.1.1.2, h.1.2, h.2⟩

/-- Each short command, with operands at the ends of their ranges; a command with a reserved byte, and one that ring 0 does not take. -/
theorem test_meets_short_commands :
    (∀ p ∈ ([(0, []), (0xD, []), (0xE, leBytes 4 1), (0xF, leBytes 4 1), (0x10, leBytes 4 1), (0xA, leBytes 8 64 ++ [1]),
        (0xA, leBytes 8 64 ++ [2]), (0xB, leBytes 8 64 ++ leBytes 4 64), (0xB, leBytes 8 64 ++ leBytes 4 63),
        (0xC, leBytes 8 64 ++ leBytes 4 17344 ++ leBytes 32 0), (0xC, leBytes 8 64 ++ leBytes 4 17343 ++ leBytes 32 0), (7, leBytes 8 2),
        (7, leBytes 8 3), (0x11, [2]), (0x11, [8])] : List (Byte × List Byte)), dueCmd p.1 p.2 = true)
      ∧ (commanded (descriptor 0 [1])).nextCmd 2 = some (descriptor 0 [1]) ∧ descClean (descriptor 0 [1]) = false
      ∧ (commanded (descriptor 3 [])).nextCmd 2 = some (descriptor 3 []) ∧ definedOp (descOp (descriptor 3 [])) = false := by decide +kernel

theorem test_meets_data_commands :
    let s := commanded (descriptor 2 [])
    (∀ p ∈ ([(4, leBytes 8 0 ++ leBytes 8 0x2000000 ++ leBytes 8 8), (5, leBytes 8 0 ++ leBytes 8 0 ++ leBytes 8 0x2000000 ++ leBytes 8 8),
        (6, leBytes 8 0x2000000 ++ leBytes 8 0x2000040 ++ leBytes 8 1 ++ [7]),
        (1, leBytes 8 64 ++ leBytes 8 128 ++ leBytes 8 0x2000000 ++ leBytes 4 1), (8, []), (9, []),
        (2, leBytes 8 0x400000 ++ leBytes 8 0x2000000 ++ leBytes 8 0x2000100 ++ leBytes 8 5 ++ leBytes 4 144 ++ leBytes 4 144 ++ [4, 0]
          ++ leBytes 2 0)] : List (Byte × List Byte)), dueCmd p.1 p.2 = true)
      ∧ s.sheetsOk 2 0x2000000 8 true = true ∧ s.spawnRange 2 0x2000000 144 = true ∧ (s.wardNibs 2).contains 0 = true ∧ s.spawnNib 2 0 = some 0
      ∧ s.roomFor 80 = true ∧ s.idleCtxs 0 = upFrom 3 29 ∧ (s.nib 0).parkedBy = 0 := by decide +kernel

def blockIs (r : Except State Nat) (a : Nat) : Bool :=
  match r with
  | .ok b => b == a
  | .error _ => false

theorem block_of {r : Except State Nat} {a : Nat} (h : blockIs r a = true) : r = .ok a := by
  cases r with
  | ok b => rw [eq_of_beq h]
  | error t => cases h

/-- The ward's operation o runs, and no command is due. -/
def worksOn (s : State) (code : Nat) (o : Op) : Bool := s.takesInput && s.nextCmd 2 == none && s.running 2 code == some o

theorem works_of {s : State} {code : Nat} {o : Op} (h : worksOn s code o = true) : s.works 2 code o := by
  simp only [worksOn, Bool.and_eq_true, beq_iff_eq] at h
  exact ⟨h.1.1, h.1.2, h.2⟩

/-- Operations that run: two words to import, to export, to copy; an image whose first word passes and one whose word has tag bit 10; a
scrub of one sheet, and one at its end; a verification at its end. -/
theorem test_meets_data_moves :
    let op (d : List Byte) (done : Nat) : Op := { num := 1, slot := 0, desc := d, idx := 0, done := done, total := 2, got0 := some (leBytes 16 7) }
    let s (o : Op) : State := { commanded [] with wards := [(2, { wcns := [(1, 2)], env := envReset, ops := [o] })] }
    let im := op (descriptor 4 (leBytes 8 0 ++ leBytes 8 0x3000000 ++ leBytes 8 16)) 0
    let ex := op (descriptor 5 (leBytes 8 0 ++ leBytes 8 0 ++ leBytes 8 0x3000000 ++ leBytes 8 16)) 0
    let cp := op (descriptor 6 (leBytes 8 0x3000000 ++ leBytes 8 0x3000040 ++ leBytes 8 2 ++ [2])) 0
    let il := { op (descriptor 1 (leBytes 8 64 ++ leBytes 8 128 ++ leBytes 8 0x3000000 ++ leBytes 4 2)) 0 with got1 := some (leBytes 4 0) }
    let sc := op (descriptor 9 []) 0
    let hv := op (descriptor 8 []) 1
    let im2 := { im with done := 2 }
    let sc1 := { sc with done := 1 }
    let sw := { s sc with engines := [(0, 3)] }
    (worksOn (s im) 4 im && worksOn (s ex) 5 ex && worksOn (s cp) 6 cp && worksOn (s im2) 4 im2 && worksOn (s il) 1 il && worksOn (s sc) 9 sc
        && worksOn (s sc1) 9 sc1 && worksOn (s hv) 8 hv) = true
      ∧ (blockIs ((s im).cmdBlock 3 2 2 0x3000000 .write) 0x3000000 && blockIs ((s ex).cmdBlock 3 2 2 0x3000000 .read) 0x3000000
        && blockIs ((s cp).cmdBlock 3 2 2 0x3000040 (accOf [Word.rawZero, Word.rawZero])) 0x3000040
        && blockIs ((s il).cmdBlock 3 2 2 0x3000000 (accOf [Word.rawOf 7])) 0x3000000) = true
      ∧ (s im).held 0x3000000 = false ∧ memOk (s im) = true
      ∧ (∀ j, j < 8 → isCapType ((s im).word (0x3000000 + 8 * j)).typ = false) ∧ (s ex).stageRoom 3 80 = true
      ∧ imageWordOk (leBytes 16 7) (leBytes 4 0) 0x3000000 2 0 = true ∧ (s il).roomFor 2 = true
      ∧ imageWordOk (leBytes 8 0) (leBytes 2 0x400) 0x2000000 1 0 = false ∧ (s im).cmdPort 2 = 3
      ∧ (s sc).sheetsOf 2 = [1] ∧ sw.workEngine 2 = some 0 ∧ sw.meet (fun l => sheetOf l == 1) [] = (sw, true)
      ∧ (s { im with got0 := none }).hostReads = [] ∧ (s im).meet (fun _ => true) [] = (s im, true) := by decide +kernel

/-- A service ring with one descriptor, of POST, in its area. -/
theorem test_meets_post :
    let k : Ring := { en := true, sq := 0x2000, cq := 0x9000, sqlog := 4, cqlog := 5, port := 3, wcn := 1, xpa := 0x3100000, tail := 1, head := 1, marked := 1 }
    let s := { hosted with rings := [(133, k)], mem := [(0x620000, Word.rawOf 3)] }
    ((s.ring 2 5) = k ∧ memOk s = true ∧ s.takesInput = true ∧ s.wcnAt 2 (BitVec.ofNat 64 k.wcn) = some (0, 2) ∧ (s.nib 0).active = true
      ∧ (s.nib 0).parkedBy = 0 ∧ (s.ctx 0 2).state ≠ stIdle ∧ (s.ctx 0 2).state ≠ stFrozen ∧ k.xpa % 64 = 0
      ∧ (s.xword k 0x2008).pay.toNat = 0 ∧ (s.xword k 0x2010).pay.toNat = 0 ∧ (s.xword k 0x2018).pay.toNat = 0
      ∧ (k.tail + k.size - 0 % k.size) % k.size ≠ 0 ∧ k.pendSlots.contains 0 = false ∧ s.attemptOn = true
      ∧ s.stroke.used + 72 * 8 ≤ s.budget ∧ bits (s.word k.xpa).pay 0 8 = 3
      ∧ (∀ o ∈ [0x1000, 0x1008, 0x2008, 0x2010], s.rubAllows (s.nibAsker 0 2 (s.ctx 0 2).level) .writeT (k.xpa + o) = true)
      ∧ (∀ o ∈ [0x1000, 0x1008], s.rubAllows (s.nibAsker 0 2 (s.ctx 0 2).level) .write (k.xpa + o) = true)
      ∧ ∀ o ∈ [0x2008, 0], s.rubAllows (s.nibAsker 0 2 (s.ctx 0 2).level) .read (k.xpa + o) = true)
    ∧ ∀ a, k.xpa ≤ a → a < k.xpa + 0x4000 → isCapType (s.word a).typ = false := by
  refine ⟨by decide +kernel, ?_⟩
  intro a _ _
  show isCapType (mget memDefault [(0x620000, Word.rawOf 3)] (a / 8)).typ = false
  simp only [mget]
  split
  · rfl
  · split <;> rfl

/-! ### Debug, management, data from hosts -/

/-- A LOCK region, a register out of scope, a word and a register that may be read and written; a blank part; a token that is refused. A
token that passes, and an image or patch that passes, rest on Config.verifies, which is open. -/
theorem test_meets_debug :
    let l := { hosted with rubActive := [(0, { start := 0x80000, last := 0xFFFFF, attr := 0xCFFFF000 })] }
    let z := { hosted with boot := { hosted.boot with life := 1 } }
    hosted.debugOn = true ∧ l.lockedFrom 0x3000000 = true ∧ hosted.lockedFrom 0x3000000 = false ∧ hosted.dbgScopeOk (nibPage 0) = false
      ∧ hosted.lockedFrom (nibPage 0) = false ∧ hosted.dbgScopeOk 0x3000000 = true ∧ hosted.rubAllows dbgAsker .read 0x3000000 = true
      ∧ hosted.rubAllows dbgAsker .write 0x3000000 = true ∧ hosted.wordThere 0x3000000 = true ∧ hosted.wordThere 0x3000004 = false
      ∧ hosted.rubAllows dbgAsker .read 0x40 = false
      ∧ hosted.lockedFrom 0x40 = false ∧ hosted.dbgScopeOk 0x40 = true ∧ hosted.blank = false ∧ z.blank = true ∧ hosted.dbg.scope.getLsbD 2 = false
      ∧ memOk hosted = true ∧ hosted.held 0x3000000 = false
      ∧ blockAt pgPSM = some .psm ∧ hosted.answers' .psm = true ∧ hosted.rubAllows dbgAsker .write pgPSM = true
      ∧ hosted.rubAllows dbgAsker .read pgPSM = true ∧ hosted.dbgScopeOk pgPSM = true ∧ hosted.leafWaits pgPSM = false ∧ pgPSM % 4 = 0 ∧ hosted.lockedFrom pgPSM = false
      ∧ ({ hosted with power := { hosted.power with level := 1 } } : State).debugOn = false ∧ hosted.unlockResult [] none ≠ 0x80 := by decide +kernel

theorem test_meets_management :
    user.power.off = false ∧ user.hasIdentity = true ∧ ({ user with boot := { user.boot with seedGone := true } } : State).hasIdentity = false
      ∧ (1024 : Nat) ≤ 1024 ∧ 64512 + 1024 ≤ 65536 ∧ ({ user with pins := { alertLow := true } } : State).pins.alertLow = true
      ∧ user.power.mgmtOff = false ∧ user.pins.alertLow = false := by decide +kernel

theorem test_meets_host_data :
    let h (y : HostPurpose) : HostRead := { port := 3, addr := 0x40, len := 8, why := y }
    let e := descriptor 0xB (leBytes 8 0x40 ++ leBytes 4 64)
    let o : Op := { num := 1, slot := 0, desc := descriptor 4 [], idx := 0 }
    let s := { hosted with hostReads := [h (.op 2 0 0), h .patch, h (.envelope 2)], wards := [(2, { ops := [o], policyWait := [(e, 0)] })] }
    takeAt s.hostReads 0 = some (h (.op 2 0 0), [h .patch, h (.envelope 2)]) ∧ s.stroke.phase = .opened ∧ (closing []).stroke.phase ≠ .opened
      ∧ (h .patch).late = none ∧ (leBytes 8 7).length = 8 ∧ (leBytes 7 7).length ≠ 8
      ∧ s.replayed 3 0x40 8 = none ∧ takeFirst (fun e => byteField e.1 8 8 == 0x40) (s.ward 2).policyWait = some ((e, 0), [])
      ∧ ((s.ward 2).ops.find? fun o => o.slot == 0) = some o ∧ o.fin = none
      ∧ ({ s with replay := [(3, [.data 0x40 (leBytes 8 9)])] } : State).replayed 3 0x40 8 = some (.data 0x40 (leBytes 8 9), []) := by decide +kernel

/-- An entry of each KIND; a page with one verdict; a heap sheet of a ward that falls back on the map. -/
theorem test_meets_rubric :
    let ent (k : Nat) : RubEnt := { start := 0x80000, last := 0xFFFFF, attr := BitVec.ofNat 32 (0x87FFF000 + k * 0x8000000) }
    let s (k : Nat) : State := { user with rubActive := [(0, ent k)] }
    let m := { user with rubActive := [], sheetOwner := [(1, 2)] }
    (∀ k, k < 5 → (s k).rubEntry 0x3000000 = some (ent k) ∧ (ent k).kind = k ∧ (ent k).mask.getLsbD 2 = true) ∧ m.rubEntry 0x3000000 = none
      ∧ inHeap 0x3000000 = true ∧ firstOverlap ((s 1).rubActive.filter fun e => e.2.valid) = none
      ∧ (s 1).verdict { lane := 0, bit := 2, fall := false } 0x300 = .rights 15 ∧ hostLane 15 = true ∧ hostLane 0 = false
      ∧ inPal 0x4000000000 = true ∧ inSys 0x4400000000 = true ∧ user.rubAllows { lane := 22, bit := mExe, fall := true } .writeT 0x4000000000 = true := by decide +kernel

/-! ### The machine as a whole -/

theorem test_reset_canonical :
    memOk State.reset = true ∧ logOk State.reset = true ∧ regsOk State.reset = true ∧ allFilesOk State.reset = true
      ∧ imagesOk State.reset = true := by decide +kernel

/-- A step of a state that is not reset's: the pair of NOPs at the front of its queue runs. -/
theorem test_meets_canonical :
    let s := { user with pending := [.nop (qUp 1) 0] }
    memOk s = true ∧ logOk s = true ∧ regsOk s = true ∧ allFilesOk s = true ∧ imagesOk s = true ∧ answers (step s) = true := by decide +kernel

/-! ### Worked examples of the spec -/

/-- 01: nib 300 is leaf 2, column 1, position 11; lines 0x1040 and 0x2040 belong to stacks 0 and 3. -/
theorem test_example_places :
    leafOf 300 = 2 ∧ columnOf 300 = 1 ∧ posOf 300 = 11 ∧ laneOf 300 = 4 ∧ stackOf 0x1040 = 0 ∧ stackOf 0x2040 = 3 := by decide

/-- 02: the HEADER of a VECTOR of three elements has payload 0x0000_2400_0000_0003 and tag 0x100; 05: a key HEADER's payload. -/
theorem test_example_headers :
    (hdr Ty.vector 3 0).pay = 0x0000240000000003 ∧ (hdr Ty.vector 3 0).tag = 0x100 ∧ hdrLen (Word.mk0 Ty.header 0x0000240000000003) = 3
      ∧ hdrKey (Word.mk0 Ty.header 0x0105608000000000) = true ∧ hdrOtype (Word.mk0 Ty.header 0x0105608000000000) = 0x105
      ∧ (hdrRtype (Word.mk0 Ty.header 0x0105608000000000)).toNat = 0x18 := by decide

/-- 06: FLT_SPILL at S enters 0x11C0, MC_CHECKER 0x44_0000_0400. -/
theorem test_example_handlers :
    trapBase lvS + Cause.spill.code.setWidth 64 * 32 = 0x11C0 ∧ trapBase lvM + Cause.mcChecker.code.setWidth 64 * 32 = 0x4400000400 := by
  decide

/-- 09: a walk of three levels to the leaf of 0x0000_2000_5000, which maps to device physical 0x5000. -/
theorem test_example_walk :
    let s := { (user.setReg (nibPage 0) 0x90000000).setReg (nibPage 0 + 4) 0x44 with
      mem := [(0x892000000, Word.mk0 Ty.xlate 0x4490010000000001), (0x892002001, Word.mk0 Ty.xlate 0x4490020000000001),
              (0x892004000, Word.mk0 Ty.xlate 0x56D)] }
    (match walk s 0 0x20005000 with
      | .ok r => r.1.pa 0x20005000 == 0x5000 && r.2.length == 2 && r.1.permits false .read && !r.1.permits false .exec
      | .error _ => false) = true := by decide +kernel

/-- 09: entry 17, ATTR 0x8580_4000, grants ward 2 read, write and tagged-store over sheet 0, as kind heap. -/
theorem test_example_rubric :
    let e : RubEnt := { start := 0, last := 0x7FFFF, attr := 0x85804000 }
    e.kind = 0 ∧ e.rights = 11 ∧ e.mask = 4 ∧ e.contains 0x1FFFFC0 = true ∧ e.contains 0x2000000 = false := by decide

/-- 13: WIN.FLAGS reads 5; the executive sets flag 1 and the host clears flag 0, and it ends as 6 in either order. -/
theorem test_example_win_flags :
    underMask (underMask 5 0x20002 (0x20002#32 >>> 16)) 0x10000 (0x10000#32 >>> 16) = 6
      ∧ underMask (underMask 5 0x10000 (0x10000#32 >>> 16)) 0x20002 (0x20002#32 >>> 16) = 6 := by decide

/-- 13: RUB.EVENT reads 0x0700_0002; writing it back clears DENY, unless a denial came between, after which it reads 0x0800_0002. -/
theorem test_example_rub_event :
    let s := hosted.setReg (pgRUB + 0x34) 0x7000002
    (ran s (.wscClear 20 0xF000001034 0x7000002)).reg32 (pgRUB + 0x34) = 0x7000000
      ∧ (ran (s.deny 0 0) (.wscClear 20 0xF000001034 0x7000002)).reg32 (pgRUB + 0x34) = 0x8000002 := by decide +kernel

/-- 13: STK.PERIOD := 50 and its complement; the staged period is 50, the active one is not. -/
theorem test_example_period :
    let s := ran (ran hosted (.stkPeriod 4 50)) (.complementWrite 4 0xF000002004 0xFFFFFFCD)
    s.stagedReg pgSTK = 50 ∧ s.reg32 pgSTK = 100 ∧ s.guardOf .stk = none := by decide +kernel

/-- 11: the record of stroke 4711 goes to 0x44_4004_99C0; words 0, 1 and 6 of it as the example gives them. -/
theorem test_example_record :
    let s := { closing (upFrom 0 604) with stroke := { (closing (upFrom 0 604)).stroke with num := 4711, tickAt := 300000 }, hub := 309600 }
    (s.writeCommit 604 false).word 0x44400499C0 = Word.rawOf 0x1267 ∧ (s.recordWords 604 false)[0]? = some 0x1267 ∧ (s.recordWords 604 false)[1]? = some 0x01000000000493E0
      ∧ (s.recordWords 604 false)[6]? = some 0x0000025C00002580 := by decide +kernel

end Sys2Proof.Tests
end

section
/-! SUPPORT. The scheduler (R112 to R115, R122, R245, R247): which contexts a decision may pick and in what order, what a switch,
a micro-trap and a flag leave of the contexts and of the nib; and the statement on priorities that these settle. -/

namespace Sys2Proof.Machine

/-! ### Rising numbers and the rotation -/

theorem upFrom_eq_range' (a n : Nat) : upFrom a n = List.range' a n := by
  induction n generalizing a with
  | zero => rfl
  | succ n ih => simp only [upFrom, List.range'_succ, ih]

/-- The next of a list after `last`, or the list's first when none follows. -/
def nextAfter (last : Nat) (cs : List Nat) : Option Nat :=
  match cs.find? fun c => decide (last < c) with
  | some c => some c
  | none => cs.head?

theorem nextAfter_mem {last k : Nat} {cs : List Nat} (h : nextAfter last cs = some k) : k ∈ cs := by
  unfold nextAfter at h
  split at h
  next c hc =>
    cases h
    exact List.mem_of_find?_eq_some hc
  next => exact List.mem_of_head? h

/-- Of rising context numbers, the one picked comes first when counting up from `last` and wrapping from 31 to 0. -/
theorem nextAfter_first {last k : Nat} {cs : List Nat} (hs : cs.Pairwise (· < ·)) (hc : ∀ d ∈ cs, d < 32) (hl : last < 32)
    (h : nextAfter last cs = some k) {d : Nat} (hd : d ∈ cs) : (k + 31 - last) % 32 ≤ (d + 31 - last) % 32 := by
  have hk32 := hc k (nextAfter_mem h)
  have hd32 := hc d hd
  unfold nextAfter at h
  split at h
  next c hfind =>
    cases h
    obtain ⟨hlast, before, after, rfl, hbefore⟩ := List.find?_eq_some_iff_append.mp hfind
    have hlast : last < k := of_decide_eq_true hlast
    rcases List.mem_append.mp hd with hd | hd
    · have : ¬ last < d := by simpa using hbefore d hd
      omega
    · have : k ≤ d := by
        rcases List.mem_cons.mp hd with rfl | hd
        · exact Nat.le_refl _
        · exact Nat.le_of_lt (List.rel_of_pairwise_cons (List.pairwise_append.mp hs).2.1 hd)
      omega
  next hnone =>
    have hall : ∀ c ∈ cs, c ≤ last := by simpa using hnone
    have hk := hall k (List.mem_of_head? h)
    have hdl := hall d hd
    obtain ⟨rest, rfl⟩ := List.head?_eq_some_iff.mp h
    have : k ≤ d := by
      rcases List.mem_cons.mp hd with rfl | hd
      · exact Nat.le_refl _
      · exact Nat.le_of_lt (List.rel_of_pairwise_cons hs hd)
    omega

/-! ### What a decision picks (R112) -/

section Choice

variable {s : State} {n : Nat}

theorem foldl_max_le_iff {α : Type} (f : α → Nat) (cs : List α) (m b : Nat) :
    cs.foldl (fun m c => max m (f c)) m ≤ b ↔ m ≤ b ∧ ∀ c ∈ cs, f c ≤ b := by
  induction cs generalizing m with
  | nil => simp
  | cons c cs ih => simp only [List.foldl_cons, ih, Nat.max_le, List.forall_mem_cons, and_assoc]

theorem State.prioOf_le_topPrio {cs : List Nat} {d : Nat} (h : d ∈ cs) : s.prioOf n d ≤ s.topPrio n cs :=
  ((foldl_max_le_iff (s.prioOf n) cs 0 _).mp (Nat.le_refl _)).2 d h

/-- A choice is the next in rotation among the contexts of the highest priority. -/
theorem State.choose_eq (cs : List Nat) : s.choose n cs =
    nextAfter (((s.nib n).lastRun[s.topPrio n cs]?).getD 0) (cs.filter fun c => s.prioOf n c == s.topPrio n cs) := rfl

theorem State.choose_top {cs : List Nat} {k : Nat} (h : s.choose n cs = some k) : k ∈ cs ∧ s.prioOf n k = s.topPrio n cs := by
  rw [State.choose_eq] at h
  simpa using nextAfter_mem h

theorem State.choose_highest {cs : List Nat} {k d : Nat} (h : s.choose n cs = some k) (hd : d ∈ cs) :
    s.prioOf n d ≤ s.prioOf n k := (State.choose_top h).2 ▸ State.prioOf_le_topPrio hd

/-- Among equals of rising numbers, the choice is the next after the context that last ran at their priority. -/
theorem State.choose_next {cs : List Nat} {k d : Nat} (hs : cs.Pairwise (· < ·)) (hc : ∀ d ∈ cs, d < 32)
    (h : s.choose n cs = some k) (hl : ((s.nib n).lastRun[s.prioOf n k]?).getD 0 < 32) (hd : d ∈ cs)
    (he : s.prioOf n d = s.prioOf n k) :
    (k + 31 - ((s.nib n).lastRun[s.prioOf n k]?).getD 0) % 32 ≤ (d + 31 - ((s.nib n).lastRun[s.prioOf n k]?).getD 0) % 32 := by
  have htop := (State.choose_top h).2
  rw [State.choose_eq, ← htop] at h
  exact nextAfter_first (hs.filter _) (fun d hd => hc d (List.mem_filter.mp hd).1) hl h
    (List.mem_filter.mpr ⟨hd, by simpa using he⟩)

/-- A decision may pick some of the READY contexts 0 to 31, in rising order. -/
theorem State.readyOn_sublist : (s.readyOn n).Sublist ((upFrom 0 32).filter fun c => (s.ctx n c).state == stReady) := by
  have hready : ((upFrom 0 32).filter fun c => (s.ctx n c).state == stReady && s.mayStill n c).Sublist
      ((upFrom 0 32).filter fun c => (s.ctx n c).state == stReady) := by
    rw [← List.filter_filter]
    exact (List.filter_sublist).filter _
  unfold State.readyOn
  dsimp only
  split
  · exact List.filter_sublist.trans hready
  · exact hready

theorem State.readyOn_ready {d : Nat} (h : d ∈ s.readyOn n) : d < 32 ∧ (s.ctx n d).state = stReady := by
  simpa [upFrom_eq_range'] using State.readyOn_sublist.subset h

theorem State.readyOn_rising : (s.readyOn n).Pairwise (· < ·) := by
  refine List.Pairwise.sublist (State.readyOn_sublist.trans List.filter_sublist) ?_
  rw [upFrom_eq_range']
  exact List.pairwise_lt_range'

end Choice

/-! ### The micro-save slots and a micro-trap's context -/

section Context

variable (x : Context)

@[simp] theorem Context.setSt_routine (lo len v : Nat) : (x.setSt lo len v).routine = x.routine := rfl
@[simp] theorem Context.setSt_slot (lo len v : Nat) (l : BitVec 2) : (x.setSt lo len v).slot l = x.slot l := rfl
@[simp] theorem Context.setState_routine (v : Nat) : (x.setState v).routine = x.routine := rfl
@[simp] theorem Context.setState_slot (v : Nat) (l : BitVec 2) : (x.setState v).slot l = x.slot l := rfl

@[simp] theorem Context.setState_mpend (v : Nat) : (x.setState v).mpend = x.mpend :=
  getLsbD_setBits_ne _ _ _ _ _ (.inl (by omega))

@[simp] theorem Context.slot_setSlot (l : BitVec 2) (m : MicroSlot) : (x.setSlot l m).slot l = m := by
  unfold Context.setSlot Context.slot
  repeat' split
  all_goals rfl

@[simp] theorem Context.setSlot_st (l : BitVec 2) (m : MicroSlot) : (x.setSlot l m).st = x.st := by
  unfold Context.setSlot
  repeat' split
  all_goals rfl

@[simp] theorem Context.setSlot_routine (l : BitVec 2) (m : MicroSlot) : (x.setSlot l m).routine = x.routine := by
  unfold Context.setSlot
  repeat' split
  all_goals rfl

@[simp] theorem Context.saveMicro_routine (m : Micro) (r : Routine) : (x.saveMicro m r).routine = none := by
  simp [Context.saveMicro]

@[simp] theorem Context.saveMicro_mpend (m : Micro) (r : Routine) : (x.saveMicro m r).mpend = true := by
  unfold Context.mpend Context.saveMicro
  rw [Context.setSt_st]
  exact getLsbD_setBit_self _ 7 true (by omega)

/-- A micro-trap leaves the live state and the routine, at its check point, in the slot of the context's level (R270). -/
@[simp] theorem Context.saveMicro_slot (m : Micro) (r : Routine) :
    (x.saveMicro m r).slot x.level = m.save (some { r with got := [], stopped := false }) := by
  simp [Context.saveMicro]

theorem Context.trappable_stopped {r : Routine} (h : x.routine = some r) (hs : r.stopped = true) : x.trappable = some r := by
  simp [Context.trappable, h, hs]

/-! ### A flag of EVF (R117) -/

variable (now : Nat) (mask : BitVec 16)

@[simp] theorem Context.flag_timer : (x.flag now mask).timer = x.timer := by
  unfold Context.flag
  dsimp only
  split
  · rfl
  · split <;> rfl

theorem Context.flag_evf_of_not_waiting (h : x.waiting = none) : (x.flag now mask).evf = x.evf ||| mask := by
  unfold Context.flag
  simp [Context.touch, h]

/-- A context that waits for a flag that is now set becomes READY, and takes the flags it waited for (timer, wake and stroke) out of EVF. -/
theorem Context.flag_of_awaited {m : BitVec 4} {dst iss : Nat} (h : x.waiting = some (m, dst, iss))
    (hv : (x.evf ||| mask) &&& m.setWidth 16 ≠ 0) :
    (x.flag now mask).state = stReady ∧ (x.flag now mask).waiting = none
      ∧ (x.flag now mask).evf = (x.evf ||| mask) &&& ~~~(((x.evf ||| mask) &&& m.setWidth 16) &&& 0xB) := by
  unfold Context.flag
  simp only [Context.touch, h, if_neg hv]
  exact ⟨Context.setState_state _ _ (by decide), rfl, rfl⟩

end Context

/-! ### Cycles, switches, micro-traps and preemption -/

section Switch

variable (s : State) (n c k : Nat)

@[simp] theorem State.tallyCycles_mem : (s.tallyCycles n k).mem = s.mem := by
  unfold State.tallyCycles
  dsimp only
  split <;> split <;> split <;> rfl

@[simp] theorem State.elapse_mem : (s.elapse n k).mem = s.mem := by simp [State.elapse]

@[simp] theorem State.ctx_elapse (m d : Nat) : (s.elapse n k).ctx m d = s.ctx m d := by simp [State.ctx]

@[simp] theorem State.ctx_unseat (m d : Nat) : (s.unseat n c).ctx m d = s.ctx m d := rfl
@[simp] theorem State.unseat_mem : (s.unseat n c).mem = s.mem := rfl

theorem State.unseat_running : ((s.unseat n c).nib n).running ≠ some c := by
  rw [State.unseat, State.nib_modNib_self]
  dsimp only
  split
  · exact nofun
  · assumption

@[simp] theorem State.microTrap_mem : (s.microTrap n c).mem = s.mem := by
  unfold State.microTrap
  split <;> rfl

theorem State.ctx_microTrap_self {r : Routine} (h : (s.ctx n c).trappable = some r) :
    (s.microTrap n c).ctx n c
      = { s.ctx n c with parked := none }.saveMicro (s.viaMicro n 0x0030 (s.ctx n c).micro) r := by
  simp [State.microTrap, h]

@[simp] theorem State.preempt_mem : (s.preempt n c).mem = s.mem := by simp [State.preempt]

@[simp] theorem State.ctx_preempt_self : (s.preempt n c).ctx n c = ((s.microTrap n c).ctx n c).setState stReady := by
  simp [State.preempt]

theorem State.preempt_running : ((s.preempt n c).nib n).running ≠ some c := State.unseat_running _ _ _

@[simp] theorem State.switchTo_mem : (s.switchTo n k).mem = s.mem := by simp [State.switchTo]

@[simp] theorem State.switchTo_running : ((s.switchTo n k).nib n).running = some k := by simp [State.switchTo]

theorem State.switchTo_state : ((s.switchTo n k).ctx n k).state = stRunning := by
  simp only [State.switchTo, State.ctx_count, State.ctx_modNib, State.ctx_elapse, State.ctx_modCtx_self]
  exact Context.setState_state _ _ (by decide)

theorem State.ctx_switchTo_ne {d : Nat} (h : key n d ≠ key n k) : (s.switchTo n k).ctx n d = s.ctx n d := by
  simp [State.switchTo, State.ctx_modCtx_ne _ _ h]

@[simp] theorem State.ctx_flagCtx_self (mask : BitVec 16) :
    (s.flagCtx n c mask).ctx n c = (s.ctx n c).flag (s.now n) mask := by simp [State.flagCtx]

/-- A context preempted at a check point is READY with MPEND set; the slot of its level holds the routine (R247, R270). -/
theorem State.preempt_trappable {r : Routine} (h : (s.ctx n c).trappable = some r) :
    ((s.preempt n c).ctx n c).mpend = true ∧ ((s.preempt n c).ctx n c).routine = none
      ∧ ((s.preempt n c).ctx n c).slot (s.ctx n c).level
          = (s.viaMicro n 0x0030 (s.ctx n c).micro).save (some { r with got := [], stopped := false })
      ∧ ((s.preempt n c).ctx n c).state = stReady := by
  rw [State.ctx_preempt_self, State.ctx_microTrap_self _ _ _ h]
  refine ⟨by simp, by simp, ?_, Context.setState_state _ _ (by decide)⟩
  rw [Context.setState_slot]
  exact Context.saveMicro_slot { s.ctx n c with parked := none } _ _

/-- The nib goes from one context to another: the one runs, the other is READY, and memory stays. -/
theorem State.preempt_switchTo {c k : Nat} (hc : c < 32) (hk : k < 32) (h : k ≠ c) :
    (((s.preempt n c).switchTo n k).nib n).running = some k ∧ (((s.preempt n c).switchTo n k).ctx n k).state = stRunning
      ∧ ((s.preempt n c).switchTo n k).mem = s.mem ∧ (((s.preempt n c).switchTo n k).ctx n c).state = stReady := by
  refine ⟨State.switchTo_running _ _ _, State.switchTo_state _ _ _, by simp, ?_⟩
  rw [State.ctx_switchTo_ne _ _ _ (by rw [Ne, key_inj hc hk]; exact fun e => h e.2.symm), State.ctx_preempt_self]
  exact Context.setState_state _ _ (by decide)

end Switch

/-! ### What the scheduler's commands answer -/

section Answers

variable {s : State} {n : Fin 544} {c : Fin 32} {k : Nat}

/-- A free nib takes the context chosen (R112). -/
theorem execSchedulingDecision_free (hd : s.decides n.val = true) (hk : s.choose n.val (s.readyOn n.val) = some k)
    (hr : (s.nib n.val).running = none) : execSchedulingDecision n s = .next (s.switchTo n.val k) := by
  simp [execSchedulingDecision, State.schedule, hd, hk, hr]

/-- A running context gives way to one of a higher priority (R113 events 1 and 2). -/
theorem execSchedulingDecision_higher (hd : s.decides n.val = true) (hk : s.choose n.val (s.readyOn n.val) = some k)
    (hr : (s.nib n.val).running = some c.val) (hkeep : s.keepsNib n.val c.val = false)
    (hp : s.prioOf n.val c.val < s.prioOf n.val k) :
    execSchedulingDecision n s = .next ((s.preempt n.val c.val).switchTo n.val k) := by
  simp [execSchedulingDecision, State.schedule, hd, hk, hr, hkeep, Nat.not_le.mpr hp]

/-- A running context keeps the nib against every priority but a higher one. -/
theorem execSchedulingDecision_not_higher (hd : s.decides n.val = true) (hk : s.choose n.val (s.readyOn n.val) = some k)
    (hr : (s.nib n.val).running = some c.val) (hp : s.prioOf n.val k ≤ s.prioOf n.val c.val) :
    execSchedulingDecision n s = .next s := by
  simp [execSchedulingDecision, State.schedule, hd, hk, hr, hp]

/-- A time slice gives the nib to the context chosen at the running context's priority (R113 event 3). -/
theorem execTimeSliceExpiry_equal (hd : s.decides n.val = true) (hr : (s.nib n.val).running = some c.val)
    (hkeep : s.keepsNib n.val c.val = false)
    (hk : s.choose n.val ((s.readyOn n.val).filter fun d => s.prioOf n.val d == s.prioOf n.val c.val) = some k) :
    execTimeSliceExpiry n s = .next ((s.preempt n.val c.val).switchTo n.val k) := by
  simp [execTimeSliceExpiry, hd, hr, hkeep, hk]

theorem execTimerExpiry_closed (h : (s.nib n.val).closed = true) : execTimerExpiry n c s = .next s := by
  unfold execTimerExpiry
  split
  · rfl
  · rw [if_pos h]

/-- In an open nib a timer that runs out is cancelled and raises flag 0 of EVF. -/
theorem execTimerExpiry_open (ht : (s.ctx n.val c.val).timer ≠ none) (h : (s.nib n.val).closed = false) :
    ∃ t, execTimerExpiry n c s = .next t
      ∧ t.ctx n.val c.val = ({ s.ctx n.val c.val with timer := none }.touch 0).flag (s.now n.val) 1 := by
  obtain ⟨v, hv⟩ := Option.ne_none_iff_exists'.mp ht
  simp only [execTimerExpiry, hv, h, Bool.false_eq_true, if_false]
  exact ⟨_, rfl, by rw [State.ctx_flagCtx_self, State.ctx_modCtx_self]; rfl⟩

/-- The limit ends a STEADY region; a region that had the full 512 cycles bars the next one (R245, log 24). -/
theorem execSteadyLimitExpiry_in_region (h : (s.ctx n.val c.val).stdy = true) :
    ∃ t, execSteadyLimitExpiry n c s = .next t ∧ t.ctx n.val c.val =
      { s.ctx n.val c.val with steadyUsed := (s.ctx n.val c.val).steadyUsed || (s.ctx n.val c.val).steadyLim, steady := 0,
                               steadyLim := false }.setSt 8 1 0 := by
  simp only [execSteadyLimitExpiry, h, if_true]
  exact ⟨_, rfl, by simp⟩

/-- A routine stopped at a check point micro-traps. -/
theorem execMicroTrap_stopped {r : Routine} (hr : (s.ctx n.val c.val).routine = some r) (hs : r.stopped = true)
    (hp : (s.ctx n.val c.val).parked = none) (hst : (s.ctx n.val c.val).stdy = false) (hx : (s.ctx n.val c.val).xfer = none) :
    execMicroTrap n c s = .next (s.preempt n.val c.val) := by
  simp [execMicroTrap, hr, hs, hp, hst, hx]

/-- A STEADY region or a level change defers a micro-trap (R115, R236). -/
theorem execMicroTrap_deferred (h : (s.ctx n.val c.val).stdy = true ∨ (s.ctx n.val c.val).xfer ≠ none) :
    execMicroTrap n c s = .next s := by
  unfold execMicroTrap
  rcases h with h | h
  · simp [h]
  · simp [Option.isNone_eq_false_iff.mpr (Option.isSome_iff_ne_none.mpr h)]

end Answers

/-- Bit 0 of the flags is TIMER: a wait that names it takes it out of EVF when it sets. -/
theorem timer_flag_taken (e : BitVec 16) {m : BitVec 4} (h : m.getLsbD 0 = true) :
    (e ||| 1) &&& m.setWidth 16 ≠ 0
      ∧ ((e ||| 1) &&& ~~~(((e ||| 1) &&& m.setWidth 16) &&& 0xB)).getLsbD 0 = false := by
  have hbit : ((e ||| 1) &&& m.setWidth 16).getLsbD 0 = true := by simp [h]
  refine ⟨fun hzero => ?_, by simp [h]⟩
  rw [hzero] at hbit
  simp at hbit

/-- Settles O35: the choice from the rotation among equals, each command from what it answers. -/
theorem prioritiesDecideWhoRuns : Obligations.PrioritiesDecideWhoRuns := by
  intro s n c x prio switched givesWay last
  refine ⟨fun d hd => State.readyOn_ready hd, fun cs k hk => ⟨(State.choose_top hk).1, fun d hd => State.choose_highest hk hd⟩,
    fun k hk hl d hd he => State.choose_next State.readyOn_rising (fun d hd => (State.readyOn_ready hd).1) hk hl hd he,
    fun k hdec hk hk32 => ⟨?free, ?higher, ?notHigher⟩, ?slice, ?closed, ?timer, ?awaited, ?steady, ?microTrap, ?deferred⟩
  case free =>
    intro hr
    exact ⟨_, execSchedulingDecision_free hdec hk hr, State.switchTo_running _ _ _, State.switchTo_state _ _ _,
      State.switchTo_mem _ _ _⟩
  case higher =>
    intro hr hkeep hp hne
    have hexec := execSchedulingDecision_higher hdec hk hr hkeep hp
    obtain ⟨hrun, hstate, hmem, hready⟩ := s.preempt_switchTo n.val c.isLt hk32 hne
    exact ⟨⟨_, hexec, hrun, hstate, hmem⟩, _, hexec, hready⟩
  case notHigher =>
    intro hr hp
    exact execSchedulingDecision_not_higher hdec hk hr hp
  case slice =>
    intro k hdec hr hkeep hk32 hne hk
    have hexec := execTimeSliceExpiry_equal hdec hr hkeep hk
    obtain ⟨hrun, hstate, hmem, hready⟩ := s.preempt_switchTo n.val c.isLt hk32 hne
    exact ⟨⟨_, hexec, hrun, hstate, hmem⟩, _, hexec, hready⟩
  case closed =>
    intro _ hclosed
    exact execTimerExpiry_closed hclosed
  case timer =>
    intro ht hopen hwait
    obtain ⟨t, hexec, hctx⟩ := execTimerExpiry_open ht hopen
    refine ⟨t, hexec, ?_⟩
    rw [hctx]
    exact ⟨Context.flag_timer _ _ _, Context.flag_evf_of_not_waiting _ _ _ hwait⟩
  case awaited =>
    intro ht hopen m dst iss hwait hm
    obtain ⟨t, hexec, hctx⟩ := execTimerExpiry_open ht hopen
    obtain ⟨hnonzero, htaken⟩ := timer_flag_taken x.evf hm
    obtain ⟨hready, hnone, hevf⟩ := Context.flag_of_awaited ({ x with timer := none }.touch 0) (s.now n.val) 1 hwait hnonzero
    refine ⟨t, hexec, ?_⟩
    rw [hctx]
    exact ⟨hready, hnone, hevf ▸ htaken⟩
  case steady =>
    intro h
    obtain ⟨t, hexec, hctx⟩ := execSteadyLimitExpiry_in_region h
    refine ⟨t, hexec, ?_⟩
    rw [hctx]
    exact ⟨getLsbD_setBit_self _ 8 false (by omega), rfl, rfl, rfl⟩
  case microTrap =>
    intro r hr hstop hparked hstdy hxfer
    obtain ⟨hmpend, hroutine, hslot, hready⟩ :=
      s.preempt_trappable n.val c.val (Context.trappable_stopped _ hr hstop)
    exact ⟨_, execMicroTrap_stopped hr hstop hparked hstdy hxfer, hmpend, hroutine, by rw [hslot]; rfl, by rw [hslot]; rfl,
      State.preempt_running _ _ _, hready⟩
  case deferred =>
    intro h
    exact execMicroTrap_deferred h

end Sys2Proof.Machine
end

section
/-! SUPPORT. Raw integer arithmetic (R135, Table 04-3): what each plan of two I64 operands, of an immediate form, of a shift and of a
comparison answers once its checks pass; and the statement that these settle. -/

namespace Sys2Proof.Machine

/-! ### Values -/

theorem ofInt_toInt_mul_toInt (x y : BitVec 64) : BitVec.ofInt 64 (x.toInt * y.toInt) = x * y := by
  rw [BitVec.ofInt_mul, BitVec.ofInt_toInt, BitVec.ofInt_toInt]

/-- The low six bits are a shift's count. -/
theorem bits_low_six (y : BitVec 64) : bits y 0 6 = y.toNat % 64 := by simp [bits]

/-- A test lands FIXNUM 1 when it holds and 0 when not. -/
theorem ofTest_eq (b : Bool) (p : Prop) [Decidable p] (h : b = true ↔ p) : Word.ofTest b = Word.fx (if p then 1 else 0) := by
  simp only [Word.ofTest, h]

theorem eqWord_iff (v w : Word) : eqWord v w = true ↔ v.typ = w.typ ∧ v.pay = w.pay := by simp [eqWord]

/-- What ICMP's SUB values compare: LT, LTU, LE and LEU. -/
def icmpTest (sub : Nat) (x y : BitVec 64) : Bool :=
  match sub with
  | 0 => decide (x.toInt < y.toInt)
  | 1 => decide (x.toNat < y.toNat)
  | 2 => decide (x.toInt ≤ y.toInt)
  | _ => decide (x.toNat ≤ y.toNat)

/-! ### The fields of SHIFTI -/

section ShiftImmediate

variable (k : BitVec 2) (m : BitVec 6)

theorem shiftImm_toNat : ((k ++ m).setWidth 15).toNat = k.toNat * 64 + m.toNat := by
  rw [BitVec.toNat_setWidth, BitVec.toNat_append, ← Nat.shiftLeft_add_eq_or_of_lt m.isLt, Nat.shiftLeft_eq]
  omega

theorem shiftImm_kind : bits ((k ++ m).setWidth 15) 6 2 = k.toNat := by
  rw [bits, BitVec.extractLsb'_toNat, shiftImm_toNat, Nat.shiftRight_eq_div_pow]
  omega

theorem shiftImm_count : bits ((k ++ m).setWidth 15) 0 6 = m.toNat := by
  rw [bits, BitVec.extractLsb'_toNat, shiftImm_toNat, Nat.shiftRight_eq_div_pow]
  omega

theorem shiftImm_high : ((k ++ m).setWidth 15).extractLsb' 8 7 = 0 := by
  apply BitVec.eq_of_toNat_eq
  rw [BitVec.extractLsb'_toNat, shiftImm_toNat, Nat.shiftRight_eq_div_pow]
  change _ = 0
  omega

end ShiftImmediate

/-! ### Plans whose checks pass -/

theorem defined_ok {b : Bool} (h : b = true) : defined b = .ok () := need_true _ h

theorem zero_ok {w : Nat} {x : BitVec w} (h : x = 0) : zero x = .ok () := by rw [h, zero_zero]

/-- An immediate form reads no register B. -/
theorem Env.present.immediate {e : Env} {a b d : BitVec 5} (h : e.present [a, b, d]) : e.present [a, d] :=
  Env.present_mono h (by simp)

section Register

variable {e : Env} {f : FR} (hp : e.present [f.a, f.b, f.d]) (ha : isI64 (e.r f.a)) (hb : isI64 (e.r f.b))

include hp ha hb

/-- Two I64 operands are read as they stand. -/
theorem Env.i64s_ok : e.i64s f = .ok (e.r f.a, e.r f.b) := by
  have hclean : e.unpoisoned [f.a, f.b] := by
    simpa [Env.unpoisoned] using ⟨isI64_unpoisoned ha, isI64_unpoisoned hb⟩
  unfold Env.i64s
  rw [Env.srcs_ok hp hclean, Env.i64_ok ha, Env.i64_ok hb]
  rfl

theorem i64Op_ok (hs : f.sub = 0) (hm : f.md = 0) (dist : Nat) (g : BitVec 64 → BitVec 64 → BitVec 64) :
    i64Op f dist g e = .ok [e.to f.d dist (Word.mk0 (resultType (e.r f.a) (e.r f.b)) (g (e.r f.a).pay (e.r f.b).pay))] := by
  unfold i64Op
  rw [zero_ok hs, zero_ok hm, Env.i64s_ok hp ha hb]
  rfl

theorem planMulh_signed_ok (hs : f.sub = 0) (hm : f.md = 0) :
    planMulh f e = .ok [e.to f.d 4 (Word.mk0 (resultType (e.r f.a) (e.r f.b))
      (BitVec.ofInt 64 ((e.r f.a).pay.toInt * (e.r f.b).pay.toInt / 2 ^ 64)))] := by
  unfold planMulh
  rw [defined_ok (by rw [hs]; rfl), zero_ok hm, Env.i64s_ok hp ha hb, Plan.ok_bind, Plan.ok_bind, Plan.ok_bind, if_pos hs]
  rfl

theorem planMulh_unsigned_ok (hs : f.sub = 1) (hm : f.md = 0) :
    planMulh f e = .ok [e.to f.d 4 (Word.mk0 (resultType (e.r f.a) (e.r f.b))
      (BitVec.ofNat 64 ((e.r f.a).pay.toNat * (e.r f.b).pay.toNat / 2 ^ 64)))] := by
  unfold planMulh
  rw [defined_ok (by rw [hs]; rfl), zero_ok hm, Env.i64s_ok hp ha hb, Plan.ok_bind, Plan.ok_bind, Plan.ok_bind,
    if_neg (by rw [hs]; decide)]
  rfl

theorem planShift_ok (hs : f.sub.toNat ≤ 3) (hm : f.md = 0) :
    planShift f e = .ok [e.to f.d 1 (Word.mk0 (e.r f.a).typ
      (shiftBy f.sub.toNat (e.r f.a).pay ((e.r f.b).pay.toNat % 64)))] := by
  unfold planShift
  rw [defined_ok (decide_eq_true hs), zero_ok hm, Env.i64s_ok hp ha hb, ← bits_low_six]
  rfl

theorem planIcmp_ok (hs : f.sub.toNat ≤ 3) (hm : f.md = 0) :
    planIcmp f e = .ok [e.to f.d 1 (Word.ofTest (icmpTest f.sub.toNat (e.r f.a).pay (e.r f.b).pay))] := by
  unfold planIcmp
  rw [defined_ok (decide_eq_true hs), zero_ok hm, Env.i64s_ok hp ha hb]
  rfl

end Register

theorem planEq_ok {e : Env} {f : FR} (hp : e.present [f.a, f.b, f.d]) (hc : e.unpoisoned [f.a, f.b]) (hs : f.sub = 0)
    (hm : f.md = 0) : planEq f e = .ok [e.to f.d 1 (Word.ofTest (eqWord (e.r f.a) (e.r f.b)))] := by
  unfold planEq
  rw [zero_ok hs, zero_ok hm, Env.srcs_ok hp hc]
  rfl

section Immediate

variable {e : Env} {f : FI} (hp : e.present [f.a, f.d]) (ha : isI64 (e.r f.a))

include hp ha

theorem Env.srcs_imm_ok : e.srcs [f.a] [f.d] = .ok () :=
  Env.srcs_ok hp (by simpa [Env.unpoisoned] using isI64_unpoisoned ha)

theorem i64Imm_ok (g : BitVec 64 → BitVec 64 → BitVec 64) :
    i64Imm f g e = .ok [e.to f.d 1 (Word.mk0 (e.r f.a).typ (g (e.r f.a).pay (f.imm.signExtend 64)))] := by
  unfold i64Imm
  rw [Env.srcs_imm_ok hp ha, Env.i64_ok ha]
  rfl

theorem planShifti_ok {k : BitVec 2} {m : BitVec 6} (hi : f.imm = (k ++ m).setWidth 15) :
    planShifti f e = .ok [e.to f.d 1 (Word.mk0 (e.r f.a).typ (shiftBy k.toNat (e.r f.a).pay m.toNat))] := by
  unfold planShifti
  rw [hi, zero_ok (shiftImm_high k m), Env.srcs_imm_ok hp ha, Env.i64_ok ha, shiftImm_kind, shiftImm_count]
  rfl

end Immediate

/-! ### What the instructions land -/

/-- A plan that answers one result of register d lands it. -/
theorem lands_of {s : State} {q : Issue} {e : Env} {i : Instr} {d : BitVec 5} {dist : Nat} {w : Word}
    {plan : Env → Plan (List Effect)} (h : Ready s q e) (hx : exec i s = issue q (instrWord i) none plan s)
    (hp : plan e = .ok [e.to d dist w]) : lands s q e i d dist w := completes_of h hx hp

section Landings

variable {s : State} {q : Issue} {e : Env} {d a b : BitVec 5} (hr : Ready s q e)

include hr

section Register

variable (hp : e.present [a, b, d]) (ha : isI64 (e.r a)) (hb : isI64 (e.r b))

include hp ha hb

theorem shift_lands (k : BitVec 3) (hk : k.toNat ≤ 3) : lands s q e (.shift q ⟨d, a, b, k, 0⟩) d 1
    (Word.mk0 (e.r a).typ (shiftBy k.toNat (e.r a).pay ((e.r b).pay.toNat % 64))) :=
  lands_of hr rfl (planShift_ok hp ha hb hk rfl)

/-- ICMP lands FIXNUM 1 when the operands stand as its SUB says, and 0 when not. -/
theorem icmp_lands (k : BitVec 3) (hk : k.toNat ≤ 3) (p : Prop) [Decidable p]
    (h : icmpTest k.toNat (e.r a).pay (e.r b).pay = true ↔ p) :
    lands s q e (.icmp q ⟨d, a, b, k, 0⟩) d 1 (Word.fx (if p then 1 else 0)) := by
  rw [← ofTest_eq _ p h]
  exact lands_of hr rfl (planIcmp_ok hp ha hb hk rfl)

end Register

theorem shifti_lands (hp : e.present [a, d]) (ha : isI64 (e.r a)) (k : BitVec 2) (m : BitVec 6) :
    lands s q e (.shifti q ⟨d, a, (k ++ m).setWidth 15⟩) d 1 (Word.mk0 (e.r a).typ (shiftBy k.toNat (e.r a).pay m.toNat)) :=
  lands_of hr rfl (planShifti_ok hp ha rfl)

end Landings

/-- Settles O5: each plan passes its checks and answers one result, which lands. -/
theorem rawArithmeticAndComparisonsLand : Obligations.RawArithmeticAndComparisonsLand := by
  refine ⟨fun s q e d a b imm hr hp ha hb => ?arithmetic,
    fun s q e d a b hr hp => ⟨fun ha hb => ?shiftsAndComparisons, fun hc => ?eq⟩⟩
  case arithmetic =>
    have hi : e.present [a, d] := hp.immediate
    refine ⟨lands_of hr rfl (i64Op_ok hp ha hb rfl rfl 1 (· + ·)),
      lands_of hr rfl (i64Op_ok hp ha hb rfl rfl 1 (· - ·)),
      lands_of hr rfl (i64Op_ok hp ha hb rfl rfl 1 (· &&& ·)),
      lands_of hr rfl (i64Op_ok hp ha hb rfl rfl 1 (· ||| ·)),
      lands_of hr rfl (i64Op_ok hp ha hb rfl rfl 1 (· ^^^ ·)), ?imul,
      lands_of hr rfl (planMulh_signed_ok hp ha hb rfl rfl),
      lands_of hr rfl (planMulh_unsigned_ok hp ha hb rfl rfl),
      lands_of hr rfl (i64Imm_ok hi ha (· + ·)),
      lands_of hr rfl (i64Imm_ok hi ha (· &&& ·)),
      lands_of hr rfl (i64Imm_ok hi ha (· ||| ·)),
      lands_of hr rfl (i64Imm_ok hi ha (· ^^^ ·))⟩
    rw [ofInt_toInt_mul_toInt]
    exact lands_of hr rfl (i64Op_ok hp ha hb rfl rfl 4 (· * ·))
  case shiftsAndComparisons =>
    refine ⟨shift_lands hr hp ha hb 0 (by decide), shift_lands hr hp ha hb 1 (by decide),
      shift_lands hr hp ha hb 2 (by decide), shift_lands hr hp ha hb 3 (by decide), fun k m => ?shifti,
      icmp_lands hr hp ha hb 0 (by decide) _ decide_eq_true_iff, icmp_lands hr hp ha hb 1 (by decide) _ decide_eq_true_iff,
      icmp_lands hr hp ha hb 2 (by decide) _ decide_eq_true_iff, icmp_lands hr hp ha hb 3 (by decide) _ decide_eq_true_iff⟩
    have hland := shifti_lands hr hp.immediate ha k m
    match k with
    | 0 | 1 | 2 | 3 => exact hland
  case eq =>
    rw [← ofTest_eq _ _ (eqWord_iff (e.r a) (e.r b))]
    exact lands_of hr rfl (planEq_ok hp hc rfl rfl)

end Sys2Proof.Machine
end

section
/-! SUPPORT. The Rubric's decision (R335, R344, R346 to R348): which accesses rights cover, what an entry and the default map grant, which
entry a block matches in a table of disjoint entries, and what a page's verdict says of its blocks; and the statement on the decision
that these settle. -/

namespace Sys2Proof.Machine

/-! ### Rights and accesses (Table 09-7) -/

section Rights

variable (k : Acc)

theorem covers_zero : covers 0 k = false := by cases k <;> rfl

theorem covers_fifteen : covers 15 k = true := by cases k <;> rfl

/-- R, W and T, which D2 gives lane 22, cover all but a fetch. -/
theorem covers_eleven : covers 11 k = decide (k ≠ .exec) := by cases k <;> rfl

theorem covers_one : covers 1 k = decide (k = .read) := by cases k <;> rfl

/-- Rights cut down cover what both parts cover. -/
theorem covers_and (g h : BitVec 4) : covers (g &&& h) k = (covers g k && covers h k) := by
  rw [Bool.eq_iff_iff, Bool.and_eq_true]
  simp only [covers, beq_iff_eq, BitVec.eq_of_getElem_eq_iff, BitVec.getElem_and]
  grind

end Rights

/-! ### What an entry grants (R344, R346, Table 09-5) -/

section Grant

variable {e : RubEnt} {q : Asker}

theorem RubEnt.grant_of_not_mask (h : e.mask.getLsbD q.bit = false) : e.grant q = 0 := by
  simp [RubEnt.grant, h]

theorem RubEnt.grant_heap_host (hk : e.kind = 0) (hh : hostLane q.lane = true) : e.grant q = 0 := by
  simp [RubEnt.grant, hk, hh]

theorem RubEnt.grant_heap (hm : e.mask.getLsbD q.bit = true) (hk : e.kind = 0) (hh : hostLane q.lane = false) :
    e.grant q = e.rights := by
  simp [RubEnt.grant, hm, hk, hh]

theorem RubEnt.grant_shared (hm : e.mask.getLsbD q.bit = true) (hk : e.kind = 1) : e.grant q = e.rights := by
  simp [RubEnt.grant, hm, hk]

theorem RubEnt.grant_system_ward (hk : e.kind = 3) (hw : q.bit < 8) : e.grant q = 0 := by
  simp [RubEnt.grant, hk, hw]

theorem RubEnt.grant_device_ward (hk : e.kind = 4) (hw : q.bit < 8) (hh : hostLane q.lane = false) : e.grant q = 0 := by
  simp [RubEnt.grant, hk, hw, hh]

variable (e q)

/-- An entry grants nothing, its RIGHTS, or the R and X of its RIGHTS. -/
theorem RubEnt.grant_cases : e.grant q = 0 ∨ e.grant q = e.rights ∨ e.grant q = e.rights &&& 5 := by
  unfold RubEnt.grant
  repeat' split
  all_goals simp

variable {e q} {k : Acc}

/-- No entry grants an access that its RIGHTS do not cover. -/
theorem RubEnt.covers_grant_of_not_covers (h : covers e.rights k = false) : covers (e.grant q) k = false := by
  rcases e.grant_cases q with hg | hg | hg
  · rw [hg, covers_zero]
  · rw [hg, h]
  · rw [hg, covers_and, h, Bool.false_and]

/-- An entry over the palimpsest region grants no store but lane 22's. -/
theorem RubEnt.covers_grant_palimpsest (hk : e.kind = 2) (hl : q.lane ≠ 22) (hw : k = .write ∨ k = .writeT) :
    covers (e.grant q) k = false := by
  by_cases hm : e.mask.getLsbD q.bit = true
  · have hg : e.grant q = e.rights &&& 5 := by simp [RubEnt.grant, hm, hk, hl]
    have hfive : covers 5 k = false := by rcases hw with rfl | rfl <;> rfl
    rw [hg, covers_and, hfive, Bool.and_false]
  · rw [RubEnt.grant_of_not_mask (eq_false_of_ne_true hm), covers_zero]

end Grant

/-! ### What the default map grants (R347, Table 09-8a) -/

section Map

variable {s : State} {q : Asker} {k : Acc} {a : Nat}

theorem inHeap_false_of_inPal (h : inPal a = true) : inHeap a = false := by
  simp only [inPal, inHeap, Bool.and_eq_true, decide_eq_true_eq, decide_eq_false_iff_not] at *
  omega

theorem inPal_false_of_inSys (h : inSys a = true) : inPal a = false := by
  simp only [inSys, inPal, Bool.and_eq_true, Bool.and_eq_false_iff, decide_eq_true_eq, decide_eq_false_iff_not] at *
  omega

theorem inHeap_false_of_inSys (h : inSys a = true) : inHeap a = false := by
  have hregions : heapEnd < palEnd := by decide
  simp only [inSys, inHeap, Bool.and_eq_true, decide_eq_true_eq, decide_eq_false_iff_not] at *
  omega

/-- D1: a ward has every right over the sheets it owns, and none over another's. -/
theorem State.mapGrant_heap_ward (hw : q.bit < 8) (hh : inHeap a = true) :
    s.mapGrant q a = if mget (fun _ => 15) s.sheetOwner (sheetOf a) = q.bit then 15 else 0 := by
  have hexe : q.bit ≠ mExe := Nat.ne_of_lt hw
  simp [State.mapGrant, hh, hw, hexe]

/-- D2: the executive reads the palimpsest region, and lane 22 stores to it too. -/
theorem State.mapGrant_pal (hq : q.bit = mExe) (hp : inPal a = true) : s.mapGrant q a = if q.lane = 22 then 11 else 1 := by
  simp [State.mapGrant, inHeap_false_of_inPal hp, hp, hq]

/-- D3: the executive has every right over the system region. -/
theorem State.mapGrant_sys (hq : q.bit = mExe) (hs : inSys a = true) : s.mapGrant q a = 15 := by
  simp [State.mapGrant, inHeap_false_of_inSys hs, inPal_false_of_inSys hs, hs, hq]

/-- Outside the heap region the map grants a ward nothing. -/
theorem State.mapGrant_ward (hw : q.bit < 8) (hl : q.lane ≠ 22) (hh : inHeap a = false) : s.mapGrant q a = 0 := by
  have hexe : q.bit ≠ mExe := Nat.ne_of_lt hw
  simp [State.mapGrant, hh, hl, hexe]

/-- The map's bounds, and those of sheets, are bounds of pages. -/
theorem State.mapGrant_page : s.mapGrant q (a / 65536 * 65536) = s.mapGrant q a := by
  have hheap : inHeap (a / 65536 * 65536) = inHeap a := by
    rw [inHeap, inHeap, decide_eq_decide, heapEnd]
    omega
  have hpal : inPal (a / 65536 * 65536) = inPal a := by
    rw [inPal, inPal, ← Bool.decide_and, ← Bool.decide_and, decide_eq_decide, heapEnd, palEnd]
    omega
  have hsys : inSys (a / 65536 * 65536) = inSys a := by
    rw [inSys, inSys, ← Bool.decide_and, ← Bool.decide_and, decide_eq_decide, palEnd, sysEnd]
    omega
  have hsheet : sheetOf (a / 65536 * 65536) = sheetOf a := by
    simp only [sheetOf]
    omega
  have hdev : a / 65536 * 65536 < 2 ^ 40 ↔ a < 2 ^ 40 := by omega
  simp only [State.mapGrant, hheap, hpal, hsys, hsheet, hdev]

end Map

/-! ### The entry that a block matches (R346, R350) -/

section Table

variable {s : State} {a p : Nat}

theorem RubEnt.contains_iff {e : RubEnt} : e.contains a = true ↔ e.valid = true ∧ e.first ≤ a ∧ a < e.past := by
  simp [RubEnt.contains, and_assoc]

theorem RubEnt.meets_comm (e f : RubEnt) : e.meets f = f.meets e := Bool.and_comm ..

theorem RubEnt.meets_of_contains {e f : RubEnt} (he : e.contains a = true) (hf : f.contains a = true) : e.meets f = true := by
  obtain ⟨-, he, hea⟩ := contains_iff.mp he
  obtain ⟨-, hf, hfa⟩ := contains_iff.mp hf
  simp only [RubEnt.meets, Bool.and_eq_true, decide_eq_true_eq]
  omega

/-- The check of R350 finds no overlap just when no two entries share a line. -/
theorem firstOverlap_eq_none_iff (t : Map RubEnt) :
    firstOverlap t = none ↔ t.Pairwise fun e f => e.2.meets f.2 = false := by
  induction t with
  | nil => simp [firstOverlap]
  | cons e es ih =>
    rw [firstOverlap, List.pairwise_cons, ← ih]
    split
    next f hf =>
      have hmeets : e.2.meets f.2 = true := List.find?_some (p := fun f : Nat × RubEnt => e.2.meets f.2) hf
      have hmem : f ∈ es := List.mem_of_find?_eq_some hf
      simp only [reduceCtorEq, false_iff, not_and]
      exact fun h => absurd (h f hmem) (by simp [hmeets])
    next hnone =>
      have hall : ∀ f ∈ es, e.2.meets f.2 = false := by simpa using hnone
      exact (and_iff_right hall).symm

theorem State.rubEntry_eq_none_iff : s.rubEntry a = none ↔ ∀ e ∈ s.rubActive, e.2.contains a = false := by
  simp [State.rubEntry]

theorem State.rubEntry_some {e : RubEnt} (h : s.rubEntry a = some e) : e.contains a = true ∧ ∃ i, (i, e) ∈ s.rubActive := by
  obtain ⟨⟨i, f⟩, hfind, rfl⟩ := Option.map_eq_some_iff.mp h
  exact ⟨List.find?_some (p := fun e : Nat × RubEnt => e.2.contains a) hfind, i, List.mem_of_find?_eq_some hfind⟩

/-- Of disjoint VALID entries at most one contains a block. -/
theorem State.contains_unique (hd : firstOverlap (s.rubActive.filter fun e => e.2.valid) = none) {e f : Nat × RubEnt}
    (he : e ∈ s.rubActive) (hf : f ∈ s.rubActive) (hea : e.2.contains a = true) (hfa : f.2.contains a = true) : e = f := by
  have hvalid {e : Nat × RubEnt} (he : e ∈ s.rubActive) (hea : e.2.contains a = true) :
      e ∈ s.rubActive.filter fun e => e.2.valid := List.mem_filter.mpr ⟨he, (RubEnt.contains_iff.mp hea).1⟩
  have hapart := (firstOverlap_eq_none_iff _).mp hd
  have hsame {e f : Nat × RubEnt} (hm : e.2.meets f.2 = false) (hea : e.2.contains a = true) (hfa : f.2.contains a = true) :
      e = f := absurd (RubEnt.meets_of_contains hea hfa) (ne_true_of_eq_false hm)
  exact List.Pairwise.forall_of_forall_of_flip (R := fun e f => e.2.contains a = true → f.2.contains a = true → e = f)
    (fun _ _ _ _ => rfl) (hapart.imp hsame) (hapart.imp fun hm hfa hea => (hsame hm hea hfa).symm)
    (hvalid he hea) (hvalid hf hfa) hea hfa

/-- A block matches the entry that contains it, in a table of disjoint entries. -/
theorem State.rubEntry_of_contains (hd : firstOverlap (s.rubActive.filter fun e => e.2.valid) = none) {e : Nat × RubEnt}
    (he : e ∈ s.rubActive) (hea : e.2.contains a = true) : s.rubEntry a = some e.2 := by
  cases hf : s.rubEntry a with
  | none => exact absurd (State.rubEntry_eq_none_iff.mp hf e he) (by simp [hea])
  | some f =>
    obtain ⟨hfa, i, hmem⟩ := State.rubEntry_some hf
    rw [State.contains_unique hd he hmem hea hfa]

/-- No block of a page that no VALID entry touches matches an entry. -/
theorem State.rubEntry_of_not_rubTouches (h : s.rubTouches p = false) (ha : a / 65536 = p) : s.rubEntry a = none := by
  refine State.rubEntry_eq_none_iff.mpr fun e he => eq_false_of_ne_true fun hea => ?_
  obtain ⟨hvalid, hfirst, hpast⟩ := RubEnt.contains_iff.mp hea
  have hapart := List.any_eq_false.mp h e he
  simp only [hvalid, Bool.true_and, Bool.and_eq_true, decide_eq_true_eq] at hapart
  omega

end Table

/-! ### The decision for a block (R346 to R348) -/

section Decision

variable {s : State} {q : Asker} {k : Acc} {a : Nat} {e : RubEnt}

/-- R348: lanes 21 and 22 do not meet the table over the palimpsest and system regions. -/
theorem State.grantAt_own (ho : (q.lane = 21 ∨ q.lane = 22) ∧ (inPal a || inSys a)) : s.grantAt q a = s.mapGrant q a := if_pos ho

/-- The other lanes meet the table everywhere. -/
theorem not_own_of_lane (hl : q.lane ≠ 21 ∧ q.lane ≠ 22) : ¬ ((q.lane = 21 ∨ q.lane = 22) ∧ (inPal a || inSys a)) :=
  fun ho => ho.1.elim hl.1 hl.2

section Other

variable (ho : ¬ ((q.lane = 21 ∨ q.lane = 22) ∧ (inPal a || inSys a)))

include ho

theorem State.grantAt_entry (he : s.rubEntry a = some e) : s.grantAt q a = e.grant q := by
  simp only [State.grantAt, if_neg ho, he]

theorem State.grantAt_none (he : s.rubEntry a = none) : s.grantAt q a = if q.fall then s.mapGrant q a else 0 := by
  simp only [State.grantAt, if_neg ho, he]

theorem State.rubAllows_entry (he : s.rubEntry a = some e) : s.rubAllows q k a = covers (e.grant q) k := by
  rw [State.rubAllows, State.grantAt_entry ho he]

/-- An entry that grants nothing denies. -/
theorem State.rubAllows_entry_zero (he : s.rubEntry a = some e) (hg : e.grant q = 0) : s.rubAllows q k a = false := by
  rw [State.rubAllows_entry ho he, hg, covers_zero]

end Other

end Decision

/-! ### A page's verdict (R335) -/

section Verdict

variable {s : State} {q : Asker} {p : Nat} {r : BitVec 4}

/-- A page has rights for its verdict when the entry that contains its first block reaches past the page, or when no entry touches
it and the requester falls back on the map. -/
theorem State.verdict_rights (h : s.verdict q p = .rights r) :
    (∃ e, s.rubEntry (p * 65536) = some e ∧ p * 65536 + 65536 ≤ e.past ∧ e.grant q = r)
    ∨ s.rubTouches p = false ∧ q.fall = true ∧ s.mapGrant q (p * 65536) = r := by
  unfold State.verdict at h
  dsimp only at h
  split at h
  · cases h
  split at h
  next e he =>
    split at h
    · cases h
    · cases h
      exact .inl ⟨e, he, by omega, rfl⟩
  next =>
    split at h
    · cases h
    split at h
    next ht hf =>
      cases h
      exact .inr ⟨eq_false_of_ne_true ht, hf, rfl⟩
    next => cases h

/-- In a table of disjoint entries the verdict of a page holds of each of its blocks, but for lanes 21 and 22. -/
theorem State.grantAt_of_verdict (hl : q.lane ≠ 21 ∧ q.lane ≠ 22)
    (hd : firstOverlap (s.rubActive.filter fun e => e.2.valid) = none) (h : s.verdict q p = .rights r) {a : Nat}
    (ha : a / 65536 = p) : s.grantAt q a = r := by
  have ho : ¬ ((q.lane = 21 ∨ q.lane = 22) ∧ (inPal a || inSys a)) := not_own_of_lane hl
  rcases State.verdict_rights h with ⟨e, he, hpast, hr⟩ | ⟨htouch, hfall, hr⟩
  · obtain ⟨hstart, i, hmem⟩ := State.rubEntry_some he
    obtain ⟨hvalid, hfirst, -⟩ := RubEnt.contains_iff.mp hstart
    have hea : e.contains a = true := RubEnt.contains_iff.mpr ⟨hvalid, by omega, by omega⟩
    rw [State.grantAt_entry ho (State.rubEntry_of_contains hd hmem hea), hr]
  · rw [State.grantAt_none ho (State.rubEntry_of_not_rubTouches htouch ha), if_pos hfall, ← hr, ← ha, State.mapGrant_page]

end Verdict

/-- Settles O57: an entry by what its KIND grants, the map by region, a page by the one entry that contains it or by the map. -/
theorem rubricDecidesByEntryThenMap : Obligations.RubricDecidesByEntryThenMap := by
  refine ⟨fun s q k a e he ho => ?entry, fun s q k a he => ?map, fun s q k a hl hq => ?ownRegions,
    fun s q p r hl hd h a ha => State.grantAt_of_verdict (by omega) hd h ha⟩
  case entry =>
    have hallows : s.rubAllows q k a = covers (e.grant q) k := State.rubAllows_entry ho he
    have hdeny (hg : e.grant q = 0) : s.rubAllows q k a = false := State.rubAllows_entry_zero ho he hg
    refine ⟨fun hm => hdeny (RubEnt.grant_of_not_mask hm), fun hc => hallows.trans (RubEnt.covers_grant_of_not_covers hc),
      fun hk hh => hdeny (RubEnt.grant_heap_host hk hh), fun hk hw => hdeny (RubEnt.grant_system_ward hk hw),
      fun hk hw hh => hdeny (RubEnt.grant_device_ward hk hw hh),
      fun hk hn hw => hallows.trans (RubEnt.covers_grant_palimpsest hk hn hw),
      fun hm hk hh => by rw [hallows, RubEnt.grant_heap hm hk hh],
      fun hm hk => by rw [hallows, RubEnt.grant_shared hm hk], fun o v => ?sheetsAndStagedTable⟩
    exact (State.rubAllows_entry (s := { s with sheetOwner := o, staged := v }) ho he).trans hallows.symm
  case map =>
    have hmap (hfall : q.fall = true) (hl : q.lane ≠ 21 ∧ q.lane ≠ 22) : s.rubAllows q k a = covers (s.mapGrant q a) k := by
      rw [State.rubAllows, State.grantAt_none (not_own_of_lane hl) he, if_pos hfall]
    refine ⟨fun hfall hout => ?denied, fun hfall hw h21 h22 hh => ?heap, fun hfall hw h21 h22 hh => ?outside⟩
    case denied =>
      have ho : ¬ ((q.lane = 21 ∨ q.lane = 22) ∧ (inPal a || inSys a)) :=
        hout.elim (fun hregion ho => ne_true_of_eq_false hregion ho.2) not_own_of_lane
      rw [State.rubAllows, State.grantAt_none ho he, hfall, if_neg Bool.false_ne_true, covers_zero]
    case heap =>
      rw [hmap hfall ⟨h21, h22⟩, State.mapGrant_heap_ward hw hh]
      split
      next howned => exact iff_of_true (covers_fifteen k) howned
      next howned => exact iff_of_false (by rw [covers_zero]; exact Bool.false_ne_true) howned
    case outside =>
      rw [hmap hfall ⟨h21, h22⟩, State.mapGrant_ward hw h22 hh, covers_zero]
  case ownRegions =>
    refine ⟨fun hp => ?palimpsest, fun hs => ?system⟩
    case palimpsest =>
      rw [State.rubAllows, State.grantAt_own ⟨hl, by simp [hp]⟩, State.mapGrant_pal hq hp, ← covers_eleven, ← covers_one]
      split <;> rfl
    case system => rw [State.rubAllows, State.grantAt_own ⟨hl, by simp [hs]⟩, State.mapGrant_sys hq hs, covers_fifteen]

end Sys2Proof.Machine
end
